-- ==== Sys2Proof/Word.lean ====
section
/-! DEFINITION. The byte and the 32-bit register word (rules R11, R12). -/

namespace Sys2Proof

/-- A byte of memory or of a stream: 8 bits, unsigned (R11). -/
abbrev Byte := BitVec 8

/-- A host-visible register or a command word: 32 bits, unsigned (R12). -/
abbrev Word := BitVec 32

end Sys2Proof
end

