-- ==== Sys2Proof/Config.lean ====
section
/-! DEFINITION. The implementation parameters of rule R9 and the free values (rule R17 `draw`).
A parameter with a value is a definition. The OPEN parameters `REG_BASE` and `mem_ok` are the plain data `Platform`,
which State carries and no step writes, so a claim about every state is a claim about every platform. The OPEN parameter
`deflate_choice` and every draw are opaque constants: nothing in Lean can prove a value of them. -/

namespace Sys2Proof

/-- The two kinds of a core memory access (`kind` of `mem_ok`, R9). -/
inductive Access where
  | read
  | write
  deriving DecidableEq, Repr

/-- A range of system memory where the core's accesses of one kind do not complete (`mem_ok` is false there). -/
structure Hole where
  kind : Access
  base : Nat
  len  : Nat
  deriving DecidableEq, Repr

/-- The platform's parameters (R9, R56): where the register window sits, and `mem_ok` as the list of the ranges where it is
false. Every predicate on the 2^32 addresses and the two kinds is given by some such list. -/
structure Platform where
  /-- REG_BASE. DESIGN CHOICE: any 32-bit address, aligned or not (log entry 13). -/
  regBase : Word
  holes   : List Hole
  deriving DecidableEq, Repr

namespace Config

/-- The number of bytes of system memory, 2^ADDR_W with ADDR_W = 32 (R9, R80). -/
abbrev addrSpace : Nat := 4294967296

/-- WINDOW_SIZE: the furthest back-reference distance (R9). -/
abbrev windowSize : Nat := 32768

/-- STORED_MAX: the most bytes of one stored block (R9). -/
abbrev storedMax : Nat := 65535

/-- CRC_POLY_REFLECTED (R9). -/
abbrev crcPoly : Word := 0xEDB88320#32

/-- CRC_INIT (R9). -/
abbrev crcInit : Word := 0xFFFFFFFF#32

/-- CRC_XOROUT (R9). -/
abbrev crcXorOut : Word := 0xFFFFFFFF#32

/-- FRAMER_MAX_LEN: the largest chunk length accepted (R9). -/
abbrev framerMaxLen : Nat := 0x7FFFFFFF

/-- The value of the ID register (R32). -/
abbrev idValue : Word := 0x504E4707#32

/-- The error classes that belong to host software and that the core never raises (R441). -/
abbrev hostErrorClasses : List Nat := [0x03, 0x04, 0x05]

/-- `deflate_choice` (R306), OPEN: which stream the deflate unit proposes for the data, level and Z.
The model takes it only where it is admissible (`Sys2Proof.Machine.deflateStream`); log entry 6. -/
opaque deflateChoice : List Byte → Nat → Bool → List Byte

/-- A draw of the byte at an address, for the n-th event that draws (R87, R450, R482; log entry 7). -/
opaque freeByte : Nat → Nat → Byte

/-- A draw of a word: the i-th word drawn at the n-th event (R48, 93 U6; log entry 7). -/
opaque freeWord : Nat → Nat → Word

/-- A draw of a number (R52, 93 U7; log entry 7). -/
opaque freeNat : Nat → Nat → Nat

/-- A draw of a row or window of bytes (R51, R54, 93 U7; log entry 7). -/
opaque freeBytes : Nat → Nat → List Byte

/-- A draw of a table of numbers (R52, R53, 93 U7; log entry 7). -/
opaque freeNats : Nat → Nat → List Nat

/-- What a 32-bit register shows of a count that does not fit in it: the spec states no value (log entry 8). -/
opaque overlongWord : Nat → Word

end Config

end Sys2Proof
end

