-- ==== Sys2Proof/Machine/Bytes.lean ====
section
/-! DEFINITION. Byte-order helpers of rule R13: big-endian for the PNG container and the zlib trailer (R81, R82),
little-endian for descriptors and stored-block lengths (R82, R83). -/

namespace Sys2Proof.Machine

/-- The byte at index `i` of a sequence, as a number. -/
def byteAt (s : List Byte) (i : Nat) : Nat := (s.getD i 0).toNat

/-- The low byte of a number. -/
def lowByte (v : Nat) : Byte := BitVec.ofNat 8 v

/-- A 4-byte big-endian number. -/
def be32 (s : List Byte) : Nat := byteAt s 0 * 16777216 + byteAt s 1 * 65536 + byteAt s 2 * 256 + byteAt s 3

/-- A 4-byte little-endian number. -/
def le32 (s : List Byte) : Nat := byteAt s 3 * 16777216 + byteAt s 2 * 65536 + byteAt s 1 * 256 + byteAt s 0

/-- A 2-byte big-endian number. -/
def be16 (s : List Byte) : Nat := byteAt s 0 * 256 + byteAt s 1

/-- A 2-byte little-endian number. -/
def le16 (s : List Byte) : Nat := byteAt s 1 * 256 + byteAt s 0

/-- The inverse of `be32` on 32-bit numbers. -/
def be32bytes (v : Nat) : List Byte := [lowByte (v / 16777216), lowByte (v / 65536), lowByte (v / 256), lowByte v]

/-- The inverse of `le32` on 32-bit numbers. -/
def le32bytes (v : Nat) : List Byte := [lowByte v, lowByte (v / 256), lowByte (v / 65536), lowByte (v / 16777216)]

/-- The inverse of `be16` on 16-bit numbers. -/
def be16bytes (v : Nat) : List Byte := [lowByte (v / 256), lowByte v]

/-- The inverse of `le16` on 16-bit numbers. -/
def le16bytes (v : Nat) : List Byte := [lowByte v, lowByte (v / 256)]

end Sys2Proof.Machine
end

