-- ==== Sys2Proof/Syntax.lean ====
section
/-! DEFINITION. The commands of the core, one constructor per row of spec/opcode_table.json (rule R122). The operands of a
command are registers (rule R127), so only the level of DEFLATE is part of the word. -/

namespace Sys2Proof

/-- The 17 commands. `level` is the MOD field of DEFLATE (R123). -/
inductive Instr where
  | nop
  | crcCompute
  | crcVerify
  | inflate
  | inflateZ
  | deflate (level : BitVec 4)
  | deflateZ (level : BitVec 4)
  | frmParse
  | frmIdatcat
  | frmSerialize
  | fltReverse
  | fltApplyNone
  | fltApplySub
  | fltApplyUp
  | fltApplyAvg
  | fltApplyPaeth
  | fltApplyAuto
  deriving DecidableEq, Repr

end Sys2Proof
end

