-- ==== Sys2Proof/WellFormed.lean ====
section
/-! DEFINITION. Which terms of Instr are commands of the hardware (rule R123): a DEFLATE level is 0..9. -/

namespace Sys2Proof

/-- The level of a DEFLATE command is 0..9 (R123). -/
def levelOk (level : BitVec 4) : Bool := decide (level.toNat ≤ 9)

/-- The command exists (R123). -/
def Instr.wellFormed : Instr → Bool
  | .nop => true
  | .crcCompute => true
  | .crcVerify => true
  | .inflate => true
  | .inflateZ => true
  | .deflate level => levelOk level
  | .deflateZ level => levelOk level
  | .frmParse => true
  | .frmIdatcat => true
  | .frmSerialize => true
  | .fltReverse => true
  | .fltApplyNone => true
  | .fltApplySub => true
  | .fltApplyUp => true
  | .fltApplyAvg => true
  | .fltApplyPaeth => true
  | .fltApplyAuto => true

end Sys2Proof
end

