-- ==== Sys2Proof/Decode.lean ====
section
/-! DEFINITION. The command word (rules R120 to R123), its decoding in the check order of rule R126, and its encoding. -/

namespace Sys2Proof

/-- Why a command word is no command (R126, R442 class 0x10). -/
inductive Illegal where
  /-- OP is unassigned. -/
  | opcode
  /-- cmd[31:13] is not 0. -/
  | reservedBits
  /-- MOD is not legal for OP. -/
  | mod
  /-- Z = 1 on an opcode other than INFLATE and DEFLATE. -/
  | zbit
  deriving DecidableEq, Repr

/-- OP, bits 7:0 (R121). -/
def fieldOp (w : Word) : BitVec 8 := w.extractLsb' 0 8

/-- MOD, bits 11:8 (R121). -/
def fieldMod (w : Word) : BitVec 4 := w.extractLsb' 8 4

/-- Z, bit 12 (R121). -/
def fieldZ (w : Word) : Bool := w.getLsbD 12

/-- RSV, bits 31:13 (R121). -/
def fieldRsv (w : Word) : BitVec 19 := w.extractLsb' 13 19

/-- The units' opcodes, one per row of the opcode map (R122). -/
inductive Opcode where
  | nop
  | crcCompute
  | crcVerify
  | inflate
  | deflate
  | frmParse
  | frmIdatcat
  | frmSerialize
  | fltReverse
  | fltApply
  deriving DecidableEq, Repr

/-- The opcode map (R122); every other OP value is unassigned. -/
def opcodeOf (op : BitVec 8) : Option Opcode :=
  match op.toNat with
  | 0x00 => some .nop
  | 0x01 => some .crcCompute
  | 0x02 => some .crcVerify
  | 0x10 => some .inflate
  | 0x11 => some .deflate
  | 0x20 => some .frmParse
  | 0x21 => some .frmIdatcat
  | 0x22 => some .frmSerialize
  | 0x30 => some .fltReverse
  | 0x31 => some .fltApply
  | _ => none

/-- Z = 1 is legal on INFLATE and DEFLATE only (R123). -/
def Opcode.takesZ : Opcode → Bool
  | .inflate => true
  | .deflate => true
  | _ => false

/-- The command that OP, MOD and Z select, where MOD is legal for OP (R122, R123). -/
def select (op : Opcode) (mod : BitVec 4) (z : Bool) : Option Instr :=
  match op with
  | .nop => if mod.toNat = 0 then some .nop else none
  | .crcCompute => if mod.toNat = 0 then some .crcCompute else none
  | .crcVerify => if mod.toNat = 0 then some .crcVerify else none
  | .inflate => if mod.toNat = 0 then some (if z then .inflateZ else .inflate) else none
  | .deflate => if levelOk mod then some (if z then .deflateZ mod else .deflate mod) else none
  | .frmParse => if mod.toNat = 0 then some .frmParse else none
  | .frmIdatcat => if mod.toNat = 0 then some .frmIdatcat else none
  | .frmSerialize => if mod.toNat = 0 then some .frmSerialize else none
  | .fltReverse => if mod.toNat = 0 then some .fltReverse else none
  | .fltApply =>
    match mod.toNat with
    | 0 => some .fltApplyNone
    | 1 => some .fltApplySub
    | 2 => some .fltApplyUp
    | 3 => some .fltApplyAvg
    | 4 => some .fltApplyPaeth
    | 15 => some .fltApplyAuto
    | _ => none

/-- Decode a command word; the first check that fails, in the order of R126, names the error. -/
def decode (w : Word) : Except Illegal Instr :=
  if fieldRsv w ≠ 0 then .error .reservedBits
  else
    match opcodeOf (fieldOp w) with
    | none => .error .opcode
    | some op =>
      if fieldZ w && !op.takesZ then .error .zbit
      else
        match select op (fieldMod w) (fieldZ w) with
        | none => .error .mod
        | some i => .ok i

/-- A command word from its fields, RSV = 0 (R121). -/
def packFields (op : BitVec 8) (mod : BitVec 4) (z : Bool) : Word :=
  (0#19 ++ (BitVec.ofBool z ++ (mod ++ op))).cast (by decide)

/-- The command word of a command (R122, R123, opcode_table.json). -/
def encode : Instr → Word
  | .nop => packFields 0x00 0 false
  | .crcCompute => packFields 0x01 0 false
  | .crcVerify => packFields 0x02 0 false
  | .inflate => packFields 0x10 0 false
  | .inflateZ => packFields 0x10 0 true
  | .deflate level => packFields 0x11 level false
  | .deflateZ level => packFields 0x11 level true
  | .frmParse => packFields 0x20 0 false
  | .frmIdatcat => packFields 0x21 0 false
  | .frmSerialize => packFields 0x22 0 false
  | .fltReverse => packFields 0x30 0 false
  | .fltApplyNone => packFields 0x31 0 false
  | .fltApplySub => packFields 0x31 1 false
  | .fltApplyUp => packFields 0x31 2 false
  | .fltApplyAvg => packFields 0x31 3 false
  | .fltApplyPaeth => packFields 0x31 4 false
  | .fltApplyAuto => packFields 0x31 15 false

/-- The command word whose bits are the low `nbits` bits of `w`, every bit above them 0. A command is exactly one word
(R120), so nbits is 32 for every row of the opcode table. -/
def tableWord (nbits w : Nat) : Word := BitVec.ofNat 32 (w % 2 ^ nbits)

/-- The instruction the decoder reads from a word numbered as the opcode table numbers it. -/
def decodeTableWord (nbits w : Nat) : Option Instr :=
  match decode (tableWord nbits w) with
  | .ok i => some i
  | .error _ => none

end Sys2Proof
end

