-- ==== Sys2Proof/Machine/State.lean ====
section
/-! DEFINITION. The state of the core and of what stands around it (rules R30 to R56), the reasons a step can stop, and the
state after reset (rule R480). Plain data throughout. -/

namespace Sys2Proof.Machine

/-- System memory (R80): the bytes that differ from what an unlisted address reads as, at strictly rising addresses. -/
abbrev Memory := List Host.Cell

/-- The eight argument registers (R36 to R39). -/
structure Args where
  srcAddr : Word
  srcLen  : Word
  dstAddr : Word
  dstCap  : Word
  auxAddr : Word
  arg0    : Word
  arg1    : Word
  arg2    : Word
  deriving DecidableEq, Repr

/-- The command latches (R48): the command word and the eight arguments as they were at the start. -/
structure Latch where
  cmd  : Word
  args : Args
  deriving DecidableEq, Repr

/-- The six result registers (R40 to R46). -/
structure Results where
  result   : Word
  outLen   : Word
  inUsed   : Word
  flagsOut : Word
  errCode  : Word
  errInfo  : Word
  deriving DecidableEq, Repr

/-- The four bits of STATUS (R34); bits 31:4 read as zero and are not stored. -/
structure Status where
  busy : Bool
  done : Bool
  err  : Bool
  ovr  : Bool
  deriving DecidableEq, Repr

/-- The internal state of the units (R51 to R54). A command start empties it; the execute step is atomic and computes with
values of its own, so between commands it holds any value (93 U7) and no rule reads it. -/
structure Engine where
  /-- The sliding window, newest byte first (R51). -/
  window     : List Byte
  /-- The input bit cursor of INFLATE (R52). -/
  bitpos     : Nat
  /-- The code lengths of the current literal/length code (R52). -/
  litLens    : List Nat
  /-- The code lengths of the current distance code (R52). -/
  distLens   : List Nat
  /-- The current block's header: BFINAL + 2 * BTYPE (R52). -/
  block      : Nat
  /-- The match finder's tables, content not given (R53). -/
  matcher    : List Nat
  /-- The Huffman trees the encoder is building, content not given (R53). -/
  encTrees   : List Nat
  /-- The previous unfiltered row (R54). -/
  prevRow    : List Byte
  /-- The row being produced (R54). -/
  curRow     : List Byte
  deriving DecidableEq, Repr

/-- What happens next at the core's boundary: one access or input of the host or the platform, or the core's execute step.
A register access is any address on the host's bus; no narrower access exists (R90). -/
inductive Event where
  /-- A 32-bit host write to a register address (R421, R422, R424, R124, R125). -/
  | regWrite (addr value : Word)
  /-- A 32-bit host read of a register address (R423). -/
  | regRead (addr : Word)
  /-- The host stores a byte in system memory (R91, R92). -/
  | memStore (addr : Word) (byte : Byte)
  /-- The host loads a byte of system memory (R91, R92). -/
  | memLoad (addr : Word)
  /-- The host samples the IRQ line and, where it is high, accepts the interrupt (R92, R455). -/
  | takeIrq
  /-- The platform's reset input, with the memory contents the platform gives (R481). -/
  | hardReset (image : List Host.Cell)
  /-- The core's execute step falls here (R124, R495). -/
  | coreStep
  /-- The host's loop that reads STATUS until BUSY = 0 (R143 `wait`, R427). -/
  | wait
  deriving DecidableEq, Repr

/-- The whole machine. -/
structure State where
  /-- CTRL.IE (R33). -/
  ie       : Bool
  /-- STATUS (R34). -/
  status   : Status
  /-- CMD (R35). -/
  cmd      : Word
  /-- SRC_ADDR to ARG2 (R36 to R39). -/
  args     : Args
  /-- RESULT to ERR_INFO (R40 to R46). -/
  results  : Results
  /-- The command latches (R48). -/
  latch    : Latch
  /-- The units' internal state (R51 to R54). -/
  engine   : Engine
  /-- System memory (R80). -/
  mem      : Memory
  /-- The OPEN parameters REG_BASE and mem_ok (R9, R56); no step changes them. -/
  platform : Platform
  /-- The model's own: what the host does next, and where the execute step falls (log entry 4). -/
  events   : List Event
  /-- The model's own: the word the last host read returned (log entry 4). -/
  rdata    : Word
  /-- The model's own: the latches of the commands whose completion the host has not seen (R91; log entry 5). -/
  unseen   : List Latch
  /-- The model's own: how many events have drawn free values (R17; log entry 7). -/
  draws    : Nat
  deriving DecidableEq, Repr

/-- The core has no trap, no stuck state and no fault: every error is a completion of its command (R440, R450). So there is
no reason of this kind, and no step answers a fault. -/
inductive Fault where
  deriving DecidableEq, Repr

/-- Why the model refuses a step. Each is safe: the model stops where a real host could go on. -/
inductive Refusal where
  /-- Raised by exec for a command without a meaning; no arm of this model raises it. Safe. -/
  | notModelled (mnemonic : String)
  /-- Raised by a host event: a register access whose offset from REG_BASE is not a multiple of 4 (R90, 93 U14: refuse).
  DESIGN CHOICE: the offset is tested and not the address (log entry 13). Safe where REG_BASE is a multiple of 4. -/
  | misalignedRegisterAccess (addr : Word)
  /-- Raised by a host event: a register access outside the 256-byte window at REG_BASE, which is not this device
  (R31, R80, R90; the window wraps at 2^32, log entry 13). Safe. -/
  | outsideRegisterWindow (addr : Word)
  /-- Raised by a host event: a host access to a byte that the host duties forbid before it has seen the command's
  completion (R91, 93 U15: refuse). Safe. -/
  | hostDuty (addr : Word)
  deriving DecidableEq, Repr

/-- All argument registers 0 (R36 to R39, R480). -/
def Args.zero : Args :=
  { srcAddr := 0, srcLen := 0, dstAddr := 0, dstCap := 0, auxAddr := 0, arg0 := 0, arg1 := 0, arg2 := 0 }

/-- All result registers 0 (R46). -/
def Results.zero : Results :=
  { result := 0, outLen := 0, inUsed := 0, flagsOut := 0, errCode := 0, errInfo := 0 }

/-- STATUS = 0 (R34). -/
def Status.zero : Status := { busy := false, done := false, err := false, ovr := false }

/-- The cleared latches (R482). DESIGN CHOICE, unsafe: R480 gives them no value after reset (log entry 2). -/
def Latch.zero : Latch := { cmd := 0, args := Args.zero }

/-- The empty internal state (R480, and R51 to R54 at every command start). -/
def Engine.empty : Engine :=
  { window := [], bitpos := 0, litLens := [], distLens := [], block := 0, matcher := [], encTrees := [],
    prevRow := [], curRow := [] }

/-- The platform of `State.reset`: REG_BASE = 0 and every access completes. DESIGN CHOICE, unsafe (log entry 3): both are
OPEN parameters of R9. -/
def Platform.plain : Platform := { regBase := 0, holes := [] }

/-- The machine right after reset (R480). -/
def State.reset : State :=
  { ie := false, status := Status.zero, cmd := 0, args := Args.zero, results := Results.zero, latch := Latch.zero,
    engine := Engine.empty, mem := [], platform := Platform.plain, events := [], rdata := 0, unseen := [], draws := 0 }

end Sys2Proof.Machine
end

