-- ==== Sys2Proof/Machine/Errors.lean ====
section
/-! DEFINITION. The error classes and subcodes (rules R441, R442) and the `raise` value (rule R14). -/

namespace Sys2Proof.Machine

/-- Subcodes of FormatError (R442). -/
inductive FormatSub where
  | signature
  | truncated
  | crc
  | length
  | noIdat
  deriving DecidableEq, Repr

/-- Subcodes of CorruptStreamError (R442). -/
inductive CorruptSub where
  | btype
  | storedLen
  | huffOversub
  | huffIncomplete
  | clRepeat
  | hlitHdist
  | symbol
  | distance
  | truncated
  | noEob
  | zlibHeader
  | adler
  | filterType
  | filterTrunc
  deriving DecidableEq, Repr

/-- Subcodes of InvalidDimensionsError (R442). -/
inductive DimensionSub where
  | rowsZero
  | rowBytesZero
  deriving DecidableEq, Repr

/-- Subcodes of ParamError (R442). -/
inductive ParamSub where
  | wrap
  | overlap
  | align
  | bpp
  | stride
  | sizeOverflow
  | srcShort
  | chunkLen
  | iendLen
  deriving DecidableEq, Repr

/-- The errors the core raises, by class (R441). The classes 0x03 to 0x05 belong to host software and have no constructor. -/
inductive ErrKind where
  | format (k : FormatSub)
  | corrupt (k : CorruptSub)
  | dimensions (k : DimensionSub)
  | illegal (k : Illegal)
  | param (k : ParamSub)
  | capacity
  | bus (k : Access)
  deriving DecidableEq, Repr

/-- The class code (R441). -/
def ErrKind.classCode : ErrKind → Nat
  | .format _ => 0x01
  | .corrupt _ => 0x02
  | .dimensions _ => 0x06
  | .illegal _ => 0x10
  | .param _ => 0x11
  | .capacity => 0x12
  | .bus _ => 0x13

/-- The subcode of a FormatError (R442). -/
def FormatSub.code : FormatSub → Nat
  | .signature => 0x01
  | .truncated => 0x02
  | .crc => 0x03
  | .length => 0x04
  | .noIdat => 0x05

/-- The subcode of a CorruptStreamError (R442). -/
def CorruptSub.code : CorruptSub → Nat
  | .btype => 0x01
  | .storedLen => 0x02
  | .huffOversub => 0x03
  | .huffIncomplete => 0x04
  | .clRepeat => 0x05
  | .hlitHdist => 0x06
  | .symbol => 0x07
  | .distance => 0x08
  | .truncated => 0x09
  | .noEob => 0x0A
  | .zlibHeader => 0x0B
  | .adler => 0x0C
  | .filterType => 0x10
  | .filterTrunc => 0x11

/-- The subcode of an InvalidDimensionsError (R442). -/
def DimensionSub.code : DimensionSub → Nat
  | .rowsZero => 0x01
  | .rowBytesZero => 0x02

/-- The subcode of an IllegalCommand (R442). -/
def illegalCode : Illegal → Nat
  | .opcode => 0x01
  | .reservedBits => 0x02
  | .mod => 0x03
  | .zbit => 0x04

/-- The subcode of a ParamError (R442). -/
def ParamSub.code : ParamSub → Nat
  | .wrap => 0x01
  | .overlap => 0x02
  | .align => 0x03
  | .bpp => 0x04
  | .stride => 0x05
  | .sizeOverflow => 0x06
  | .srcShort => 0x07
  | .chunkLen => 0x08
  | .iendLen => 0x09

/-- The subcode of a BusError (R442). -/
def busCode : Access → Nat
  | .read => 0x01
  | .write => 0x02

/-- The subcode (R442). -/
def ErrKind.subCode : ErrKind → Nat
  | .format k => k.code
  | .corrupt k => k.code
  | .dimensions k => k.code
  | .illegal k => illegalCode k
  | .param k => k.code
  | .capacity => 0x01
  | .bus k => busCode k

/-- The value of ERR_CODE: class + 256 * subcode (R442). -/
def ErrKind.code (e : ErrKind) : Word := BitVec.ofNat 32 (e.classCode + 256 * e.subCode)

/-- Every error of the table of R442, in its order. -/
def ErrKind.all : List ErrKind :=
  [.format .signature, .format .truncated, .format .crc, .format .length, .format .noIdat] ++
  [.corrupt .btype, .corrupt .storedLen, .corrupt .huffOversub, .corrupt .huffIncomplete, .corrupt .clRepeat,
    .corrupt .hlitHdist, .corrupt .symbol, .corrupt .distance, .corrupt .truncated, .corrupt .noEob,
    .corrupt .zlibHeader, .corrupt .adler, .corrupt .filterType, .corrupt .filterTrunc] ++
  [.dimensions .rowsZero, .dimensions .rowBytesZero] ++
  [.illegal .opcode, .illegal .reservedBits, .illegal .mod, .illegal .zbit] ++
  [.param .wrap, .param .overlap, .param .align, .param .bpp, .param .stride, .param .sizeOverflow, .param .srcShort,
    .param .chunkLen, .param .iendLen] ++
  [.capacity, .bus .read, .bus .write]

/-- A `raise` (R14): the error and the `info` argument. -/
structure Raise where
  err  : ErrKind
  info : Nat
  deriving DecidableEq, Repr

end Sys2Proof.Machine
end

