-- ==== Sys2Proof/Machine/Ops.lean ====
section
/-! DEFINITION. The shared operations: memory, the core's port to it (rule R13), the destination stream, free values, the
command start (rule R124), the two completions (rules R449, R450) and the two resets (rules R481, R482). -/

namespace Sys2Proof.Machine

/-! ## System memory -/

/-- What an unlisted address reads as. DESIGN CHOICE, unsafe (log entry 1): the core does not define memory contents (R481). -/
def unlistedByte : Byte := 0

/-- The byte at an address. -/
def Memory.read : Memory → Nat → Byte
  | [], _ => unlistedByte
  | (x, b) :: m, a => if x = a then b else Memory.read m a

/-- Put a byte at its place in the rising list, over the one that stands there. -/
def Memory.insert : Memory → Nat → Byte → Memory
  | [], a, b => [(a, b)]
  | (x, c) :: m, a, b =>
    if x < a then (x, c) :: Memory.insert m a b
    else if x = a then (a, b) :: m
    else (a, b) :: (x, c) :: m

/-- Take an address off the list. -/
def Memory.erase (m : Memory) (a : Nat) : Memory := m.filter fun c => decide (c.1 ≠ a)

/-- Write a byte. Writing what an unlisted address reads as takes the entry away; an address beyond the 2^32 bytes of system
memory (R80) does not exist, and nothing is stored there. -/
def Memory.write (m : Memory) (a : Nat) (b : Byte) : Memory :=
  if a < Config.addrSpace then (if b = unlistedByte then m.erase a else m.insert a b) else m

/-- Write bytes at rising addresses. -/
def Memory.writeBytes : Memory → Nat → List Byte → Memory
  | m, _, [] => m
  | m, a, b :: bs => Memory.writeBytes (m.write a b) (a + 1) bs

/-- Every address is below `lim` on its left: the list rises strictly from `lo`, stays in the address space and lists no
byte that an unlisted address reads as. -/
def Memory.wfFrom : Nat → Memory → Bool
  | _, [] => true
  | lo, (x, b) :: m =>
    decide (lo ≤ x) && decide (x < Config.addrSpace) && decide (b ≠ unlistedByte) && Memory.wfFrom (x + 1) m

/-- The canonical form: equal memories are equal lists. -/
def Memory.wf (m : Memory) : Bool := Memory.wfFrom 0 m

/-- The canonical memory that an image of cells describes (R481: the contents the platform gives). -/
def Memory.ofImage (image : List Host.Cell) : Memory := image.foldl (fun m c => m.write c.1 c.2) []

/-- Every byte of `[a, a + len)` becomes a draw of the n-th event (R17, R87, R450, R482). -/
def Memory.drawBytes (m : Memory) (n a : Nat) : Nat → Memory
  | 0 => m
  | k + 1 => (Memory.drawBytes m n a k).write (a + k) (Config.freeByte n (a + k))

/-! ## The core's port to memory (R13) -/

/-- `mem_ok(addr, kind)` (R9): no hole of that kind holds the address. -/
def memOk (p : Platform) (a : Nat) (k : Access) : Bool :=
  !(p.holes.any fun h => decide (h.kind = k) && decide (h.base ≤ a) && decide (a < h.base + h.len))

/-- What a command sees of the world: memory as it was at the start (R84) and the platform. -/
structure Bus where
  mem      : Memory
  platform : Platform
  deriving DecidableEq, Repr

/-- The bus of a state. -/
def State.bus (s : State) : Bus := { mem := s.mem, platform := s.platform }

/-- `MemRead(addr, 1)`: BusError(READ, addr) where the access does not complete (R13). -/
def busRead (b : Bus) (a : Nat) : Except Raise Byte :=
  if memOk b.platform a .read then .ok (b.mem.read a) else .error { err := .bus .read, info := a }

/-- `MemRead(addr, n)`, one byte at a time in increasing order (R13). -/
def memRead (b : Bus) : Nat → Nat → Except Raise (List Byte)
  | _, 0 => .ok []
  | a, n + 1 => do
    let x ← busRead b a
    let xs ← memRead b (a + 1) n
    .ok (x :: xs)

/-- The destination region while a command writes it: every command writes it once, in increasing address order (R85). -/
structure Sink where
  /-- DST_ADDR. -/
  base : Nat
  /-- DST_CAP. -/
  cap  : Nat
  /-- How many bytes are written. -/
  n    : Nat
  /-- The bytes written, newest first. -/
  rev  : List Byte
  deriving DecidableEq, Repr

/-- The destination before the first write. -/
def Sink.start (base cap : Nat) : Sink := { base := base, cap := cap, n := 0, rev := [] }

/-- The bytes written, in address order. -/
def Sink.out (k : Sink) : List Byte := k.rev.reverse

/-- `MemWrite(addr, 1, x)` at the next destination byte (R13). -/
def busWrite (b : Bus) (k : Sink) (x : Byte) : Except Raise Sink :=
  if memOk b.platform (k.base + k.n) .write then .ok { k with n := k.n + 1, rev := x :: k.rev }
  else .error { err := .bus .write, info := k.base + k.n }

/-- `MemWrite` of a sequence at the next destination bytes, one byte at a time (R13). -/
def memWrite (b : Bus) : Sink → List Byte → Except Raise Sink
  | k, [] => .ok k
  | k, x :: xs => do
    let k' ← busWrite b k x
    memWrite b k' xs

/-- CapacityError(DST_FULL, info) (R442). -/
def full (info : Nat) : Raise := { err := .capacity, info := info }

/-! ## Free values between commands -/

/-- The latches while IDLE hold any value (R48, 93 U6; log entry 7). -/
def Latch.any (n : Nat) : Latch :=
  { cmd := Config.freeWord n 0,
    args := { srcAddr := Config.freeWord n 1, srcLen := Config.freeWord n 2, dstAddr := Config.freeWord n 3,
              dstCap := Config.freeWord n 4, auxAddr := Config.freeWord n 5, arg0 := Config.freeWord n 6,
              arg1 := Config.freeWord n 7, arg2 := Config.freeWord n 8 } }

/-- The units' internal state between commands is any value (R51 to R54, 93 U7; log entry 7). -/
def Engine.any (n : Nat) : Engine :=
  { window := Config.freeBytes n 0, bitpos := Config.freeNat n 0, litLens := Config.freeNats n 0,
    distLens := Config.freeNats n 1, block := Config.freeNat n 1, matcher := Config.freeNats n 2,
    encTrees := Config.freeNats n 3, prevRow := Config.freeBytes n 1, curRow := Config.freeBytes n 2 }

/-! ## Start and completion of a command -/

/-- The start action: a CMD write of `w` while IDLE (R124). STATUS.OVR keeps its value; the internal state is emptied
(R51 to R54); the host duties of R91 begin. -/
def startCommand (w : Word) (s : State) : State :=
  { s with
    cmd := w
    latch := { cmd := w, args := s.args }
    results := Results.zero
    status := { s.status with busy := true, done := false, err := false }
    engine := Engine.empty
    unseen := { cmd := w, args := s.args } :: s.unseen }

/-- What `finish` gives (R16): the named result registers, the unnamed ones 0, and the bytes written from DST_ADDR on. -/
structure Done where
  result : Word
  inUsed : Word
  flags  : Word
  out    : List Byte
  deriving DecidableEq, Repr

/-- The success completion (R449): OUT_LEN is the number of bytes written (R41). -/
def finishWith (d : Done) (s : State) : State :=
  { s with
    mem := s.mem.writeBytes s.latch.args.dstAddr.toNat d.out
    results := { result := d.result, outLen := BitVec.ofNat 32 d.out.length, inUsed := d.inUsed, flagsOut := d.flags,
                 errCode := 0, errInfo := 0 }
    status := { s.status with busy := false, done := true, err := false }
    latch := Latch.any s.draws
    engine := Engine.any s.draws
    draws := s.draws + 1 }

/-- The error completion (R450), which is how this core takes an exception: no trap, no vector (R440). Every byte of the
latched destination region becomes a draw, whatever the error (R87; log entry 9). `hasDst` is false for the commands that have
no destination; they leave memory unchanged (R450). -/
def raiseWith (hasDst : Bool) (r : Raise) (s : State) : State :=
  { s with
    mem := if hasDst then s.mem.drawBytes s.draws s.latch.args.dstAddr.toNat s.latch.args.dstCap.toNat else s.mem
    results := { result := 0, outLen := 0, inUsed := 0, flagsOut := 0,
                 errCode := r.err.code, errInfo := BitVec.ofNat 32 r.info }
    status := { s.status with busy := false, done := true, err := true }
    latch := Latch.any s.draws
    engine := Engine.any s.draws
    draws := s.draws + 1 }

/-- How a command ends: with its results, or with the first error it raises (R444). -/
def complete (hasDst : Bool) (r : Except Raise Done) (s : State) : State :=
  match r with
  | .ok d => finishWith d s
  | .error e => raiseWith hasDst e s

/-- The execute step of a word that is no command: IllegalCommand with the whole word in ERR_INFO (R126). Its destination is
the latched one, as R450 has it for IllegalCommand (log entry 9). -/
def raiseIllegal (k : Illegal) (s : State) : State := raiseWith true { err := .illegal k, info := s.latch.cmd.toNat } s

/-! ## Resets -/

/-- Every register and all internal state at its reset value (R480), with memory given. -/
def resetRegs (mem : Memory) (s : State) : State :=
  { s with
    ie := false
    status := Status.zero
    cmd := 0
    args := Args.zero
    results := Results.zero
    latch := Latch.zero
    engine := Engine.empty
    mem := mem
    unseen := [] }

/-- Soft reset (R482): while BUSY the command is abandoned and its destination becomes draws; while IDLE memory keeps. -/
def softReset (s : State) : State :=
  if s.status.busy then
    { resetRegs (s.mem.drawBytes s.draws s.latch.args.dstAddr.toNat s.latch.args.dstCap.toNat) s with
      draws := s.draws + 1 }
  else resetRegs s.mem s

/-- Power-on reset (R481): the state of R480, and the memory contents the platform gives. -/
def hardReset (image : List Host.Cell) (s : State) : State := resetRegs (Memory.ofImage image) s

end Sys2Proof.Machine
end

