-- ==== Sys2Proof/Machine/Flags.lean ====
section
/-! DEFINITION. The flag words: STATUS (rule R34), CTRL (R33), the IRQ output (R55, R455) and FLAGS_OUT (R43). -/

namespace Sys2Proof.Machine

/-- A bit as a number. -/
def bit (b : Bool) : Nat := if b then 1 else 0

/-- STATUS as the host reads it: BUSY, DONE, ERR, OVR in bits 0 to 3, the rest 0 (R34). -/
def Status.word (t : Status) : Word := BitVec.ofNat 32 (bit t.busy + 2 * bit t.done + 4 * bit t.err + 8 * bit t.ovr)

/-- A host write to STATUS clears DONE, ERR and OVR where the written bit is 1, and never changes BUSY (R34, R421). -/
def Status.clear (w : Word) (t : Status) : Status :=
  { busy := t.busy
    done := t.done && !w.getLsbD 1
    err := t.err && !w.getLsbD 2
    ovr := t.ovr && !w.getLsbD 3 }

/-- CTRL as the host reads it: IE in bit 0, SRST and the reserved bits 0 (R33). -/
def State.ctrlWord (s : State) : Word := BitVec.ofNat 32 (bit s.ie)

/-- The IRQ output: CTRL.IE and STATUS.DONE (R55, R455). -/
def State.irq (s : State) : Bool := s.ie && s.status.done

/-- FLAGS_OUT of FRM.PARSE: IEND_SEEN, TRAILING, MAX_STOP in bits 0 to 2 (R43, R343). -/
def parseFlags (iendSeen trailing maxStop : Bool) : Word :=
  BitVec.ofNat 32 (bit iendSeen + 2 * bit trailing + 4 * bit maxStop)

/-- FLAGS_OUT of FRM.SERIALIZE: IEND_APPENDED in bit 0 (R43, R350). -/
def serializeFlags (iendAppended : Bool) : Word := BitVec.ofNat 32 (bit iendAppended)

end Sys2Proof.Machine
end

