-- ==== Sys2Proof/Machine/Operands.lean ====
section
/-! DEFINITION. The operands of the commands (rule R127) and the checks on them that need no memory: region bounds (R88),
table alignment (R86), overlap (R89) and the filter geometry (R381). -/

namespace Sys2Proof.Machine

/-- ParamError(sub, info) (R442). -/
def paramError (k : ParamSub) (info : Nat) : Raise := { err := .param k, info := info }

/-- A region stays inside the address space: base + len ≤ 2^32, the sum without wrap (R88). -/
def regionOk (base len : Nat) : Bool := decide (base + len ≤ Config.addrSpace)

/-- Two regions overlap: both nonempty and with an address in common (R89). -/
def overlaps (base₁ len₁ base₂ len₂ : Nat) : Bool :=
  decide (0 < len₁) && decide (0 < len₂) && decide (base₁ < base₂ + len₂) && decide (base₂ < base₁ + len₁)

/-- `check region` (R88). -/
def checkRegion (base len info : Nat) : Except Raise Unit :=
  if regionOk base len then .ok () else .error (paramError .wrap info)

/-- `check overlap` (R89). -/
def checkOverlap (base₁ len₁ base₂ len₂ info : Nat) : Except Raise Unit :=
  if overlaps base₁ len₁ base₂ len₂ then .error (paramError .overlap info) else .ok ()

/-- The table base is 4-byte aligned (R86). -/
def checkAlign (base : Nat) : Except Raise Unit :=
  if base % 4 ≠ 0 then .error (paramError .align 0) else .ok ()

/-- The source region's base, SRC_ADDR. -/
def Args.src (a : Args) : Nat := a.srcAddr.toNat

/-- The source region's length, SRC_LEN. -/
def Args.len (a : Args) : Nat := a.srcLen.toNat

/-- The destination region's base, DST_ADDR. -/
def Args.dst (a : Args) : Nat := a.dstAddr.toNat

/-- The destination region's capacity, DST_CAP. -/
def Args.cap (a : Args) : Nat := a.dstCap.toNat

/-- The descriptor table's base, AUX_ADDR (R38). -/
def Args.aux (a : Args) : Nat := a.auxAddr.toNat

/-- The number of descriptor entries, ARG0 (R39). -/
def Args.entries (a : Args) : Nat := a.arg0.toNat

/-- The bytes of the descriptor table, 16 * ARG0 without wrap (R88). -/
def Args.tableLen (a : Args) : Nat := 16 * a.entries

/-- The destination before the first write. -/
def Args.sink (a : Args) : Sink := Sink.start a.dst a.cap

/-- The checks at the start of a command with a source and a destination: source bounds, destination bounds, overlap
(R445 stages 2 and 4). -/
def checkSrcDst (a : Args) : Except Raise Unit := do
  checkRegion a.src a.len 0
  checkRegion a.dst a.cap 0
  checkOverlap a.src a.len a.dst a.cap 0

/-- The checks at the start of a command with a source and a table destination: bounds, alignment, overlap
(R445 stages 2, 3 and 4; FRM.PARSE). -/
def checkSrcTable (a : Args) : Except Raise Unit := do
  checkRegion a.src a.len 0
  checkRegion a.dst a.cap 0
  checkAlign a.dst
  checkOverlap a.src a.len a.dst a.cap 0

/-- The checks at the start of a command with an input table and a destination: bounds, alignment, overlap
(R445 stages 2, 3 and 4; FRM.IDATCAT, FRM.SERIALIZE). -/
def checkTableDst (a : Args) : Except Raise Unit := do
  checkRegion a.aux a.tableLen 0
  checkRegion a.dst a.cap 0
  checkAlign a.aux
  checkOverlap a.aux a.tableLen a.dst a.cap 0

/-- ROW_BYTES, the stride (R380). -/
def Args.rowBytes (a : Args) : Nat := a.arg0.toNat

/-- ROWS (R380). -/
def Args.rows (a : Args) : Nat := a.arg1.toNat

/-- BPP, the byte-per-pixel step (R380). -/
def Args.bpp (a : Args) : Nat := a.arg2.toNat

/-- The bytes of the unfiltered image (R141). -/
def Args.rawBytes (a : Args) : Nat := a.rows * a.rowBytes

/-- The bytes of the filtered image (R141). -/
def Args.filteredBytes (a : Args) : Nat := a.rows * (1 + a.rowBytes)

/-- The geometry checks of both filter commands, in the order of R381. -/
def checkGeometry (a : Args) : Except Raise Unit :=
  if a.bpp ≠ 1 ∧ a.bpp ≠ 4 then .error (paramError .bpp 0)
  else if a.rows = 0 then .error { err := .dimensions .rowsZero, info := 0 }
  else if a.rowBytes = 0 then .error { err := .dimensions .rowBytesZero, info := 0 }
  else if a.rowBytes % a.bpp ≠ 0 then .error (paramError .stride 0)
  else if 4294967295 < a.filteredBytes then .error (paramError .sizeOverflow 0)
  else .ok ()

end Sys2Proof.Machine
end

