-- ==== Sys2Proof/Machine/Control.lean ====
section
/-! DEFINITION. The control command NOP (rule R420). -/

namespace Sys2Proof.Machine

/-- NOP: `finish()` with every result register 0; no memory access (R420). -/
def execNop (s : State) : Host.Outcome State Fault Refusal :=
  .next (complete false (.ok { result := 0, inUsed := 0, flags := 0, out := [] }) s)

end Sys2Proof.Machine
end

