-- ==== Sys2Proof/Machine/Crc.lean ====
section
/-! DEFINITION. The CRC-32 engine (rules R49, R200 to R208). -/

namespace Sys2Proof.Machine

/-- One of the 8 steps that build a table entry (R49). -/
def crcShift (c : Word) : Word := if c.getLsbD 0 then (c >>> 1) ^^^ Config.crcPoly else c >>> 1

/-- `n` such steps. -/
def crcShifts : Nat → Word → Word
  | 0, c => c
  | n + 1, c => crcShifts n (crcShift c)

/-- CRC_TABLE (R49): the ROM's entry for a byte, by the algorithm that builds it. -/
def crcTable (n : Byte) : Word := crcShifts 8 (n.setWidth 32)

/-- One byte of CRC32 (R200). -/
def crcUpdate (r : Word) (b : Byte) : Word := crcTable ((r ^^^ b.setWidth 32).setWidth 8) ^^^ (r >>> 8)

/-- The register after the bytes of a sequence (R200). -/
def crcRun (r : Word) (s : List Byte) : Word := s.foldl crcUpdate r

/-- CRC32(s) (R200). -/
def crc32 (s : List Byte) : Word := crcRun Config.crcInit s ^^^ Config.crcXorOut

/-- VERIFY(s, e) (R203). -/
def crcVerify (s : List Byte) (e : Word) : Word := if crc32 s = e then 1 else 0

/-- CRC.COMPUTE over a memory snapshot (R204). -/
def crcComputeBody (b : Bus) (a : Args) : Except Raise Done := do
  checkRegion a.src a.len 0
  let s ← memRead b a.src a.len
  .ok { result := crc32 s, inUsed := a.srcLen, flags := 0, out := [] }

/-- CRC.VERIFY over a memory snapshot (R205). -/
def crcVerifyBody (b : Bus) (a : Args) : Except Raise Done := do
  checkRegion a.src a.len 0
  let s ← memRead b a.src a.len
  .ok { result := crcVerify s a.arg0, inUsed := a.srcLen, flags := 0, out := [] }

/-- CRC.COMPUTE (R204). -/
def execCrcCompute (s : State) : Host.Outcome State Fault Refusal :=
  .next (complete false (crcComputeBody s.bus s.latch.args) s)

/-- CRC.VERIFY (R205). -/
def execCrcVerify (s : State) : Host.Outcome State Fault Refusal :=
  .next (complete false (crcVerifyBody s.bus s.latch.args) s)

end Sys2Proof.Machine
end

