-- ==== Sys2Proof/Machine/Inflate.lean ====
section
/-! DEFINITION. The DEFLATE engine, inflate direction (rules R15, R134 to R140, R230 to R254). -/

namespace Sys2Proof.Machine

/-! ## The input bit stream (R15, R230) -/

/-- The compressed input: SRC_LEN and the byte at an offset, fetched when a bit of it is needed. A local value of the
command, not a part of State. -/
structure Port where
  len   : Nat
  fetch : Nat → Except Raise Byte

/-- The port to the source region (R230). -/
def Port.ofRegion (b : Bus) (base len : Nat) : Port := { len := len, fetch := fun i => busRead b (base + i) }

/-- The port to a byte sequence, for the admissibility test of rule R301. -/
def Port.ofBytes (s : List Byte) : Port := { len := s.length, fetch := fun i => .ok (s.getD i 0) }

/-- CorruptStreamError(sub, floor(bitpos/8)) (R443). -/
def corruptAt (k : CorruptSub) (pos : Nat) : Raise := { err := .corrupt k, info := pos / 8 }

/-- `ReadBits(1)` at `bitpos` (R15, R230); the cursor then stands one bit further. -/
def readBit (p : Port) (pos : Nat) : Except Raise Bool :=
  if pos / 8 < p.len then do
    let b ← p.fetch (pos / 8)
    .ok (b.getLsbD (pos % 8))
  else .error (corruptAt .truncated pos)

/-- `ReadBits(n)` at `bitpos`, first bit least significant (R15); the cursor then stands n bits further. -/
def readBits (p : Port) : Nat → Nat → Except Raise Nat
  | 0, _ => .ok 0
  | n + 1, pos => do
    let b ← readBit p pos
    let v ← readBits p n (pos + 1)
    .ok (bit b + 2 * v)

/-- `AlignToByte()` (R15). -/
def alignToByte (pos : Nat) : Nat := (pos + 7) / 8 * 8

/-! ## Huffman codes (R240 to R242) -/

/-- count[k]: how many symbols have length k (R240). -/
def countLen : List Nat → Nat → Nat
  | [], _ => 0
  | l :: ls, k => if l = k then countLen ls k + 1 else countLen ls k

/-- The over-subscription and incompleteness tests of `build` from length `k` on, for the `n` lengths left (R240). -/
def kraftFrom (lens : List Nat) : Nat → Nat → Nat → Except CorruptSub Unit
  | 0, _, left => if 0 < left then .error .huffIncomplete else .ok ()
  | n + 1, k, left =>
    if 2 * left < countLen lens k then .error .huffOversub
    else kraftFrom lens n (k + 1) (2 * left - countLen lens k)

/-- `build(len)` (R240): the code is given by its lengths; over-subscribed and incomplete sets are refused (R241). -/
def buildCode (lens : List Nat) (pos : Nat) : Except Raise (List Nat) :=
  match kraftFrom lens 15 1 1 with
  | .ok _ => .ok lens
  | .error k => .error (corruptAt k pos)

/-- next[k] before any code is assigned: the first code of length k (R240). -/
def firstCode (lens : List Nat) : Nat → Nat
  | 0 => 0
  | 1 => 0
  | k + 2 => (firstCode lens (k + 1) + countLen lens (k + 1)) * 2

/-- code_of[s]: the first code of its length, plus how many lower symbols have that length (R240). -/
def codeOf (lens : List Nat) (s : Nat) : Nat :=
  firstCode lens (lens.getD s 0) + countLen (lens.take s) (lens.getD s 0)

/-- The symbol, counted from `s`, of the j-th entry (from 0) that has length `k`. -/
def nthOfLen : List Nat → Nat → Nat → Nat → Option Nat
  | [], _, _, _ => none
  | l :: ls, k, j, s =>
    if l = k then
      match j with
      | 0 => some s
      | i + 1 => nthOfLen ls k i (s + 1)
    else nthOfLen ls k j (s + 1)

/-- The symbol whose code is the k-bit value `v`, if there is one (R242): codes of one length are consecutive and rise with
the symbol (R240). -/
def symbolOf (lens : List Nat) (k v : Nat) : Option Nat :=
  if v < firstCode lens k then none else nthOfLen lens k (v - firstCode lens k) 0

/-- The rest of `decode(code)` after k - 1 bits that formed `v`, with `n` lengths left (R242). It answers the symbol and the
cursor. A complete code never gets past 15 bits (R241, R242). -/
def decodeFrom (p : Port) (lens : List Nat) : Nat → Nat → Nat → Nat → Except Raise (Nat × Nat)
  | 0, _, _, pos => .error (corruptAt .huffIncomplete pos)
  | n + 1, k, v, pos => do
    let b ← readBit p pos
    match symbolOf lens k (2 * v + bit b) with
    | some s => .ok (s, pos + 1)
    | none => decodeFrom p lens n (k + 1) (2 * v + bit b) (pos + 1)

/-- `decode(code)` (R242). -/
def decodeSymbol (p : Port) (lens : List Nat) (pos : Nat) : Except Raise (Nat × Nat) := decodeFrom p lens 15 1 0 pos

/-- The fixed literal/length code's lengths (R245, ROM of R50). -/
def fixedLitLens : List Nat :=
  List.replicate 144 8 ++ List.replicate 112 9 ++ List.replicate 24 7 ++ List.replicate 8 8

/-- The fixed distance code's lengths (R245, ROM of R50). -/
def fixedDistLens : List Nat := List.replicate 32 5

/-! ## Tables of R136 to R139 -/

/-- ORDER: the symbols of the code-length-code fields (R136, R247). -/
def clOrder : List Nat := [16, 17, 18, 0, 8, 7, 9, 6, 10, 5, 11, 4, 12, 3, 13, 2, 14, 1, 15]

/-- LEN_BASE of symbols 257 to 285 (R138). -/
def lenBase : List Nat :=
  [3, 4, 5, 6, 7, 8, 9, 10, 11, 13, 15, 17, 19, 23, 27, 31, 35, 43, 51, 59, 67, 83, 99, 115, 131, 163, 195, 227, 258]

/-- LEN_EXTRA of symbols 257 to 285 (R138). -/
def lenExtra : List Nat := [0, 0, 0, 0, 0, 0, 0, 0, 1, 1, 1, 1, 2, 2, 2, 2, 3, 3, 3, 3, 4, 4, 4, 4, 5, 5, 5, 5, 0]

/-- DIST_BASE of symbols 0 to 29 (R139). -/
def distBase : List Nat :=
  [1, 2, 3, 4, 5, 7, 9, 13, 17, 25, 33, 49, 65, 97, 129, 193, 257, 385, 513, 769, 1025, 1537, 2049, 3073, 4097, 6145,
    8193, 12289, 16385, 24577]

/-- DIST_EXTRA of symbols 0 to 29 (R139). -/
def distExtra : List Nat :=
  [0, 0, 0, 0, 1, 1, 2, 2, 3, 3, 4, 4, 5, 5, 6, 6, 7, 7, 8, 8, 9, 9, 10, 10, 11, 11, 12, 12, 13, 13]

/-! ## Output (R231, R232) -/

/-- `emit(b)` with the cursor at `pos` (R231). -/
def emit (b : Bus) (k : Sink) (pos : Nat) (x : Byte) : Except Raise Sink :=
  if k.n = k.cap then .error (full (pos / 8)) else busWrite b k x

/-- window[n_out - distance]: the window keeps the last WINDOW_SIZE bytes output (R51, R232). -/
def windowByte (k : Sink) (distance : Nat) : Byte := (k.rev.take Config.windowSize).getD (distance - 1) 0

/-- The bytes of a back-reference, one at a time (R232). -/
def copyBytes (b : Bus) (pos distance : Nat) : Nat → Sink → Except Raise Sink
  | 0, k => .ok k
  | n + 1, k => do
    let k' ← emit b k pos (windowByte k distance)
    copyBytes b pos distance n k'

/-- `copy(length, distance)` (R232). -/
def copyMatch (b : Bus) (k : Sink) (pos length distance : Nat) : Except Raise Sink :=
  if k.n < distance then .error (corruptAt .distance pos) else copyBytes b pos distance length k

/-! ## Blocks (R246 to R248) -/

/-- Where the decoder stands between blocks: the cursor, the output, and the ranges of input bits that AlignToByte skipped
(newest first; they may hold any value on input, R246). -/
structure Inflater where
  pos  : Nat
  sink : Sink
  pads : List (Nat × Nat)
  deriving DecidableEq, Repr

/-- `AlignToByte()` of the decoder (R15, R246, R250). -/
def Inflater.align (r : Inflater) : Inflater :=
  { r with pos := alignToByte r.pos, pads := (r.pos, alignToByte r.pos) :: r.pads }

/-- The literal bytes of a stored block (R246). -/
def storedBytes (p : Port) (b : Bus) : Nat → Nat → Sink → Except Raise (Nat × Sink)
  | 0, pos, k => .ok (pos, k)
  | n + 1, pos, k => do
    let v ← readBits p 8 pos
    let k' ← emit b k (pos + 8) (lowByte v)
    storedBytes p b n (pos + 8) k'

/-- Stored block, the header bits read (R135, R246). -/
def storedBlock (p : Port) (b : Bus) (r : Inflater) : Except Raise Inflater := do
  let q := r.align
  let len ← readBits p 16 q.pos
  let nlen ← readBits p 16 (q.pos + 16)
  if len ≠ nlen ^^^ 0xFFFF then .error (corruptAt .storedLen (q.pos + 32))
  else do
    let (pos, k) ← storedBytes p b len (q.pos + 32) q.sink
    .ok { q with pos := pos, sink := k }

/-- The code-length-code lengths: one 3-bit field for each symbol of `order` (R136, R247). It answers the pairs read. -/
def clFields (p : Port) : List Nat → Nat → Except Raise (List (Nat × Nat))
  | [], _ => .ok []
  | s :: order, pos => do
    let l ← readBits p 3 pos
    let rest ← clFields p order (pos + 3)
    .ok ((s, l) :: rest)

/-- The length of a symbol among the fields read; a symbol not reached has length 0 (R136). -/
def clLookup : List (Nat × Nat) → Nat → Nat
  | [], _ => 0
  | (s, l) :: rest, i => if s = i then l else clLookup rest i

/-- cl[0..18] from the first HCLEN fields (R247). -/
def clLens (fields : List (Nat × Nat)) : List Nat := (List.range 19).map (clLookup fields)

/-- The code lengths of a dynamic block, `total` of them (R137, R247). `rev` holds the lengths so far, newest first. Every
round adds at least one, so `total` rounds reach the end. It answers the lengths in order and the cursor. -/
def codeLengths (p : Port) (cl : List Nat) (total : Nat) : Nat → List Nat → Nat → Except Raise (List Nat × Nat)
  | 0, rev, pos => .ok (rev.reverse, pos)
  | n + 1, rev, pos =>
    if rev.length < total then do
      let (s, pos₁) ← decodeSymbol p cl pos
      if s ≤ 15 then codeLengths p cl total n (s :: rev) pos₁
      else if s = 16 then
        match rev with
        | [] => .error (corruptAt .clRepeat pos₁)
        | v :: older => do
          let x ← readBits p 2 pos₁
          if total < (v :: older).length + (3 + x) then .error (corruptAt .clRepeat (pos₁ + 2))
          else codeLengths p cl total n (List.replicate (3 + x) v ++ (v :: older)) (pos₁ + 2)
      else do
        let width := if s = 17 then 3 else 7
        let least := if s = 17 then 3 else 11
        let x ← readBits p width pos₁
        if total < rev.length + (least + x) then .error (corruptAt .clRepeat (pos₁ + width))
        else codeLengths p cl total n (List.replicate (least + x) 0 ++ rev) (pos₁ + width)
    else .ok (rev.reverse, pos)

/-- Dynamic block header (R247): the literal/length code, the distance code and the cursor. -/
def dynamicHeader (p : Port) (pos : Nat) : Except Raise (List Nat × List Nat × Nat) := do
  let hlit ← readBits p 5 pos
  let hdist ← readBits p 5 (pos + 5)
  let hclen ← readBits p 4 (pos + 10)
  if 286 < hlit + 257 ∨ 30 < hdist + 1 then .error (corruptAt .hlitHdist (pos + 14))
  else do
    let fields ← clFields p (clOrder.take (hclen + 4)) (pos + 14)
    let pos₁ := pos + 14 + 3 * (hclen + 4)
    let cl ← buildCode (clLens fields) pos₁
    let total := hlit + 257 + (hdist + 1)
    let (lens, pos₂) ← codeLengths p cl total total [] pos₁
    if lens.getD 256 0 = 0 then .error (corruptAt .noEob pos₂)
    else do
      let lit ← buildCode (lens.take (hlit + 257)) pos₂
      let dist ← buildCode (lens.drop (hlit + 257)) pos₂
      .ok (lit, dist, pos₂)

/-- Compressed data (R248). Every round reads at least one bit, so with `n` at least the bits left, at `n = 0` no bit is left
and the next `decode` would run out of input. It answers the cursor and the output. -/
def compressedData (p : Port) (b : Bus) (lit dist : List Nat) : Nat → Nat → Sink → Except Raise (Nat × Sink)
  | 0, pos, _ => .error (corruptAt .truncated pos)
  | n + 1, pos, k => do
    let (s, pos₁) ← decodeSymbol p lit pos
    if s < 256 then do
      let k' ← emit b k pos₁ (lowByte s)
      compressedData p b lit dist n pos₁ k'
    else if s = 256 then .ok (pos₁, k)
    else if 285 < s then .error (corruptAt .symbol pos₁)
    else do
      let le := lenExtra.getD (s - 257) 0
      let lx ← readBits p le pos₁
      let pos₂ := pos₁ + le
      let (d, pos₃) ← decodeSymbol p dist pos₂
      if 29 < d then .error (corruptAt .symbol pos₃)
      else do
        let de := distExtra.getD d 0
        let dx ← readBits p de pos₃
        let pos₄ := pos₃ + de
        let k' ← copyMatch b k pos₄ (lenBase.getD (s - 257) 0 + lx) (distBase.getD d 0 + dx)
        compressedData p b lit dist n pos₄ k'

/-- One block (R134, R250): BFINAL and where the decoder then stands. -/
def inflateBlock (p : Port) (b : Bus) (r : Inflater) : Except Raise (Bool × Inflater) := do
  let final ← readBits p 1 r.pos
  let btype ← readBits p 2 (r.pos + 1)
  let q := { r with pos := r.pos + 3 }
  match btype with
  | 0 => do
    let q' ← storedBlock p b q
    .ok (decide (final = 1), q')
  | 1 => do
    let (pos, k) ← compressedData p b fixedLitLens fixedDistLens (8 * p.len) q.pos q.sink
    .ok (decide (final = 1), { q with pos := pos, sink := k })
  | 2 => do
    let (lit, dist, pos₁) ← dynamicHeader p q.pos
    let (pos, k) ← compressedData p b lit dist (8 * p.len) pos₁ q.sink
    .ok (decide (final = 1), { q with pos := pos, sink := k })
  | _ => .error (corruptAt .btype q.pos)

/-- The blocks up to the final one (R250). Every block reads at least three bits; see `compressedData` for `n = 0`. -/
def inflateBlocks (p : Port) (b : Bus) : Nat → Inflater → Except Raise Inflater
  | 0, r => .error (corruptAt .truncated r.pos)
  | n + 1, r => do
    let (final, r') ← inflateBlock p b r
    if final then .ok r' else inflateBlocks p b n r'

/-! ## The zlib wrapper (R140, R251, R252) -/

/-- One byte of ADLER32, on the pair (s1, s2) (R252). -/
def adlerStep (t : Nat × Nat) (x : Byte) : Nat × Nat :=
  let s1 := (t.1 + x.toNat) % 65521
  (s1, (t.2 + s1) % 65521)

/-- ADLER32(s) (R252). -/
def adler32 (s : List Byte) : Nat :=
  let t := s.foldl adlerStep (1, 0)
  t.2 * 65536 + t.1

/-- The CMF and FLG bytes are those of a zlib stream this core accepts (R140, R250, R251). -/
def zlibHeaderOk (cmf flg : Nat) : Bool :=
  decide (cmf % 16 = 8) && decide (cmf / 16 ≤ 7) && decide ((cmf * 256 + flg) % 31 = 0) && decide (flg / 32 % 2 = 0)

/-- Read and check the zlib header (R250). -/
def zlibHeader (p : Port) (r : Inflater) : Except Raise Inflater := do
  let cmf ← readBits p 8 r.pos
  let flg ← readBits p 8 (r.pos + 8)
  if zlibHeaderOk cmf flg then .ok { r with pos := r.pos + 16 }
  else .error { err := .corrupt .zlibHeader, info := 0 }

/-- `repeat n times: A <- A*256 + ReadBits(8)` (R250). -/
def readBigEndian (p : Port) : Nat → Nat → Nat → Except Raise Nat
  | 0, _, acc => .ok acc
  | n + 1, pos, acc => do
    let v ← readBits p 8 pos
    readBigEndian p n (pos + 8) (acc * 256 + v)

/-- Read and check the zlib trailer (R250). -/
def zlibTrailer (p : Port) (r : Inflater) : Except Raise Inflater := do
  let q := r.align
  let a ← readBigEndian p 4 q.pos 0
  if a ≠ adler32 q.sink.out then .error (corruptAt .adler (q.pos + 32))
  else .ok { q with pos := q.pos + 32 }

/-- The decoding of a whole stream (R250) from a port into a destination. -/
def inflateStream (z : Bool) (p : Port) (b : Bus) (k : Sink) : Except Raise Inflater := do
  let r₀ : Inflater := { pos := 0, sink := k, pads := [] }
  let r₁ ← if z then zlibHeader p r₀ else .ok r₀
  let r₂ ← inflateBlocks p b (8 * p.len) r₁
  if z then zlibTrailer p r₂ else .ok r₂

/-- IN_USED of a stream: the partly used last byte counts (R250). -/
def Inflater.used (r : Inflater) : Nat := (r.pos + 7) / 8

/-- INFLATE over a memory snapshot (R250). -/
def inflateBody (z : Bool) (b : Bus) (a : Args) : Except Raise Done := do
  checkSrcDst a
  let r ← inflateStream z (Port.ofRegion b a.src a.len) b a.sink
  .ok { result := 0, inUsed := BitVec.ofNat 32 r.used, flags := 0, out := r.sink.out }

/-- INFLATE, raw DEFLATE stream (R250, Z = 0). -/
def execInflate (s : State) : Host.Outcome State Fault Refusal :=
  .next (complete true (inflateBody false s.bus s.latch.args) s)

/-- INFLATE.Z, zlib stream (R250, Z = 1). -/
def execInflateZ (s : State) : Host.Outcome State Fault Refusal :=
  .next (complete true (inflateBody true s.bus s.latch.args) s)

end Sys2Proof.Machine
end

