-- ==== Sys2Proof/Machine/Deflate.lean ====
section
/-! DEFINITION. The DEFLATE engine, deflate direction (rules R300 to R310). -/

namespace Sys2Proof.Machine

/-- How many stored blocks carry `n` bytes: max(1, ceil(n / 65535)) (R302, R304). -/
def blockCount (n : Nat) : Nat := max 1 ((n + 65534) / 65535)

/-- One stored block, header byte, LEN, NLEN and data (R304). -/
def storedBlockBytes (final : Bool) (data : List Byte) : List Byte :=
  lowByte (bit final) :: (le16bytes data.length ++ le16bytes (data.length ^^^ 0xFFFF) ++ data)

/-- The block list of level 0: every block but the last carries 65535 bytes (R304). -/
def storedBlocks : Nat → List Byte → List Byte
  | 0, _ => []
  | 1, data => storedBlockBytes true data
  | n + 2, data =>
    storedBlockBytes false (data.take Config.storedMax) ++ storedBlocks (n + 1) (data.drop Config.storedMax)

/-- The zlib wrapper that DEFLATE writes: 78 01, the stream, the Adler-32 (R307). -/
def zlibWrap (z : Bool) (data body : List Byte) : List Byte :=
  if z then [0x78, 0x01] ++ body ++ be32bytes (adler32 data) else body

/-- STORED(data, Z): the exact stream of level 0 (R304). -/
def storedStream (data : List Byte) (z : Bool) : List Byte :=
  zlibWrap z data (storedBlocks (blockCount data.length) data)

/-- The stream of empty input at levels 1 to 9: one final fixed-Huffman block with only end-of-block (R305). -/
def emptyStream (z : Bool) : List Byte := zlibWrap z [] [0x03, 0x00]

/-- BOUND(n, Z) (R302). -/
def sizeBound (n : Nat) (z : Bool) : Nat := n + 5 * blockCount n + (if z then 6 else 0)

/-- Bits `[from, from + n)` of a byte sequence are all 0. -/
def zeroBits (s : List Byte) (start : Nat) : Nat → Bool
  | 0 => true
  | n + 1 => !(s.getD (start / 8) 0).getLsbD (start % 8) && zeroBits s (start + 1) n

/-- A platform on which every access completes: where admissibility is judged (R301). -/
def openBus : Bus := { mem := [], platform := Platform.plain }

/-- The stream inflates to the data with every byte used, and every bit that no decoding step reads is 0: the pad bits before
a stored block's LEN and before the trailer, and those after the last bit read (R301, conditions 1 to 4). -/
def inflatesBack (data s : List Byte) (z : Bool) : Bool :=
  match inflateStream z (Port.ofBytes s) openBus (Sink.start 0 data.length) with
  | .error _ => false
  | .ok r =>
    decide (r.sink.out = data) && decide (r.used = s.length) &&
      (r.pads.all fun g => zeroBits s g.1 (g.2 - g.1)) && zeroBits s r.pos (8 * s.length - r.pos)

/-- `s` is in ADMISSIBLE(data, Z) (R301). That exactly the last block is final, and the ranges of lengths and distances,
follow from the decoding (R301, conditions 2 and 4). -/
def admissible (data : List Byte) (z : Bool) (s : List Byte) : Bool :=
  inflatesBack data s z &&
    decide (s.length ≤ sizeBound data.length z) &&
    (!z || (decide (s.take 2 = [0x78, 0x01]) && decide (s.drop (s.length - 4) = be32bytes (adler32 data)))) &&
    (!data.isEmpty || decide (s = emptyStream z))

/-- The output of DEFLATE (R300): level 0 is exact; the empty input has one stream; otherwise the device's choice, a member
of ADMISSIBLE. `Config.deflateChoice` is unconstrained, so where it proposes no member the stored stream, always a
fallback, stands for it (log entry 6). -/
def deflateStream (data : List Byte) (level : Nat) (z : Bool) : List Byte :=
  if level = 0 then storedStream data z
  else if data.isEmpty then emptyStream z
  else
    let s := Config.deflateChoice data level z
    if admissible data z s then s else storedStream data z

/-- DEFLATE over a memory snapshot (R300). -/
def deflateBody (level : Nat) (z : Bool) (b : Bus) (a : Args) : Except Raise Done := do
  checkSrcDst a
  let data ← memRead b a.src a.len
  let out := deflateStream data level z
  if a.cap < out.length then .error (full 0)
  else do
    let k ← memWrite b a.sink out
    .ok { result := 0, inUsed := a.srcLen, flags := 0, out := k.out }

/-- DEFLATE at a level, raw stream (R300, Z = 0). -/
def execDeflate (level : BitVec 4) (s : State) : Host.Outcome State Fault Refusal :=
  .next (complete true (deflateBody level.toNat false s.bus s.latch.args) s)

/-- DEFLATE.Z at a level, zlib stream (R300, Z = 1). -/
def execDeflateZ (level : BitVec 4) (s : State) : Host.Outcome State Fault Refusal :=
  .next (complete true (deflateBody level.toNat true s.bus s.latch.args) s)

end Sys2Proof.Machine
end

