-- ==== Sys2Proof/Machine/Filter.lean ====
section
/-! DEFINITION. The scanline filter unit (rules R141, R380 to R397). -/

namespace Sys2Proof.Machine

/-- The five filters; a filter's type byte is its number (R141, R383 to R387). -/
inductive FilterType where
  | none
  | sub
  | up
  | avg
  | paeth
  deriving DecidableEq, Repr

/-- The filter-type byte (R141). -/
def FilterType.code : FilterType → Nat
  | .none => 0
  | .sub => 1
  | .up => 2
  | .avg => 3
  | .paeth => 4

/-- The filter of a type byte; 5 to 255 are unrecognised (R141). -/
def filterOf (t : Nat) : Option FilterType :=
  match t with
  | 0 => some .none
  | 1 => some .sub
  | 2 => some .up
  | 3 => some .avg
  | 4 => some .paeth
  | _ => Option.none

/-- |p - v| for the exact integer p = a + b - c (R387). -/
def paethDistance (a b c v : Nat) : Nat := (((a : Int) + b - c) - v).natAbs

/-- paeth_predict(a, b, c): the nearest of a, b, c to a + b - c, ties in that order (R387). -/
def paethPredict (a b c : Nat) : Nat :=
  let pa := paethDistance a b c a
  let pb := paethDistance a b c b
  let pc := paethDistance a b c c
  if pa ≤ pb ∧ pa ≤ pc then a else if pb ≤ pc then b else c

/-- The predictor on exact numbers (R383 to R388). -/
def predict (t : FilterType) (a b c : Nat) : Nat :=
  match t with
  | .none => 0
  | .sub => a
  | .up => b
  | .avg => (a + b) / 2
  | .paeth => paethPredict a b c

/-- The byte `bpp` positions back among the bytes already passed (newest first), or 0 where there is none (R382). -/
def backByte (bpp : Nat) (passed : List Byte) : Byte := passed.getD (bpp - 1) 0

/-- The predicted byte at a position: a and c from the bytes passed in the current and the previous row, b above (R382). -/
def predictByte (t : FilterType) (bpp : Nat) (curPassed prevPassed : List Byte) (above : Byte) : Byte :=
  BitVec.ofNat 8 (predict t (backByte bpp curPassed).toNat above.toNat (backByte bpp prevPassed).toNat)

/-- Row reverse (R389): the filtered bytes and the previous row from a position on; `curPassed` and `prevPassed` hold the
unfiltered bytes already passed, newest first. -/
def reverseFrom (t : FilterType) (bpp : Nat) : List Byte → List Byte → List Byte → List Byte → List Byte
  | f :: filt, b :: prev, curPassed, prevPassed =>
    let x := f + predictByte t bpp curPassed prevPassed b
    x :: reverseFrom t bpp filt prev (x :: curPassed) (b :: prevPassed)
  | _, _, _, _ => []

/-- Row reverse (R389). -/
def reverseRow (t : FilterType) (bpp : Nat) (filt prev : List Byte) : List Byte := reverseFrom t bpp filt prev [] []

/-- Row apply (R391) from a position on; see `reverseFrom`. -/
def applyFrom (t : FilterType) (bpp : Nat) : List Byte → List Byte → List Byte → List Byte → List Byte
  | x :: cur, b :: prev, curPassed, prevPassed =>
    (x - predictByte t bpp curPassed prevPassed b) :: applyFrom t bpp cur prev (x :: curPassed) (b :: prevPassed)
  | _, _, _, _ => []

/-- Row apply (R391). -/
def applyRow (t : FilterType) (bpp : Nat) (cur prev : List Byte) : List Byte := applyFrom t bpp cur prev [] []

/-- The cost of one filtered byte: its absolute value as a signed byte (R394). -/
def byteCost (v : Byte) : Nat := if v.toNat < 128 then v.toNat else 256 - v.toNat

/-- The cost of a filtered row (R394). -/
def rowCost (filt : List Byte) : Nat := filt.foldl (fun n v => n + byteCost v) 0

/-- The better of two filters for a row: the lower cost, and the first of equals (R394). -/
def cheaper (bpp : Nat) (cur prev : List Byte) (t u : FilterType) : FilterType :=
  if rowCost (applyRow u bpp cur prev) < rowCost (applyRow t bpp cur prev) then u else t

/-- select(cur, prev): the filter of lowest cost, the lowest type among equals (R394). -/
def selectFilter (bpp : Nat) (cur prev : List Byte) : FilterType :=
  [FilterType.sub, .up, .avg, .paeth].foldl (cheaper bpp cur prev) .none

/-- The filter used for a row: the one MOD names, or the per-row selection where MOD names none (R392, R394). -/
def filterFor (choice : Option FilterType) (bpp : Nat) (cur prev : List Byte) : FilterType :=
  match choice with
  | some t => t
  | Option.none => selectFilter bpp cur prev

/-- The previous row of row 0 (R390, R392). -/
def zeroRow (n : Nat) : List Byte := List.replicate n 0

/-- The row loop of FLT.REVERSE with `n` rows left; `base` is the row's offset in the source (R390). -/
def reverseRows (b : Bus) (a : Args) : Nat → Nat → List Byte → Sink → Except Raise Sink
  | 0, _, _, o => .ok o
  | n + 1, base, prev, o => do
    let t ← busRead b (a.src + base)
    match filterOf t.toNat with
    | Option.none => .error { err := .corrupt .filterType, info := base }
    | some f => do
      let filt ← memRead b (a.src + base + 1) a.rowBytes
      let cur := reverseRow f a.bpp filt prev
      let o' ← memWrite b o cur
      reverseRows b a n (base + (1 + a.rowBytes)) cur o'

/-- FLT.REVERSE over a memory snapshot (R390). -/
def reverseBody (b : Bus) (a : Args) : Except Raise Done := do
  checkSrcDst a
  checkGeometry a
  if a.len < a.filteredBytes then .error { err := .corrupt .filterTrunc, info := a.len }
  else if a.cap < a.rawBytes then .error (full 0)
  else do
    let o ← reverseRows b a a.rows 0 (zeroRow a.rowBytes) a.sink
    .ok { result := 0, inUsed := BitVec.ofNat 32 a.filteredBytes, flags := 0, out := o.out }

/-- The row loop of FLT.APPLY with `n` rows left; `base` is the row's offset in the source (R392). -/
def applyRows (b : Bus) (a : Args) (choice : Option FilterType) : Nat → Nat → List Byte → Sink → Except Raise Sink
  | 0, _, _, o => .ok o
  | n + 1, base, prev, o => do
    let cur ← memRead b (a.src + base) a.rowBytes
    let t := filterFor choice a.bpp cur prev
    let o' ← memWrite b o (lowByte t.code :: applyRow t a.bpp cur prev)
    applyRows b a choice n (base + a.rowBytes) cur o'

/-- FLT.APPLY over a memory snapshot (R392). -/
def applyBody (choice : Option FilterType) (b : Bus) (a : Args) : Except Raise Done := do
  checkSrcDst a
  checkGeometry a
  if a.len < a.rawBytes then .error (paramError .srcShort 0)
  else if a.cap < a.filteredBytes then .error (full 0)
  else do
    let o ← applyRows b a choice a.rows 0 (zeroRow a.rowBytes) a.sink
    .ok { result := 0, inUsed := BitVec.ofNat 32 a.rawBytes, flags := 0, out := o.out }

/-- FLT.REVERSE (R390). -/
def execFltReverse (s : State) : Host.Outcome State Fault Refusal :=
  .next (complete true (reverseBody s.bus s.latch.args) s)

/-- FLT.APPLY.NONE (R383, R392). -/
def execFltApplyNone (s : State) : Host.Outcome State Fault Refusal :=
  .next (complete true (applyBody (some .none) s.bus s.latch.args) s)

/-- FLT.APPLY.SUB (R384, R392). -/
def execFltApplySub (s : State) : Host.Outcome State Fault Refusal :=
  .next (complete true (applyBody (some .sub) s.bus s.latch.args) s)

/-- FLT.APPLY.UP (R385, R392). -/
def execFltApplyUp (s : State) : Host.Outcome State Fault Refusal :=
  .next (complete true (applyBody (some .up) s.bus s.latch.args) s)

/-- FLT.APPLY.AVG (R386, R392). -/
def execFltApplyAvg (s : State) : Host.Outcome State Fault Refusal :=
  .next (complete true (applyBody (some .avg) s.bus s.latch.args) s)

/-- FLT.APPLY.PAETH (R387, R392). -/
def execFltApplyPaeth (s : State) : Host.Outcome State Fault Refusal :=
  .next (complete true (applyBody (some .paeth) s.bus s.latch.args) s)

/-- FLT.APPLY.AUTO (R392, R394). -/
def execFltApplyAuto (s : State) : Host.Outcome State Fault Refusal :=
  .next (complete true (applyBody Option.none s.bus s.latch.args) s)

end Sys2Proof.Machine
end

