-- ==== Sys2Proof/Machine/Framer.lean ====
section
/-! DEFINITION. The PNG chunk framer (rules R130 to R133, R340 to R354). -/

namespace Sys2Proof.Machine

/-- The PNG signature (R131, R340). -/
def pngSignature : List Byte := [0x89, 0x50, 0x4E, 0x47, 0x0D, 0x0A, 0x1A, 0x0A]

/-- The tag IDAT (R133, R340). -/
def tagIdat : List Byte := [0x49, 0x44, 0x41, 0x54]

/-- The tag IEND (R133, R340). -/
def tagIend : List Byte := [0x49, 0x45, 0x4E, 0x44]

/-- A chunk on the wire (R132). -/
def chunkBytes (tag data : List Byte) : List Byte :=
  be32bytes data.length ++ tag ++ data ++ be32bytes (crc32 (tag ++ data)).toNat

/-- FormatError(sub, info) (R442). -/
def formatError (k : FormatSub) (info : Nat) : Raise := { err := .format k, info := info }

/-! ## Parse -/

/-- What the chunk read step gives (R342). -/
structure Chunk where
  len : Nat
  tag : List Byte
  data : List Byte
  crc : Nat
  deriving DecidableEq, Repr

/-- The chunk read step at input offset `p` (R342). -/
def readChunk (b : Bus) (a : Args) (p : Nat) : Except Raise Chunk :=
  if a.len - p < 12 then .error (formatError .truncated p)
  else do
    let h ← memRead b (a.src + p) 8
    let l := be32 (h.take 4)
    let t := h.drop 4
    if Config.framerMaxLen < l then .error (formatError .length p)
    else if a.len - p < 12 + l then .error (formatError .truncated p)
    else do
      let d ← memRead b (a.src + p + 8) l
      let c ← memRead b (a.src + p + 8 + l) 4
      if (crc32 (t ++ d)).toNat ≠ be32 c then .error (formatError .crc p)
      else .ok { len := l, tag := t, data := d, crc := be32 c }

/-- The descriptor of a chunk whose data lies at `addr` (R130). -/
def descriptor (c : Chunk) (addr : Nat) : List Byte := c.tag ++ le32bytes c.len ++ le32bytes addr ++ le32bytes c.crc

/-- The signature check (R341). DESIGN CHOICE (log entry 14): all 8 bytes are read before any is compared, so a later byte whose
read does not complete gives BusError(READ) also where an earlier byte differs. -/
def checkSignature (b : Bus) (a : Args) : Except Raise Unit :=
  if a.len < 8 then .error (formatError .signature 0)
  else do
    let h ← memRead b a.src 8
    if h ≠ pngSignature then .error (formatError .signature 0) else .ok ()

/-- Where parsing stopped (R343). -/
structure ParseEnd where
  p       : Nat
  k       : Nat
  iend    : Bool
  maxStop : Bool
  sink    : Sink
  deriving DecidableEq, Repr

/-- The chunk loop from offset `p` on with `k` chunks parsed (R343). Every round goes on by at least 12 bytes, so with `n` at
least the bytes left, at `n = 0` the input is at its end. -/
def parseChunks (b : Bus) (a : Args) : Nat → Nat → Nat → Sink → Except Raise ParseEnd
  | 0, p, k, o => .ok { p := p, k := k, iend := false, maxStop := false, sink := o }
  | n + 1, p, k, o =>
    if p < a.len then do
      let c ← readChunk b a p
      if a.cap < 16 * (k + 1) then .error (full p)
      else do
        let o' ← memWrite b o (descriptor c (a.src + p + 8))
        let p' := p + 12 + c.len
        if c.tag = tagIend then .ok { p := p', k := k + 1, iend := true, maxStop := false, sink := o' }
        else if a.arg0.toNat ≠ 0 ∧ k + 1 = a.arg0.toNat then
          .ok { p := p', k := k + 1, iend := false, maxStop := true, sink := o' }
        else parseChunks b a n p' (k + 1) o'
    else .ok { p := p, k := k, iend := false, maxStop := false, sink := o }

/-- FRM.PARSE over a memory snapshot (R343). -/
def parseBody (b : Bus) (a : Args) : Except Raise Done := do
  checkSrcTable a
  checkSignature b a
  let e ← parseChunks b a a.len 8 0 a.sink
  .ok { result := BitVec.ofNat 32 e.k, inUsed := BitVec.ofNat 32 e.p,
        flags := parseFlags e.iend (decide (e.p < a.len)) e.maxStop, out := e.sink.out }

/-! ## Descriptor tables -/

/-- A descriptor entry as the framer reads it (R130); its CRC field is ignored on input. -/
structure Entry where
  tag  : List Byte
  len  : Nat
  addr : Nat
  deriving DecidableEq, Repr

/-- The entry held by 16 bytes (R130). -/
def entryOf (e : List Byte) : Entry :=
  { tag := e.take 4, len := le32 ((e.drop 4).take 4), addr := le32 ((e.drop 8).take 4) }

/-- Entry `k` of the table at AUX_ADDR (R130). -/
def readEntry (b : Bus) (a : Args) (k : Nat) : Except Raise Entry := do
  let e ← memRead b (a.aux + 16 * k) 16
  .ok (entryOf e)

/-- The bounds and overlap checks of an entry's data region (R88, R89). -/
def checkEntry (a : Args) (e : Entry) (k : Nat) : Except Raise Unit := do
  checkRegion e.addr e.len k
  checkOverlap e.addr e.len a.dst a.cap k

/-! ## IDAT concatenation -/

/-- The entry loop of FRM.IDATCAT with `n` entries left, from entry `k` on, `m` IDAT entries copied (R347). -/
def catEntries (b : Bus) (a : Args) : Nat → Nat → Nat → Sink → Except Raise (Nat × Sink)
  | 0, _, m, o => .ok (m, o)
  | n + 1, k, m, o => do
    let e ← readEntry b a k
    if e.tag ≠ tagIdat then catEntries b a n (k + 1) m o
    else do
      checkEntry a e k
      if a.cap < o.n + e.len then .error (full k)
      else do
        let d ← memRead b e.addr e.len
        let o' ← memWrite b o d
        catEntries b a n (k + 1) (m + 1) o'

/-- A count as a 32-bit register shows it. A count that does not fit has no stated value: a free word (log entry 8). -/
def countWord (n : Nat) : Word := if n < Config.addrSpace then BitVec.ofNat 32 n else Config.overlongWord n

/-- FRM.IDATCAT over a memory snapshot (R347). -/
def idatcatBody (b : Bus) (a : Args) : Except Raise Done := do
  checkTableDst a
  let (m, o) ← catEntries b a a.entries 0 0 a.sink
  if m = 0 then .error (formatError .noIdat 0)
  else .ok { result := BitVec.ofNat 32 m, inUsed := countWord a.tableLen, flags := 0, out := o.out }

/-! ## Serialize -/

/-- `put(bytes, j)` (R350). -/
def putBytes (b : Bus) (a : Args) (o : Sink) (bytes : List Byte) (j : Nat) : Except Raise Sink :=
  if a.cap < o.n + bytes.length then .error (full j) else memWrite b o bytes

/-- How the entry loop of FRM.SERIALIZE ended (R350). -/
structure SerializeEnd where
  w     : Nat
  used  : Nat
  ended : Bool
  sink  : Sink
  deriving DecidableEq, Repr

/-- The checks of an entry before its data is read (R350). -/
def checkSerialEntry (a : Args) (e : Entry) (k : Nat) : Except Raise Unit :=
  if Config.framerMaxLen < e.len then .error (paramError .chunkLen k)
  else if e.tag = tagIend ∧ e.len ≠ 0 then .error (paramError .iendLen k)
  else checkEntry a e k

/-- The entry loop of FRM.SERIALIZE with `n` entries left, from entry `k` on (R350). -/
def serializeEntries (b : Bus) (a : Args) : Nat → Nat → Sink → Except Raise SerializeEnd
  | 0, k, o => .ok { w := k, used := 16 * k, ended := false, sink := o }
  | n + 1, k, o => do
    let e ← readEntry b a k
    checkSerialEntry a e k
    let d ← memRead b e.addr e.len
    let o' ← putBytes b a o (chunkBytes e.tag d) k
    if e.tag = tagIend then .ok { w := k + 1, used := 16 * (k + 1), ended := true, sink := o' }
    else serializeEntries b a n (k + 1) o'

/-- The closing IEND chunk, where the table had none (R350, R351): the number of chunks, whether one was appended, the
output. -/
def closeStream (b : Bus) (a : Args) (e : SerializeEnd) : Except Raise (Nat × Bool × Sink) :=
  if e.ended then .ok (e.w, false, e.sink)
  else do
    let o ← putBytes b a e.sink (chunkBytes tagIend []) a.entries
    .ok (e.w + 1, true, o)

/-- FRM.SERIALIZE over a memory snapshot (R350). -/
def serializeBody (b : Bus) (a : Args) : Except Raise Done := do
  checkTableDst a
  let o ← putBytes b a a.sink pngSignature 0
  let e ← serializeEntries b a a.entries 0 o
  let (w, appended, o') ← closeStream b a e
  .ok { result := BitVec.ofNat 32 w, inUsed := BitVec.ofNat 32 e.used, flags := serializeFlags appended, out := o'.out }

/-! ## Meanings -/

/-- FRM.PARSE (R343). -/
def execFrmParse (s : State) : Host.Outcome State Fault Refusal :=
  .next (complete true (parseBody s.bus s.latch.args) s)

/-- FRM.IDATCAT (R347). -/
def execFrmIdatcat (s : State) : Host.Outcome State Fault Refusal :=
  .next (complete true (idatcatBody s.bus s.latch.args) s)

/-- FRM.SERIALIZE (R350). -/
def execFrmSerialize (s : State) : Host.Outcome State Fault Refusal :=
  .next (complete true (serializeBody s.bus s.latch.args) s)

end Sys2Proof.Machine
end

