-- ==== Sys2Proof/Machine/Dispatch.lean ====
section
/-! DEFINITION. One arm per command: the execute step of a command runs its meaning over the latched values (rule R124). -/

namespace Sys2Proof.Machine

def exec (i : Instr) (s : State) : Host.Outcome State Fault Refusal :=
  match i with
  | .nop => Sys2Proof.Machine.execNop s
  | .crcCompute => Sys2Proof.Machine.execCrcCompute s
  | .crcVerify => Sys2Proof.Machine.execCrcVerify s
  | .inflate => Sys2Proof.Machine.execInflate s
  | .inflateZ => Sys2Proof.Machine.execInflateZ s
  | .deflate level => Sys2Proof.Machine.execDeflate level s
  | .deflateZ level => Sys2Proof.Machine.execDeflateZ level s
  | .frmParse => Sys2Proof.Machine.execFrmParse s
  | .frmIdatcat => Sys2Proof.Machine.execFrmIdatcat s
  | .frmSerialize => Sys2Proof.Machine.execFrmSerialize s
  | .fltReverse => Sys2Proof.Machine.execFltReverse s
  | .fltApplyNone => Sys2Proof.Machine.execFltApplyNone s
  | .fltApplySub => Sys2Proof.Machine.execFltApplySub s
  | .fltApplyUp => Sys2Proof.Machine.execFltApplyUp s
  | .fltApplyAvg => Sys2Proof.Machine.execFltApplyAvg s
  | .fltApplyPaeth => Sys2Proof.Machine.execFltApplyPaeth s
  | .fltApplyAuto => Sys2Proof.Machine.execFltApplyAuto s

end Sys2Proof.Machine
end

