-- ==== Sys2Proof/Machine/RegMap.lean ====
section
/-! DEFINITION. The register block (rules R31 to R46) and the host's register accesses (rules R421 to R426, R124, R125). -/

namespace Sys2Proof.Machine

/-- The registers of the block (R31). -/
inductive Reg where
  | id
  | ctrl
  | status
  | cmd
  | srcAddr
  | srcLen
  | dstAddr
  | dstCap
  | auxAddr
  | arg0
  | arg1
  | arg2
  | result
  | outLen
  | inUsed
  | flagsOut
  | errCode
  | errInfo
  deriving DecidableEq, Repr

/-- The offset of a register (R31). -/
def Reg.offset : Reg → Nat
  | .id => 0x00
  | .ctrl => 0x04
  | .status => 0x08
  | .cmd => 0x0C
  | .srcAddr => 0x10
  | .srcLen => 0x14
  | .dstAddr => 0x18
  | .dstCap => 0x1C
  | .auxAddr => 0x20
  | .arg0 => 0x24
  | .arg1 => 0x28
  | .arg2 => 0x2C
  | .result => 0x30
  | .outLen => 0x34
  | .inUsed => 0x38
  | .flagsOut => 0x3C
  | .errCode => 0x40
  | .errInfo => 0x44

/-- The register at an offset; an aligned offset not listed is reserved (R31). -/
def regAt (offset : Nat) : Option Reg :=
  match offset with
  | 0x00 => some .id
  | 0x04 => some .ctrl
  | 0x08 => some .status
  | 0x0C => some .cmd
  | 0x10 => some .srcAddr
  | 0x14 => some .srcLen
  | 0x18 => some .dstAddr
  | 0x1C => some .dstCap
  | 0x20 => some .auxAddr
  | 0x24 => some .arg0
  | 0x28 => some .arg1
  | 0x2C => some .arg2
  | 0x30 => some .result
  | 0x34 => some .outLen
  | 0x38 => some .inUsed
  | 0x3C => some .flagsOut
  | 0x40 => some .errCode
  | 0x44 => some .errInfo
  | _ => none

/-- The address of an offset of the window at REG_BASE (R31). -/
def regAddress (p : Platform) (offset : Nat) : Word := p.regBase + BitVec.ofNat 32 offset

/-- The offset an address has in the 256-byte window at REG_BASE, if it is in it (R31). DESIGN CHOICE (log entry 13): REG_BASE
is any 32-bit address, and a window that passes the top of the host's 32-bit address space goes on at address 0. -/
def windowOffset (p : Platform) (addr : Word) : Option Nat :=
  if (addr - p.regBase).toNat < 256 then some (addr - p.regBase).toNat else none

/-- A result register reads 0 while BUSY (R46, R423). -/
def whileIdle (s : State) (v : Word) : Word := if s.status.busy then 0 else v

/-- The value a host read of a register returns (R423). -/
def readReg (s : State) (r : Reg) : Word :=
  match r with
  | .id => Config.idValue
  | .ctrl => s.ctrlWord
  | .status => s.status.word
  | .cmd => s.cmd
  | .srcAddr => s.args.srcAddr
  | .srcLen => s.args.srcLen
  | .dstAddr => s.args.dstAddr
  | .dstCap => s.args.dstCap
  | .auxAddr => s.args.auxAddr
  | .arg0 => s.args.arg0
  | .arg1 => s.args.arg1
  | .arg2 => s.args.arg2
  | .result => whileIdle s s.results.result
  | .outLen => whileIdle s s.results.outLen
  | .inUsed => whileIdle s s.results.inUsed
  | .flagsOut => whileIdle s s.results.flagsOut
  | .errCode => whileIdle s s.results.errCode
  | .errInfo => whileIdle s s.results.errInfo

/-- The value a host read at an offset returns; a reserved offset reads 0 (R31, R423). -/
def hostRead (s : State) (offset : Nat) : Word :=
  match regAt offset with
  | some r => readReg s r
  | none => 0

/-- A CMD write: a start while IDLE (R124), dropped with STATUS.OVR set while BUSY (R125). -/
def writeCmd (w : Word) (s : State) : State :=
  if s.status.busy then { s with status := { s.status with ovr := true } } else startCommand w s

/-- A CTRL write: the soft reset wins over IE (R422). -/
def writeCtrl (w : Word) (s : State) : State :=
  if w.getLsbD 1 then softReset s else { s with ie := w.getLsbD 0 }

/-- A host write to a register (R421, R422, R424, R425). -/
def writeReg (s : State) (r : Reg) (w : Word) : State :=
  match r with
  | .id => s
  | .ctrl => writeCtrl w s
  | .status => { s with status := s.status.clear w }
  | .cmd => writeCmd w s
  | .srcAddr => { s with args := { s.args with srcAddr := w } }
  | .srcLen => { s with args := { s.args with srcLen := w } }
  | .dstAddr => { s with args := { s.args with dstAddr := w } }
  | .dstCap => { s with args := { s.args with dstCap := w } }
  | .auxAddr => { s with args := { s.args with auxAddr := w } }
  | .arg0 => { s with args := { s.args with arg0 := w } }
  | .arg1 => { s with args := { s.args with arg1 := w } }
  | .arg2 => { s with args := { s.args with arg2 := w } }
  | .result => s
  | .outLen => s
  | .inUsed => s
  | .flagsOut => s
  | .errCode => s
  | .errInfo => s

/-- A host write at an offset; a reserved offset ignores it (R31, R424). -/
def hostWrite (s : State) (offset : Nat) (w : Word) : State :=
  match regAt offset with
  | some r => writeReg s r w
  | none => s

end Sys2Proof.Machine
end

