-- ==== Sys2Proof/Machine/HostPort.lean ====
section
/-! DEFINITION. The host's and the platform's moves (rules R90 to R92, R421 to R427, R481) as events on the state, and the
host duties of rule R91. -/

namespace Sys2Proof.Machine

/-! ## Host duties (R91; log entry 5) -/

/-- The command reads the source region (R127). -/
def usesSource : Instr → Bool
  | .nop => false
  | .crcCompute => true
  | .crcVerify => true
  | .inflate => true
  | .inflateZ => true
  | .deflate _ => true
  | .deflateZ _ => true
  | .frmParse => true
  | .frmIdatcat => false
  | .frmSerialize => false
  | .fltReverse => true
  | .fltApplyNone => true
  | .fltApplySub => true
  | .fltApplyUp => true
  | .fltApplyAvg => true
  | .fltApplyPaeth => true
  | .fltApplyAuto => true

/-- The command reads the descriptor table (R127). -/
def usesTable : Instr → Bool
  | .nop => false
  | .crcCompute => false
  | .crcVerify => false
  | .inflate => false
  | .inflateZ => false
  | .deflate _ => false
  | .deflateZ _ => false
  | .frmParse => false
  | .frmIdatcat => true
  | .frmSerialize => true
  | .fltReverse => false
  | .fltApplyNone => false
  | .fltApplySub => false
  | .fltApplyUp => false
  | .fltApplyAvg => false
  | .fltApplyPaeth => false
  | .fltApplyAuto => false

/-- The command writes the destination region (R127). -/
def usesDestination : Instr → Bool
  | .nop => false
  | .crcCompute => false
  | .crcVerify => false
  | .inflate => true
  | .inflateZ => true
  | .deflate _ => true
  | .deflateZ _ => true
  | .frmParse => true
  | .frmIdatcat => true
  | .frmSerialize => true
  | .fltReverse => true
  | .fltApplyNone => true
  | .fltApplySub => true
  | .fltApplyUp => true
  | .fltApplyAvg => true
  | .fltApplyPaeth => true
  | .fltApplyAuto => true

/-- The address is in the region `[base, base + len)`. -/
def inRegion (addr base len : Nat) : Bool := decide (base ≤ addr) && decide (addr < base + len)

/-- The 16 bytes of an entry as memory holds them. -/
def entryBytes (m : Memory) (base : Nat) : List Byte := (List.range 16).map fun i => m.read (base + i)

/-- One of the first `n` entries of a table names the address as chunk data. -/
def tableNames (m : Memory) (aux addr : Nat) : Nat → Bool
  | 0 => false
  | n + 1 =>
    let e := entryOf (entryBytes m (aux + 16 * n))
    inRegion addr e.addr e.len || tableNames m aux addr n

/-- The address is an input byte of the command: source, descriptor table, or chunk data the table names (R91), also where a
region passes the top of the address space and the command will refuse it (R88). -/
def isInput (m : Memory) (i : Instr) (a : Args) (addr : Nat) : Bool :=
  (usesSource i && inRegion addr a.src a.len) ||
    (usesTable i && (inRegion addr a.aux a.tableLen || tableNames m a.aux addr a.entries))

/-- The host duties of one command forbid the access: a write of an input byte, or any access to a destination byte (R91).
DESIGN CHOICE (log entry 5): R91 does not say what binds the host for a started word that is no command; the model protects
the latched destination, which R450 speaks of for IllegalCommand, and no input, since R127 lists none for it. -/
def dutyForbids (m : Memory) (l : Latch) (addr : Nat) (isWrite : Bool) : Bool :=
  match decode l.cmd with
  | .error _ => inRegion addr l.args.dst l.args.cap
  | .ok i => (usesDestination i && inRegion addr l.args.dst l.args.cap) || (isWrite && isInput m i l.args addr)

/-- Some command whose completion the host has not seen forbids the access (R91). -/
def breaksDuty (s : State) (addr : Nat) (isWrite : Bool) : Bool :=
  s.unseen.any fun l => dutyForbids s.mem l addr isWrite

/-- The host has seen that no command runs: the duties of R91 end (R92, R427). -/
def seeCompletion (s : State) : State := { s with unseen := [] }

/-! ## Events -/

/-- A host register read: the value goes to `rdata`; a STATUS read that shows BUSY = 0 ends the duties (R423, R427). Alignment
(R90) is tested on the offset: DESIGN CHOICE, log entry 13. -/
def registerRead (s : State) (addr : Word) : Host.Outcome State Fault Refusal :=
  match windowOffset s.platform addr with
  | none => .refused (.outsideRegisterWindow addr)
  | some o =>
    if o % 4 ≠ 0 then .refused (.misalignedRegisterAccess addr)
    else
      let t := { s with rdata := hostRead s o }
      if regAt o = some .status ∧ s.status.busy = false then .next (seeCompletion t) else .next t

/-- A host register write (R421, R422, R424, R425). Alignment (R90) is tested on the offset: DESIGN CHOICE, log entry 13. -/
def registerWrite (s : State) (addr value : Word) : Host.Outcome State Fault Refusal :=
  match windowOffset s.platform addr with
  | none => .refused (.outsideRegisterWindow addr)
  | some o =>
    if o % 4 ≠ 0 then .refused (.misalignedRegisterAccess addr) else .next (hostWrite s o value)

/-- A host store to system memory (R91, R92). -/
def memoryStore (s : State) (addr : Word) (x : Byte) : Host.Outcome State Fault Refusal :=
  if breaksDuty s addr.toNat true then .refused (.hostDuty addr)
  else .next { s with mem := s.mem.write addr.toNat x }

/-- A host load from system memory: the byte goes to `rdata` (R91, R92). -/
def memoryLoad (s : State) (addr : Word) : Host.Outcome State Fault Refusal :=
  if breaksDuty s addr.toNat false then .refused (.hostDuty addr)
  else .next { s with rdata := (s.mem.read addr.toNat).setWidth 32 }

/-- The host samples IRQ; where it is high it accepts the interrupt and has seen the completion (R92, R427, R455). -/
def sampleIrq (s : State) : State := if s.irq then seeCompletion s else s

/-- The `wait` loop's last read: STATUS with BUSY = 0 (R143, R427). -/
def waitEnds (s : State) : State := seeCompletion { s with rdata := s.status.word }

end Sys2Proof.Machine
end

