-- ==== Sys2Proof/Machine/Step.lean ====
section
/-! DEFINITION. One step of the machine: the next event at the core's boundary, or the core's execute step (rules R30, R124,
R495). -/

namespace Sys2Proof.Machine

/-- The core's execute step: decode the latched word, then run the selected command (R124, R126). -/
def executeStep (s : State) : Host.Outcome State Fault Refusal :=
  match decode s.latch.cmd with
  | .ok i => exec i s
  | .error k => .next (raiseIllegal k s)

/-- The event's effect; the event is already taken off the list. -/
def takeEvent (e : Event) (s : State) : Host.Outcome State Fault Refusal :=
  match e with
  | .regWrite addr value => registerWrite s addr value
  | .regRead addr => registerRead s addr
  | .memStore addr byte => memoryStore s addr byte
  | .memLoad addr => memoryLoad s addr
  | .takeIrq => .next (sampleIrq s)
  | .hardReset image => .next (hardReset image s)
  | .coreStep => if s.status.busy then executeStep s else .next s
  | .wait => .next (waitEnds s)

/-- One step. The next event is taken; `wait` stays until the core is done, and while it stays the core's execute step comes,
as it does where no event is left (R495). With nothing to do the core stays as it is (R461). -/
def step (s : State) : Host.Outcome State Fault Refusal :=
  match s.events with
  | [] => if s.status.busy then executeStep s else .next s
  | .wait :: es => if s.status.busy then executeStep s else takeEvent .wait { s with events := es }
  | e :: es => takeEvent e { s with events := es }

/-- The state in which the command word `w` has just been started, and the core's execute step comes next: the core fetches no
code (R95), so a program comes to it only by CMD writes (R124; log entry 4). -/
def State.withFetchWord (s : State) (nbits w : Nat) : State :=
  { startCommand (tableWord nbits w) s with events := .coreStep :: s.events }

end Sys2Proof.Machine
end

