-- ==== Sys2Proof/Machine/Script.lean ====
section
/-! DEFINITION. Host scripts (rule R142) and the pseudo-instructions (R143), as the events they stand for. -/

namespace Sys2Proof.Machine

/-- A statement of a host script (R142, R143). -/
inductive Stmt where
  /-- `wr REG, value` -/
  | wr (r : Reg) (value : Word)
  /-- `rd REG` -/
  | rd (r : Reg)
  /-- `expect REG, value`: a read whose value the program asserts -/
  | expect (r : Reg) (value : Word)
  /-- `mem ADDR, b0 b1 ...`: bytes in memory before the script runs -/
  | mem (addr : Word) (bytes : List Byte)
  /-- `wait` -/
  | wait
  /-- A command pseudo-instruction: `nop`, `crc.compute`, ... `flt.apply.auto` -/
  | command (i : Instr)
  /-- `clr` -/
  | clr
  /-- `srst` -/
  | srst
  /-- `ie` -/
  | ie
  deriving DecidableEq, Repr

/-- A write of a register as an event on the host's bus (R142). -/
def regWriteEvent (p : Platform) (r : Reg) (v : Word) : Event := .regWrite (regAddress p r.offset) v

/-- A read of a register as an event on the host's bus (R142). -/
def regReadEvent (p : Platform) (r : Reg) : Event := .regRead (regAddress p r.offset)

/-- The events of a statement (R142) and the expansions of the pseudo-instructions (R143). A `mem` line has none: its bytes
belong to the start state. -/
def Stmt.events (p : Platform) : Stmt → List Event
  | .wr r v => [regWriteEvent p r v]
  | .rd r => [regReadEvent p r]
  | .expect r _ => [regReadEvent p r]
  | .mem _ _ => []
  | .wait => [.wait]
  | .command i => [regWriteEvent p .cmd (encode i)]
  | .clr => [regWriteEvent p .status 0x0000000E#32]
  | .srst => [regWriteEvent p .ctrl 0x00000002#32]
  | .ie => [regWriteEvent p .ctrl 0x00000001#32]

/-- The value that the statement asserts of the word it reads, if it asserts one (R142). -/
def Stmt.asserted : Stmt → Option Word
  | .wr _ _ => none
  | .rd _ => none
  | .expect _ v => some v
  | .mem _ _ => none
  | .wait => none
  | .command _ => none
  | .clr => none
  | .srst => none
  | .ie => none

/-- The events of a whole script, in order (R142). -/
def scriptEvents (p : Platform) (script : List Stmt) : List Event := script.flatMap (Stmt.events p)

/-- What a statement puts in memory before the script runs (R142). Bytes past the top of the address space do not exist (R80)
and are not stored. -/
def Stmt.preload (m : Memory) : Stmt → Memory
  | .wr _ _ => m
  | .rd _ => m
  | .expect _ _ => m
  | .mem a bytes => m.writeBytes a.toNat bytes
  | .wait => m
  | .command _ => m
  | .clr => m
  | .srst => m
  | .ie => m

/-- The memory of a script's start state: every `mem` line over the memory given, in order (R142). -/
def scriptMemory (m : Memory) (script : List Stmt) : Memory := script.foldl Stmt.preload m

/-- The start state of a script from a state with no event left: its `mem` bytes stored, and its accesses to come (R142). -/
def State.withScript (s : State) (script : List Stmt) : State :=
  { s with mem := scriptMemory s.mem script, events := s.events ++ scriptEvents s.platform script }

end Sys2Proof.Machine
end

