-- ==== Sys2Proof/Safety.lean ====
section
/-! DEFINITION. The terms claims are stated in: a run that goes on, what a completion of a command leaves, what memory holds,
and the invariant of every step. -/

namespace Sys2Proof.Machine

/-- The step goes on: a next state, no fault and no refusal. -/
def GoesOn (o : Host.Outcome State Fault Refusal) : Prop := ∃ t, o = .next t

/-- The bytes `[base, base + n)` of memory. -/
def memBytes (m : Memory) (base n : Nat) : List Byte := (List.range n).map fun i => m.read (base + i)

/-- The source region's bytes, by the latched operands. -/
def State.sourceBytes (s : State) : List Byte := memBytes s.mem s.latch.args.src s.latch.args.len

/-- Every core read of `[base, base + n)` completes. -/
def Readable (p : Platform) (base n : Nat) : Prop := ∀ a, base ≤ a → a < base + n → memOk p a .read = true

/-- Every core write of `[base, base + n)` completes. -/
def Writable (p : Platform) (base n : Nat) : Prop := ∀ a, base ≤ a → a < base + n → memOk p a .write = true

/-- `x` is the first address of `[base, base + n)` where a core access of the kind does not complete: the byte that MemRead and
MemWrite report (R13). -/
structure FirstHole (p : Platform) (k : Access) (base n x : Nat) : Prop where
  above  : base ≤ x
  below  : x < base + n
  hole   : memOk p x k = false
  before : ∀ a, base ≤ a → a < x → memOk p a k = true

/-- What no command changes: CTRL.IE, CMD, the argument registers, the platform, and the host's side (its next events, its
last read, the duties it carries). -/
structure HostSideKept (s t : State) : Prop where
  ie       : t.ie = s.ie
  cmd      : t.cmd = s.cmd
  args     : t.args = s.args
  platform : t.platform = s.platform
  events   : t.events = s.events
  rdata    : t.rdata = s.rdata
  unseen   : t.unseen = s.unseen

/-- The success completion of R449 with its frame: the named result registers and OUT_LEN, ERR_CODE and ERR_INFO 0, STATUS,
the output bytes from the latched DST_ADDR on, and every other byte as it was. -/
structure Success (s t : State) (result inUsed flags : Word) (out : List Byte) : Prop where
  results   : t.results = { result := result, outLen := BitVec.ofNat 32 out.length, inUsed := inUsed, flagsOut := flags,
                            errCode := 0, errInfo := 0 }
  status    : t.status = { busy := false, done := true, err := false, ovr := s.status.ovr }
  written   : ∀ i, i < out.length → t.mem.read (s.latch.args.dst + i) = out.getD i 0
  elsewhere : ∀ a, (a < s.latch.args.dst ∨ s.latch.args.dst + out.length ≤ a) → t.mem.read a = s.mem.read a
  kept      : HostSideKept s t

/-- The error completion of R450 with its frame: the code and information registers, the other results 0, STATUS, and every
byte outside the latched destination region as it was. -/
structure Failure (s t : State) (e : ErrKind) (info : Nat) : Prop where
  results   : t.results = { result := 0, outLen := 0, inUsed := 0, flagsOut := 0, errCode := e.code,
                            errInfo := BitVec.ofNat 32 info }
  status    : t.status = { busy := false, done := true, err := true, ovr := s.status.ovr }
  elsewhere : ∀ a, (a < s.latch.args.dst ∨ s.latch.args.dst + s.latch.args.cap ≤ a) → t.mem.read a = s.mem.read a
  kept      : HostSideKept s t

/-- Every byte of the latched destination region that exists is a draw: what an error completion leaves there, whatever the
error (R87, R450; log entry 9). -/
def DestinationDrawn (s t : State) : Prop :=
  ∀ a, s.latch.args.dst ≤ a → a < s.latch.args.dst + s.latch.args.cap → a < Config.addrSpace →
    t.mem.read a = Config.freeByte s.draws a

/-- The invariant of the machine. -/
structure State.Inv (s : State) : Prop where
  /-- Memory keeps its canonical form. -/
  memWf          : s.mem.wf = true
  /-- While BUSY, DONE and ERR are 0 and the result registers are 0 (R34, R46, R124). -/
  busyQuiet      : s.status.busy = true → s.status.done = false ∧ s.status.err = false ∧ s.results = Results.zero
  /-- While BUSY, CMD is the latched word (R35, R124, R125). -/
  busyCmd        : s.status.busy = true → s.latch.cmd = s.cmd
  /-- While BUSY, the running command's duties bind the host (R91). -/
  busyDuty       : s.status.busy = true → s.latch ∈ s.unseen
  /-- ERR_CODE is 0 or a pair of the table of R442. -/
  codeLegal      : s.results.errCode = 0 ∨ ∃ e : ErrKind, s.results.errCode = e.code
  /-- STATUS.ERR = 1 only with an error code (R34, R450). -/
  errCoded       : s.status.err = true → s.results.errCode ≠ 0
  /-- With an error code no other result stands (R450). -/
  errNoResults   : s.results.errCode ≠ 0 →
    s.results.result = 0 ∧ s.results.outLen = 0 ∧ s.results.inUsed = 0 ∧ s.results.flagsOut = 0
  /-- ERR_INFO is 0 where ERR_CODE is 0 (R443, R449). -/
  okNoInfo       : s.results.errCode = 0 → s.results.errInfo = 0
  /-- FLAGS_OUT[31:3] is 0 (R43). -/
  flagsSmall     : s.results.flagsOut.toNat < 8

/-! ## Streams, tables and images as whole sequences -/

/-- The wire form of a list of chunks, each a tag and its data (R132). -/
def wireBytes (cs : List (List Byte × List Byte)) : List Byte := cs.flatMap fun c => chunkBytes c.1 c.2

/-- The tags are 4 bytes and the data at most 2^31 - 1 bytes (R342). -/
def ChunksOk (cs : List (List Byte × List Byte)) : Prop :=
  ∀ c, c ∈ cs → c.1.length = 4 ∧ c.2.length ≤ Config.framerMaxLen

/-- The descriptor table of a list of chunks whose first length field lies at `addr` (R130, R343). -/
def tableBytes : Nat → List (List Byte × List Byte) → List Byte
  | _, [] => []
  | addr, c :: cs =>
    c.1 ++ le32bytes c.2.length ++ le32bytes (addr + 8) ++ le32bytes (crc32 (c.1 ++ c.2)).toNat ++
      tableBytes (addr + 12 + c.2.length) cs

/-- Entry `k` of the table at AUX_ADDR as memory holds it (R130). -/
def State.entry (s : State) (k : Nat) : Entry := entryOf (memBytes s.mem (s.latch.args.aux + 16 * k) 16)

/-- The data an entry names. -/
def State.entryData (s : State) (e : Entry) : List Byte := memBytes s.mem e.addr e.len

/-- An entry's data region is inside the address space, apart from the destination, and readable (R88, R89). -/
def State.EntryOk (s : State) (e : Entry) : Prop :=
  regionOk e.addr e.len = true ∧ overlaps e.addr e.len s.latch.args.dst s.latch.args.cap = false ∧
    Readable s.platform e.addr e.len

/-- The filtered form of an image: rows of `rowBytes` bytes, each after its type byte; `prev` is the row above (R141, R392). -/
def filterImage (choice : Option FilterType) (bpp rowBytes : Nat) : Nat → List Byte → List Byte → List Byte
  | 0, _, _ => []
  | n + 1, prev, img =>
    let cur := img.take rowBytes
    let t := filterFor choice bpp cur prev
    (lowByte t.code :: applyRow t bpp cur prev) ++ filterImage choice bpp rowBytes n cur (img.drop rowBytes)

/-- The image of a filtered form; none where a row's type byte is unrecognised or missing (R141, R390). -/
def unfilterImage (bpp rowBytes : Nat) : Nat → List Byte → List Byte → Option (List Byte)
  | 0, _, _ => some []
  | _ + 1, _, [] => Option.none
  | n + 1, prev, t :: f =>
    match filterOf t.toNat with
    | Option.none => Option.none
    | some ft =>
      let cur := reverseRow ft bpp (f.take rowBytes) prev
      (unfilterImage bpp rowBytes n cur (f.drop rowBytes)).map (cur ++ ·)

/-- The filter geometry passes every check of R381. -/
structure GeometryOk (a : Args) : Prop where
  bpp      : a.bpp = 1 ∨ a.bpp = 4
  rows     : 0 < a.rows
  rowBytes : 0 < a.rowBytes
  stride   : a.rowBytes % a.bpp = 0
  size     : a.filteredBytes ≤ 4294967295

/-- The source and destination regions pass the checks of R88 and R89. -/
structure SrcDstOk (a : Args) : Prop where
  src   : regionOk a.src a.len = true
  dst   : regionOk a.dst a.cap = true
  apart : overlaps a.src a.len a.dst a.cap = false

/-- The descriptor table and the destination region pass the checks of R86, R88 and R89. -/
structure TableDstOk (a : Args) : Prop where
  table : regionOk a.aux a.tableLen = true
  dst   : regionOk a.dst a.cap = true
  align : a.aux % 4 = 0
  apart : overlaps a.aux a.tableLen a.dst a.cap = false

/-- A Huffman code is complete: the lengths fill the code space exactly (R240, R241). -/
def kraftSum (lens : List Nat) : Nat := ((List.range 15).map fun i => countLen lens (i + 1) * 2 ^ (14 - i)).sum

/-- The bits at the cursor spell a code of `n` bits, most significant bit first (R15, R242). -/
def Spells (p : Port) (pos n code : Nat) : Prop :=
  ∀ j, j < n → readBit p (pos + j) = .ok (code.testBit (n - 1 - j))

/-- The `n` bits at the cursor are the number `v`, first bit least significant (R15). -/
def BitsAt (p : Port) (pos n v : Nat) : Prop := v < 2 ^ n ∧ ∀ j, j < n → readBit p (pos + j) = .ok (v.testBit j)

/-- The canonical code of a symbol stands at the cursor and ends at `q` (R242). -/
def SymbolAt (p : Port) (lens : List Nat) (pos sym q : Nat) : Prop :=
  sym < lens.length ∧ 1 ≤ lens.getD sym 0 ∧ lens.getD sym 0 ≤ 15 ∧ q = pos + lens.getD sym 0 ∧
    Spells p pos (lens.getD sym 0) (codeOf lens sym)

/-! ## Parts of a DEFLATE stream, said by the bits that stand on the wire -/

/-- The bits of the source region (R15, R230): bit `pos mod 8` of byte `pos / 8`; TRUNCATED past SRC_LEN; BusError(READ) where the
byte's read does not complete. -/
def SourceBitsRule : Prop :=
  ∀ (b : Bus) (base len pos : Nat),
    let bit := readBit (Port.ofRegion b base len) pos
    (len ≤ pos / 8 → bit = .error (corruptAt .truncated pos)) ∧
    (pos / 8 < len →
      (memOk b.platform (base + pos / 8) .read = true → bit = .ok ((b.mem.read (base + pos / 8)).getLsbD (pos % 8))) ∧
      (memOk b.platform (base + pos / 8) .read = false → bit = .error { err := .bus .read, info := base + pos / 8 }))

/-- Stored block (R246), the header bits read: LEN and NLEN after the byte boundary, NLEN = LEN xor 0xFFFF, then LEN bytes, each
put out as it is read; `data` is the bytes that went out. The pad bits that the alignment skips may have any value. -/
def StoredBlockRule : Prop :=
  ∀ (p : Port) (b : Bus) (r : Inflater),
    let q := (r.pos + 7) / 8 * 8
    let go := storedBlock p b r
    (∀ e, readBits p 32 q = .error e → go = .error e) ∧
    ∀ len nlen, BitsAt p q 16 len → BitsAt p (q + 16) 16 nlen →
      (nlen ≠ 65535 - len → go = .error (corruptAt .storedLen (q + 32))) ∧
      (nlen = 65535 - len → ∀ data : List Byte, data.length ≤ len →
        (∀ i, i < data.length → BitsAt p (q + 32 + 8 * i) 8 (byteAt data i)) →
        r.sink.n + data.length ≤ r.sink.cap → Writable b.platform (r.sink.base + r.sink.n) data.length →
        let m := q + 32 + 8 * data.length
        let w := r.sink.n + data.length
        (data.length = len →
          go = .ok { pos := m, sink := { r.sink with n := w, rev := data.reverse ++ r.sink.rev }, pads := (r.pos, q) :: r.pads }) ∧
        (data.length < len →
          (∀ e, readBits p 8 m = .error e → go = .error e) ∧
          ∀ v, BitsAt p m 8 v →
            (w = r.sink.cap → go = .error (full ((m + 8) / 8))) ∧
            (w ≠ r.sink.cap → memOk b.platform (r.sink.base + w) .write = false →
              go = .error { err := .bus .write, info := r.sink.base + w })))

/-- One item of the code-length sequence of a dynamic block (R137): a length, the previous length `n` times more, or `n`
zeros. -/
inductive LenToken where
  | len (l : Nat)
  | again (n : Nat)
  | zeros (n : Nat)
  deriving DecidableEq, Repr

/-- How many lengths an item gives. -/
def LenToken.count : LenToken → Nat
  | .len _ => 1
  | .again n => n
  | .zeros n => n

/-- The item repeats the length before it. -/
def LenToken.isAgain : LenToken → Bool
  | .len _ => false
  | .again _ => true
  | .zeros _ => false

/-- An item stands at the cursor and ends at `q` (R137): symbols 0 to 15, 16 with 2 bits, 17 with 3 bits, 18 with 7 bits. -/
def TokenAt (p : Port) (cl : List Nat) (pos : Nat) (t : LenToken) (q : Nat) : Prop :=
  match t with
  | .len l => l ≤ 15 ∧ SymbolAt p cl pos l q
  | .again n => ∃ m x, SymbolAt p cl pos 16 m ∧ BitsAt p m 2 x ∧ n = 3 + x ∧ q = m + 2
  | .zeros n =>
    (∃ m x, SymbolAt p cl pos 17 m ∧ BitsAt p m 3 x ∧ n = 3 + x ∧ q = m + 3) ∨
      ∃ m x, SymbolAt p cl pos 18 m ∧ BitsAt p m 7 x ∧ n = 11 + x ∧ q = m + 7

/-- Items stand one after the other from the cursor to `q`. -/
def TokensAt (p : Port) (cl : List Nat) : Nat → List LenToken → Nat → Prop
  | pos, [], q => q = pos
  | pos, t :: ts, q => ∃ m, TokenAt p cl pos t m ∧ TokensAt p cl m ts q

/-- The lengths that items give, after those in `acc` (R137). -/
def expandLens : List LenToken → List Nat → List Nat
  | [], acc => acc
  | .len l :: ts, acc => expandLens ts (acc ++ [l])
  | .again n :: ts, acc => expandLens ts (acc ++ List.replicate n (acc.getLastD 0))
  | .zeros n :: ts, acc => expandLens ts (acc ++ List.replicate n 0)

/-- How many lengths items give. -/
def countLens (ts : List LenToken) : Nat := (ts.map LenToken.count).sum

/-- The code-length sequence of a dynamic block (R247): the lengths of the items up to `total`; CL_REPEAT where the first item
repeats, and where an item runs past `total`; the input's error where it fails inside an item. -/
def CodeLengthsRule : Prop :=
  ∀ (p : Port) (cl : List Nat) (total pos : Nat), cl.length = 19 → kraftSum cl = 2 ^ 15 →
    let go := codeLengths p cl total total [] pos
    (∀ q, 0 < total → SymbolAt p cl pos 16 q → go = .error (corruptAt .clRepeat q)) ∧
    ∀ (ts : List LenToken) (q : Nat), TokensAt p cl pos ts q → (∀ t, ts.head? = some t → t.isAgain = false) →
      (countLens ts = total → go = .ok (expandLens ts [], q)) ∧
      (countLens ts < total →
        (∀ e, decodeSymbol p cl q = .error e → go = .error e) ∧
        (∀ s width m e, (s, width) ∈ [(16, 2), (17, 3), (18, 7)] → (ts = [] → s ≠ 16) → SymbolAt p cl q s m →
          readBits p width m = .error e → go = .error e) ∧
        ∀ t q', TokenAt p cl q t q' → (ts = [] → t.isAgain = false) →
          total < countLens ts + t.count → go = .error (corruptAt .clRepeat q'))

/-- The header of a dynamic block (R136, R247): the three counts, the code-length code in its order, the checks and their
order, and the two codes. -/
def DynamicHeaderRule : Prop :=
  ∀ (p : Port) (pos : Nat),
    (∀ e, readBits p 14 pos = .error e → dynamicHeader p pos = .error e) ∧
    ∀ hlit hdist hclen, BitsAt p pos 5 hlit → BitsAt p (pos + 5) 5 hdist → BitsAt p (pos + 10) 4 hclen →
    (286 < hlit + 257 ∨ 30 < hdist + 1 → dynamicHeader p pos = .error (corruptAt .hlitHdist (pos + 14))) ∧
    (hlit + 257 ≤ 286 → hdist + 1 ≤ 30 →
      (∀ e, readBits p (3 * (hclen + 4)) (pos + 14) = .error e → dynamicHeader p pos = .error e) ∧
      ∀ f : Nat → Nat,
      (∀ i, i < hclen + 4 → BitsAt p (pos + 14 + 3 * i) 3 (f i)) →
      let order := [16, 17, 18, 0, 8, 7, 9, 6, 10, 5, 11, 4, 12, 3, 13, 2, 14, 1, 15]
      let cl := (List.range 19).map fun s => if order.idxOf s < hclen + 4 then f (order.idxOf s) else 0
      let pos₁ := pos + 14 + 3 * (hclen + 4)
      let total := hlit + 257 + (hdist + 1)
      (kraftSum cl < 2 ^ 15 → dynamicHeader p pos = .error (corruptAt .huffIncomplete pos₁)) ∧
      (2 ^ 15 < kraftSum cl → dynamicHeader p pos = .error (corruptAt .huffOversub pos₁)) ∧
      (kraftSum cl = 2 ^ 15 →
        (∀ e, codeLengths p cl total total [] pos₁ = .error e → dynamicHeader p pos = .error e) ∧
        ∀ lens q, codeLengths p cl total total [] pos₁ = .ok (lens, q) →
          let lit := lens.take (hlit + 257)
          let dist := lens.drop (hlit + 257)
          (lens.getD 256 0 = 0 → dynamicHeader p pos = .error (corruptAt .noEob q)) ∧
          (lens.getD 256 0 ≠ 0 →
            (kraftSum lit < 2 ^ 15 → dynamicHeader p pos = .error (corruptAt .huffIncomplete q)) ∧
            (2 ^ 15 < kraftSum lit → dynamicHeader p pos = .error (corruptAt .huffOversub q)) ∧
            (kraftSum lit = 2 ^ 15 →
              (kraftSum dist < 2 ^ 15 → dynamicHeader p pos = .error (corruptAt .huffIncomplete q)) ∧
              (2 ^ 15 < kraftSum dist → dynamicHeader p pos = .error (corruptAt .huffOversub q)) ∧
              (kraftSum dist = 2 ^ 15 → dynamicHeader p pos = .ok (lit, dist, q))))))

/-- One round of compressed data (R248) under complete codes: what the symbol at the cursor does. A literal goes out, 256 ends
the block, a length and a distance with their extra bits (the tables of R138 and R139, written out) copy; 286, 287, 30 and 31
are SYMBOL; an input that fails ends the round with its error. -/
def CompressedDataRule : Prop :=
  ∀ (p : Port) (b : Bus) (lit dist : List Nat) (n pos : Nat) (k : Sink), kraftSum lit = 2 ^ 15 → kraftSum dist = 2 ^ 15 →
    let baseL := [3, 4, 5, 6, 7, 8, 9, 10, 11, 13, 15, 17, 19, 23, 27, 31, 35, 43, 51, 59, 67, 83, 99, 115, 131, 163,
      195, 227, 258]
    let extraL := [0, 0, 0, 0, 0, 0, 0, 0, 1, 1, 1, 1, 2, 2, 2, 2, 3, 3, 3, 3, 4, 4, 4, 4, 5, 5, 5, 5, 0]
    let baseD := [1, 2, 3, 4, 5, 7, 9, 13, 17, 25, 33, 49, 65, 97, 129, 193, 257, 385, 513, 769, 1025, 1537, 2049, 3073, 4097,
      6145, 8193, 12289, 16385, 24577]
    let extraD := [0, 0, 0, 0, 1, 1, 2, 2, 3, 3, 4, 4, 5, 5, 6, 6, 7, 7, 8, 8, 9, 9, 10, 10, 11, 11, 12, 12, 13, 13]
    let go := compressedData p b lit dist (n + 1) pos k
    (∀ e, decodeSymbol p lit pos = .error e → go = .error e) ∧
    ∀ s q, SymbolAt p lit pos s q →
      (s < 256 →
        (k.n = k.cap → go = .error (full (q / 8))) ∧
        (k.n ≠ k.cap → memOk b.platform (k.base + k.n) .write = false →
          go = .error { err := .bus .write, info := k.base + k.n }) ∧
        (k.n ≠ k.cap → memOk b.platform (k.base + k.n) .write = true →
          go = compressedData p b lit dist n q { k with n := k.n + 1, rev := BitVec.ofNat 8 s :: k.rev })) ∧
      (s = 256 → go = .ok (q, k)) ∧
      (285 < s → go = .error (corruptAt .symbol q)) ∧
      (257 ≤ s → s ≤ 285 →
        let m := q + extraL.getD (s - 257) 0
        (∀ e, readBits p (extraL.getD (s - 257) 0) q = .error e → go = .error e) ∧
        ∀ x, BitsAt p q (extraL.getD (s - 257) 0) x →
          (∀ e, decodeSymbol p dist m = .error e → go = .error e) ∧
          ∀ d q', SymbolAt p dist m d q' →
            (29 < d → go = .error (corruptAt .symbol q')) ∧
            (d ≤ 29 →
              let m' := q' + extraD.getD d 0
              (∀ e, readBits p (extraD.getD d 0) q' = .error e → go = .error e) ∧
              ∀ y, BitsAt p q' (extraD.getD d 0) y →
                let copied := copyMatch b k m' (baseL.getD (s - 257) 0 + x) (baseD.getD d 0 + y)
                (∀ e, copied = .error e → go = .error e) ∧
                ∀ k', copied = .ok k' → go = compressedData p b lit dist n m' k'))

/-- The blocks of a stream (R134, R250): BFINAL and BTYPE at the cursor, the content by its type, and the end after the block
with BFINAL = 1. A raw stream is its blocks from bit 0 on. -/
def BlockRule : Prop :=
  (∀ (p : Port) (b : Bus) (k : Sink),
    inflateStream false p b k = inflateBlocks p b (8 * p.len) { pos := 0, sink := k, pads := [] }) ∧
  ∀ (p : Port) (b : Bus) (n : Nat) (r : Inflater),
    let go := inflateBlocks p b (n + 1) r
    (∀ e, readBits p 3 r.pos = .error e → go = .error e) ∧
    ∀ final btype, BitsAt p r.pos 1 final → BitsAt p (r.pos + 1) 2 btype →
      let q : Inflater := { r with pos := r.pos + 3 }
      let after (r' : Inflater) : Except Raise Inflater := if final = 1 then .ok r' else inflateBlocks p b n r'
      let coded (lit dist : List Nat) (pos : Nat) : Prop :=
        (∀ e, compressedData p b lit dist (8 * p.len) pos r.sink = .error e → go = .error e) ∧
        ∀ pos' k, compressedData p b lit dist (8 * p.len) pos r.sink = .ok (pos', k) →
          go = after { q with pos := pos', sink := k }
      (btype = 0 →
        (∀ e, storedBlock p b q = .error e → go = .error e) ∧ ∀ r', storedBlock p b q = .ok r' → go = after r') ∧
      (btype = 1 → coded fixedLitLens fixedDistLens (r.pos + 3)) ∧
      (btype = 2 →
        (∀ e, dynamicHeader p (r.pos + 3) = .error e → go = .error e) ∧
        ∀ lit dist pos, dynamicHeader p (r.pos + 3) = .ok (lit, dist, pos) → coded lit dist pos) ∧
      (btype = 3 → go = .error (corruptAt .btype (r.pos + 3)))

/-- ADLER32 as two sums (R252): 1 + the bytes, and the number of bytes + each byte as often as prefixes hold it. -/
def adlerSum (s : List Byte) : Nat :=
  (s.length + ((List.range s.length).map fun i => (s.length - i) * byteAt s i).sum) % 65521 * 65536 +
    (1 + ((List.range s.length).map (byteAt s)).sum) % 65521

/-- The zlib wrapper (R140, R250, R251): the header checks, and the trailer compared with the Adler-32 of the output. -/
def ZlibWrapperRule : Prop :=
  ∀ (p : Port) (b : Bus) (k : Sink),
    (∀ e, readBits p 16 0 = .error e → inflateStream true p b k = .error e) ∧
    ∀ cmf flg, BitsAt p 0 8 cmf → BitsAt p 8 8 flg →
    let legal := cmf % 16 = 8 ∧ cmf / 16 ≤ 7 ∧ (cmf * 256 + flg) % 31 = 0 ∧ flg.testBit 5 = false
    let blocks := inflateBlocks p b (8 * p.len) { pos := 16, sink := k, pads := [] }
    (¬legal → inflateStream true p b k = .error { err := .corrupt .zlibHeader, info := 0 }) ∧
    (legal →
      (∀ e, blocks = .error e → inflateStream true p b k = .error e) ∧
      ∀ r, blocks = .ok r →
        let q := (r.pos + 7) / 8 * 8
        (∀ e, readBits p 32 q = .error e → inflateStream true p b k = .error e) ∧
        ∀ a0 a1 a2 a3, BitsAt p q 8 a0 → BitsAt p (q + 8) 8 a1 → BitsAt p (q + 16) 8 a2 → BitsAt p (q + 24) 8 a3 →
          let a := a0 * 16777216 + a1 * 65536 + a2 * 256 + a3
          (a ≠ adlerSum r.sink.out → inflateStream true p b k = .error (corruptAt .adler (q + 32))) ∧
          (a = adlerSum r.sink.out →
            inflateStream true p b k = .ok { pos := q + 32, sink := r.sink, pads := (r.pos, q) :: r.pads }))

/-! ## Where the framer's commands stop with an error -/

/-- The command completes with the error. -/
def FailsWith (i : Instr) (s : State) (e : ErrKind) (info : Nat) : Prop := ∃ t, exec i s = .next t ∧ Failure s t e info

/-- FRM.PARSE gets past the chunks `cs`, none of them IEND and MAX_CHUNKS not met, with `rest` left of the source (R343). -/
structure ParseReaches (s : State) (cs : List (List Byte × List Byte)) (rest : List Byte) : Prop where
  regions  : SrcDstOk s.latch.args
  align    : s.latch.args.dst % 4 = 0
  chunks   : ChunksOk cs
  source   : s.sourceBytes = pngSignature ++ wireBytes cs ++ rest
  noIend   : ∀ c, c ∈ cs → c.1 ≠ tagIend
  noMax    : s.latch.args.arg0.toNat = 0 ∨ cs.length < s.latch.args.arg0.toNat
  room     : 16 * cs.length ≤ s.latch.args.cap
  readable : Readable s.platform s.latch.args.src (8 + (wireBytes cs).length)
  writable : Writable s.platform s.latch.args.dst (16 * cs.length)

/-- The errors of FRM.PARSE at a chunk (R342, R343), in their order. `p` is the offset of the chunk's length field, `l` the
length on the wire, `more` what follows it. -/
def ParseErrorRule : Prop :=
  ∀ (s : State) (cs : List (List Byte × List Byte)) (rest : List Byte), ParseReaches s cs rest →
    let p := 8 + (wireBytes cs).length
    let chunk := s.latch.args.src + p
    let entry := s.latch.args.dst + 16 * cs.length
    let fails := FailsWith .frmParse s
    (rest ≠ [] → rest.length < 12 → fails (.format .truncated) p) ∧
    (12 ≤ rest.length →
      (∀ x, FirstHole s.platform .read chunk 8 x → fails (.bus .read) x) ∧
      ∀ l more, l < 2 ^ 32 → rest = be32bytes l ++ more → Readable s.platform chunk 8 →
        (2 ^ 31 - 1 < l → fails (.format .length) p) ∧
        (l ≤ 2 ^ 31 - 1 → more.length < 8 + l → fails (.format .truncated) p) ∧
        (l ≤ 2 ^ 31 - 1 → 8 + l ≤ more.length →
          (∀ x, FirstHole s.platform .read (chunk + 8) (l + 4) x → fails (.bus .read) x) ∧
          ∀ tag data crc tail, more = tag ++ data ++ crc ++ tail → tag.length = 4 → data.length = l → crc.length = 4 →
            Readable s.platform (chunk + 8) (l + 4) →
            (crc ≠ be32bytes (crc32 (tag ++ data)).toNat → fails (.format .crc) p) ∧
            (crc = be32bytes (crc32 (tag ++ data)).toNat →
              (s.latch.args.cap < 16 * (cs.length + 1) → fails .capacity p) ∧
              (16 * (cs.length + 1) ≤ s.latch.args.cap → ∀ x, FirstHole s.platform .write entry 16 x → fails (.bus .write) x))))

/-- What FRM.IDATCAT puts out for the first `k` entries (R347). -/
def State.catBytes (s : State) (k : Nat) : List Byte :=
  (((List.range k).map s.entry).filter fun e => decide (e.tag = tagIdat)).flatMap s.entryData

/-- FRM.IDATCAT gets past the first `k` entries, and there is another (R347). -/
structure CatReaches (s : State) (k : Nat) : Prop where
  regions  : TableDstOk s.latch.args
  inTable  : k < s.latch.args.entries
  table    : Readable s.platform s.latch.args.aux (16 * k)
  before   : ∀ j, j < k → (s.entry j).tag = tagIdat → s.EntryOk (s.entry j)
  room     : (s.catBytes k).length ≤ s.latch.args.cap
  writable : Writable s.platform s.latch.args.dst (s.catBytes k).length

/-- The errors of FRM.IDATCAT at entry `k` (R347, R88, R89), in their order. -/
def IdatcatErrorRule : Prop :=
  ∀ (s : State) (k : Nat), CatReaches s k →
    let e := s.entry k
    let a := s.latch.args
    let n := (s.catBytes k).length
    let fails := FailsWith .frmIdatcat s
    (∀ x, FirstHole s.platform .read (a.aux + 16 * k) 16 x → fails (.bus .read) x) ∧
    (Readable s.platform (a.aux + 16 * k) 16 → e.tag = tagIdat →
      (2 ^ 32 < e.addr + e.len → fails (.param .wrap) k) ∧
      (e.addr + e.len ≤ 2 ^ 32 →
        (∀ x, e.addr ≤ x → x < e.addr + e.len → a.dst ≤ x → x < a.dst + a.cap → fails (.param .overlap) k) ∧
        ((∀ x, e.addr ≤ x → x < e.addr + e.len → ¬(a.dst ≤ x ∧ x < a.dst + a.cap)) →
          (a.cap < n + e.len → fails .capacity k) ∧
          (n + e.len ≤ a.cap →
            (∀ x, FirstHole s.platform .read e.addr e.len x → fails (.bus .read) x) ∧
            (Readable s.platform e.addr e.len →
              ∀ x, FirstHole s.platform .write (a.dst + n) e.len x → fails (.bus .write) x)))))

/-- What FRM.SERIALIZE puts out up to entry `k` (R350). -/
def State.serialBytes (s : State) (k : Nat) : List Byte :=
  pngSignature ++ wireBytes (((List.range k).map s.entry).map fun e => (e.tag, s.entryData e))

/-- FRM.SERIALIZE gets past the signature and the first `k` entries, none of them IEND (R350). -/
structure SerialReaches (s : State) (k : Nat) : Prop where
  regions  : TableDstOk s.latch.args
  inTable  : k ≤ s.latch.args.entries
  table    : Readable s.platform s.latch.args.aux (16 * k)
  before   : ∀ j, j < k → s.EntryOk (s.entry j) ∧ (s.entry j).len ≤ Config.framerMaxLen ∧ (s.entry j).tag ≠ tagIend
  room     : (s.serialBytes k).length ≤ s.latch.args.cap
  writable : Writable s.platform s.latch.args.dst (s.serialBytes k).length

/-- The errors of FRM.SERIALIZE at the signature, at entry `k` and at the appended IEND (R350, R88, R89), in their order. -/
def SerializeErrorRule : Prop :=
  (∀ s : State, TableDstOk s.latch.args →
    (s.latch.args.cap < 8 → FailsWith .frmSerialize s .capacity 0) ∧
    (8 ≤ s.latch.args.cap →
      ∀ x, FirstHole s.platform .write s.latch.args.dst 8 x → FailsWith .frmSerialize s (.bus .write) x)) ∧
  ∀ (s : State) (k : Nat), SerialReaches s k →
    let e := s.entry k
    let a := s.latch.args
    let n := (s.serialBytes k).length
    let fails := FailsWith .frmSerialize s
    (k = a.entries →
      (a.cap < n + 12 → fails .capacity k) ∧
      (n + 12 ≤ a.cap → ∀ x, FirstHole s.platform .write (a.dst + n) 12 x → fails (.bus .write) x)) ∧
    (k < a.entries →
      (∀ x, FirstHole s.platform .read (a.aux + 16 * k) 16 x → fails (.bus .read) x) ∧
      (Readable s.platform (a.aux + 16 * k) 16 →
        (2 ^ 31 - 1 < e.len → fails (.param .chunkLen) k) ∧
        (e.len ≤ 2 ^ 31 - 1 →
          (e.tag = tagIend → e.len ≠ 0 → fails (.param .iendLen) k) ∧
          ((e.tag = tagIend → e.len = 0) →
            (2 ^ 32 < e.addr + e.len → fails (.param .wrap) k) ∧
            (e.addr + e.len ≤ 2 ^ 32 →
              (∀ x, e.addr ≤ x → x < e.addr + e.len → a.dst ≤ x → x < a.dst + a.cap → fails (.param .overlap) k) ∧
              ((∀ x, e.addr ≤ x → x < e.addr + e.len → ¬(a.dst ≤ x ∧ x < a.dst + a.cap)) →
                (∀ x, FirstHole s.platform .read e.addr e.len x → fails (.bus .read) x) ∧
                (Readable s.platform e.addr e.len →
                  (a.cap < n + 12 + e.len → fails .capacity k) ∧
                  (n + 12 + e.len ≤ a.cap →
                    ∀ x, FirstHole s.platform .write (a.dst + n) (12 + e.len) x → fails (.bus .write) x))))))))

end Sys2Proof.Machine
end

