-- ==== Sys2Proof/Certificates/Slice0/Obligations.lean ====
section
/-! DEFINITION. The statements for the provers, each named by what it states. -/

open Sys2Proof Sys2Proof.Machine

/-! ## The command word -/

/-- R120 to R123, R128: encoding a command and decoding it gives it back, and every word that decodes is the one word of its
command. -/
def Obligations.DecodeAndEncodeAgree : Prop :=
  (∀ i : Instr, i.wellFormed = true → decode (encode i) = .ok i) ∧
    ∀ (w : Word) (i : Instr), decode w = .ok i → i.wellFormed = true ∧ encode i = w

/-- R126: the checks on a command word, in their order, on the fields as numbers; the first that fails is raised by the
execute step with the whole word in ERR_INFO. -/
def Obligations.DecodeChecksInOrder : Prop :=
  ∀ w : Word,
    let rsv := w.toNat / 2 ^ 13
    let op := w.toNat % 256
    let mod := w.toNat / 256 % 16
    let z := w.toNat / 4096 % 2
    let assigned := op ∈ [0x00, 0x01, 0x02, 0x10, 0x11, 0x20, 0x21, 0x22, 0x30, 0x31]
    let zLegal := z = 1 → op ∈ [0x10, 0x11]
    let modLegal := (op = 0x11 → mod ≤ 9) ∧ (op = 0x31 → mod ∈ [0, 1, 2, 3, 4, 15]) ∧
      (op ≠ 0x11 → op ≠ 0x31 → mod = 0)
    let raises : Illegal → Prop := fun k => decode w = .error k ∧
      ∀ s : State, s.latch.cmd = w → ∃ t, executeStep s = .next t ∧ Failure s t (.illegal k) w.toNat
    (rsv ≠ 0 → raises .reservedBits) ∧
    (rsv = 0 → ¬assigned → raises .opcode) ∧
    (rsv = 0 → assigned → ¬zLegal → raises .zbit) ∧
    (rsv = 0 → assigned → zLegal → ¬modLegal → raises .mod) ∧
    (rsv = 0 → assigned → zLegal → modLegal → ∃ i, decode w = .ok i)

/-- R122, R123: the word of every row of the opcode map, written out, and the lowest and highest DEFLATE levels. -/
def Obligations.SpecWordsDecode : Prop :=
  decode 0x00000000#32 = .ok .nop ∧ decode 0x00000001#32 = .ok .crcCompute ∧ decode 0x00000002#32 = .ok .crcVerify ∧
    decode 0x00000010#32 = .ok .inflate ∧ decode 0x00001010#32 = .ok .inflateZ ∧
    decode 0x00000011#32 = .ok (.deflate 0) ∧ decode 0x00000911#32 = .ok (.deflate 9) ∧
    decode 0x00001011#32 = .ok (.deflateZ 0) ∧ decode 0x00001911#32 = .ok (.deflateZ 9) ∧
    decode 0x00000020#32 = .ok .frmParse ∧ decode 0x00000021#32 = .ok .frmIdatcat ∧
    decode 0x00000022#32 = .ok .frmSerialize ∧ decode 0x00000030#32 = .ok .fltReverse ∧
    decode 0x00000031#32 = .ok .fltApplyNone ∧ decode 0x00000131#32 = .ok .fltApplySub ∧
    decode 0x00000231#32 = .ok .fltApplyUp ∧ decode 0x00000331#32 = .ok .fltApplyAvg ∧
    decode 0x00000431#32 = .ok .fltApplyPaeth ∧ decode 0x00000F31#32 = .ok .fltApplyAuto

/-- R126, R450: the execute step of a word that is no command completes with IllegalCommand, its subcode, and the whole word
in ERR_INFO; the latched destination is draws (log entry 9) and no other byte changes. -/
def Obligations.IllegalWordCompletesWithItsWord : Prop :=
  ∀ (s : State) (k : Illegal), decode s.latch.cmd = .error k →
    ∃ t, executeStep s = .next t ∧ Failure s t (.illegal k) s.latch.cmd.toNat ∧ t.results.errInfo = s.latch.cmd ∧
      DestinationDrawn s t

/-- R442: the ERR_CODE of every row of the table; no other error exists, the values tell the errors apart, and none has a
class that belongs to host software (R441). -/
def Obligations.ErrorCodesAreDistinct : Prop :=
  let format : List (ErrKind × Nat) := [(.format .signature, 0x0101), (.format .truncated, 0x0201),
    (.format .crc, 0x0301), (.format .length, 0x0401), (.format .noIdat, 0x0501)]
  let corrupt : List (ErrKind × Nat) := [(.corrupt .btype, 0x0102), (.corrupt .storedLen, 0x0202),
    (.corrupt .huffOversub, 0x0302), (.corrupt .huffIncomplete, 0x0402), (.corrupt .clRepeat, 0x0502),
    (.corrupt .hlitHdist, 0x0602), (.corrupt .symbol, 0x0702), (.corrupt .distance, 0x0802),
    (.corrupt .truncated, 0x0902), (.corrupt .noEob, 0x0A02), (.corrupt .zlibHeader, 0x0B02), (.corrupt .adler, 0x0C02),
    (.corrupt .filterType, 0x1002), (.corrupt .filterTrunc, 0x1102)]
  let others : List (ErrKind × Nat) := [(.dimensions .rowsZero, 0x0106), (.dimensions .rowBytesZero, 0x0206),
    (.illegal .opcode, 0x0110), (.illegal .reservedBits, 0x0210), (.illegal .mod, 0x0310), (.illegal .zbit, 0x0410),
    (.param .wrap, 0x0111), (.param .overlap, 0x0211), (.param .align, 0x0311), (.param .bpp, 0x0411),
    (.param .stride, 0x0511), (.param .sizeOverflow, 0x0611), (.param .srcShort, 0x0711), (.param .chunkLen, 0x0811),
    (.param .iendLen, 0x0911), (.capacity, 0x0112), (.bus .read, 0x0113), (.bus .write, 0x0213)]
  (∀ row ∈ format ++ corrupt ++ others, row.1.code = BitVec.ofNat 32 row.2) ∧
    (∀ e : ErrKind, e ∈ (format ++ corrupt ++ others).map Prod.fst) ∧
    (∀ e e' : ErrKind, e.code = e'.code → e = e') ∧
    ∀ e : ErrKind, e.code.toNat % 256 ∉ Config.hostErrorClasses ∧ e.code ≠ 0

/-! ## Steps -/

/-- R124: a step that takes the execute step on a word that decodes is exec of the decoded command. The event `coreStep` is
taken off the list; a `wait` stays for the step after (log entry 4). On any other word the step is the execute step too. R461:
while IDLE a `coreStep`, and a step without an event, change nothing of the core. -/
def Obligations.StepRunsDecodedCommand : Prop :=
  (∀ (s : State) (i : Instr), s.status.busy = true → decode s.latch.cmd = .ok i →
    (s.events = [] → step s = exec i s) ∧
    (∀ es, s.events = .wait :: es → step s = exec i s) ∧
    (∀ es, s.events = .coreStep :: es → step s = exec i { s with events := es })) ∧
  (∀ (s : State) (k : Illegal), s.status.busy = true → decode s.latch.cmd = .error k →
    (s.events = [] → step s = executeStep s) ∧
    (∀ es, s.events = .wait :: es → step s = executeStep s) ∧
    (∀ es, s.events = .coreStep :: es → step s = executeStep { s with events := es })) ∧
  ∀ s : State, s.status.busy = false →
    (s.events = [] → step s = .next s) ∧
    ∀ es, s.events = .coreStep :: es → step s = .next { s with events := es }

/-- The word placed by withFetchWord is started and then run by the very next step (R124, log entry 4). -/
def Obligations.FetchedWordRunsNext : Prop :=
  ∀ (s : State) (nbits w : Nat) (i : Instr), decodeTableWord nbits w = some i →
    step (s.withFetchWord nbits w) = exec i (startCommand (tableWord nbits w) s)

/-- Every step that goes on keeps the invariant of Safety.lean. -/
def Obligations.StepKeepsInvariant : Prop := ∀ s t : State, s.Inv → step s = .next t → t.Inv

/-- The invariant holds right after reset. -/
def Obligations.ResetMeetsInvariant : Prop := State.reset.Inv

/-- R495, R143 (`wait`): from a running command, with nothing but a `wait` before the host's next events, one step completes
the command and the next ends the wait with the STATUS word that shows BUSY = 0. R495 gives no bound: that the execute step is
the very next step is the model's choice (log entry 4), and so is that the wait's end empties `unseen` (log entry 5). -/
def Obligations.WaitEndsAfterTheExecuteStep : Prop :=
  ∀ (s : State) (es : List Event), s.status.busy = true → s.events = .wait :: es →
    ∃ t u, step s = .next t ∧ t.status.busy = false ∧ t.status.done = true ∧ step t = .next u ∧ u.events = es ∧
      u.rdata = t.status.word ∧ u.rdata.getLsbD 0 = false ∧ u.unseen = [] ∧ u.mem = t.mem ∧ u.results = t.results

/-! ## Reset -/

/-- R31, R480, R481: right after reset, and after a hard reset of any state, ID reads 0x504E4707 and every other offset of the
window reads 0, no command runs, IRQ is 0 and the internal state is empty; after a hard reset memory holds the image the
platform gives. The model's choices: a byte the image does not name reads 0 (log entry 1), the latches are 0 (log entry 2),
and the platform and the later events stay, the duties end (log entry 12). -/
def Obligations.ResetRegistersReadResetValues : Prop :=
  let resetState : State → Prop := fun t =>
    (∀ o, o < 256 → o % 4 = 0 → hostRead t o = if o = 0 then 0x504E4707#32 else 0) ∧
      t.status = Status.zero ∧ t.irq = false ∧ t.engine = Engine.empty ∧ t.latch = Latch.zero
  resetState State.reset ∧
    ∀ (s : State) (image : List Host.Cell) (es : List Event), s.events = .hardReset image :: es →
      ∃ t, step s = .next t ∧ resetState t ∧ t.platform = s.platform ∧ t.events = es ∧ t.unseen = [] ∧
        ∀ a, a < 2 ^ 32 → t.mem.read a = (((image.filter fun c => decide (c.1 = a)).getLast?).map (·.2)).getD 0

/-- R482: a CTRL write with bit 1 set. Every register reads its reset value, nothing runs, the internal state is cleared;
while IDLE memory is unchanged, while BUSY every byte of the latched destination is a draw and every other byte is
unchanged. The model's choices: a cleared latch is 0 (log entry 2), and the host duties end (log entry 5). -/
def Obligations.SoftResetDiscardsTheCommand : Prop :=
  ∀ (s : State) (w : Word), w.getLsbD 1 = true →
    let t := hostWrite s 0x04 w
    (∀ o, o < 256 → o % 4 = 0 → hostRead t o = if o = 0 then 0x504E4707#32 else 0) ∧
    t.status = Status.zero ∧ t.irq = false ∧ t.engine = Engine.empty ∧ t.latch = Latch.zero ∧
    t.platform = s.platform ∧ t.events = s.events ∧ t.unseen = [] ∧
    (s.status.busy = false → t.mem = s.mem) ∧
    (s.status.busy = true → ∀ a, a < 2 ^ 32 →
      t.mem.read a = if s.latch.args.dst ≤ a ∧ a < s.latch.args.dst + s.latch.args.cap
        then Config.freeByte s.draws a else s.mem.read a)

/-! ## Host register operations -/

/-- R124 (the start): a CMD write while IDLE latches the word and the eight arguments, clears the result registers, DONE and
ERR, sets BUSY, and leaves OVR, the argument registers, CTRL and memory as they were. That the host duties of the command are
kept as its latches in `unseen` is the model's form (log entry 5). -/
def Obligations.CmdWriteWhileIdleStarts : Prop :=
  ∀ (s : State) (w : Word), s.status.busy = false →
    let t := hostWrite s 0x0C w
    t.cmd = w ∧ t.latch = { cmd := w, args := s.args } ∧ t.results = Results.zero ∧
      t.status = { busy := true, done := false, err := false, ovr := s.status.ovr } ∧ t.engine = Engine.empty ∧
      t.args = s.args ∧ t.ie = s.ie ∧ t.mem = s.mem ∧ t.platform = s.platform ∧ t.events = s.events ∧
      t.draws = s.draws ∧ t.rdata = s.rdata ∧ t.unseen = t.latch :: s.unseen

/-- R125: a CMD write while BUSY is dropped and sets OVR; nothing else changes. -/
def Obligations.CmdWriteWhileBusyIsDropped : Prop :=
  ∀ (s : State) (w : Word), s.status.busy = true →
    hostWrite s 0x0C w = { s with status := { s.status with ovr := true } }

/-- R421: a STATUS write clears DONE, ERR and OVR where its bit is 1; BUSY and everything else keep. Clearing DONE drops IRQ.
The pseudo-instruction `clr` is this write with 0xE. -/
def Obligations.StatusWriteClearsWrittenBits : Prop :=
  ∀ (s : State) (w : Word),
    let t := hostWrite s 0x08 w
    t = { s with status := t.status } ∧ t.status.busy = s.status.busy ∧
    t.status.done = (if w.getLsbD 1 then false else s.status.done) ∧
    t.status.err = (if w.getLsbD 2 then false else s.status.err) ∧
    t.status.ovr = (if w.getLsbD 3 then false else s.status.ovr) ∧
    (w.getLsbD 1 = true → t.irq = false) ∧
    Stmt.events s.platform .clr = [.regWrite (regAddress s.platform 0x08) 0xE#32]

/-- R422: a CTRL write performs the soft reset where bit 1 is set, IE then being 0, and else sets IE to bit 0 and changes
nothing else; in either phase. -/
def Obligations.CtrlWriteSetsEnableOrResets : Prop :=
  ∀ (s : State) (w : Word),
    (w.getLsbD 1 = true → hostWrite s 0x04 w = softReset s ∧ (hostWrite s 0x04 w).ie = false) ∧
    (w.getLsbD 1 = false → hostWrite s 0x04 w = { s with ie := w.getLsbD 0 })

/-- R423: a host read has no side effect on the core. CTRL reads IE with SRST 0, STATUS its four bits, CMD and the argument
registers their values, a result register 0 while BUSY and its held value while IDLE, ID its constant, a reserved offset 0.
What the model keeps for the host's side, its last read and its duties (log entries 4 and 5), is left aside. That the read
goes on for every REG_BASE, also one not a multiple of 4 or above 0xFFFFFF00, is the model's choice (log entry 13). -/
def Obligations.RegisterReadsHaveNoSideEffect : Prop :=
  ∀ (s : State) (addr : Word) (o : Nat), windowOffset s.platform addr = some o → o % 4 = 0 →
    (∃ t, registerRead s addr = .next t ∧ t.rdata = hostRead s o ∧
      ({ t with rdata := s.rdata, unseen := s.unseen } : State) = s) ∧
    (o = 0x00 → hostRead s o = 0x504E4707#32) ∧
    (o = 0x04 → hostRead s o = if s.ie then 1 else 0) ∧
    (o = 0x08 → (hostRead s o).toNat = (if s.status.busy then 1 else 0) + (if s.status.done then 2 else 0) +
      (if s.status.err then 4 else 0) + (if s.status.ovr then 8 else 0)) ∧
    (o = 0x0C → hostRead s o = s.cmd) ∧
    (o = 0x10 → hostRead s o = s.args.srcAddr) ∧ (o = 0x14 → hostRead s o = s.args.srcLen) ∧
    (o = 0x18 → hostRead s o = s.args.dstAddr) ∧ (o = 0x1C → hostRead s o = s.args.dstCap) ∧
    (o = 0x20 → hostRead s o = s.args.auxAddr) ∧ (o = 0x24 → hostRead s o = s.args.arg0) ∧
    (o = 0x28 → hostRead s o = s.args.arg1) ∧ (o = 0x2C → hostRead s o = s.args.arg2) ∧
    (o = 0x30 → hostRead s o = if s.status.busy then 0 else s.results.result) ∧
    (o = 0x34 → hostRead s o = if s.status.busy then 0 else s.results.outLen) ∧
    (o = 0x38 → hostRead s o = if s.status.busy then 0 else s.results.inUsed) ∧
    (o = 0x3C → hostRead s o = if s.status.busy then 0 else s.results.flagsOut) ∧
    (o = 0x40 → hostRead s o = if s.status.busy then 0 else s.results.errCode) ∧
    (o = 0x44 → hostRead s o = if s.status.busy then 0 else s.results.errInfo) ∧
    (0x48 ≤ o → hostRead s o = 0)

/-- R424: a write to an argument register stores all 32 bits, in either phase, and nothing else; a write to ID, a result
register or a reserved offset is ignored. R31, R90: the window is the 256 addresses from REG_BASE on; a register write of the
host at an aligned offset is the write of that register, as every statement about `hostWrite` has it, and it is the effect of
the step whose event it is, as a register read is. The model's choices: a misaligned offset or an address outside the window
is refused (log entries 5 and 13), and the window wraps at 2^32 (log entry 13). -/
def Obligations.OtherRegisterWrites : Prop :=
  (∀ (s : State) (w : Word),
    hostWrite s 0x10 w = { s with args := { s.args with srcAddr := w } } ∧
    hostWrite s 0x14 w = { s with args := { s.args with srcLen := w } } ∧
    hostWrite s 0x18 w = { s with args := { s.args with dstAddr := w } } ∧
    hostWrite s 0x1C w = { s with args := { s.args with dstCap := w } } ∧
    hostWrite s 0x20 w = { s with args := { s.args with auxAddr := w } } ∧
    hostWrite s 0x24 w = { s with args := { s.args with arg0 := w } } ∧
    hostWrite s 0x28 w = { s with args := { s.args with arg1 := w } } ∧
    hostWrite s 0x2C w = { s with args := { s.args with arg2 := w } } ∧
    hostWrite s 0x00 w = s ∧ ∀ o, o % 4 = 0 → 0x30 ≤ o → o < 256 → hostWrite s o w = s) ∧
  (∀ (p : Platform) (addr : Word) (o : Nat), windowOffset p addr = some o ↔ o < 256 ∧ addr = p.regBase + BitVec.ofNat 32 o) ∧
  ∀ (s : State) (addr w : Word),
    (windowOffset s.platform addr = none →
      registerWrite s addr w = .refused (.outsideRegisterWindow addr) ∧
      registerRead s addr = .refused (.outsideRegisterWindow addr)) ∧
    (∀ o, windowOffset s.platform addr = some o →
      (o % 4 = 0 → registerWrite s addr w = .next (hostWrite s o w)) ∧
      (o % 4 ≠ 0 → registerWrite s addr w = .refused (.misalignedRegisterAccess addr) ∧
        registerRead s addr = .refused (.misalignedRegisterAccess addr))) ∧
    ∀ es, (s.events = .regWrite addr w :: es → step s = registerWrite { s with events := es } addr w) ∧
      (s.events = .regRead addr :: es → step s = registerRead { s with events := es } addr)

/-- R490: an argument write while BUSY reads back at once, is what the next start latches, and does not reach the running
command: its completion is the same but for the argument registers themselves. -/
def Obligations.ArgumentWriteDoesNotReachTheRunningCommand : Prop :=
  ∀ (s : State) (o : Nat) (w : Word), s.status.busy = true → o % 4 = 0 → 0x10 ≤ o → o ≤ 0x2C →
    hostRead (hostWrite s o w) o = w ∧
    ∃ t, executeStep s = .next t ∧
      executeStep (hostWrite s o w) = .next { t with args := (hostWrite s o w).args } ∧
      ∀ v, (hostWrite { t with args := (hostWrite s o w).args } 0x0C v).latch.args = (hostWrite s o w).args

/-- R426, R455: IRQ is CTRL.IE and STATUS.DONE; `ie` is a CTRL write of 1; enabling IE while DONE = 1 raises IRQ at once,
disabling it lowers IRQ, writing 1 to STATUS.DONE lowers it, a start lowers it, and a completion raises it where IE = 1. -/
def Obligations.IrqFollowsEnableAndDone : Prop :=
  ∀ s : State, s.irq = (s.ie && s.status.done) ∧
    Stmt.events s.platform .ie = [.regWrite (regAddress s.platform 0x04) 1#32] ∧
    (s.status.done = true → (hostWrite s 0x04 1#32).irq = true) ∧ (hostWrite s 0x04 0#32).irq = false ∧
    (hostWrite s 0x08 2#32).irq = false ∧
    (s.status.busy = false → ∀ w, (hostWrite s 0x0C w).irq = false) ∧
    ∀ t, executeStep s = .next t → t.irq = s.ie

/-- R91 (93 U15, log entry 5): while a command runs the model refuses a host load or store of a destination byte, and a host
store of a byte of the source, of the descriptor table, or of the data a table entry names; for a word that is no command it
refuses loads and stores of the latched destination (the model's choice). The duties of every command in `unseen` bind so, and
only they: any other load gives the byte of memory in `rdata` and changes nothing else, and any other store changes that byte
alone. R92, R427: a STATUS read that shows BUSY = 0 ends the duties and no other register read does; a sample of IRQ ends them
where IRQ is high and changes nothing where it is low. -/
def Obligations.HostDutiesAreRefused : Prop :=
  ∀ (s : State) (addr : Word) (x : Byte),
    let storeRefused := memoryStore s addr x = .refused (.hostDuty addr)
    let loadRefused := memoryLoad s addr = .refused (.hostDuty addr)
    let isIn : Nat → Nat → Prop := fun base len => base ≤ addr.toNat ∧ addr.toNat < base + len
    let inDestination : Latch → Prop := fun l =>
      isIn l.args.dst l.args.cap ∧ ∀ i, decode l.cmd = .ok i → usesDestination i = true
    let inInput : Latch → Prop := fun l => ∃ i, decode l.cmd = .ok i ∧
      (usesSource i = true ∧ isIn l.args.src l.args.len ∨
        usesTable i = true ∧ (isIn l.args.aux l.args.tableLen ∨
          ∃ k, k < l.args.entries ∧
            let e := entryOf (memBytes s.mem (l.args.aux + 16 * k) 16)
            isIn e.addr e.len))
    (s.Inv → ∀ i : Instr, s.status.busy = true → decode s.latch.cmd = .ok i →
      (usesDestination i = true → isIn s.latch.args.dst s.latch.args.cap → storeRefused ∧ loadRefused) ∧
      (usesSource i = true → isIn s.latch.args.src s.latch.args.len → storeRefused) ∧
      (usesTable i = true → isIn s.latch.args.aux s.latch.args.tableLen → storeRefused) ∧
      (usesTable i = true → ∀ k, k < s.latch.args.entries → isIn (s.entry k).addr (s.entry k).len → storeRefused)) ∧
    (s.Inv → ∀ k : Illegal, s.status.busy = true → decode s.latch.cmd = .error k →
      isIn s.latch.args.dst s.latch.args.cap → storeRefused ∧ loadRefused) ∧
    ((∃ l, l ∈ s.unseen ∧ inDestination l) → loadRefused) ∧
    ((∃ l, l ∈ s.unseen ∧ (inDestination l ∨ inInput l)) → storeRefused) ∧
    ((∀ l, l ∈ s.unseen → ¬inDestination l) → ∃ t, memoryLoad s addr = .next t ∧ t = { s with rdata := t.rdata } ∧
      t.rdata.toNat = (s.mem.read addr.toNat).toNat) ∧
    ((∀ l, l ∈ s.unseen → ¬inDestination l ∧ ¬inInput l) → ∃ t, memoryStore s addr x = .next t ∧ t = { s with mem := t.mem } ∧
      ∀ a, t.mem.read a = if a = addr.toNat then x else s.mem.read a) ∧
    (∀ a t, registerRead s a = .next t →
      t.unseen = if windowOffset s.platform a = some 0x08 ∧ s.status.busy = false then [] else s.unseen) ∧
    (∀ a, windowOffset s.platform a = some 0x08 → ∃ t, registerRead s a = .next t) ∧
    ∀ es, (s.events = .memStore addr x :: es → step s = memoryStore { s with events := es } addr x) ∧
      (s.events = .memLoad addr :: es → step s = memoryLoad { s with events := es } addr) ∧
      (s.events = .takeIrq :: es → step s = .next { s with events := es, unseen := if s.irq then [] else s.unseen })

/-! ## Memory -/

/-- R80: two memories in canonical form that read alike at every address are equal. -/
def Obligations.CanonicalMemoriesAreEqualWhenTheyReadAlike : Prop :=
  ∀ m m' : Memory, m.wf = true → m'.wf = true → (∀ a, m.read a = m'.read a) → m = m'

/-! ## All commands -/

/-- R87 and the frame of every command: an execute step completes, changes nothing of the host's side, and no byte outside the
latched destination region; a command without a destination changes no byte; after an error every byte of the destination
is a draw (log entry 9); and after a success the destination bytes from OUT_LEN on are unchanged. -/
def Obligations.CommandsWriteOnlyTheirDestination : Prop :=
  ∀ (i : Instr) (s : State), ∃ t, exec i s = .next t ∧ HostSideKept s t ∧ t.status.busy = false ∧ t.status.done = true ∧
    t.status.ovr = s.status.ovr ∧
    (∀ a, (a < s.latch.args.dst ∨ s.latch.args.dst + s.latch.args.cap ≤ a) → t.mem.read a = s.mem.read a) ∧
    (usesDestination i = false → t.mem = s.mem) ∧
    (t.status.err = true → usesDestination i = true → DestinationDrawn s t) ∧
    (t.status.err = false → t.results.outLen.toNat ≤ s.latch.args.cap ∧
      ∀ a, s.latch.args.dst + t.results.outLen.toNat ≤ a → t.mem.read a = s.mem.read a)

/-- R450, R253, R310, R345: after an error the results but ERR_CODE and ERR_INFO are 0 and ERR_CODE is a pair of the table of
R442; after a success ERR_CODE and ERR_INFO are 0. -/
def Obligations.ErrorsReportNoPartialResult : Prop :=
  ∀ (i : Instr) (s t : State), exec i s = .next t →
    (t.status.err = true → t.results.result = 0 ∧ t.results.outLen = 0 ∧ t.results.inUsed = 0 ∧ t.results.flagsOut = 0 ∧
      ∃ e ∈ ErrKind.all, t.results.errCode = e.code) ∧
    (t.status.err = false → t.results.errCode = 0 ∧ t.results.errInfo = 0)

/-- R88, R445: a source, table or destination region of the command that passes the top of the address space ends it with
ParamError(WRAP, 0); bounds come before every other check. As after every error, the destination is draws (R87, R450; log
entry 9), and a command without one leaves memory unchanged. -/
def Obligations.WrappedRegionIsRefused : Prop :=
  ∀ (i : Instr) (s : State),
    ((usesSource i = true ∧ 2 ^ 32 < s.latch.args.src + s.latch.args.len) ∨
      (usesTable i = true ∧ 2 ^ 32 < s.latch.args.aux + 16 * s.latch.args.entries) ∨
      (usesDestination i = true ∧ 2 ^ 32 < s.latch.args.dst + s.latch.args.cap)) →
    ∃ t, exec i s = .next t ∧ Failure s t (.param .wrap) 0 ∧ (usesDestination i = true → DestinationDrawn s t) ∧
      (usesDestination i = false → t.mem = s.mem)

/-- R86, R445: with the regions inside the address space, a misaligned descriptor table ends the framer commands with
ParamError(ALIGN, 0), before the overlap check; the destination is draws (R87, R450; log entry 9). -/
def Obligations.MisalignedTableIsRefused : Prop :=
  ∀ s : State, regionOk s.latch.args.dst s.latch.args.cap = true →
    (regionOk s.latch.args.src s.latch.args.len = true → s.latch.args.dst % 4 ≠ 0 →
      ∃ t, exec .frmParse s = .next t ∧ Failure s t (.param .align) 0 ∧ DestinationDrawn s t) ∧
    (regionOk s.latch.args.aux s.latch.args.tableLen = true → s.latch.args.aux % 4 ≠ 0 →
      ∀ i ∈ [Instr.frmIdatcat, .frmSerialize], ∃ t, exec i s = .next t ∧ Failure s t (.param .align) 0 ∧ DestinationDrawn s t)

/-- R89, R445: with the regions inside the address space and the tables aligned, a destination that shares an address with the
source or the descriptor table ends the command with ParamError(OVERLAP, 0); the destination is draws (R87, R450; log
entry 9). -/
def Obligations.OverlappingDestinationIsRefused : Prop :=
  ∀ (i : Instr) (s : State) (a : Nat), usesDestination i = true →
    regionOk s.latch.args.dst s.latch.args.cap = true →
    s.latch.args.dst ≤ a → a < s.latch.args.dst + s.latch.args.cap →
    (usesSource i = true ∧ regionOk s.latch.args.src s.latch.args.len = true ∧
        (i = .frmParse → s.latch.args.dst % 4 = 0) ∧
        s.latch.args.src ≤ a ∧ a < s.latch.args.src + s.latch.args.len ∨
      usesTable i = true ∧ regionOk s.latch.args.aux s.latch.args.tableLen = true ∧ s.latch.args.aux % 4 = 0 ∧
        s.latch.args.aux ≤ a ∧ a < s.latch.args.aux + s.latch.args.tableLen) →
    ∃ t, exec i s = .next t ∧ Failure s t (.param .overlap) 0 ∧ DestinationDrawn s t

/-- R84, R254: a command's outcome is a function of the latched operands, memory and the platform: two states that agree on
them complete with the same results and the same memory wherever no draw was made. -/
def Obligations.OutcomeDependsOnLatchMemoryPlatform : Prop :=
  ∀ (i : Instr) (s s' t t' : State), s.latch.args = s'.latch.args → s.mem = s'.mem → s.platform = s'.platform →
    exec i s = .next t → exec i s' = .next t' →
    t.results = t'.results ∧ t.status.err = t'.status.err ∧
    (t.status.err = false → t.mem = t'.mem) ∧
    ∀ a, (a < s.latch.args.dst ∨ s.latch.args.dst + s.latch.args.cap ≤ a) → t.mem.read a = t'.mem.read a

/-! ## NOP -/

/-- R420: NOP is the word 0, and no other word with OP = 0 decodes; it completes with all six result registers 0, DONE = 1,
memory unchanged, and IRQ high where IE = 1, whatever the platform's `mem_ok`. -/
def Obligations.NopCompletes : Prop :=
  encode .nop = 0#32 ∧ (∀ w : Word, w.toNat % 256 = 0 → w ≠ 0 → ∃ k, decode w = .error k) ∧
    ∀ s : State, ∃ t, exec .nop s = .next t ∧ Success s t 0 0 0 [] ∧ t.results = Results.zero ∧ t.mem = s.mem ∧
      t.irq = s.ie

/-! ## CRC-32 engine -/

/-- R204: CRC.COMPUTE on a region inside the address space: RESULT is the CRC of its bytes and IN_USED is SRC_LEN; a region
that wraps gives ParamError(WRAP, 0); the first byte whose read fails gives BusError(READ, address); an empty region gives
0 and reads nothing; memory is unchanged. -/
def Obligations.CrcComputeGivesTheCrc : Prop :=
  encode .crcCompute = 0x00000001#32 ∧ ∀ s : State,
    (s.latch.args.len = 0 → ∃ t, exec .crcCompute s = .next t ∧ Success s t 0 0 0 [] ∧ t.mem = s.mem) ∧
    (regionOk s.latch.args.src s.latch.args.len = true → Readable s.platform s.latch.args.src s.latch.args.len →
      ∃ t, exec .crcCompute s = .next t ∧ Success s t (crc32 s.sourceBytes) s.latch.args.srcLen 0 [] ∧ t.mem = s.mem) ∧
    (2 ^ 32 < s.latch.args.src + s.latch.args.len →
      ∃ t, exec .crcCompute s = .next t ∧ Failure s t (.param .wrap) 0 ∧ t.mem = s.mem) ∧
    (regionOk s.latch.args.src s.latch.args.len = true → ∀ a, s.latch.args.src ≤ a →
      a < s.latch.args.src + s.latch.args.len → memOk s.platform a .read = false →
      Readable s.platform s.latch.args.src (a - s.latch.args.src) →
      ∃ t, exec .crcCompute s = .next t ∧ Failure s t (.bus .read) a ∧ t.mem = s.mem)

/-- R205, R203: CRC.VERIFY: RESULT is 1 where the CRC of the source bytes equals ARG0 and 0 otherwise, both a success; the
errors are those of CRC.COMPUTE; an empty region matches 0 alone. -/
def Obligations.CrcVerifyComparesTheCrc : Prop :=
  encode .crcVerify = 0x00000002#32 ∧ ∀ s : State,
    (s.latch.args.len = 0 → ∃ t, exec .crcVerify s = .next t ∧
      Success s t (if s.latch.args.arg0 = 0 then 1 else 0) 0 0 [] ∧ t.mem = s.mem) ∧
    (regionOk s.latch.args.src s.latch.args.len = true → Readable s.platform s.latch.args.src s.latch.args.len →
      ∃ t, exec .crcVerify s = .next t ∧
        Success s t (if crc32 s.sourceBytes = s.latch.args.arg0 then 1 else 0) s.latch.args.srcLen 0 [] ∧
        t.mem = s.mem) ∧
    (2 ^ 32 < s.latch.args.src + s.latch.args.len →
      ∃ t, exec .crcVerify s = .next t ∧ Failure s t (.param .wrap) 0 ∧ t.mem = s.mem) ∧
    (regionOk s.latch.args.src s.latch.args.len = true → ∀ a, s.latch.args.src ≤ a →
      a < s.latch.args.src + s.latch.args.len → memOk s.platform a .read = false →
      Readable s.platform s.latch.args.src (a - s.latch.args.src) →
      ∃ t, exec .crcVerify s = .next t ∧ Failure s t (.bus .read) a ∧ t.mem = s.mem)

/-- R201: the table-driven CRC equals the bit-at-a-time form. -/
def Obligations.CrcTableFormIsBitwiseForm : Prop :=
  ∀ bytes : List Byte,
    crc32 bytes = bytes.foldl (fun r b =>
      (fun c : Word => if c.getLsbD 0 then (c >>> 1) ^^^ 0xEDB88320#32 else c >>> 1)^[8] (r ^^^ b.setWidth 32))
        0xFFFFFFFF#32 ^^^ 0xFFFFFFFF#32

/-- R208: flipping one bit of a byte sequence changes its CRC. -/
def Obligations.CrcDetectsEverySingleBitFlip : Prop :=
  ∀ (bytes : List Byte) (i j : Nat), i < bytes.length → j < 8 →
    crc32 (bytes.set i (bytes.getD i 0 ^^^ (1#8 <<< j))) ≠ crc32 bytes

/-- R202 and the check values of R49. -/
def Obligations.CrcCheckValues : Prop :=
  crc32 [] = 0#32 ∧ crc32 [0x31, 0x32, 0x33, 0x34, 0x35, 0x36, 0x37, 0x38, 0x39] = 0xCBF43926#32 ∧
    crc32 [0x49, 0x45, 0x4E, 0x44] = 0xAE426082#32 ∧
    crcTable 0 = 0#32 ∧ crcTable 1 = 0x77073096#32 ∧ crcTable 2 = 0xEE0E612C#32 ∧ crcTable 3 = 0x990951BA#32 ∧
    crcTable 128 = 0xEDB88320#32 ∧ crcTable 255 = 0x2D02EF8D#32

/-! ## DEFLATE engine: Huffman codes -/

/-- R240, R241: `build` accepts exactly the complete length sets; a set that fills less than the code space is
HUFF_INCOMPLETE, one that fills more is HUFF_OVERSUB. -/
def Obligations.BuildAcceptsExactlyCompleteCodes : Prop :=
  ∀ (lens : List Nat) (pos : Nat),
    (kraftSum lens = 2 ^ 15 → buildCode lens pos = .ok lens) ∧
    (kraftSum lens < 2 ^ 15 → buildCode lens pos = .error (corruptAt .huffIncomplete pos)) ∧
    (2 ^ 15 < kraftSum lens → buildCode lens pos = .error (corruptAt .huffOversub pos))

/-- R242: on a complete code, `decode` gives a symbol exactly where the next bits spell that symbol's canonical code, most
significant bit first, and stands just past them. -/
def Obligations.DecodeReadsCanonicalCodes : Prop :=
  ∀ (p : Port) (lens : List Nat) (pos sym q : Nat), kraftSum lens = 2 ^ 15 →
    (decodeSymbol p lens pos = .ok (sym, q) ↔
      sym < lens.length ∧ 1 ≤ lens.getD sym 0 ∧ lens.getD sym 0 ≤ 15 ∧ q = pos + lens.getD sym 0 ∧
        Spells p pos (lens.getD sym 0) (codeOf lens sym))

/-- R242: on a complete code every 15 bits reach a symbol: `decode` fails only where the input does. -/
def Obligations.DecodeFailsOnlyWithTheInput : Prop :=
  ∀ (p : Port) (lens : List Nat) (pos : Nat) (e : Raise), kraftSum lens = 2 ^ 15 →
    decodeSymbol p lens pos = .error e → ∃ j, j < 15 ∧ readBit p (pos + j) = .error e

/-- R245: the lengths of both fixed codes, which are complete; symbol 256 is 0000000, 0 is 00110000, 144 is 110010000, and a
distance code is its symbol. -/
def Obligations.FixedCodesAreComplete : Prop :=
  kraftSum fixedLitLens = 2 ^ 15 ∧ kraftSum fixedDistLens = 2 ^ 15 ∧ fixedLitLens.length = 288 ∧
    fixedLitLens.getD 256 0 = 7 ∧ codeOf fixedLitLens 256 = 0 ∧ fixedLitLens.getD 0 0 = 8 ∧
    codeOf fixedLitLens 0 = 48 ∧ fixedLitLens.getD 144 0 = 9 ∧ codeOf fixedLitLens 144 = 400 ∧
    (∀ s, s < 288 → fixedLitLens.getD s 0 = if s < 144 then 8 else if s < 256 then 9 else if s < 280 then 7 else 8) ∧
    fixedDistLens.length = 32 ∧ ∀ d, d < 32 → fixedDistLens.getD d 0 = 5 ∧ codeOf fixedDistLens d = d

/-! ## DEFLATE engine: inflate -/

/-- R250: INFLATE and INFLATE.Z on regions that pass the checks: where the stream decodes, the output bytes, OUT_LEN their
number and IN_USED the bytes used; where it does not, the error of the decoding. The decoding is fixed by the bits that stand
on the wire, which are the bits of the source bytes (R230): a stream is blocks, each with BFINAL and BTYPE (R134, R250);
stored blocks (R246), dynamic headers (R247) and compressed data, symbol by symbol with the length and distance tables (R138,
R139, R248); and the zlib wrapper with its Adler-32 (R250 to R252). The symbols are read as DecodeReadsCanonicalCodes says,
the copies are those of BackReferenceCopiesFromTheOutput. -/
def Obligations.InflateCompletesWithTheDecoding : Prop :=
  SourceBitsRule ∧ BlockRule ∧ StoredBlockRule ∧ CodeLengthsRule ∧ DynamicHeaderRule ∧ CompressedDataRule ∧ ZlibWrapperRule ∧
  ∀ (s : State) (z : Bool), SrcDstOk s.latch.args →
    let run := inflateStream z (Port.ofRegion s.bus s.latch.args.src s.latch.args.len) s.bus
      { base := s.latch.args.dst, cap := s.latch.args.cap, n := 0, rev := [] }
    let i := if z then Instr.inflateZ else Instr.inflate
    (∀ r, run = .ok r → ∃ t, exec i s = .next t ∧ Success s t 0 (BitVec.ofNat 32 r.used) 0 r.sink.out) ∧
    (∀ e, run = .error e → ∃ t, exec i s = .next t ∧ Failure s t e.err e.info)

/-- R231, R250, R42: a decoding that succeeds puts out no more than the capacity and uses no more than the input. -/
def Obligations.InflateStaysInItsBounds : Prop :=
  ∀ (z : Bool) (p : Port) (b : Bus) (base cap : Nat) (r : Inflater),
    inflateStream z p b (Sink.start base cap) = .ok r →
    r.sink.out.length ≤ cap ∧ r.used ≤ p.len ∧ r.sink.n = r.sink.out.length

/-- The model's own bounds on rounds (log entry 11) never end a decoding or a parse: more rounds give the same answer, for the
blocks and the compressed data of a stream (R242, R248, R250: every round reads a bit), for the code lengths of a dynamic
header (R247: every round adds a length) and for the chunks (R343: every round passes 12 bytes). -/
def Obligations.InflateRoundsNeverRunOut : Prop :=
  (∀ (p : Port) (b : Bus) (more : Nat),
    (∀ r : Inflater, inflateBlocks p b (8 * p.len + more) r = inflateBlocks p b (8 * p.len) r) ∧
    ∀ (lit dist : List Nat) (pos : Nat) (k : Sink),
      compressedData p b lit dist (8 * p.len + more) pos k = compressedData p b lit dist (8 * p.len) pos k) ∧
  (∀ (p : Port) (cl : List Nat) (total more : Nat) (rev : List Nat) (pos : Nat),
    codeLengths p cl total (total + more) rev pos = codeLengths p cl total total rev pos) ∧
  ∀ (b : Bus) (a : Args) (more pos k : Nat) (o : Sink),
    parseChunks b a (a.len + more) pos k o = parseChunks b a a.len pos k o

/-- R232, R231: a back-reference within the output and the window copies the byte `distance` positions back, one byte at a time,
so a distance below the length repeats, and `length` bytes go out; a distance beyond the output is DISTANCE. Where only `m` of
the bytes fit the copy ends with DST_FULL at the cursor, and where the write of byte `m` does not complete it ends with
BusError(WRITE) at that byte. -/
def Obligations.BackReferenceCopiesFromTheOutput : Prop :=
  ∀ (b : Bus) (k : Sink) (pos length distance : Nat), k.n = k.rev.length →
    let copied := copyMatch b k pos length distance
    (k.n < distance → copied = .error (corruptAt .distance pos)) ∧
    (1 ≤ distance → distance ≤ k.n → distance ≤ 32768 →
      (k.n + length ≤ k.cap → Writable b.platform (k.base + k.n) length →
        ∃ k', copied = .ok k' ∧ k'.n = k.n + length ∧ k'.base = k.base ∧ k'.cap = k.cap ∧ k'.rev.length = k'.n ∧
          k'.out.take k.n = k.out ∧
          ∀ j, j < length → k'.out.getD (k.n + j) 0 = k'.out.getD (k.n + j - distance) 0) ∧
      ∀ m, m < length → Writable b.platform (k.base + k.n) m →
        (k.n + m = k.cap → copied = .error (full (pos / 8))) ∧
        (k.n + m < k.cap → memOk b.platform (k.base + k.n + m) .write = false →
          copied = .error { err := .bus .write, info := k.base + k.n + m }))

/-- R309: where DEFLATE at any level succeeds on the data of one state, INFLATE with the same Z on its output, in any state
with enough room and no bus error, gives back the data and uses the whole stream. -/
def Obligations.InflateUndoesDeflate : Prop :=
  ∀ (d t s : State) (level : BitVec 4) (z : Bool), levelOk level = true →
    exec (if z then Instr.deflateZ level else Instr.deflate level) d = .next t → t.status.err = false →
    s.sourceBytes = memBytes t.mem d.latch.args.dst t.results.outLen.toNat →
    SrcDstOk s.latch.args → d.latch.args.len ≤ s.latch.args.cap →
    Readable s.platform s.latch.args.src s.latch.args.len → Writable s.platform s.latch.args.dst d.latch.args.len →
    ∃ u, exec (if z then Instr.inflateZ else Instr.inflate) s = .next u ∧
      Success s u 0 s.latch.args.srcLen 0 d.sourceBytes

/-! ## DEFLATE engine: deflate -/

/-- R302: the level-0 stream has exactly BOUND bytes, no level's stream has more, and with room for BOUND bytes DEFLATE never
ends with CapacityError. -/
def Obligations.DeflateOutputIsBounded : Prop :=
  ∀ (data : List Byte) (z : Bool),
    let bound := data.length + 5 * max 1 ((data.length + 65534) / 65535) + (if z then 6 else 0)
    (storedStream data z).length = bound ∧ (∀ level, (deflateStream data level z).length ≤ bound) ∧
    ∀ (s t : State) (level : BitVec 4), levelOk level = true → s.latch.args.len = data.length →
      bound ≤ s.latch.args.cap → exec (if z then Instr.deflateZ level else Instr.deflate level) s = .next t →
      t.results.errCode ≠ ErrKind.capacity.code

/-- R300, R301, R303, R306: DEFLATE and DEFLATE.Z at every legal level, where the source is readable and the stream fits and can be
written, complete with that stream. The stream is a function of the data, the level and Z; it is the exact stored stream at level
0, a member of ADMISSIBLE at levels 1 to 9, and there the device's choice where that is one (log entry 6); it has at most BOUND
bytes. -/
def Obligations.DeflateCompletesWithAnAdmissibleStream : Prop :=
  ∀ (s : State) (level : BitVec 4) (z : Bool), levelOk level = true → SrcDstOk s.latch.args →
    let data := s.sourceBytes
    let out := deflateStream data level.toNat z
    (level = 0 → out = storedStream data z) ∧
    (level ≠ 0 → admissible data z out = true ∧
      (data ≠ [] → out = Config.deflateChoice data level.toNat z ∨
        admissible data z (Config.deflateChoice data level.toNat z) = false)) ∧
    out.length ≤ sizeBound s.latch.args.len z ∧
    (Readable s.platform s.latch.args.src s.latch.args.len → out.length ≤ s.latch.args.cap →
      Writable s.platform s.latch.args.dst out.length →
      ∃ t, exec (if z then Instr.deflateZ level else Instr.deflate level) s = .next t ∧
        Success s t 0 s.latch.args.srcLen 0 out)

/-- R300, R450: a stream longer than DST_CAP ends DEFLATE with CapacityError(DST_FULL, 0), after the source is read; the
destination is draws (R87, R310, R450; log entry 9). A byte of the source, or of the destination within the stream, whose
access does not complete ends it with BusError at the first such byte (R13). -/
def Obligations.DeflateTooLongForTheDestination : Prop :=
  ∀ (s : State) (level : BitVec 4) (z : Bool), levelOk level = true → SrcDstOk s.latch.args →
    let n := (deflateStream s.sourceBytes level.toNat z).length
    let fails : ErrKind → Nat → Prop := fun e info =>
      ∃ t, exec (if z then Instr.deflateZ level else Instr.deflate level) s = .next t ∧ Failure s t e info ∧
        DestinationDrawn s t
    (∀ x, FirstHole s.platform .read s.latch.args.src s.latch.args.len x → fails (.bus .read) x) ∧
    (Readable s.platform s.latch.args.src s.latch.args.len →
      (s.latch.args.cap < n → fails .capacity 0) ∧
      (n ≤ s.latch.args.cap → ∀ x, FirstHole s.platform .write s.latch.args.dst n x → fails (.bus .write) x))

/-- R305: the streams of empty input. -/
def Obligations.EmptyInputStreams : Prop :=
  deflateStream [] 0 false = [0x01, 0x00, 0x00, 0xFF, 0xFF] ∧
    deflateStream [] 0 true = [0x78, 0x01, 0x01, 0x00, 0x00, 0xFF, 0xFF, 0x00, 0x00, 0x00, 0x01] ∧
    ∀ level, 1 ≤ level → deflateStream [] level false = [0x03, 0x00] ∧
      deflateStream [] level true = [0x78, 0x01, 0x03, 0x00, 0x00, 0x00, 0x00, 0x01]

/-! ## Chunk framer -/

/-- R341: a source shorter than 8 bytes, or one whose first 8 bytes are not the signature, ends FRM.PARSE with
FormatError(SIGNATURE, 0); the shorter one without a read. A signature byte whose read does not complete, the bytes before it
being right, ends it with BusError(READ) at that byte (R13); log entry 14 is about the other case. R342, R343: past the signature and any list of whole chunks, what
stands at the next length field ends it with TRUNCATED, LENGTH, CRC, DST_FULL or BusError, in this order (ParseErrorRule). -/
def Obligations.ParseVerifiesTheSignature : Prop :=
  (∀ s : State, SrcDstOk s.latch.args → s.latch.args.dst % 4 = 0 →
    (s.latch.args.len < 8 → FailsWith .frmParse s (.format .signature) 0) ∧
    (8 ≤ s.latch.args.len → Readable s.platform s.latch.args.src 8 →
      memBytes s.mem s.latch.args.src 8 ≠ [0x89, 0x50, 0x4E, 0x47, 0x0D, 0x0A, 0x1A, 0x0A] →
      FailsWith .frmParse s (.format .signature) 0) ∧
    (8 ≤ s.latch.args.len → ∀ n, n < 8 →
      FirstHole s.platform .read s.latch.args.src 8 (s.latch.args.src + n) →
      memBytes s.mem s.latch.args.src n = [0x89, 0x50, 0x4E, 0x47, 0x0D, 0x0A, 0x1A, 0x0A].take n →
      FailsWith .frmParse s (.bus .read) (s.latch.args.src + n))) ∧
  ParseErrorRule

/-- R343, R344: FRM.PARSE of the signature and whole chunks with right CRCs, stopped by an IEND chunk, by MAX_CHUNKS, or by the
end of input: the number of chunks, the offset past the last one, the three flags, and the descriptor table. Bytes after the
stop are not read. -/
def Obligations.ParseListsTheChunks : Prop :=
  ∀ (s : State) (cs : List (List Byte × List Byte)) (rest : List Byte) (iend maxStop : Bool),
    SrcDstOk s.latch.args → s.latch.args.dst % 4 = 0 → ChunksOk cs →
    s.sourceBytes = pngSignature ++ wireBytes cs ++ rest →
    (∀ c, c ∈ cs.dropLast → c.1 ≠ tagIend) →
    (iend = true ↔ ∃ c, cs.getLast? = some c ∧ c.1 = tagIend) →
    (s.latch.args.arg0.toNat = 0 ∨ cs.length ≤ s.latch.args.arg0.toNat) →
    (maxStop = true ↔ iend = false ∧ s.latch.args.arg0.toNat ≠ 0 ∧ cs.length = s.latch.args.arg0.toNat) →
    (iend = false → maxStop = false → rest = []) →
    16 * cs.length ≤ s.latch.args.cap →
    Readable s.platform s.latch.args.src (8 + (wireBytes cs).length) →
    Writable s.platform s.latch.args.dst (16 * cs.length) →
    ∃ t, exec .frmParse s = .next t ∧
      Success s t (BitVec.ofNat 32 cs.length) (BitVec.ofNat 32 (8 + (wireBytes cs).length))
        (BitVec.ofNat 32 ((if iend then 1 else 0) + (if rest = [] then 0 else 2) + (if maxStop then 4 else 0)))
        (tableBytes (s.latch.args.src + 8) cs)

/-- R342, R354: in a stream that FRM.PARSE reads up to some chunk, one flipped bit in that chunk's type or data is
FormatError(CRC) at the offset of that chunk's length field. -/
def Obligations.ParseFindsEveryFlippedBit : Prop :=
  ∀ (s : State) (cs : List (List Byte × List Byte)) (tag data tag' data' rest : List Byte) (i j : Nat),
    SrcDstOk s.latch.args → s.latch.args.dst % 4 = 0 → ChunksOk cs → (∀ c, c ∈ cs → c.1 ≠ tagIend) →
    tag.length = 4 → data.length ≤ Config.framerMaxLen → tag'.length = 4 → i < 4 + data.length → j < 8 →
    tag' ++ data' = (tag ++ data).set i ((tag ++ data).getD i 0 ^^^ (1#8 <<< j)) →
    s.sourceBytes = pngSignature ++ wireBytes cs ++ be32bytes data.length ++ tag' ++ data' ++
      be32bytes (crc32 (tag ++ data)).toNat ++ rest →
    (s.latch.args.arg0.toNat = 0 ∨ cs.length < s.latch.args.arg0.toNat) →
    16 * cs.length ≤ s.latch.args.cap →
    Readable s.platform s.latch.args.src (8 + (wireBytes cs).length + 12 + data.length) →
    Writable s.platform s.latch.args.dst (16 * cs.length) →
    ∃ t, exec .frmParse s = .next t ∧ Failure s t (.format .crc) (8 + (wireBytes cs).length)

/-- R347, R348: FRM.IDATCAT puts out the data of the IDAT entries in table order: their number, 16 * N in IN_USED (where that
fits in 32 bits; log entry 8), and their bytes. R88, R89, R347: the first entry `k` that fails ends it with WRAP, OVERLAP,
DST_FULL or BusError, in this order, with `k` in ERR_INFO but for BusError (IdatcatErrorRule). -/
def Obligations.IdatcatConcatenatesTheIdatData : Prop :=
  IdatcatErrorRule ∧ ∀ s : State,
    let n := s.latch.args.entries
    let idats := ((List.range n).map s.entry).filter fun e => decide (e.tag = tagIdat)
    let payload := idats.flatMap s.entryData
    TableDstOk s.latch.args → Readable s.platform s.latch.args.aux s.latch.args.tableLen →
    (∀ e, e ∈ idats → s.EntryOk e) → idats ≠ [] → payload.length ≤ s.latch.args.cap →
    Writable s.platform s.latch.args.dst payload.length →
    ∃ t u, exec .frmIdatcat s = .next t ∧ Success s t (BitVec.ofNat 32 idats.length) u 0 payload ∧
      (16 * n < 2 ^ 32 → u = BitVec.ofNat 32 (16 * n))

/-- R349: a table without an IDAT entry, the empty table among them, ends FRM.IDATCAT with FormatError(NO_IDAT, 0). -/
def Obligations.IdatcatWithoutIdatFails : Prop :=
  ∀ s : State, TableDstOk s.latch.args → Readable s.platform s.latch.args.aux s.latch.args.tableLen →
    (∀ k, k < s.latch.args.entries → (s.entry k).tag ≠ tagIdat) →
    ∃ t, exec .frmIdatcat s = .next t ∧ Failure s t (.format .noIdat) 0

/-- R350, R351, R352: FRM.SERIALIZE writes the signature and the table's chunks in table order up to the first IEND entry, and
appends an empty IEND chunk where the table has none. `k` is the number of entries read. R88, R89, R350: the first entry that
fails ends it with CHUNK_LEN, IEND_LEN, WRAP, OVERLAP, DST_FULL or BusError, as its rule orders them, and so do the signature
and the appended IEND where they do not fit (SerializeErrorRule). -/
def Obligations.SerializeWritesTheStream : Prop :=
  SerializeErrorRule ∧ ∀ (s : State) (k : Nat) (ended : Bool),
    let n := s.latch.args.entries
    let es := (List.range k).map s.entry
    let stream := pngSignature ++ wireBytes (es.map fun e => (e.tag, s.entryData e)) ++
      (if ended then [] else [0x00, 0x00, 0x00, 0x00, 0x49, 0x45, 0x4E, 0x44, 0xAE, 0x42, 0x60, 0x82])
    k ≤ n → (∀ e, e ∈ es.dropLast → e.tag ≠ tagIend) →
    (ended = true ↔ ∃ e, es.getLast? = some e ∧ e.tag = tagIend) → (ended = false → k = n) →
    TableDstOk s.latch.args → Readable s.platform s.latch.args.aux (16 * k) →
    (∀ e, e ∈ es → s.EntryOk e ∧ e.len ≤ Config.framerMaxLen ∧ (e.tag = tagIend → e.len = 0)) →
    stream.length ≤ s.latch.args.cap → Writable s.platform s.latch.args.dst stream.length →
    ∃ t, exec .frmSerialize s = .next t ∧
      Success s t (BitVec.ofNat 32 (if ended then k else k + 1)) (BitVec.ofNat 32 (16 * k)) (if ended then 0 else 1) stream

/-! ## Scanline filter unit -/

/-- R381: the geometry checks of all seven filter commands, in their order; R390, R392, R445: after them the source-length check,
then the capacity check. Each leaves the destination as draws (R87, R450; log entry 9). -/
def Obligations.GeometryChecksInOrder : Prop :=
  ∀ s : State, SrcDstOk s.latch.args →
    ∀ i ∈ [Instr.fltReverse, .fltApplyNone, .fltApplySub, .fltApplyUp, .fltApplyAvg, .fltApplyPaeth, .fltApplyAuto],
    let bppOk := s.latch.args.bpp = 1 ∨ s.latch.args.bpp = 4
    (¬bppOk → ∃ t, exec i s = .next t ∧ Failure s t (.param .bpp) 0 ∧ DestinationDrawn s t) ∧
    (bppOk → s.latch.args.rows = 0 →
      ∃ t, exec i s = .next t ∧ Failure s t (.dimensions .rowsZero) 0 ∧ DestinationDrawn s t) ∧
    (bppOk → s.latch.args.rows ≠ 0 → s.latch.args.rowBytes = 0 →
      ∃ t, exec i s = .next t ∧ Failure s t (.dimensions .rowBytesZero) 0 ∧ DestinationDrawn s t) ∧
    (bppOk → s.latch.args.rows ≠ 0 → s.latch.args.rowBytes ≠ 0 → s.latch.args.rowBytes % s.latch.args.bpp ≠ 0 →
      ∃ t, exec i s = .next t ∧ Failure s t (.param .stride) 0 ∧ DestinationDrawn s t) ∧
    (bppOk → s.latch.args.rows ≠ 0 → s.latch.args.rowBytes ≠ 0 → s.latch.args.rowBytes % s.latch.args.bpp = 0 →
      2 ^ 32 - 1 < s.latch.args.rows * (1 + s.latch.args.rowBytes) →
      ∃ t, exec i s = .next t ∧ Failure s t (.param .sizeOverflow) 0 ∧ DestinationDrawn s t) ∧
    (GeometryOk s.latch.args →
      let filtered := s.latch.args.rows * (1 + s.latch.args.rowBytes)
      let raw := s.latch.args.rows * s.latch.args.rowBytes
      let reads := if i = .fltReverse then filtered else raw
      let writes := if i = .fltReverse then raw else filtered
      (s.latch.args.len < reads →
        ∃ t, exec i s = .next t ∧ DestinationDrawn s t ∧
          if i = .fltReverse then Failure s t (.corrupt .filterTrunc) s.latch.args.len else Failure s t (.param .srcShort) 0) ∧
      (reads ≤ s.latch.args.len → s.latch.args.cap < writes →
        ∃ t, exec i s = .next t ∧ Failure s t .capacity 0 ∧ DestinationDrawn s t))

/-- R392, R394: the six FLT.APPLY commands on a legal geometry: each row's type byte and filtered bytes, for the filter the
command names or, for AUTO, the one selected row by row. Each row is read and then written: the first byte whose access does
not complete ends the command with BusError (R13). -/
def Obligations.ApplyFiltersTheImage : Prop :=
  ∀ s : State, SrcDstOk s.latch.args → GeometryOk s.latch.args → s.latch.args.rawBytes ≤ s.latch.args.len →
    s.latch.args.filteredBytes ≤ s.latch.args.cap →
    ∀ p ∈ [(Instr.fltApplyNone, some FilterType.none), (.fltApplySub, some .sub), (.fltApplyUp, some .up),
      (.fltApplyAvg, some .avg), (.fltApplyPaeth, some .paeth), (.fltApplyAuto, Option.none)],
    let a := s.latch.args
    (Readable s.platform a.src a.rawBytes → Writable s.platform a.dst a.filteredBytes →
      ∃ t, exec p.1 s = .next t ∧
        Success s t 0 (BitVec.ofNat 32 a.rawBytes) 0
          (filterImage p.2 a.bpp a.rowBytes a.rows (zeroRow a.rowBytes) (memBytes s.mem a.src a.rawBytes))) ∧
    ∀ r x, r < a.rows → Readable s.platform a.src (r * a.rowBytes) → Writable s.platform a.dst (r * (1 + a.rowBytes)) →
      (FirstHole s.platform .read (a.src + r * a.rowBytes) a.rowBytes x → FailsWith p.1 s (.bus .read) x) ∧
      (Readable s.platform (a.src + r * a.rowBytes) a.rowBytes →
        FirstHole s.platform .write (a.dst + r * (1 + a.rowBytes)) (1 + a.rowBytes) x → FailsWith p.1 s (.bus .write) x)

/-- R390: FLT.REVERSE on a legal geometry with enough source and room: the rebuilt image; or, at the first row whose type byte
is above 4, CorruptStreamError(FILTER_TYPE) with that byte's offset. Each row's type byte is read, then its bytes, and then the
row is written: the first byte whose access does not complete ends the command with BusError (R13). -/
def Obligations.ReverseRebuildsTheImage : Prop :=
  ∀ s : State, SrcDstOk s.latch.args → GeometryOk s.latch.args → s.latch.args.filteredBytes ≤ s.latch.args.len →
    s.latch.args.rawBytes ≤ s.latch.args.cap →
    let a := s.latch.args
    let image := unfilterImage a.bpp a.rowBytes a.rows (zeroRow a.rowBytes) (memBytes s.mem a.src a.filteredBytes)
    let row : Nat → Nat := fun r => a.src + r * (1 + a.rowBytes)
    let typeOk : Nat → Prop := fun r => (s.mem.read (row r)).toNat ≤ 4
    let fails := FailsWith .fltReverse s
    (Readable s.platform a.src a.filteredBytes → Writable s.platform a.dst a.rawBytes →
      (image = Option.none ↔ ∃ r, r < a.rows ∧ ¬typeOk r) ∧
      ∀ img, image = some img → ∃ t, exec .fltReverse s = .next t ∧
        Success s t 0 (BitVec.ofNat 32 a.filteredBytes) 0 img) ∧
    ∀ r x, r < a.rows → (∀ r', r' < r → typeOk r') → Readable s.platform a.src (r * (1 + a.rowBytes)) →
      Writable s.platform a.dst (r * a.rowBytes) →
      (memOk s.platform (row r) .read = false → fails (.bus .read) (row r)) ∧
      (memOk s.platform (row r) .read = true →
        (¬typeOk r → fails (.corrupt .filterType) (r * (1 + a.rowBytes))) ∧
        (typeOk r →
          (FirstHole s.platform .read (row r + 1) a.rowBytes x → fails (.bus .read) x) ∧
          (Readable s.platform (row r + 1) a.rowBytes →
            FirstHole s.platform .write (a.dst + r * a.rowBytes) a.rowBytes x → fails (.bus .write) x)))

/-- R396: where FLT.APPLY with any legal MOD succeeds on the image of one state, FLT.REVERSE of its output with the same
geometry, in any state with enough room and no bus error, gives back the image. -/
def Obligations.ReverseUndoesApply : Prop :=
  ∀ d t s : State, ∀ i ∈ [Instr.fltApplyNone, .fltApplySub, .fltApplyUp, .fltApplyAvg, .fltApplyPaeth, .fltApplyAuto],
    exec i d = .next t → t.status.err = false →
    s.latch.args.arg0 = d.latch.args.arg0 → s.latch.args.arg1 = d.latch.args.arg1 → s.latch.args.arg2 = d.latch.args.arg2 →
    SrcDstOk s.latch.args → s.latch.args.filteredBytes ≤ s.latch.args.len → s.latch.args.rawBytes ≤ s.latch.args.cap →
    memBytes s.mem s.latch.args.src s.latch.args.filteredBytes =
      memBytes t.mem d.latch.args.dst d.latch.args.filteredBytes →
    Readable s.platform s.latch.args.src s.latch.args.filteredBytes →
    Writable s.platform s.latch.args.dst s.latch.args.rawBytes →
    ∃ u, exec .fltReverse s = .next u ∧ Success s u 0 (BitVec.ofNat 32 s.latch.args.filteredBytes) 0
      (memBytes d.mem d.latch.args.src d.latch.args.rawBytes)

/-- R382 to R389, R391: the predictors (0; a; b; the floor of half the exact a + b; paeth_predict, which PaethPicksTheNearest
fixes) and the neighbours by index. In a reversed row byte x is the filtered byte plus the prediction from
a = cur[x - bpp], b = prev[x], c = prev[x - bpp] (0 where x < bpp), modulo 256; in an applied row it is the unfiltered byte
minus the prediction. -/
def Obligations.RowsUseTheNeighboursByIndex : Prop :=
  (∀ a b c : Nat, predict .none a b c = 0 ∧ predict .sub a b c = a ∧ predict .up a b c = b ∧
    predict .avg a b c = (a + b) / 2 ∧ predict .paeth a b c = paethPredict a b c) ∧
  ([FilterType.none, .sub, .up, .avg, .paeth].map FilterType.code = [0, 1, 2, 3, 4]) ∧
  (∀ x : Nat, filterOf x = [FilterType.none, .sub, .up, .avg, .paeth][x]?) ∧
  ∀ (t : FilterType) (bpp : Nat) (row prev : List Byte) (x : Nat), 1 ≤ bpp → row.length = prev.length → x < row.length →
    let back : List Byte → Nat := fun l => if bpp ≤ x then byteAt l (x - bpp) else 0
    let rebuilt := reverseRow t bpp row prev
    (byteAt rebuilt x = (byteAt row x + predict t (back rebuilt) (byteAt prev x) (back prev)) % 256) ∧
    ((byteAt (applyRow t bpp row prev) x + predict t (back row) (byteAt prev x) (back prev)) % 256 = byteAt row x) ∧
    rebuilt.length = row.length ∧ (applyRow t bpp row prev).length = row.length

/-- R387: paeth_predict gives the one of a, b, c nearest to a + b - c, with ties in the order a, b, c. -/
def Obligations.PaethPicksTheNearest : Prop :=
  ∀ a b c : Nat,
    let d : Nat → Nat := fun v => ((a : Int) + b - c - v).natAbs
    (d a ≤ d b ∧ d a ≤ d c → paethPredict a b c = a) ∧
    (¬(d a ≤ d b ∧ d a ≤ d c) → d b ≤ d c → paethPredict a b c = b) ∧
    (¬(d a ≤ d b ∧ d a ≤ d c) → ¬d b ≤ d c → paethPredict a b c = c) ∧
    (∀ v ∈ [a, b, c], d (paethPredict a b c) ≤ d v)

/-- R394: the filter that AUTO selects has the lowest cost of the five, and the lowest type among equals; a cost is the sum of
the filtered bytes' absolute values as signed bytes. -/
def Obligations.AutoSelectsTheCheapestFilter : Prop :=
  ∀ (bpp : Nat) (cur prev : List Byte) (t : FilterType),
    let cost : FilterType → Nat := fun f =>
      ((applyRow f bpp cur prev).map fun v => if v.toNat < 128 then v.toNat else 256 - v.toNat).sum
    let best := selectFilter bpp cur prev
    cost best ≤ cost t ∧ (cost t = cost best → best.code ≤ t.code)
end

