-- ==== Sys2Proof/Laws/Bus.lean ====
section
/-! SUPPORT. The core's port to memory: what MemRead and MemWrite answer (rule R13). -/

namespace Sys2Proof.Machine

@[simp] theorem except_bind_ok {ε α β : Type} (a : α) (f : α → Except ε β) : (Except.ok a >>= f) = f a := rfl
@[simp] theorem except_bind_error {ε α β : Type} (e : ε) (f : α → Except ε β) :
    ((Except.error e : Except ε α) >>= f) = .error e := rfl

/-- A bind that succeeds: both parts do. -/
theorem except_bind_eq_ok {ε α β : Type} {x : Except ε α} {f : α → Except ε β} {b : β} :
    (x >>= f) = .ok b ↔ ∃ a, x = .ok a ∧ f a = .ok b := by
  cases x with
  | ok a => simp
  | error e => simp

/-- A bind that fails: one of the parts does. -/
theorem except_bind_eq_error {ε α β : Type} {x : Except ε α} {f : α → Except ε β} {e : ε} :
    (x >>= f) = .error e ↔ x = .error e ∨ ∃ a, x = .ok a ∧ f a = .error e := by
  cases x with
  | ok a => simp
  | error e' => simp

@[simp] theorem memBytes_zero (m : Memory) (base : Nat) : memBytes m base 0 = [] := rfl

theorem memBytes_succ (m : Memory) (base n : Nat) :
    memBytes m base (n + 1) = m.read base :: memBytes m (base + 1) n := by
  simp only [memBytes, List.range_succ_eq_map, List.map_cons, List.map_map, Nat.add_zero]
  congr 1
  apply List.map_congr_left
  intro i _
  simp only [Function.comp, Nat.succ_eq_add_one]
  congr 1
  omega

@[simp] theorem memBytes_length (m : Memory) (base n : Nat) : (memBytes m base n).length = n := by simp [memBytes]

theorem memBytes_append (m : Memory) (a n k : Nat) :
    memBytes m a (n + k) = memBytes m a n ++ memBytes m (a + n) k := by
  simp only [memBytes, List.range_add, List.map_append, List.map_map]
  congr 1
  apply List.map_congr_left
  intro i _
  simp [Nat.add_assoc]

theorem memBytes_take (m : Memory) (a : Nat) {n k : Nat} (h : k ≤ n) : (memBytes m a n).take k = memBytes m a k := by
  obtain ⟨j, rfl⟩ : ∃ j, n = k + j := ⟨n - k, by omega⟩
  rw [memBytes_append, List.take_left' (by simp)]

theorem memBytes_drop (m : Memory) (a : Nat) {n k : Nat} (h : k ≤ n) :
    (memBytes m a n).drop k = memBytes m (a + k) (n - k) := by
  obtain ⟨j, rfl⟩ : ∃ j, n = k + j := ⟨n - k, by omega⟩
  rw [memBytes_append, List.drop_left' (by simp), Nat.add_sub_cancel_left]

/-- With no hole every core access completes (R9). -/
theorem memOk_of_noHoles {p : Platform} (h : p.holes = []) (a : Nat) (k : Access) : memOk p a k = true := by
  simp [memOk, h]

theorem readable_of_noHoles {p : Platform} (h : p.holes = []) (base n : Nat) : Readable p base n :=
  fun a _ _ => memOk_of_noHoles h a .read

theorem writable_of_noHoles {p : Platform} (h : p.holes = []) (base n : Nat) : Writable p base n :=
  fun a _ _ => memOk_of_noHoles h a .write

theorem busRead_ok {b : Bus} {a : Nat} (h : memOk b.platform a .read = true) : busRead b a = .ok (b.mem.read a) := by
  simp [busRead, h]

/-- MemRead of a readable range gives the bytes of memory. -/
theorem memRead_ok (b : Bus) : ∀ (n a : Nat), Readable b.platform a n → memRead b a n = .ok (memBytes b.mem a n) := by
  intro n
  induction n with
  | zero => intro a _; rfl
  | succ n ih =>
    intro a h
    rw [memRead, busRead_ok (h a (by omega) (by omega)), memBytes_succ]
    simp only [except_bind_ok, ih (a + 1) fun x h1 h2 => h x (by omega) (by omega)]

/-- MemRead succeeds only on a readable range, with the bytes of memory. -/
theorem memRead_eq_ok {b : Bus} : ∀ {n a : Nat} {xs : List Byte}, memRead b a n = .ok xs →
    Readable b.platform a n ∧ xs = memBytes b.mem a n := by
  intro n
  induction n with
  | zero => intro a xs h; cases h; exact ⟨fun _ _ _ => by omega, rfl⟩
  | succ n ih =>
    intro a xs h
    rw [memRead, except_bind_eq_ok] at h
    obtain ⟨x, hx, h⟩ := h
    rw [except_bind_eq_ok] at h
    obtain ⟨ys, hy, h⟩ := h
    obtain ⟨hr, rfl⟩ := ih hy
    unfold busRead at hx
    split at hx
    · cases hx
      cases h
      refine ⟨fun c h1 h2 => ?_, (memBytes_succ _ _ _).symm⟩
      by_cases hc : c = a
      · subst hc; assumption
      · exact hr c (by omega) (by omega)
    · cases hx

/-- MemRead fails with BusError(READ) at the first byte whose read does not complete (R13). -/
theorem memRead_error {b : Bus} : ∀ {n a c : Nat}, a ≤ c → c < a + n → memOk b.platform c .read = false →
    Readable b.platform a (c - a) → memRead b a n = .error { err := .bus .read, info := c } := by
  intro n
  induction n with
  | zero => intro a c h1 h2; omega
  | succ n ih =>
    intro a c h1 h2 hc hr
    rw [memRead]
    by_cases hac : a = c
    · subst hac; simp [busRead, hc]
    · rw [busRead_ok (hr a (by omega) (by omega))]
      simp only [except_bind_ok]
      rw [ih (by omega) (by omega) hc fun x h3 h4 => hr x (by omega) (by omega)]
      rfl

/-- MemRead reports the first hole of its range (R13). -/
theorem memRead_hole {b : Bus} {a n x : Nat} (h : FirstHole b.platform .read a n x) :
    memRead b a n = .error { err := .bus .read, info := x } :=
  memRead_error h.above h.below h.hole fun y h₁ h₂ => h.before y h₁ (by have := h.above; omega)

/-- The destination bookkeeping is sound: `n` counts the bytes written and does not pass the capacity. -/
structure Sink.Ok (k : Sink) : Prop where
  count : k.n = k.rev.length
  fits  : k.n ≤ k.cap

@[simp] theorem sink_start_base (base cap : Nat) : (Sink.start base cap).base = base := rfl
@[simp] theorem sink_start_cap (base cap : Nat) : (Sink.start base cap).cap = cap := rfl
@[simp] theorem sink_start_n (base cap : Nat) : (Sink.start base cap).n = 0 := rfl
@[simp] theorem sink_start_rev (base cap : Nat) : (Sink.start base cap).rev = [] := rfl
@[simp] theorem sink_start_out (base cap : Nat) : (Sink.start base cap).out = [] := rfl

theorem sink_start_ok (base cap : Nat) : (Sink.start base cap).Ok := ⟨rfl, Nat.zero_le cap⟩

/-- The sink after a sequence was written. -/
def Sink.push (k : Sink) (xs : List Byte) : Sink := { k with n := k.n + xs.length, rev := xs.reverse ++ k.rev }

@[simp] theorem sink_push_base (k : Sink) (xs : List Byte) : (k.push xs).base = k.base := rfl
@[simp] theorem sink_push_cap (k : Sink) (xs : List Byte) : (k.push xs).cap = k.cap := rfl
@[simp] theorem sink_push_n (k : Sink) (xs : List Byte) : (k.push xs).n = k.n + xs.length := rfl
@[simp] theorem sink_push_out (k : Sink) (xs : List Byte) : (k.push xs).out = k.out ++ xs := by
  simp [Sink.push, Sink.out]

/-- MemWrite of a writable range appends the bytes. -/
theorem memWrite_ok (b : Bus) : ∀ (xs : List Byte) (k : Sink), Writable b.platform (k.base + k.n) xs.length →
    memWrite b k xs = .ok (k.push xs) := by
  intro xs
  induction xs with
  | nil => intro k _; simp [memWrite, Sink.push]
  | cons x xs ih =>
    intro k h
    simp only [List.length_cons] at h
    have hx : memOk b.platform (k.base + k.n) .write = true := h _ (by omega) (by omega)
    simp only [memWrite, busWrite, hx, if_true, except_bind_ok]
    rw [ih _ fun a h1 h2 => h a (by simp only at h1; omega) (by simp only at h2; omega)]
    simp [Sink.push, Nat.add_assoc, Nat.add_comm 1]

/-- MemWrite succeeds only by appending the bytes. -/
theorem memWrite_eq_ok {b : Bus} : ∀ {xs : List Byte} {k k' : Sink}, memWrite b k xs = .ok k' → k' = k.push xs := by
  intro xs
  induction xs with
  | nil => intro k k' h; cases h; simp [Sink.push]
  | cons x xs ih =>
    intro k k' h
    rw [memWrite, except_bind_eq_ok] at h
    obtain ⟨k₁, h₁, h⟩ := h
    unfold busWrite at h₁
    split at h₁
    · cases h₁
      rw [ih h]
      simp [Sink.push, Nat.add_assoc, Nat.add_comm 1]
    · cases h₁

/-- MemWrite reports the first hole of the bytes it writes (R13). -/
theorem memWrite_hole {b : Bus} : ∀ {xs : List Byte} {k : Sink} {x : Nat},
    FirstHole b.platform .write (k.base + k.n) xs.length x → memWrite b k xs = .error { err := .bus .write, info := x } := by
  intro xs
  induction xs with
  | nil => intro k x h; have := h.above; have := h.below; simp at this; omega
  | cons y ys ih =>
    intro k x h
    have ha := h.above
    have hb := h.below
    simp only [List.length_cons] at hb
    rw [memWrite, busWrite]
    by_cases hx : x = k.base + k.n
    · subst hx
      simp [h.hole]
    · rw [if_pos (h.before _ (Nat.le_refl _) (by omega)), except_bind_ok]
      exact ih ⟨by simp only; omega, by simp only; omega, h.hole, fun a h₁ h₂ => h.before a (by simp only at h₁; omega) h₂⟩

/-- The bookkeeping stays sound while what is written fits. -/
theorem sink_push_ok {k : Sink} (h : k.Ok) {xs : List Byte} (hx : k.n + xs.length ≤ k.cap) : (k.push xs).Ok :=
  ⟨by simp [Sink.push, h.count, Nat.add_comm], by simpa [Sink.push] using hx⟩

end Sys2Proof.Machine
end

