-- ==== Sys2Proof/Laws/Checks.lean ====
section
/-! SUPPORT. What the operand checks answer (rules R86, R88, R89, R381), for the command starts and for a table entry. -/

namespace Sys2Proof.Machine

/-- Two regions with an address in common overlap (R89). -/
theorem overlaps_eq_true {a n b m x : Nat} (h₁ : a ≤ x) (h₂ : x < a + n) (h₃ : b ≤ x) (h₄ : x < b + m) :
    overlaps a n b m = true := by
  simp [overlaps]; omega

/-- Two regions without an address in common do not (R89). -/
theorem overlaps_eq_false {a n b m : Nat} (h : ∀ x, a ≤ x → x < a + n → ¬(b ≤ x ∧ x < b + m)) : overlaps a n b m = false := by
  have h₁ := h a
  have h₂ := h b
  simp [overlaps]; omega

theorem checkSrcDst_ok {a : Args} (h : SrcDstOk a) : checkSrcDst a = .ok () := by
  simp [checkSrcDst, checkRegion, checkOverlap, h.src, h.dst, h.apart]

theorem checkSrcTable_ok {a : Args} (h : SrcDstOk a) (hd : a.dst % 4 = 0) : checkSrcTable a = .ok () := by
  simp [checkSrcTable, checkRegion, checkOverlap, checkAlign, h.src, h.dst, h.apart, hd]

theorem checkTableDst_ok {a : Args} (h : TableDstOk a) : checkTableDst a = .ok () := by
  simp [checkTableDst, checkRegion, checkOverlap, checkAlign, h.table, h.dst, h.align, h.apart]

theorem checkGeometry_ok {a : Args} (h : GeometryOk a) : checkGeometry a = .ok () := by
  have h₁ : ¬(a.bpp ≠ 1 ∧ a.bpp ≠ 4) := by have := h.bpp; omega
  rw [checkGeometry, if_neg h₁, if_neg (Nat.pos_iff_ne_zero.mp h.rows), if_neg (Nat.pos_iff_ne_zero.mp h.rowBytes),
    if_neg (not_not_intro h.stride), if_neg (Nat.not_lt.mpr h.size)]

/-- An entry's data region that passes the top of the address space is WRAP, one that meets the destination is OVERLAP, and any
other passes (R88, R89). -/
theorem checkEntry_cases (a : Args) (e : Entry) (k : Nat) :
    (2 ^ 32 < e.addr + e.len → checkEntry a e k = .error { err := .param .wrap, info := k }) ∧
    (e.addr + e.len ≤ 2 ^ 32 →
      (∀ x, e.addr ≤ x → x < e.addr + e.len → a.dst ≤ x → x < a.dst + a.cap →
        checkEntry a e k = .error { err := .param .overlap, info := k }) ∧
      ((∀ x, e.addr ≤ x → x < e.addr + e.len → ¬(a.dst ≤ x ∧ x < a.dst + a.cap)) → checkEntry a e k = .ok ())) := by
  have top : Config.addrSpace = 2 ^ 32 := rfl
  refine ⟨fun h => ?_, fun h => ⟨fun x h₁ h₂ h₃ h₄ => ?_, fun hx => ?_⟩⟩
  · have hr : regionOk e.addr e.len = false := decide_eq_false (by rw [top]; omega)
    simp only [checkEntry, checkRegion, hr]; rfl
  all_goals have hr : regionOk e.addr e.len = true := decide_eq_true (by rw [top]; omega)
  · simp only [checkEntry, checkRegion, hr, checkOverlap, overlaps_eq_true h₁ h₂ h₃ h₄]; rfl
  · simp only [checkEntry, checkRegion, hr, checkOverlap, overlaps_eq_false hx]; rfl

/-- An entry of a readable table reads as memory holds it (R130). -/
theorem readEntry_ok {s : State} {k : Nat} (h : Readable s.platform (s.latch.args.aux + 16 * k) 16) :
    readEntry s.bus s.latch.args k = .ok (s.entry k) := by
  rw [readEntry, memRead_ok s.bus _ _ h]; rfl

end Sys2Proof.Machine
end

