-- ==== Sys2Proof/Laws/Memory.lean ====
section
/-! SUPPORT. The laws of system memory: a read after a write, and the canonical form kept by every operation. -/

namespace Sys2Proof.Machine

@[simp] theorem read_nil (a : Nat) : Memory.read [] a = unlistedByte := rfl

@[simp] theorem read_insert (m : Memory) (a : Nat) (b : Byte) (c : Nat) :
    (m.insert a b).read c = if c = a then b else m.read c := by
  induction m with
  | nil => simp only [Memory.insert, Memory.read]; grind
  | cons h m ih => obtain ⟨x, d⟩ := h; simp only [Memory.insert]; split <;> grind [Memory.read]

@[simp] theorem read_erase (m : Memory) (a c : Nat) :
    (m.erase a).read c = if c = a then unlistedByte else m.read c := by
  induction m with
  | nil => simp [Memory.erase]
  | cons h m ih =>
    obtain ⟨x, d⟩ := h
    simp only [Memory.erase, List.filter] at ih ⊢
    split <;> grind [Memory.read]

/-- Reading after one write. -/
theorem read_write (m : Memory) (a : Nat) (b : Byte) (c : Nat) :
    (m.write a b).read c = if c = a ∧ a < Config.addrSpace then b else m.read c := by
  unfold Memory.write
  split
  · split <;> simp_all
  · simp_all

theorem read_write_same (m : Memory) {a : Nat} (b : Byte) (h : a < Config.addrSpace) : (m.write a b).read a = b := by
  simp only [read_write, h, and_self, if_true]

theorem read_write_other (m : Memory) {a c : Nat} (b : Byte) (h : c ≠ a) : (m.write a b).read c = m.read c := by
  simp only [read_write, h, false_and, if_false]

/-- Reading outside the bytes written. -/
theorem read_writeBytes_outside (bs : List Byte) : ∀ (m : Memory) (a c : Nat), c < a ∨ a + bs.length ≤ c →
    (m.writeBytes a bs).read c = m.read c := by
  induction bs with
  | nil => intros; rfl
  | cons b bs ih =>
    intro m a c h
    simp only [List.length_cons] at h
    rw [Memory.writeBytes, ih _ _ _ (by omega), read_write_other _ _ (by omega)]

/-- Reading a byte written. -/
theorem read_writeBytes_inside (bs : List Byte) : ∀ (m : Memory) (a i : Nat), a + bs.length ≤ Config.addrSpace →
    i < bs.length → (m.writeBytes a bs).read (a + i) = bs.getD i 0 := by
  induction bs with
  | nil => intro m a i _ h; simp at h
  | cons b bs ih =>
    intro m a i ha hi
    simp only [List.length_cons] at ha hi
    cases i with
    | zero =>
      rw [Memory.writeBytes, read_writeBytes_outside _ _ _ _ (by omega), Nat.add_zero, read_write_same _ _ (by omega)]
      rfl
    | succ i =>
      rw [Memory.writeBytes, show a + (i + 1) = a + 1 + i by omega, ih _ _ _ (by omega) (by omega)]
      rfl

/-- Reading after a region became draws: a draw inside it, the old byte outside. -/
theorem read_drawBytes (m : Memory) (n a : Nat) (len : Nat) (c : Nat) :
    (m.drawBytes n a len).read c =
      if a ≤ c ∧ c < a + len ∧ c < Config.addrSpace then Config.freeByte n c else m.read c := by
  induction len with
  | zero => simp only [Memory.drawBytes]; split <;> [omega; rfl]
  | succ k ih =>
    rw [Memory.drawBytes, read_write, ih]
    split
    · next h => obtain ⟨rfl, h⟩ := h; rw [if_pos (by omega)]
    · next h => by_cases hc : c = a + k
                · subst hc; rw [if_neg (by omega), if_neg (by omega)]
                · split <;> split <;> first | rfl | omega

theorem read_drawBytes_outside (m : Memory) (n : Nat) {a len c : Nat} (h : c < a ∨ a + len ≤ c) :
    (m.drawBytes n a len).read c = m.read c := by
  rw [read_drawBytes, if_neg (by omega)]

/-! ## The canonical form -/

theorem wfFrom_cons {lo x : Nat} {b : Byte} {m : Memory} : Memory.wfFrom lo ((x, b) :: m) = true ↔
    lo ≤ x ∧ x < Config.addrSpace ∧ b ≠ unlistedByte ∧ Memory.wfFrom (x + 1) m = true := by
  simp only [Memory.wfFrom, Bool.and_eq_true, decide_eq_true_eq, and_assoc]

theorem wfFrom_mono {lo lo' : Nat} {m : Memory} (hle : lo' ≤ lo) (h : Memory.wfFrom lo m = true) :
    Memory.wfFrom lo' m = true := by
  cases m with
  | nil => rfl
  | cons c m => obtain ⟨x, b⟩ := c; rw [wfFrom_cons] at h ⊢; exact ⟨by omega, h.2⟩

theorem wfFrom_insert {a : Nat} {b : Byte} (ha : a < Config.addrSpace) (hb : b ≠ unlistedByte) :
    ∀ {m : Memory} {lo : Nat}, Memory.wfFrom lo m = true → lo ≤ a → Memory.wfFrom lo (m.insert a b) = true := by
  intro m
  induction m with
  | nil => intro lo _ hl; exact wfFrom_cons.2 ⟨hl, ha, hb, rfl⟩
  | cons c m ih =>
    obtain ⟨x, d⟩ := c
    intro lo h hl
    rw [wfFrom_cons] at h
    rw [Memory.insert]
    split
    · exact wfFrom_cons.2 ⟨h.1, h.2.1, h.2.2.1, ih h.2.2.2 (by omega)⟩
    · split
      · next hx => subst hx; exact wfFrom_cons.2 ⟨hl, ha, hb, h.2.2.2⟩
      · exact wfFrom_cons.2 ⟨hl, ha, hb, wfFrom_cons.2 ⟨by omega, h.2⟩⟩

theorem wfFrom_erase (a : Nat) : ∀ {m : Memory} {lo : Nat}, Memory.wfFrom lo m = true → Memory.wfFrom lo (m.erase a) = true := by
  intro m
  induction m with
  | nil => intros; rfl
  | cons c m ih =>
    obtain ⟨x, d⟩ := c
    intro lo h
    rw [wfFrom_cons] at h
    by_cases hx : x = a
    · have : Memory.erase ((x, d) :: m) a = Memory.erase m a := by simp [Memory.erase, hx]
      rw [this]; exact wfFrom_mono (by omega) (ih h.2.2.2)
    · have : Memory.erase ((x, d) :: m) a = (x, d) :: Memory.erase m a := by simp [Memory.erase, hx]
      rw [this]; exact wfFrom_cons.2 ⟨h.1, h.2.1, h.2.2.1, ih h.2.2.2⟩

@[simp] theorem wf_nil : Memory.wf [] = true := rfl

theorem wf_write {m : Memory} (a : Nat) (b : Byte) (h : m.wf = true) : (m.write a b).wf = true := by
  unfold Memory.write
  split
  · split
    · exact wfFrom_erase a h
    · exact wfFrom_insert ‹_› ‹_› h (Nat.zero_le a)
  · exact h

theorem wf_writeBytes (bs : List Byte) : ∀ {m : Memory} (a : Nat), m.wf = true → (m.writeBytes a bs).wf = true := by
  induction bs with
  | nil => intro m a h; exact h
  | cons b bs ih => intro m a h; exact ih _ (wf_write a b h)

theorem wf_drawBytes {m : Memory} (n a len : Nat) (h : m.wf = true) : (m.drawBytes n a len).wf = true := by
  induction len with
  | zero => exact h
  | succ k ih => exact wf_write _ _ ih

/-- Writing the cells of an image over a memory: at each address the last cell stands (R481). -/
theorem read_foldl_write (image : List Host.Cell) : ∀ (m : Memory) {a : Nat}, a < Config.addrSpace →
    (image.foldl (fun m c => m.write c.1 c.2) m).read a =
      (((image.filter fun c => decide (c.1 = a)).getLast?).map (·.2)).getD (m.read a) := by
  induction image with
  | nil => intro m a _; rfl
  | cons c cs ih =>
    intro m a h
    rw [List.foldl_cons, ih _ h]
    by_cases hc : c.1 = a
    · simp only [List.filter_cons, hc, decide_true, if_true]
      cases cs.filter fun c => decide (c.1 = a) with
      | nil => simp [read_write_same m c.2 h]
      | cons x xs => simp [List.getLast?_cons]
    · simp only [List.filter_cons, hc, decide_false, if_false, Bool.false_eq_true]
      rw [read_write_other m c.2 fun h => hc h.symm]

/-- What a byte reads as in the memory an image describes. -/
theorem read_ofImage (image : List Host.Cell) {a : Nat} (h : a < Config.addrSpace) :
    (Memory.ofImage image).read a =
      (((image.filter fun c => decide (c.1 = a)).getLast?).map (·.2)).getD unlistedByte := read_foldl_write image [] h

theorem wf_ofImage (image : List Host.Cell) : (Memory.ofImage image).wf = true := by
  have : ∀ (cs : List Host.Cell) (m : Memory), m.wf = true →
      (cs.foldl (fun m c => Memory.write m c.1 c.2) m).wf = true := by
    intro cs
    induction cs with
    | nil => intro m h; exact h
    | cons c cs ih => intro m h; exact ih _ (wf_write _ _ h)
  exact this image [] rfl

end Sys2Proof.Machine
end

