-- ==== Sys2Proof/Laws/State.lean ====
section
/-! SUPPORT. One lemma per field for each named update of the state, so that no proof unfolds a record update, and what the
completions and the soft reset leave. -/

namespace Sys2Proof.Machine

/-! ## startCommand -/

@[simp] theorem startCommand_ie (w : Word) (s : State) : (startCommand w s).ie = s.ie := rfl
@[simp] theorem startCommand_status (w : Word) (s : State) : (startCommand w s).status =
    { s.status with busy := true, done := false, err := false } := rfl
@[simp] theorem startCommand_cmd (w : Word) (s : State) : (startCommand w s).cmd = w := rfl
@[simp] theorem startCommand_args (w : Word) (s : State) : (startCommand w s).args = s.args := rfl
@[simp] theorem startCommand_results (w : Word) (s : State) : (startCommand w s).results = Results.zero := rfl
@[simp] theorem startCommand_latch (w : Word) (s : State) : (startCommand w s).latch =
    { cmd := w, args := s.args } := rfl
@[simp] theorem startCommand_engine (w : Word) (s : State) : (startCommand w s).engine = Engine.empty := rfl
@[simp] theorem startCommand_mem (w : Word) (s : State) : (startCommand w s).mem = s.mem := rfl
@[simp] theorem startCommand_platform (w : Word) (s : State) : (startCommand w s).platform = s.platform := rfl
@[simp] theorem startCommand_events (w : Word) (s : State) : (startCommand w s).events = s.events := rfl
@[simp] theorem startCommand_rdata (w : Word) (s : State) : (startCommand w s).rdata = s.rdata := rfl
@[simp] theorem startCommand_unseen (w : Word) (s : State) : (startCommand w s).unseen =
    { cmd := w, args := s.args } :: s.unseen := rfl
@[simp] theorem startCommand_draws (w : Word) (s : State) : (startCommand w s).draws = s.draws := rfl

/-! ## finishWith -/

@[simp] theorem finishWith_ie (d : Done) (s : State) : (finishWith d s).ie = s.ie := rfl
@[simp] theorem finishWith_status (d : Done) (s : State) : (finishWith d s).status =
    { s.status with busy := false, done := true, err := false } := rfl
@[simp] theorem finishWith_cmd (d : Done) (s : State) : (finishWith d s).cmd = s.cmd := rfl
@[simp] theorem finishWith_args (d : Done) (s : State) : (finishWith d s).args = s.args := rfl
@[simp] theorem finishWith_results (d : Done) (s : State) : (finishWith d s).results =
    { result := d.result, outLen := BitVec.ofNat 32 d.out.length, inUsed := d.inUsed, flagsOut := d.flags, errCode := 0, errInfo := 0 } := rfl
@[simp] theorem finishWith_latch (d : Done) (s : State) : (finishWith d s).latch = Latch.any s.draws := rfl
@[simp] theorem finishWith_engine (d : Done) (s : State) : (finishWith d s).engine = Engine.any s.draws := rfl
@[simp] theorem finishWith_mem (d : Done) (s : State) : (finishWith d s).mem =
    s.mem.writeBytes s.latch.args.dstAddr.toNat d.out := rfl
@[simp] theorem finishWith_platform (d : Done) (s : State) : (finishWith d s).platform = s.platform := rfl
@[simp] theorem finishWith_events (d : Done) (s : State) : (finishWith d s).events = s.events := rfl
@[simp] theorem finishWith_rdata (d : Done) (s : State) : (finishWith d s).rdata = s.rdata := rfl
@[simp] theorem finishWith_unseen (d : Done) (s : State) : (finishWith d s).unseen = s.unseen := rfl
@[simp] theorem finishWith_draws (d : Done) (s : State) : (finishWith d s).draws = s.draws + 1 := rfl

/-! ## raiseWith -/

@[simp] theorem raiseWith_ie (hasDst : Bool) (r : Raise) (s : State) : (raiseWith hasDst r s).ie = s.ie := rfl
@[simp] theorem raiseWith_status (hasDst : Bool) (r : Raise) (s : State) : (raiseWith hasDst r s).status =
    { s.status with busy := false, done := true, err := true } := rfl
@[simp] theorem raiseWith_cmd (hasDst : Bool) (r : Raise) (s : State) : (raiseWith hasDst r s).cmd = s.cmd := rfl
@[simp] theorem raiseWith_args (hasDst : Bool) (r : Raise) (s : State) : (raiseWith hasDst r s).args = s.args := rfl
@[simp] theorem raiseWith_results (hasDst : Bool) (r : Raise) (s : State) : (raiseWith hasDst r s).results =
    { result := 0, outLen := 0, inUsed := 0, flagsOut := 0, errCode := r.err.code, errInfo := BitVec.ofNat 32 r.info } := rfl
@[simp] theorem raiseWith_latch (hasDst : Bool) (r : Raise) (s : State) : (raiseWith hasDst r s).latch =
    Latch.any s.draws := rfl
@[simp] theorem raiseWith_engine (hasDst : Bool) (r : Raise) (s : State) : (raiseWith hasDst r s).engine =
    Engine.any s.draws := rfl
@[simp] theorem raiseWith_mem (hasDst : Bool) (r : Raise) (s : State) : (raiseWith hasDst r s).mem =
    if hasDst then s.mem.drawBytes s.draws s.latch.args.dstAddr.toNat s.latch.args.dstCap.toNat else s.mem := rfl
@[simp] theorem raiseWith_platform (hasDst : Bool) (r : Raise) (s : State) : (raiseWith hasDst r s).platform =
    s.platform := rfl
@[simp] theorem raiseWith_events (hasDst : Bool) (r : Raise) (s : State) : (raiseWith hasDst r s).events =
    s.events := rfl
@[simp] theorem raiseWith_rdata (hasDst : Bool) (r : Raise) (s : State) : (raiseWith hasDst r s).rdata =
    s.rdata := rfl
@[simp] theorem raiseWith_unseen (hasDst : Bool) (r : Raise) (s : State) : (raiseWith hasDst r s).unseen =
    s.unseen := rfl
@[simp] theorem raiseWith_draws (hasDst : Bool) (r : Raise) (s : State) : (raiseWith hasDst r s).draws =
    s.draws + 1 := rfl

/-! ## resetRegs -/

@[simp] theorem resetRegs_ie (mem : Memory) (s : State) : (resetRegs mem s).ie = false := rfl
@[simp] theorem resetRegs_status (mem : Memory) (s : State) : (resetRegs mem s).status = Status.zero := rfl
@[simp] theorem resetRegs_cmd (mem : Memory) (s : State) : (resetRegs mem s).cmd = 0 := rfl
@[simp] theorem resetRegs_args (mem : Memory) (s : State) : (resetRegs mem s).args = Args.zero := rfl
@[simp] theorem resetRegs_results (mem : Memory) (s : State) : (resetRegs mem s).results = Results.zero := rfl
@[simp] theorem resetRegs_latch (mem : Memory) (s : State) : (resetRegs mem s).latch = Latch.zero := rfl
@[simp] theorem resetRegs_engine (mem : Memory) (s : State) : (resetRegs mem s).engine = Engine.empty := rfl
@[simp] theorem resetRegs_mem (mem : Memory) (s : State) : (resetRegs mem s).mem = mem := rfl
@[simp] theorem resetRegs_platform (mem : Memory) (s : State) : (resetRegs mem s).platform = s.platform := rfl
@[simp] theorem resetRegs_events (mem : Memory) (s : State) : (resetRegs mem s).events = s.events := rfl
@[simp] theorem resetRegs_rdata (mem : Memory) (s : State) : (resetRegs mem s).rdata = s.rdata := rfl
@[simp] theorem resetRegs_unseen (mem : Memory) (s : State) : (resetRegs mem s).unseen = [] := rfl
@[simp] theorem resetRegs_draws (mem : Memory) (s : State) : (resetRegs mem s).draws = s.draws := rfl

/-! ## hardReset -/

@[simp] theorem hardReset_ie (image : List Host.Cell) (s : State) : (hardReset image s).ie = false := rfl
@[simp] theorem hardReset_status (image : List Host.Cell) (s : State) : (hardReset image s).status =
    Status.zero := rfl
@[simp] theorem hardReset_cmd (image : List Host.Cell) (s : State) : (hardReset image s).cmd = 0 := rfl
@[simp] theorem hardReset_args (image : List Host.Cell) (s : State) : (hardReset image s).args = Args.zero := rfl
@[simp] theorem hardReset_results (image : List Host.Cell) (s : State) : (hardReset image s).results =
    Results.zero := rfl
@[simp] theorem hardReset_latch (image : List Host.Cell) (s : State) : (hardReset image s).latch = Latch.zero := rfl
@[simp] theorem hardReset_engine (image : List Host.Cell) (s : State) : (hardReset image s).engine =
    Engine.empty := rfl
@[simp] theorem hardReset_mem (image : List Host.Cell) (s : State) : (hardReset image s).mem =
    Memory.ofImage image := rfl
@[simp] theorem hardReset_platform (image : List Host.Cell) (s : State) : (hardReset image s).platform =
    s.platform := rfl
@[simp] theorem hardReset_events (image : List Host.Cell) (s : State) : (hardReset image s).events = s.events := rfl
@[simp] theorem hardReset_rdata (image : List Host.Cell) (s : State) : (hardReset image s).rdata = s.rdata := rfl
@[simp] theorem hardReset_unseen (image : List Host.Cell) (s : State) : (hardReset image s).unseen = [] := rfl
@[simp] theorem hardReset_draws (image : List Host.Cell) (s : State) : (hardReset image s).draws = s.draws := rfl

/-! ## seeCompletion -/

@[simp] theorem seeCompletion_ie (s : State) : (seeCompletion s).ie = s.ie := rfl
@[simp] theorem seeCompletion_status (s : State) : (seeCompletion s).status = s.status := rfl
@[simp] theorem seeCompletion_cmd (s : State) : (seeCompletion s).cmd = s.cmd := rfl
@[simp] theorem seeCompletion_args (s : State) : (seeCompletion s).args = s.args := rfl
@[simp] theorem seeCompletion_results (s : State) : (seeCompletion s).results = s.results := rfl
@[simp] theorem seeCompletion_latch (s : State) : (seeCompletion s).latch = s.latch := rfl
@[simp] theorem seeCompletion_engine (s : State) : (seeCompletion s).engine = s.engine := rfl
@[simp] theorem seeCompletion_mem (s : State) : (seeCompletion s).mem = s.mem := rfl
@[simp] theorem seeCompletion_platform (s : State) : (seeCompletion s).platform = s.platform := rfl
@[simp] theorem seeCompletion_events (s : State) : (seeCompletion s).events = s.events := rfl
@[simp] theorem seeCompletion_rdata (s : State) : (seeCompletion s).rdata = s.rdata := rfl
@[simp] theorem seeCompletion_unseen (s : State) : (seeCompletion s).unseen = [] := rfl
@[simp] theorem seeCompletion_draws (s : State) : (seeCompletion s).draws = s.draws := rfl

/-! ## withFetchWord -/

@[simp] theorem withFetchWord_ie (s : State) (nbits w : Nat) : (s.withFetchWord nbits w).ie = s.ie := rfl
@[simp] theorem withFetchWord_status (s : State) (nbits w : Nat) : (s.withFetchWord nbits w).status =
    { s.status with busy := true, done := false, err := false } := rfl
@[simp] theorem withFetchWord_cmd (s : State) (nbits w : Nat) : (s.withFetchWord nbits w).cmd =
    tableWord nbits w := rfl
@[simp] theorem withFetchWord_args (s : State) (nbits w : Nat) : (s.withFetchWord nbits w).args = s.args := rfl
@[simp] theorem withFetchWord_results (s : State) (nbits w : Nat) : (s.withFetchWord nbits w).results =
    Results.zero := rfl
@[simp] theorem withFetchWord_latch (s : State) (nbits w : Nat) : (s.withFetchWord nbits w).latch =
    { cmd := tableWord nbits w, args := s.args } := rfl
@[simp] theorem withFetchWord_engine (s : State) (nbits w : Nat) : (s.withFetchWord nbits w).engine =
    Engine.empty := rfl
@[simp] theorem withFetchWord_mem (s : State) (nbits w : Nat) : (s.withFetchWord nbits w).mem = s.mem := rfl
@[simp] theorem withFetchWord_platform (s : State) (nbits w : Nat) : (s.withFetchWord nbits w).platform =
    s.platform := rfl
@[simp] theorem withFetchWord_events (s : State) (nbits w : Nat) : (s.withFetchWord nbits w).events =
    .coreStep :: s.events := rfl
@[simp] theorem withFetchWord_rdata (s : State) (nbits w : Nat) : (s.withFetchWord nbits w).rdata = s.rdata := rfl
@[simp] theorem withFetchWord_unseen (s : State) (nbits w : Nat) : (s.withFetchWord nbits w).unseen =
    { cmd := tableWord nbits w, args := s.args } :: s.unseen := rfl
@[simp] theorem withFetchWord_draws (s : State) (nbits w : Nat) : (s.withFetchWord nbits w).draws = s.draws := rfl

/-! ## withScript -/

@[simp] theorem withScript_ie (s : State) (script : List Stmt) : (s.withScript script).ie = s.ie := rfl
@[simp] theorem withScript_status (s : State) (script : List Stmt) : (s.withScript script).status = s.status := rfl
@[simp] theorem withScript_cmd (s : State) (script : List Stmt) : (s.withScript script).cmd = s.cmd := rfl
@[simp] theorem withScript_args (s : State) (script : List Stmt) : (s.withScript script).args = s.args := rfl
@[simp] theorem withScript_results (s : State) (script : List Stmt) : (s.withScript script).results = s.results := rfl
@[simp] theorem withScript_latch (s : State) (script : List Stmt) : (s.withScript script).latch = s.latch := rfl
@[simp] theorem withScript_engine (s : State) (script : List Stmt) : (s.withScript script).engine = s.engine := rfl
@[simp] theorem withScript_mem (s : State) (script : List Stmt) : (s.withScript script).mem = 
    scriptMemory s.mem script := rfl
@[simp] theorem withScript_platform (s : State) (script : List Stmt) : (s.withScript script).platform = s.platform := rfl
@[simp] theorem withScript_events (s : State) (script : List Stmt) : (s.withScript script).events = 
    s.events ++ scriptEvents s.platform script := rfl
@[simp] theorem withScript_rdata (s : State) (script : List Stmt) : (s.withScript script).rdata = s.rdata := rfl
@[simp] theorem withScript_unseen (s : State) (script : List Stmt) : (s.withScript script).unseen = s.unseen := rfl
@[simp] theorem withScript_draws (s : State) (script : List Stmt) : (s.withScript script).draws = s.draws := rfl

/-! ## softReset -/

@[simp] theorem softReset_ie (s : State) : (softReset s).ie = false := by unfold softReset; split <;> rfl
@[simp] theorem softReset_status (s : State) : (softReset s).status = Status.zero := by unfold softReset; split <;> rfl
@[simp] theorem softReset_cmd (s : State) : (softReset s).cmd = 0 := by unfold softReset; split <;> rfl
@[simp] theorem softReset_args (s : State) : (softReset s).args = Args.zero := by unfold softReset; split <;> rfl
@[simp] theorem softReset_results (s : State) : (softReset s).results = Results.zero := by unfold softReset; split <;> rfl
@[simp] theorem softReset_latch (s : State) : (softReset s).latch = Latch.zero := by unfold softReset; split <;> rfl
@[simp] theorem softReset_engine (s : State) : (softReset s).engine = Engine.empty := by unfold softReset; split <;> rfl
@[simp] theorem softReset_platform (s : State) : (softReset s).platform = s.platform := by unfold softReset; split <;> rfl
@[simp] theorem softReset_events (s : State) : (softReset s).events = s.events := by unfold softReset; split <;> rfl
@[simp] theorem softReset_rdata (s : State) : (softReset s).rdata = s.rdata := by unfold softReset; split <;> rfl
@[simp] theorem softReset_unseen (s : State) : (softReset s).unseen = [] := by unfold softReset; split <;> rfl

theorem softReset_mem_idle {s : State} (h : s.status.busy = false) : (softReset s).mem = s.mem := by
  simp [softReset, h]

theorem softReset_mem_busy {s : State} (h : s.status.busy = true) : (softReset s).mem =
    s.mem.drawBytes s.draws s.latch.args.dstAddr.toNat s.latch.args.dstCap.toNat := by
  simp [softReset, h]

/-! ## complete -/

@[simp] theorem complete_ok (hasDst : Bool) (d : Done) (s : State) : complete hasDst (.ok d) s = finishWith d s := rfl
@[simp] theorem complete_error (hasDst : Bool) (e : Raise) (s : State) :
    complete hasDst (.error e) s = raiseWith hasDst e s := rfl
@[simp] theorem complete_ie (hasDst : Bool) (r : Except Raise Done) (s : State) :
    (complete hasDst r s).ie = s.ie := by cases r <;> rfl
@[simp] theorem complete_cmd (hasDst : Bool) (r : Except Raise Done) (s : State) :
    (complete hasDst r s).cmd = s.cmd := by cases r <;> rfl
@[simp] theorem complete_args (hasDst : Bool) (r : Except Raise Done) (s : State) :
    (complete hasDst r s).args = s.args := by cases r <;> rfl
@[simp] theorem complete_platform (hasDst : Bool) (r : Except Raise Done) (s : State) :
    (complete hasDst r s).platform = s.platform := by cases r <;> rfl
@[simp] theorem complete_events (hasDst : Bool) (r : Except Raise Done) (s : State) :
    (complete hasDst r s).events = s.events := by cases r <;> rfl
@[simp] theorem complete_rdata (hasDst : Bool) (r : Except Raise Done) (s : State) :
    (complete hasDst r s).rdata = s.rdata := by cases r <;> rfl
@[simp] theorem complete_unseen (hasDst : Bool) (r : Except Raise Done) (s : State) :
    (complete hasDst r s).unseen = s.unseen := by cases r <;> rfl
@[simp] theorem complete_draws (hasDst : Bool) (r : Except Raise Done) (s : State) :
    (complete hasDst r s).draws = s.draws + 1 := by cases r <;> rfl
@[simp] theorem complete_busy (hasDst : Bool) (r : Except Raise Done) (s : State) :
    (complete hasDst r s).status.busy = false := by cases r <;> rfl
@[simp] theorem complete_done (hasDst : Bool) (r : Except Raise Done) (s : State) :
    (complete hasDst r s).status.done = true := by cases r <;> rfl
@[simp] theorem complete_ovr (hasDst : Bool) (r : Except Raise Done) (s : State) :
    (complete hasDst r s).status.ovr = s.status.ovr := by cases r <;> rfl

theorem complete_hostSideKept (hasDst : Bool) (r : Except Raise Done) (s : State) :
    HostSideKept s (complete hasDst r s) :=
  { ie := by simp, cmd := by simp, args := by simp, platform := by simp, events := by simp, rdata := by simp,
    unseen := by simp }

end Sys2Proof.Machine
end

