-- ==== Sys2Proof/Laws/Completion.lean ====
section
/-! SUPPORT. What the two completions say in the terms of Safety: a `finish` whose output fits is a Success, a `raise` is a
Failure, and both keep the canonical form of memory. -/

namespace Sys2Proof.Machine

/-- `finish` with an output inside the address space is the success completion of R449. -/
theorem finishWith_success (d : Done) (s : State) (h : s.latch.args.dst + d.out.length ≤ Config.addrSpace) :
    Success s (finishWith d s) d.result d.inUsed d.flags d.out where
  results := rfl
  status := rfl
  written := fun i hi => read_writeBytes_inside d.out s.mem s.latch.args.dst i h hi
  elsewhere := fun a ha => read_writeBytes_outside d.out s.mem s.latch.args.dst a ha
  kept := complete_hostSideKept false (.ok d) s

/-- `raise` is the error completion of R450. -/
theorem raiseWith_failure (hasDst : Bool) (r : Raise) (s : State) : Failure s (raiseWith hasDst r s) r.err r.info where
  results := rfl
  status := rfl
  elsewhere := by
    intro a ha
    rw [raiseWith_mem]
    split
    · exact read_drawBytes_outside _ _ ha
    · rfl
  kept := complete_hostSideKept hasDst (.error r) s

/-- A `raise` of a command with a destination leaves draws in all of it (R87, R450). -/
theorem raiseWith_destinationDrawn (r : Raise) (s : State) : DestinationDrawn s (raiseWith true r s) := by
  intro a h₁ h₂ h₃
  rw [raiseWith_mem, if_pos rfl, read_drawBytes]
  exact if_pos ⟨h₁, h₂, h₃⟩

/-- A command without a destination leaves memory as it was on an error (R450). -/
theorem raiseWith_noDestination_mem (r : Raise) (s : State) : (raiseWith false r s).mem = s.mem := by simp

/-- A command whose body raises completes with that error. -/
theorem failsWith_of_raise {i : Instr} {s : State} {hasDst : Bool} {body : Except Raise Done} {e : ErrKind} {info : Nat}
    (hexec : exec i s = .next (complete hasDst body s)) (hbody : body = .error { err := e, info := info }) :
    FailsWith i s e info := by
  subst hbody
  exact ⟨_, hexec, raiseWith_failure hasDst _ s⟩

theorem wf_finishWith (d : Done) {s : State} (h : s.mem.wf = true) : (finishWith d s).mem.wf = true :=
  wf_writeBytes _ _ h

theorem wf_raiseWith (hasDst : Bool) (r : Raise) {s : State} (h : s.mem.wf = true) :
    (raiseWith hasDst r s).mem.wf = true := by
  rw [raiseWith_mem]
  split
  · exact wf_drawBytes _ _ _ h
  · exact h

theorem wf_complete (hasDst : Bool) (r : Except Raise Done) {s : State} (h : s.mem.wf = true) :
    (complete hasDst r s).mem.wf = true := by
  cases r with
  | ok d => exact wf_finishWith d h
  | error e => exact wf_raiseWith hasDst e h

theorem wf_softReset {s : State} (h : s.mem.wf = true) : (softReset s).mem.wf = true := by
  cases hb : s.status.busy with
  | false => rw [softReset_mem_idle hb]; exact h
  | true => rw [softReset_mem_busy hb]; exact wf_drawBytes _ _ _ h

theorem wf_hardReset (image : List Host.Cell) (s : State) : (hardReset image s).mem.wf = true := wf_ofImage image

end Sys2Proof.Machine
end

