-- ==== Sys2Proof/Laws/Exec.lean ====
section
/-! SUPPORT. The shape of the execute step, said once: every command is its body over the latched operands and the memory
snapshot, followed by a completion; and what one step can be. -/

namespace Sys2Proof.Machine

/-- The body of a command: a function of the memory snapshot, the platform and the latched operands (R84, R254). -/
def commandBody (i : Instr) (b : Bus) (a : Args) : Except Raise Done :=
  match i with
  | .nop => .ok { result := 0, inUsed := 0, flags := 0, out := [] }
  | .crcCompute => crcComputeBody b a
  | .crcVerify => crcVerifyBody b a
  | .inflate => inflateBody false b a
  | .inflateZ => inflateBody true b a
  | .deflate level => deflateBody level.toNat false b a
  | .deflateZ level => deflateBody level.toNat true b a
  | .frmParse => parseBody b a
  | .frmIdatcat => idatcatBody b a
  | .frmSerialize => serializeBody b a
  | .fltReverse => reverseBody b a
  | .fltApplyNone => applyBody (some .none) b a
  | .fltApplySub => applyBody (some .sub) b a
  | .fltApplyUp => applyBody (some .up) b a
  | .fltApplyAvg => applyBody (some .avg) b a
  | .fltApplyPaeth => applyBody (some .paeth) b a
  | .fltApplyAuto => applyBody Option.none b a

/-- Every command runs its body and completes (R124, R444). -/
theorem exec_eq (i : Instr) (s : State) :
    exec i s = .next (complete (usesDestination i) (commandBody i s.bus s.latch.args) s) := by cases i <;> rfl

/-- exec always answers a next state: the completion of its command. -/
theorem exec_next {i : Instr} {s t : State} (h : exec i s = .next t) :
    t = complete (usesDestination i) (commandBody i s.bus s.latch.args) s := by
  rw [exec_eq] at h
  exact (Host.Outcome.next.inj h).symm

theorem executeStep_decoded {s : State} {i : Instr} (h : decode s.latch.cmd = .ok i) : executeStep s = exec i s := by
  simp [executeStep, h]

theorem executeStep_illegal {s : State} {k : Illegal} (h : decode s.latch.cmd = .error k) :
    executeStep s = .next (raiseIllegal k s) := by
  simp [executeStep, h]

/-- The execute step is a completion. -/
theorem executeStep_complete (s : State) : ∃ hasDst r, executeStep s = .next (complete hasDst r s) := by
  cases h : decode s.latch.cmd with
  | ok i => exact ⟨_, _, by rw [executeStep_decoded h, exec_eq]⟩
  | error k => exact ⟨true, .error _, executeStep_illegal h⟩

/-- What one step can be: rest, the execute step, or an event. -/
theorem step_cases (s : State) :
    (s.events = [] ∧ s.status.busy = false ∧ step s = .next s) ∨
    (s.status.busy = true ∧ (s.events = [] ∨ ∃ es, s.events = .wait :: es) ∧ step s = executeStep s) ∨
    (∃ e es, s.events = e :: es ∧ (e = .wait → s.status.busy = false) ∧ step s = takeEvent e { s with events := es }) := by
  unfold step
  cases hb : s.status.busy <;> (split <;> simp_all)

end Sys2Proof.Machine
end

