-- ==== Sys2Proof/Laws/Inflate.lean ====
section
/-! SUPPORT. What the bit reader and the stored block answer, from the bits that stand on the wire (rules R15, R246). -/

namespace Sys2Proof.Machine

/-- `ReadBits(n)` gives the number that stands at the cursor (R15). -/
theorem readBits_bitsAt {p : Port} : ∀ {n pos v : Nat}, BitsAt p pos n v → readBits p n pos = .ok v := by
  intro n
  induction n with
  | zero => intro pos v h; have := h.1; simp at this; subst this; rfl
  | succ n ih =>
    intro pos v h
    have h0 := h.2 0 (by omega)
    have hr : BitsAt p (pos + 1) n (v / 2) := by
      refine ⟨by have := h.1; rw [Nat.pow_succ] at this; omega, fun j hj => ?_⟩
      have := h.2 (j + 1) (by omega)
      rw [Nat.add_assoc, Nat.add_comm 1 j, this, Nat.testBit_succ]
    rw [readBits]
    simp only [Nat.add_zero] at h0
    rw [h0, except_bind_ok, ih hr, except_bind_ok]
    congr 1
    rw [Nat.testBit_zero]
    unfold bit
    split <;> rename_i h1 <;> simp at h1 <;> omega

/-- Reading more bits fails where reading the first of them fails, or the rest (R15). -/
theorem readBits_append {p : Port} : ∀ {n m pos : Nat} {e : Raise}, readBits p (n + m) pos = .error e →
    readBits p n pos = .error e ∨ ∃ v, readBits p n pos = .ok v ∧ readBits p m (pos + n) = .error e := by
  intro n
  induction n with
  | zero => intro m pos e h; exact .inr ⟨0, rfl, by simpa using h⟩
  | succ n ih =>
    intro m pos e h
    rw [Nat.succ_add, readBits] at h
    rw [readBits]
    cases hb : readBit p pos with
    | error e' => rw [hb] at h; exact .inl h
    | ok b =>
      rw [hb, except_bind_ok] at h
      cases hr : readBits p (n + m) (pos + 1) with
      | ok v => rw [hr] at h; cases h
      | error e' =>
        rw [hr] at h
        cases h
        rcases ih hr with h1 | ⟨v, h1, h2⟩
        · rw [h1]; exact .inl rfl
        · rw [h1]; exact .inr ⟨_, rfl, by rw [← h2]; congr 1; omega⟩

/-- The bytes of a stored block that stand on the wire go out (R246). -/
theorem storedBytes_ok {p : Port} {b : Bus} : ∀ (data : List Byte) (pos : Nat) (k : Sink),
    (∀ i, i < data.length → BitsAt p (pos + 8 * i) 8 (byteAt data i)) → k.n + data.length ≤ k.cap →
    Writable b.platform (k.base + k.n) data.length →
    storedBytes p b data.length pos k = .ok (pos + 8 * data.length, k.push data) := by
  intro data
  induction data with
  | nil => intro pos k _ _ _; simp [storedBytes, Sink.push]
  | cons x xs ih =>
    intro pos k h hc hw
    have h0 := readBits_bitsAt (h 0 (by simp))
    simp only [Nat.mul_zero, Nat.add_zero] at h0
    simp only [List.length_cons] at hc hw ⊢
    rw [storedBytes, h0, except_bind_ok]
    have hx : lowByte (byteAt (x :: xs) 0) = x := by simp [byteAt, lowByte]
    have hok : memOk b.platform (k.base + k.n) .write = true := hw _ (by omega) (by omega)
    have hne : ¬k.n = k.cap := by omega
    simp only [hx, emit, hne, if_false, busWrite, hok, if_true, except_bind_ok]
    rw [ih]
    · simp [Sink.push, Nat.add_assoc, Nat.add_comm 1, Nat.mul_add, Nat.add_comm 8]
    · intro i hi
      have := h (i + 1) (by simp; omega)
      have e : byteAt (x :: xs) (i + 1) = byteAt xs i := by simp [byteAt]
      rw [e] at this
      rw [show pos + 8 + 8 * i = pos + 8 * (i + 1) by omega]
      exact this
    · simp only; omega
    · intro a h1 h2; exact hw a (by simp only at h1; omega) (by simp only at h2; omega)

end Sys2Proof.Machine
end

