-- ==== Sys2Proof/Laws/PerInstr.lean ====
section
/-! SUPPORT. Facts about every command as syntax, one lemma per constructor: its word matches its row of
spec/opcode_table.json. -/

namespace Sys2Proof.Laws

/-- The match and mask of a command's row, copied from spec/opcode_table.json. -/
def tableRow : Instr → Word × Word
  | .nop => (0x00000000#32, 0xFFFFFFFF#32)
  | .crcCompute => (0x00000001#32, 0xFFFFFFFF#32)
  | .crcVerify => (0x00000002#32, 0xFFFFFFFF#32)
  | .inflate => (0x00000010#32, 0xFFFFFFFF#32)
  | .inflateZ => (0x00001010#32, 0xFFFFFFFF#32)
  | .deflate _ => (0x00000011#32, 0xFFFFF0FF#32)
  | .deflateZ _ => (0x00001011#32, 0xFFFFF0FF#32)
  | .frmParse => (0x00000020#32, 0xFFFFFFFF#32)
  | .frmIdatcat => (0x00000021#32, 0xFFFFFFFF#32)
  | .frmSerialize => (0x00000022#32, 0xFFFFFFFF#32)
  | .fltReverse => (0x00000030#32, 0xFFFFFFFF#32)
  | .fltApplyNone => (0x00000031#32, 0xFFFFFFFF#32)
  | .fltApplySub => (0x00000131#32, 0xFFFFFFFF#32)
  | .fltApplyUp => (0x00000231#32, 0xFFFFFFFF#32)
  | .fltApplyAvg => (0x00000331#32, 0xFFFFFFFF#32)
  | .fltApplyPaeth => (0x00000431#32, 0xFFFFFFFF#32)
  | .fltApplyAuto => (0x00000F31#32, 0xFFFFFFFF#32)

namespace TableRow

/-- The command's word matches its row. -/
def Statement (i : Instr) : Prop := encode i &&& (tableRow i).2 = (tableRow i).1

theorem nop : Statement .nop := by unfold Statement; decide
theorem crcCompute : Statement .crcCompute := by unfold Statement; decide
theorem crcVerify : Statement .crcVerify := by unfold Statement; decide
theorem inflate : Statement .inflate := by unfold Statement; decide
theorem inflateZ : Statement .inflateZ := by unfold Statement; decide
theorem deflate (level : BitVec 4) : Statement (.deflate level) := by revert level; unfold Statement; decide
theorem deflateZ (level : BitVec 4) : Statement (.deflateZ level) := by revert level; unfold Statement; decide
theorem frmParse : Statement .frmParse := by unfold Statement; decide
theorem frmIdatcat : Statement .frmIdatcat := by unfold Statement; decide
theorem frmSerialize : Statement .frmSerialize := by unfold Statement; decide
theorem fltReverse : Statement .fltReverse := by unfold Statement; decide
theorem fltApplyNone : Statement .fltApplyNone := by unfold Statement; decide
theorem fltApplySub : Statement .fltApplySub := by unfold Statement; decide
theorem fltApplyUp : Statement .fltApplyUp := by unfold Statement; decide
theorem fltApplyAvg : Statement .fltApplyAvg := by unfold Statement; decide
theorem fltApplyPaeth : Statement .fltApplyPaeth := by unfold Statement; decide
theorem fltApplyAuto : Statement .fltApplyAuto := by unfold Statement; decide

end TableRow

end Sys2Proof.Laws
end

