-- ==== Sys2Proof/Tests/Slice0.lean ====
section
/-! SUPPORT. The model's own tests, each one step on a small state with the result taken from spec/95_test_vectors.md or worked
out by hand, and one witness for each obligation with hypotheses. -/

namespace Sys2Proof.Tests

open Sys2Proof.Machine

/-! One theorem at a time: each `decide +kernel` waits for the kernel, and a file of them would hold a thread for each. -/

set_option Elab.async false

/-! ## Helpers -/

/-- The argument registers from numbers: source, destination, AUX_ADDR, ARG0 to ARG2. -/
def regs (src len dst cap : Nat) (aux arg0 arg1 arg2 : Nat := 0) : Args :=
  { srcAddr := BitVec.ofNat 32 src, srcLen := BitVec.ofNat 32 len, dstAddr := BitVec.ofNat 32 dst,
    dstCap := BitVec.ofNat 32 cap, auxAddr := BitVec.ofNat 32 aux, arg0 := BitVec.ofNat 32 arg0,
    arg1 := BitVec.ofNat 32 arg1, arg2 := BitVec.ofNat 32 arg2 }

/-- The cells of a sequence placed at an address. -/
def cells : Nat → List Nat → List Host.Cell
  | _, [] => []
  | a, x :: xs => (a, BitVec.ofNat 8 x) :: cells (a + 1) xs

/-- The core after reset with its argument registers and memory set. -/
def idle (a : Args) (image : List Host.Cell) : State := { State.reset with args := a, mem := Memory.ofImage image }

/-- That core with a command just started. -/
def started (cmd : Word) (a : Args) (image : List Host.Cell) : State := startCommand cmd (idle a image)

/-- STATUS, the six result registers and the first `n` bytes from DST_ADDR, after one step. -/
def digest (o : Host.Outcome State Fault Refusal) (dst n : Nat) : List Nat :=
  match o with
  | .next t =>
    [t.status.word, t.results.result, t.results.outLen, t.results.inUsed, t.results.flagsOut, t.results.errCode,
      t.results.errInfo].map BitVec.toNat ++ (memBytes t.mem dst n).map BitVec.toNat
  | .fault _ => []
  | .refused _ => []

/-- One command from reset: the digest of the step that runs it. -/
def run (cmd : Nat) (a : Args) (image : List Host.Cell) (n : Nat) : List Nat :=
  digest (step ((idle a image).withFetchWord 32 cmd)) a.dst n

/-! ## WellFormed smoke: ill-formed terms are refused (R123) -/

theorem test_wellFormed_deflate_level_10 : (Instr.deflate 10).wellFormed = false := by decide
theorem test_wellFormed_deflateZ_level_15 : (Instr.deflateZ 15).wellFormed = false := by decide
theorem test_wellFormed_deflate_level_9 : (Instr.deflate 9).wellFormed = true := by decide

/-! ## Decoding: words written out from the fields of R121, the opcodes of R122 and the table of R123 -/

theorem test_decode_nop : decode 0b0000000000000000000_0_0000_00000000#32 = .ok .nop := by rfl
theorem test_decode_crcCompute : decode 0b0000000000000000000_0_0000_00000001#32 = .ok .crcCompute := by rfl
theorem test_decode_crcVerify : decode 0b0000000000000000000_0_0000_00000010#32 = .ok .crcVerify := by rfl
theorem test_decode_inflate : decode 0b0000000000000000000_0_0000_00010000#32 = .ok .inflate := by rfl
theorem test_decode_inflateZ : decode 0b0000000000000000000_1_0000_00010000#32 = .ok .inflateZ := by rfl
theorem test_decode_deflate_0 : decode 0b0000000000000000000_0_0000_00010001#32 = .ok (.deflate 0) := by rfl
theorem test_decode_deflate_9 : decode 0b0000000000000000000_0_1001_00010001#32 = .ok (.deflate 9) := by rfl
theorem test_decode_deflateZ_6 : decode 0b0000000000000000000_1_0110_00010001#32 = .ok (.deflateZ 6) := by rfl
theorem test_decode_frmParse : decode 0b0000000000000000000_0_0000_00100000#32 = .ok .frmParse := by rfl
theorem test_decode_frmIdatcat : decode 0b0000000000000000000_0_0000_00100001#32 = .ok .frmIdatcat := by rfl
theorem test_decode_frmSerialize : decode 0b0000000000000000000_0_0000_00100010#32 = .ok .frmSerialize := by rfl
theorem test_decode_fltReverse : decode 0b0000000000000000000_0_0000_00110000#32 = .ok .fltReverse := by rfl
theorem test_decode_fltApplyNone : decode 0b0000000000000000000_0_0000_00110001#32 = .ok .fltApplyNone := by rfl
theorem test_decode_fltApplySub : decode 0b0000000000000000000_0_0001_00110001#32 = .ok .fltApplySub := by rfl
theorem test_decode_fltApplyUp : decode 0b0000000000000000000_0_0010_00110001#32 = .ok .fltApplyUp := by rfl
theorem test_decode_fltApplyAvg : decode 0b0000000000000000000_0_0011_00110001#32 = .ok .fltApplyAvg := by rfl
theorem test_decode_fltApplyPaeth : decode 0b0000000000000000000_0_0100_00110001#32 = .ok .fltApplyPaeth := by rfl
theorem test_decode_fltApplyAuto : decode 0b0000000000000000000_0_1111_00110001#32 = .ok .fltApplyAuto := by rfl

/-- V-DEC-1, V-DEC-4, V-DEC-5, V-DEC-7, V-DEC-8: the checks and their order (R126). -/
theorem test_decode_illegal :
    decode 0x00000003#32 = .error .opcode ∧ decode 0x00002003#32 = .error .reservedBits ∧
      decode 0x00001001#32 = .error .zbit ∧ decode 0x00000A11#32 = .error .mod ∧
      decode 0x00000531#32 = .error .mod := by refine ⟨rfl, rfl, rfl, rfl, rfl⟩

theorem test_decodeTableWord : decodeTableWord 32 0xF31 = some .fltApplyAuto ∧ decodeTableWord 32 0x3 = none := by decide

/-! ## Registers and reset -/

/-- V-CTL-1 to V-CTL-3: ID, the register before the reserved ones, and the reserved offsets. -/
theorem test_reset_reads :
    hostRead State.reset 0x00 = 0x504E4707#32 ∧ hostRead State.reset 0x44 = 0#32 ∧
      hostRead State.reset 0x48 = 0#32 ∧ hostRead State.reset 0xFC = 0#32 := by decide

/-- V-CTL-7: the soft reset wins over IE. -/
theorem test_softReset_wins :
    let t := hostWrite { State.reset with ie := true, args := regs 5 0 0 0 } 0x04 3#32
    hostRead t 0x04 = 0#32 ∧ hostRead t 0x10 = 0#32 := by decide

/-- V-CTL-13: a CMD write while BUSY sets OVR, and CMD still reads 0. -/
theorem test_overrun :
    let t := hostWrite (started 0 (regs 0 0 0 0) []) 0x0C 1#32
    hostRead t 0x08 = 9#32 ∧ hostRead t 0x0C = 0#32 := by decide

/-- V-CTL-11 and V-CTL-16: STATUS bit 0 is ignored, and 0xE clears the three sticky bits. -/
theorem test_status_write :
    let s := { State.reset with status := { busy := false, done := true, err := false, ovr := true } }
    hostRead (hostWrite s 0x08 1#32) 0x08 = 0xA#32 ∧ hostRead (hostWrite s 0x08 0xE#32) 0x08 = 0#32 := by decide

/-- V-CTL-14: the execute step of a NOP keeps OVR. -/
theorem test_overrun_survives_completion :
    let s := hostWrite (started 0 (regs 0 0 0 0) []) 0x0C 1#32
    (digest (step s) 0 0).head? = some 0xA := by decide

/-- A window at an unaligned REG_BASE that passes the top: the offset counts, modulo 2^32 (log entry 13). -/
theorem test_window_wraps :
    windowOffset { regBase := 0xFFFFFFFE#32, holes := [] } 0x00000002#32 = some 4 ∧
      windowOffset { regBase := 0xFFFFFFFE#32, holes := [] } 0x000000FE#32 = none := by decide

/-- R142: a `mem` line after a command is in memory before the script runs. -/
theorem test_script_mem_is_start_state :
    let s := State.reset.withScript [.command .nop, .mem 0x100#32 [7, 8], .wait]
    s.mem.read 0x101 = 8 ∧ s.events.length = 2 := by decide

/-! ## Memory -/

theorem test_memory_read_after_write :
    let m := (Memory.write [] 4294967295 7).write 0 3
    m.read 4294967295 = 7 ∧ m.read 0 = 3 ∧ m.read 1 = 0 ∧ m.wf = true := by decide

theorem test_memory_write_of_unlisted_byte_removes : (Memory.write [] 9 1).write 9 0 = [] := by decide

/-- R81 and R83: big-endian and little-endian numbers. -/
theorem test_byte_orders : be32bytes 0x01020304 = [1, 2, 3, 4] ∧ le32bytes 0x01020304 = [4, 3, 2, 1] := by decide

/-! ## Commands: vectors of spec/95_test_vectors.md -/

/-- V-CTL-8. -/
theorem test_nop : run 0x0 (regs 0 0 0 0) [] 0 = [2, 0, 0, 0, 0, 0, 0] := by decide +kernel

/-- V-DEC-5: the word itself in ERR_INFO. -/
theorem test_illegal_word : run 0x1001 (regs 0 0 0 0) [] 0 = [6, 0, 0, 0, 0, 0x410, 0x1001] := by decide +kernel

/-- V-CRC-4. -/
theorem test_crcCompute :
    run 0x1 (regs 0x100 9 0 0) (cells 0x100 [0x31, 0x32, 0x33, 0x34, 0x35, 0x36, 0x37, 0x38, 0x39]) 0 =
      [2, 0xCBF43926, 0, 9, 0, 0, 0] := by decide +kernel

/-- V-REG-2: the region passes the top of the address space. -/
theorem test_crcCompute_wrap : run 0x1 (regs 0xFFFFFFFF 2 0 0) [] 0 = [6, 0, 0, 0, 0, 0x111, 0] := by decide +kernel

/-- V-CRC-11. -/
theorem test_crcVerify :
    run 0x2 (regs 0x100 4 0 0 0 0xAE426082) (cells 0x100 [0x49, 0x45, 0x4E, 0x44]) 0 = [2, 1, 0, 4, 0, 0, 0] := by
  decide +kernel

/-- V-INF-5: a back-reference with overlap. -/
theorem test_inflate :
    run 0x10 (regs 0x100 5 0x200 8) (cells 0x100 [0x4B, 0x4C, 0x82, 0x40, 0x00]) 8 =
      [2, 0, 8, 5, 0, 0, 0] ++ [0x61, 0x62, 0x61, 0x62, 0x61, 0x62, 0x61, 0x62] := by decide +kernel

/-- V-INF-24: a distance beyond the output. -/
theorem test_inflate_distance :
    run 0x10 (regs 0x100 4 0x200 8) (cells 0x100 [0x4B, 0x04, 0x42, 0x00]) 0 = [6, 0, 0, 0, 0, 0x802, 2] := by
  decide +kernel

/-- V-INF-11: the zlib wrapper. -/
theorem test_inflateZ :
    run 0x1010 (regs 0x100 14 0x200 3)
      (cells 0x100 [0x78, 0x01, 0x01, 0x03, 0x00, 0xFC, 0xFF, 0x61, 0x62, 0x63, 0x02, 0x4D, 0x01, 0x27]) 3 =
      [2, 0, 3, 14, 0, 0, 0] ++ [0x61, 0x62, 0x63] := by decide +kernel

/-- V-INF-37: a wrong Adler-32. -/
theorem test_inflateZ_adler :
    run 0x1010 (regs 0x100 11 0x200 3)
      (cells 0x100 [0x78, 0x01, 0x01, 0x00, 0x00, 0xFF, 0xFF, 0x00, 0x00, 0x00, 0x00]) 0 =
      [6, 0, 0, 0, 0, 0xC02, 11] := by decide +kernel

/-- V-DEF-5. -/
theorem test_deflate :
    run 0x11 (regs 0x100 3 0x200 8) (cells 0x100 [0x61, 0x62, 0x63]) 8 =
      [2, 0, 8, 3, 0, 0, 0] ++ [0x01, 0x03, 0x00, 0xFC, 0xFF, 0x61, 0x62, 0x63] := by decide +kernel

/-- V-DEF-7: one byte too little room. -/
theorem test_deflate_full :
    run 0x11 (regs 0x100 3 0x200 7) (cells 0x100 [0x61, 0x62, 0x63]) 0 = [6, 0, 0, 0, 0, 0x112, 0] := by decide +kernel

/-- V-DEF-4. -/
theorem test_deflateZ :
    run 0x1011 (regs 0x100 1 0x200 12) (cells 0x100 [0x41]) 12 =
      [2, 0, 12, 1, 0, 0, 0] ++ [0x78, 0x01, 0x01, 0x01, 0x00, 0xFE, 0xFF, 0x41, 0x00, 0x42, 0x00, 0x42] := by
  decide +kernel

/-- The closing chunk IEND on the wire (R351), after the signature. -/
def smallPng : List Nat := [0x89, 0x50, 0x4E, 0x47, 0x0D, 0x0A, 0x1A, 0x0A] ++
  [0x00, 0x00, 0x00, 0x00, 0x49, 0x45, 0x4E, 0x44, 0xAE, 0x42, 0x60, 0x82]

/-- The descriptor of that chunk when the stream lies at 0x100 (R130), and two bytes after it are not read (R343). -/
theorem test_frmParse :
    run 0x20 (regs 0x100 22 0x200 16) (cells 0x100 (smallPng ++ [1, 2])) 16 =
      [2, 1, 16, 20, 3, 0, 0] ++ [0x49, 0x45, 0x4E, 0x44, 0, 0, 0, 0, 0x10, 0x01, 0, 0, 0x82, 0x60, 0x42, 0xAE] := by
  decide +kernel

/-- V-FRM-8: a source shorter than the signature. -/
theorem test_frmParse_signature :
    run 0x20 (regs 0x100 5 0x200 48) (cells 0x100 smallPng) 0 = [6, 0, 0, 0, 0, 0x101, 0] := by decide +kernel

/-- Two IDAT entries around another tag (R347). -/
def catTable : List Nat := [0x49, 0x44, 0x41, 0x54, 2, 0, 0, 0, 0x00, 0x01, 0, 0, 0, 0, 0, 0] ++
  [0x49, 0x48, 0x44, 0x52, 9, 0, 0, 0, 0x00, 0x01, 0, 0, 0, 0, 0, 0] ++
  [0x49, 0x44, 0x41, 0x54, 1, 0, 0, 0, 0x02, 0x01, 0, 0, 0, 0, 0, 0]

theorem test_frmIdatcat :
    run 0x21 (regs 0 0 0x200 8 0x300 3) (cells 0x100 [7, 8, 9] ++ cells 0x300 catTable) 4 =
      [2, 2, 3, 48, 0, 0, 0] ++ [7, 8, 9, 0] := by decide +kernel

/-- V-FRM-25: a misaligned table. -/
theorem test_frmIdatcat_align : run 0x21 (regs 0 0 0x200 8 0x302 1) [] 0 = [6, 0, 0, 0, 0, 0x311, 0] := by decide +kernel

/-- V-FRM-30: the empty table. -/
theorem test_frmSerialize : run 0x22 (regs 0 0 0x200 20) [] 20 = [2, 1, 20, 0, 1, 0, 0] ++ smallPng := by decide +kernel

/-- V-FRM-37: a length beyond 2^31 - 1. -/
theorem test_frmSerialize_chunkLen :
    run 0x22 (regs 0 0 0x200 64 0x300 1)
      (cells 0x300 [0x49, 0x44, 0x41, 0x54, 0, 0, 0, 0x80, 0, 0, 0, 0, 0, 0, 0, 0]) 0 =
      [6, 0, 0, 0, 0, 0x811, 0] := by decide +kernel

/-- V-FLT-3, reversed: the PAETH form of the image 1 2 3 / 4 5 6. -/
theorem test_fltReverse :
    run 0x30 (regs 0x100 8 0x200 6 0 3 2 1) (cells 0x100 [4, 1, 1, 1, 4, 3, 1, 1]) 6 =
      [2, 0, 6, 8, 0, 0, 0] ++ [1, 2, 3, 4, 5, 6] := by decide +kernel

/-- V-FLT-10: a type byte above 4 in row 1. -/
theorem test_fltReverse_type :
    run 0x30 (regs 0x100 6 0x200 4 0 2 2 1) (cells 0x100 [0, 1, 2, 5, 3, 4]) 0 = [6, 0, 0, 0, 0, 0x1002, 3] := by
  decide +kernel

/-- The image 1 2 3 / 4 5 6 of V-FLT-3 through FLT.APPLY. -/
def applied (cmd : Nat) : List Nat := run cmd (regs 0x100 6 0x200 8 0 3 2 1) (cells 0x100 [1, 2, 3, 4, 5, 6]) 8

theorem test_fltApplyNone : applied 0x31 = [2, 0, 8, 6, 0, 0, 0] ++ [0, 1, 2, 3, 0, 4, 5, 6] := by decide +kernel
theorem test_fltApplySub : applied 0x131 = [2, 0, 8, 6, 0, 0, 0] ++ [1, 1, 1, 1, 1, 4, 1, 1] := by decide +kernel
theorem test_fltApplyUp : applied 0x231 = [2, 0, 8, 6, 0, 0, 0] ++ [2, 1, 2, 3, 2, 3, 3, 3] := by decide +kernel
theorem test_fltApplyAvg : applied 0x331 = [2, 0, 8, 6, 0, 0, 0] ++ [3, 1, 2, 2, 3, 4, 2, 2] := by decide +kernel
theorem test_fltApplyPaeth : applied 0x431 = [2, 0, 8, 6, 0, 0, 0] ++ [4, 1, 1, 1, 4, 3, 1, 1] := by decide +kernel
theorem test_fltApplyAuto : applied 0xF31 = [2, 0, 8, 6, 0, 0, 0] ++ [1, 1, 1, 1, 4, 3, 1, 1] := by decide +kernel

/-- V-FLT-12: BPP = 3. -/
theorem test_fltApply_bpp : run 0xF31 (regs 0x100 64 0x200 64 0 4 1 3) [] 0 = [6, 0, 0, 0, 0, 0x411, 0] := by
  decide +kernel

/-! ## Witnesses: for each obligation with hypotheses, states and operands that meet them -/

/-- No hole in the platform of the helper states. -/
theorem readable_started (cmd : Word) (a : Args) (image : List Host.Cell) (base n : Nat) :
    Readable (started cmd a image).platform base n := readable_of_noHoles rfl base n

theorem writable_started (cmd : Word) (a : Args) (image : List Host.Cell) (base n : Nat) :
    Writable (started cmd a image).platform base n := writable_of_noHoles rfl base n

/-- The state on a platform whose one hole is the byte at `a`. -/
def holed (k : Access) (a : Nat) (s : State) : State := { s with platform := { regBase := 0, holes := [⟨k, a, 1⟩] } }

theorem memOk_holed (k k' : Access) (a x : Nat) (s : State) :
    memOk (holed k a s).platform x k' = !(decide (k = k') && decide (a ≤ x) && decide (x < a + 1)) := by simp [memOk, holed]

theorem readable_holed {k : Access} {a base n : Nat} (s : State) (h : k = .write ∨ base + n ≤ a ∨ a < base) :
    Readable (holed k a s).platform base n := by
  intro x h₁ h₂
  rw [memOk_holed]
  rcases h with rfl | h
  · rfl
  · simp; omega

theorem writable_holed {k : Access} {a base n : Nat} (s : State) (h : k = .read ∨ base + n ≤ a ∨ a < base) :
    Writable (holed k a s).platform base n := by
  intro x h₁ h₂
  rw [memOk_holed]
  rcases h with rfl | h
  · rfl
  · simp; omega

/-- The hole, as the last byte of a range at least. -/
theorem firstHole_holed {k : Access} {a base n : Nat} (s : State) (h₁ : base ≤ a) (h₂ : a < base + n) :
    FirstHole (holed k a s).platform k base n a :=
  ⟨h₁, h₂, by rw [memOk_holed]; simp, fun x _ hx => by rw [memOk_holed]; simp; omega⟩

theorem exists_ok {ε α : Type} {x : Except ε α} (h : x.isOk = true) : ∃ r, x = .ok r := by
  cases x with
  | ok r => exact ⟨r, rfl⟩
  | error e => cases h

theorem exists_error {ε α : Type} {x : Except ε α} (h : x.isOk = false) : ∃ e, x = .error e := by
  cases x with
  | ok r => cases h
  | error e => exact ⟨e, rfl⟩

theorem witness_DecodeAndEncodeAgree :
    (Instr.deflateZ 9).wellFormed = true ∧ decode 0x00001911#32 = .ok (.deflateZ 9) := by refine ⟨rfl, rfl⟩

/-- One word for each clause: bit 13, the highest unassigned and the lowest unassigned OP, Z on NOP, MOD 10, 5 and 1, and the
highest legal words. -/
theorem witness_DecodeChecksInOrder :
    (0x00002000#32).toNat / 2 ^ 13 ≠ 0 ∧ (0xFF#32).toNat % 256 ∉ [0x00, 0x01, 0x02, 0x10, 0x11, 0x20, 0x21, 0x22, 0x30, 0x31] ∧
      (0x03#32).toNat % 256 ∉ [0x00, 0x01, 0x02, 0x10, 0x11, 0x20, 0x21, 0x22, 0x30, 0x31] ∧
      (0x1000#32).toNat / 4096 % 2 = 1 ∧ (0x1000#32).toNat % 256 ∉ [0x10, 0x11] ∧
      ¬(0xA11#32).toNat / 256 % 16 ≤ 9 ∧ (0x531#32).toNat / 256 % 16 ∉ [0, 1, 2, 3, 4, 15] ∧
      (0x110#32).toNat / 256 % 16 ≠ 0 ∧
      (0x1911#32).toNat / 256 % 16 ≤ 9 ∧ (0xF31#32).toNat / 256 % 16 ∈ [0, 1, 2, 3, 4, 15] := by decide

theorem witness_raise_of_DecodeChecksInOrder : (started 0x00002000#32 (regs 0 0 0 0) []).latch.cmd = 0x00002000#32 := rfl

theorem witness_IllegalWordCompletesWithItsWord :
    decode (started 0xFFFFFFFF#32 (regs 0 0 0 0) []).latch.cmd = .error .reservedBits := by rfl

theorem witness_StepRunsDecodedCommand :
    let s := started 0x911#32 (regs 0 0 0 0) []
    s.status.busy = true ∧ decode s.latch.cmd = .ok (.deflate 9) ∧ s.events = [] ∧
      ({ s with events := [.wait] } : State).events = .wait :: [] ∧
      ({ s with events := [.coreStep, .takeIrq] } : State).events = .coreStep :: [.takeIrq] := by
  refine ⟨rfl, rfl, rfl, rfl, rfl⟩

theorem witness_StepRunsDecodedCommand_others :
    (let s := started 0x1001#32 (regs 0 0 0 0) [];
      s.status.busy = true ∧ decode s.latch.cmd = .error .zbit ∧ s.events = []) ∧
    State.reset.status.busy = false ∧ State.reset.events = [] ∧
      ({ State.reset with events := [.coreStep] } : State).events = .coreStep :: [] := ⟨⟨rfl, rfl, rfl⟩, rfl, rfl, rfl⟩

theorem witness_FetchedWordRunsNext : decodeTableWord 32 0x1911 = some (.deflateZ 9) := by decide

/-- A running NOP meets the invariant, and its step goes on. -/
theorem witness_StepKeepsInvariant :
    let s := started 0 (regs 0 0 0 0) [(5, 1)]
    s.Inv ∧ ∃ t, step s = .next t := by
  refine ⟨⟨by decide, ?_, ?_, ?_, .inl rfl, ?_, ?_, ?_, by decide⟩, ⟨_, rfl⟩⟩ <;> decide

theorem witness_WaitEndsAfterTheExecuteStep :
    let s : State := { started 1 (regs 0 0 0 0) [] with events := [.wait, .takeIrq] }
    s.status.busy = true ∧ s.events = .wait :: [.takeIrq] := ⟨rfl, rfl⟩

/-- Both clauses of the memory: while IDLE, and while BUSY with the last byte of the destination inside. -/
theorem witness_SoftResetDiscardsTheCommand :
    (2#32).getLsbD 1 = true ∧ State.reset.status.busy = false ∧
      let s := started 0x11#32 (regs 0 0 0xFFFFFFFF 1) []
      s.status.busy = true ∧ s.latch.args.dst ≤ 2 ^ 32 - 1 ∧ 2 ^ 32 - 1 < s.latch.args.dst + s.latch.args.cap := by decide

theorem witness_CmdWriteWhileIdleStarts : (idle (regs 1 2 3 4) []).status.busy = false := rfl

theorem witness_CmdWriteWhileBusyIsDropped : (started 0 (regs 0 0 0 0) []).status.busy = true := rfl

theorem witness_StatusWriteClearsWrittenBits : (0xE#32).getLsbD 1 = true := rfl

theorem witness_CtrlWriteSetsEnableOrResets : (3#32).getLsbD 1 = true ∧ (1#32).getLsbD 1 = false := ⟨rfl, rfl⟩

/-- The first register, STATUS, the last register, the first and the last reserved offset. -/
theorem witness_RegisterReadsHaveNoSideEffect :
    windowOffset State.reset.platform 0x00#32 = some 0x00 ∧ windowOffset State.reset.platform 0x08#32 = some 0x08 ∧
      windowOffset State.reset.platform 0x44#32 = some 0x44 ∧ windowOffset State.reset.platform 0x48#32 = some 0x48 ∧
      windowOffset State.reset.platform 0xFC#32 = some 0xFC := by decide

/-- The edges of the read-only offsets; CMD, a misaligned offset, the first address past the window and, where the window wraps,
its last; and states whose next event is a register access. -/
theorem witness_OtherRegisterWrites :
    (0x30 % 4 = 0 ∧ 0x30 ≤ 0x30 ∧ 0xFC % 4 = 0 ∧ 0x30 ≤ 0xFC ∧ 0xFC < 256) ∧
    windowOffset State.reset.platform 0x0C#32 = some 0x0C ∧ windowOffset State.reset.platform 0x0E#32 = some 0x0E ∧
      0x0E % 4 ≠ 0 ∧ windowOffset State.reset.platform 0x100#32 = none ∧
      windowOffset { regBase := 0xFFFFFFFC#32, holes := [] } 0xFB#32 = some 0xFF ∧
      ({ State.reset with events := [.regWrite 0x0C#32 1#32] } : State).events = .regWrite 0x0C#32 1#32 :: [] ∧
      ({ State.reset with events := [.regRead 0x08#32] } : State).events = .regRead 0x08#32 :: [] := by
  refine ⟨by decide, by decide, by decide, by decide, by decide, by decide, rfl, rfl⟩

theorem witness_ArgumentWriteDoesNotReachTheRunningCommand :
    (started 1 (regs 0 4 0 0) []).status.busy = true ∧ 0x10 % 4 = 0 ∧ 0x10 ≤ 0x10 ∧ 0x2C % 4 = 0 ∧ 0x2C ≤ 0x2C := by decide

theorem witness_IrqFollowsEnableAndDone :
    ({ State.reset with status := { busy := false, done := true, err := false, ovr := false } } : State).status.done = true ∧
      State.reset.status.busy = false ∧
      ∃ t, executeStep (started 0 (regs 0 0 0 0) []) = .next t := ⟨rfl, rfl, _, rfl⟩

/-- A running INFLATE, at the first byte of its source and the last byte of its destination. -/
theorem witness_HostDutiesAreRefused :
    let s := started 0x10#32 (regs 0x100 4 0xFFFFFFF0 16) []
    s.Inv ∧ s.status.busy = true ∧ decode s.latch.cmd = .ok .inflate ∧ usesDestination .inflate = true ∧
      s.latch.args.dst ≤ (0xFFFFFFFF#32).toNat ∧ (0xFFFFFFFF#32).toNat < s.latch.args.dst + s.latch.args.cap ∧
      usesSource .inflate = true ∧ s.latch.args.src ≤ (0x100#32).toNat ∧
      (0x100#32).toNat < s.latch.args.src + s.latch.args.len := by
  refine ⟨⟨by decide, ?_, ?_, ?_, .inl rfl, ?_, ?_, ?_, by decide⟩, by decide, rfl, by decide⟩ <;> decide

/-- A running FRM.IDATCAT: the last byte of its table, and the last byte of the data that its entry names. -/
theorem witness_HostDutiesAreRefused_table :
    let s := started 0x21#32 (regs 0 0 0x400 16 0x300 1) (cells 0x300 [0x49, 0x44, 0x41, 0x54, 2, 0, 0, 0, 0x00, 0x01, 0, 0])
    s.Inv ∧ s.status.busy = true ∧ decode s.latch.cmd = .ok .frmIdatcat ∧ usesTable .frmIdatcat = true ∧
      s.latch.args.aux ≤ (0x30F#32).toNat ∧ (0x30F#32).toNat < s.latch.args.aux + s.latch.args.tableLen ∧
      0 < s.latch.args.entries ∧ (s.entry 0).addr ≤ (0x101#32).toNat ∧
      (0x101#32).toNat < (s.entry 0).addr + (s.entry 0).len := by
  refine ⟨⟨by decide +kernel, ?_, ?_, ?_, .inl rfl, ?_, ?_, ?_, by decide⟩, by decide, rfl, by decide +kernel⟩ <;> decide

/-- A word that is no command, at the first byte of its destination; and a state without duties. -/
theorem witness_HostDutiesAreRefused_illegal :
    let s := started 0x1001#32 (regs 0 0 0x400 16) []
    s.Inv ∧ s.status.busy = true ∧ decode s.latch.cmd = .error .zbit ∧ s.latch.args.dst ≤ (0x400#32).toNat ∧
      (0x400#32).toNat < s.latch.args.dst + s.latch.args.cap ∧ State.reset.unseen = [] ∧
      State.reset.status.busy = false ∧ windowOffset State.reset.platform 0x08#32 = some 0x08 := by
  refine ⟨⟨by decide, ?_, ?_, ?_, .inl rfl, ?_, ?_, ?_, by decide⟩, by decide, rfl, by decide⟩ <;> decide

/-- While an INFLATE runs, the byte past its source and before its destination is protected by nothing; a byte of the source is
open to loads; and IRQ high, after a completion that the host has not seen, with the sample next. -/
theorem witness_HostDutiesAreRefused_open :
    (let s := started 0x10#32 (regs 0x100 4 0x200 16) [];
      s.unseen = [s.latch] ∧ decode s.latch.cmd = .ok .inflate ∧ usesTable .inflate = false ∧
        ¬(0x104 < s.latch.args.src + s.latch.args.len) ∧ ¬(s.latch.args.dst ≤ 0x104) ∧ ¬(s.latch.args.dst ≤ 0x103) ∧
        s.latch.args.src ≤ 0x103 ∧ 0x103 < s.latch.args.src + s.latch.args.len) ∧
    ∃ t, exec .nop { started 0 (regs 0 0 0 0) [] with ie := true, events := [.takeIrq] } = .next t ∧ t.irq = true ∧
      t.unseen ≠ [] ∧ t.events = .takeIrq :: [] := by
  refine ⟨⟨rfl, rfl, rfl, by decide, by decide, by decide, by decide, by decide⟩, _, rfl, rfl, ?_, rfl⟩
  exact List.cons_ne_nil _ _

theorem witness_CanonicalMemoriesAreEqualWhenTheyReadAlike :
    Memory.wf [(0, 1), (4294967295, 255)] = true ∧
      ∀ a, Memory.read [(0, 1), (4294967295, 255)] a = Memory.read [(0, 1), (4294967295, 255)] a :=
  ⟨by decide, fun _ => rfl⟩

/-- Each clause: a command without a destination, and a success that writes. -/
theorem witness_CommandsWriteOnlyTheirDestination :
    usesDestination .crcVerify = false ∧
      (match exec .frmSerialize (started 0x22#32 (regs 0 0 0x200 20) []) with
        | .next t => decide (t.status.err = false ∧ t.results.outLen = 20#32)
        | .fault _ => false
        | .refused _ => false) = true := by decide +kernel

theorem witness_ErrorsReportNoPartialResult :
    (match exec .inflate (started 0x10#32 (regs 0 0 0 0) []) with
        | .next t => t.status.err
        | .fault _ => false
        | .refused _ => false) = true ∧
      (match exec .crcCompute (started 0x1#32 (regs 0 0 0 0) []) with
        | .next t => !t.status.err
        | .fault _ => false
        | .refused _ => false) = true := by decide +kernel

/-- Each of the three regions one byte or one entry too long. -/
theorem witness_WrappedRegionIsRefused :
    (usesSource .crcCompute = true ∧
      let a := (started 0x1#32 (regs 0xFFFFFFFF 2 0 0) []).latch.args
      2 ^ 32 < a.src + a.len) ∧
    (usesTable .frmIdatcat = true ∧
      let a := (started 0x21#32 (regs 0 0 0 0 4 0x10000000) []).latch.args
      2 ^ 32 < a.aux + 16 * a.entries) ∧
    (usesDestination .fltReverse = true ∧
      let a := (started 0x30#32 (regs 0 0 0xFFFFFFFF 2) []).latch.args
      2 ^ 32 < a.dst + a.cap) := by decide

theorem witness_MisalignedTableIsRefused :
    let a := (started 0x20#32 (regs 0xFFFFFFFF 1 0xFFFFFFFE 2 0xFFFFFFE1 1) []).latch.args
    regionOk a.dst a.cap = true ∧ regionOk a.src a.len = true ∧ a.dst % 4 ≠ 0 ∧ regionOk a.aux a.tableLen = true ∧
      a.aux % 4 ≠ 0 := by decide

/-- The one shared byte is the last of the source, or the last of the table, and the first of the destination. -/
theorem witness_OverlappingDestinationIsRefused :
    let a := (started 0x20#32 (regs 0x100 0x101 0x200 16 0x1F0 2) []).latch.args
    usesDestination .frmParse = true ∧ regionOk a.dst a.cap = true ∧ a.dst ≤ 0x200 ∧ 0x200 < a.dst + a.cap ∧
      usesSource .frmParse = true ∧ regionOk a.src a.len = true ∧ a.dst % 4 = 0 ∧ a.src ≤ 0x200 ∧ 0x200 < a.src + a.len ∧
      usesTable .frmIdatcat = true ∧ regionOk a.aux a.tableLen = true ∧ a.aux % 4 = 0 ∧ a.aux ≤ 0x200 ∧
      0x200 < a.aux + a.tableLen := by decide

theorem witness_OutcomeDependsOnLatchMemoryPlatform :
    let s := started 1 (regs 0 0 0 0) []
    let s' : State := { s with ie := true, draws := 7 }
    s.latch.args = s'.latch.args ∧ s.mem = s'.mem ∧ s.platform = s'.platform ∧
      ∃ t t', exec .crcCompute s = .next t ∧ exec .crcCompute s' = .next t' := ⟨rfl, rfl, rfl, _, _, rfl, rfl⟩

/-- The three clauses: a region up to the last address, one that passes it, and a hole at the second byte. -/
theorem witness_CrcComputeGivesTheCrc :
    (let s := started 1 (regs 0xFFFFFFFF 1 0 0) [];
      regionOk s.latch.args.src s.latch.args.len = true ∧ Readable s.platform s.latch.args.src s.latch.args.len) ∧
    (let s := started 1 (regs 0xFFFFFFFF 2 0 0) [];
      2 ^ 32 < s.latch.args.src + s.latch.args.len) ∧
    (let s : State := { started 1 (regs 0x100 2 0 0) [] with platform := { regBase := 0, holes := [⟨.read, 0x101, 1⟩] } };
      regionOk s.latch.args.src s.latch.args.len = true ∧ s.latch.args.src ≤ 0x101 ∧
        0x101 < s.latch.args.src + s.latch.args.len ∧ memOk s.platform 0x101 .read = false ∧
        Readable s.platform s.latch.args.src (0x101 - s.latch.args.src)) := by
  refine ⟨⟨by decide, readable_started _ _ _ _ _⟩, by decide, by decide, by decide, by decide, by decide, ?_⟩
  intro a h1 h2
  have : a = 0x100 := by
    have e : (started 1 (regs 0x100 2 0 0) []).latch.args.src = 0x100 := by decide
    simp only [e] at h1 h2
    omega
  subst this
  decide

theorem witness_CrcVerifyComparesTheCrc :
    (let s := started 2 (regs 0x100 4 0 0 0 0xAE426082) (cells 0x100 [0x49, 0x45, 0x4E, 0x44]);
      regionOk s.latch.args.src s.latch.args.len = true ∧ Readable s.platform s.latch.args.src s.latch.args.len) ∧
    (let s := started 2 (regs 0xFFFFFFFF 2 0 0) [];
      2 ^ 32 < s.latch.args.src + s.latch.args.len) ∧
    (let s : State := { started 2 (regs 0x100 1 0 0) [] with platform := { regBase := 0, holes := [⟨.read, 0x100, 1⟩] } };
      regionOk s.latch.args.src s.latch.args.len = true ∧ s.latch.args.src ≤ 0x100 ∧
        0x100 < s.latch.args.src + s.latch.args.len ∧ memOk s.platform 0x100 .read = false ∧
        Readable s.platform s.latch.args.src (0x100 - s.latch.args.src)) := by
  refine ⟨⟨by decide, readable_started _ _ _ _ _⟩, by decide, by decide, by decide, by decide, by decide, ?_⟩
  intro a h1 h2
  have e : (started 2 (regs 0x100 1 0 0) []).latch.args.src = 0x100 := by decide
  simp only [e] at h1 h2
  omega

/-- The empty regions, even at the last address; and a word with OP = 0 that is not NOP. -/
theorem witness_empty_region :
    (started 1 (regs 0xFFFFFFFF 0 0 0) []).latch.args.len = 0 ∧ (started 2 (regs 0 0 0 0) []).latch.args.len = 0 := by decide

theorem witness_NopCompletes : (0x100#32).toNat % 256 = 0 ∧ 0x100#32 ≠ 0 := by decide

theorem witness_CrcDetectsEverySingleBitFlip : 1 < [0x12#8, 0x34#8].length ∧ 7 < 8 := by decide

/-- A complete, an incomplete and an over-subscribed set. -/
theorem witness_BuildAcceptsExactlyCompleteCodes :
    kraftSum [1, 2, 2] = 2 ^ 15 ∧ kraftSum [1] < 2 ^ 15 ∧ 2 ^ 15 < kraftSum [1, 1, 15] := by decide

/-- The bits 1, 1 are the second code of two bits. -/
theorem witness_DecodeReadsCanonicalCodes :
    kraftSum [1, 2, 2] = 2 ^ 15 ∧ decodeSymbol (Port.ofBytes [0x03]) [1, 2, 2] 0 = .ok (2, 2) := ⟨by decide, by rfl⟩

theorem witness_DecodeFailsOnlyWithTheInput :
    kraftSum [1, 1] = 2 ^ 15 ∧ decodeSymbol (Port.ofBytes []) [1, 1] 0 = .error (corruptAt .truncated 0) := ⟨by decide, rfl⟩

/-- A stream that decodes, with and without the wrapper, and one that does not. -/
theorem witness_InflateCompletesWithTheDecoding :
    (let s := started 0x10#32 (regs 0x100 2 0x200 0) (cells 0x100 [0x03, 0x00]);
      SrcDstOk s.latch.args ∧
        ∃ r, inflateStream false (Port.ofRegion s.bus s.latch.args.src s.latch.args.len) s.bus s.latch.args.sink = .ok r) ∧
    (let s := started 0x1010#32 (regs 0x100 8 0x200 0) (cells 0x100 [0x78, 0x01, 0x03, 0x00, 0x00, 0x00, 0x00, 0x01]);
      SrcDstOk s.latch.args ∧
        ∃ r, inflateStream true (Port.ofRegion s.bus s.latch.args.src s.latch.args.len) s.bus s.latch.args.sink = .ok r) ∧
    (let s := started 0x10#32 (regs 0x100 1 0x200 0) (cells 0x100 [0x07]);
      SrcDstOk s.latch.args ∧
        ∃ e, inflateStream false (Port.ofRegion s.bus s.latch.args.src s.latch.args.len) s.bus s.latch.args.sink =
          .error e) := by
  refine ⟨⟨⟨by decide, by decide, by decide⟩, exists_ok (by decide +kernel)⟩,
    ⟨⟨by decide, by decide, by decide⟩, exists_ok (by decide +kernel)⟩,
    ⟨by decide, by decide, by decide⟩, exists_error (by decide +kernel)⟩

theorem bitsAt_of_all {p : Port} {pos n v : Nat} (hv : v < 2 ^ n)
    (h : ((List.range n).all fun j =>
      match readBit p (pos + j) with
      | .ok b => b == v.testBit j
      | .error _ => false) = true) : BitsAt p pos n v := by
  refine ⟨hv, fun j hj => ?_⟩
  have hj' := List.all_eq_true.mp h j (List.mem_range.mpr hj)
  split at hj'
  · rename_i b hb; rw [hb, eq_of_beq hj']
  · cases hj'

theorem bitsAt_fields_of_all {p : Port} {pos n : Nat} {f : Nat → Nat}
    (h : ((List.range n).all fun i => decide (f i < 2 ^ 3) && (List.range 3).all fun j =>
      match readBit p (pos + 3 * i + j) with
      | .ok b => b == (f i).testBit j
      | .error _ => false) = true) : ∀ i, i < n → BitsAt p (pos + 3 * i) 3 (f i) := by
  intro i hi
  have hi' := List.all_eq_true.mp h i (List.mem_range.mpr hi)
  rw [Bool.and_eq_true, decide_eq_true_eq] at hi'
  exact bitsAt_of_all hi'.1 hi'.2

/-- The last bit of the source, the first past it, and a byte in a hole. -/
theorem witness_SourceBitsRule :
    15 / 8 < 2 ∧ 2 ≤ 16 / 8 ∧ memOk openBus.platform (0x100 + 15 / 8) .read = true ∧
      memOk { regBase := 0, holes := [⟨.read, 0x101, 1⟩] } (0x100 + 15 / 8) .read = false := by decide

/-- The bytes of a final stored block with the data `abc`: with the right NLEN, and with a wrong one. -/
theorem witness_StoredBlockRule :
    (BitsAt (Port.ofBytes [1, 3, 0, 0xFC, 0xFF, 0x61]) 8 16 3 ∧
      BitsAt (Port.ofBytes [1, 3, 0, 0xFC, 0xFF, 0x61]) 24 16 (65535 - 3)) ∧
    (BitsAt (Port.ofBytes [1, 1, 0, 0xFE, 0xFF, 0x61]) 8 16 1 ∧
      BitsAt (Port.ofBytes [1, 1, 0, 0xFE, 0xFF, 0x61]) 24 16 (65535 - 1) ∧
      BitsAt (Port.ofBytes [1, 1, 0, 0xFE, 0xFF, 0x61]) 40 8 (byteAt [0x61] 0) ∧
      (Sink.start 0x200 1).n + 1 ≤ (Sink.start 0x200 1).cap ∧ Writable openBus.platform 0x200 1) ∧
    BitsAt (Port.ofBytes [1, 0, 0, 0, 0]) 24 16 0 := by
  refine ⟨⟨?_, ?_⟩, ⟨?_, ?_, ?_, by decide, writable_of_noHoles rfl _ _⟩, ?_⟩ <;>
    exact bitsAt_of_all (by decide) (by decide +kernel)

/-- After the first of three bytes: the input ends, there is no room, and there is a hole. The input ends before NLEN. -/
theorem witness_StoredBlockRule_partial :
    (∃ e, readBits (Port.ofBytes [1, 3, 0, 0xFC]) 32 8 = .error e) ∧
    BitsAt (Port.ofBytes [1, 3, 0, 0xFC, 0xFF, 0x61]) 40 8 (byteAt [0x61] 0) ∧ [0x61#8].length < 3 ∧
      (∃ e, readBits (Port.ofBytes [1, 3, 0, 0xFC, 0xFF, 0x61]) 8 48 = .error e) ∧
      BitsAt (Port.ofBytes [1, 3, 0, 0xFC, 0xFF, 0x61, 0x62]) 48 8 0x62 ∧
      (Sink.start 0x200 1).n + 1 = (Sink.start 0x200 1).cap ∧
      (let platform : Platform := { regBase := 0, holes := [⟨.write, 0x201, 1⟩] };
        memOk platform 0x200 .write = true ∧ memOk platform (0x200 + 1) .write = false) :=
  ⟨exists_error (by decide +kernel), bitsAt_of_all (by decide) (by decide +kernel), by decide,
    exists_error (by decide +kernel), bitsAt_of_all (by decide) (by decide +kernel), by decide, by decide⟩

/-- A code-length code of the two symbols 0 and 16, with the codes 0 and 1. -/
def twoSymbols : List Nat := [1, 0, 0, 0, 0, 0, 0, 0, 0, 0, 0, 0, 0, 0, 0, 0, 1, 0, 0]

/-- The bits 0, 1, 0, 0: a length 0 and three more of it, which fills 4 lengths and runs past 3; and the bit 1, a repeat with
nothing before it. -/
theorem witness_CodeLengthsRule :
    twoSymbols.length = 19 ∧ kraftSum twoSymbols = 2 ^ 15 ∧ SymbolAt (Port.ofBytes [1]) twoSymbols 0 16 1 ∧
      TokensAt (Port.ofBytes [2]) twoSymbols 0 [.len 0, .again 3] 4 ∧ countLens [.len 0, .again 3] = 4 ∧
      TokensAt (Port.ofBytes [2]) twoSymbols 0 [.len 0] 1 ∧ TokenAt (Port.ofBytes [2]) twoSymbols 1 (.again 3) 4 ∧
      countLens [.len 0] < 3 ∧ 3 < countLens [.len 0] + (LenToken.again 3).count := by
  have h0 : SymbolAt (Port.ofBytes [2]) twoSymbols 0 0 1 := by
    refine ⟨by decide, by decide, by decide, by decide, fun j hj => ?_⟩
    have : j = 0 := by have e : twoSymbols.getD 0 0 = 1 := by decide
                       omega
    subst this
    rfl
  have h16 : SymbolAt (Port.ofBytes [2]) twoSymbols 1 16 2 := by
    refine ⟨by decide, by decide, by decide, by decide, fun j hj => ?_⟩
    have : j = 0 := by have e : twoSymbols.getD 16 0 = 1 := by decide
                       omega
    subst this
    rfl
  have hx : BitsAt (Port.ofBytes [2]) 2 2 0 := bitsAt_of_all (by decide) (by decide)
  refine ⟨by decide, by decide, ⟨by decide, by decide, by decide, by decide, fun j hj => ?_⟩,
    ⟨1, ⟨by decide, h0⟩, 4, ⟨2, 0, h16, hx, rfl, rfl⟩, rfl⟩, by decide, ⟨1, ⟨by decide, h0⟩, rfl⟩, ⟨2, 0, h16, hx, rfl, rfl⟩,
    by decide, by decide⟩
  have : j = 0 := by have e : twoSymbols.getD 16 0 = 1 := by decide
                     omega
  subst this
  rfl

/-- The input ends after a length, and inside the repeat after a length; and inside the two parts of a dynamic header. -/
theorem witness_input_ends_in_a_dynamic_header :
    (∃ e, decodeSymbol (Port.ofBytes [0x00]) twoSymbols 8 = .error e) ∧
      (∃ q, decodeSymbol (Port.ofBytes [0x80]) twoSymbols 6 = .ok (0, q)) ∧
      decodeSymbol (Port.ofBytes [0x80]) twoSymbols 7 = .ok (16, 8) ∧
      (∃ e, readBits (Port.ofBytes [0x80]) 2 8 = .error e) ∧ (∃ e, readBits (Port.ofBytes [0]) 14 0 = .error e) ∧
      ∃ e, readBits (Port.ofBytes [0, 0]) (3 * (0 + 4)) (0 + 14) = .error e :=
  ⟨exists_error (by decide), ⟨7, rfl⟩, rfl, exists_error (by decide), exists_error (by decide), exists_error (by decide)⟩

/-- A dynamic header written out from R136 and R137: the two counts in the first bytes, 18 fields that give symbols 18, 0 and 1
the codes 0, 10 and 11, then 138 and 118 zeros, and the lengths from symbol 256 on in the tail. -/
def headerBytes (first : Byte) (tail : List Byte) : List Byte :=
  [first, 0x38, 0x10, 0x01, 0x00, 0x00, 0x00, 0x00, 0xE4, 0x6F] ++ tail

/-- The counts of a header with HLIT too large; of one whose code-length lengths are all 0 (incomplete); and of one with four
lengths 1 (over-subscribed). -/
theorem witness_DynamicHeaderRule_counts :
    (BitsAt (Port.ofBytes [0x1E, 0x00]) 0 5 30 ∧ BitsAt (Port.ofBytes [0x1E, 0x00]) 5 5 0 ∧
      BitsAt (Port.ofBytes [0x1E, 0x00]) 10 4 0) ∧
    (∀ i, i < 4 → BitsAt (Port.ofBytes [0, 0, 0, 0]) (14 + 3 * i) 3 0) ∧
    (∀ i, i < 4 → BitsAt (Port.ofBytes [0x00, 0x40, 0x92, 0x00]) (14 + 3 * i) 3 1) := by
  refine ⟨⟨?_, ?_, ?_⟩, fun i hi => ?_, fun i hi => ?_⟩
  · exact bitsAt_of_all (by decide) (by decide)
  · exact bitsAt_of_all (by decide) (by decide)
  · exact bitsAt_of_all (by decide) (by decide)
  · have : i = 0 ∨ i = 1 ∨ i = 2 ∨ i = 3 := by omega
    rcases this with rfl | rfl | rfl | rfl <;> exact bitsAt_of_all (by decide) (by decide +kernel)
  · have : i = 0 ∨ i = 1 ∨ i = 2 ∨ i = 3 := by omega
    rcases this with rfl | rfl | rfl | rfl <;> exact bitsAt_of_all (by decide) (by decide +kernel)

/-- What a dynamic header gives: the error code, or 0. -/
def headerCode (s : List Byte) : Nat :=
  match dynamicHeader (Port.ofBytes s) 0 with
  | .ok _ => 0
  | .error e => e.err.code.toNat

/-- Worked out by hand from R240, R241 and R247: no end of block; one and three codes of one bit in the literal/length code;
one and three in the distance code; two and two. -/
theorem test_dynamic_headers :
    headerCode (headerBytes 0x00 [0xDD]) = 0xA02 ∧ headerCode (headerBytes 0x00 [0xFD]) = 0x402 ∧
      headerCode (headerBytes 0x02 [0xFD, 0x0F]) = 0x302 ∧ headerCode (headerBytes 0x01 [0xFD, 0x03]) = 0x402 ∧
      headerCode (headerBytes 0x41 [0xFD, 0x3F]) = 0x302 ∧ headerCode (headerBytes 0x21 [0xFD, 0x0F]) = 0 := by
  decide +kernel

/-- The last of those headers: 258 and 2 codes, and 18 fields that make a complete code. -/
theorem witness_DynamicHeaderRule :
    let p := Port.ofBytes (headerBytes 0x21 [0xFD, 0x0F])
    let f : Nat → Nat := fun i => if i = 2 then 1 else if i = 3 ∨ i = 17 then 2 else 0
    let order := [16, 17, 18, 0, 8, 7, 9, 6, 10, 5, 11, 4, 12, 3, 13, 2, 14, 1, 15]
    let cl := (List.range 19).map fun s => if order.idxOf s < 14 + 4 then f (order.idxOf s) else 0
    BitsAt p 0 5 1 ∧ BitsAt p (0 + 5) 5 1 ∧ BitsAt p (0 + 10) 4 14 ∧ 1 + 257 ≤ 286 ∧ 1 + 1 ≤ 30 ∧
      (∀ i, i < 14 + 4 → BitsAt p (0 + 14 + 3 * i) 3 (f i)) ∧ kraftSum cl = 2 ^ 15 ∧
      ∃ r, codeLengths p cl (1 + 257 + (1 + 1)) (1 + 257 + (1 + 1)) [] (0 + 14 + 3 * (14 + 4)) = .ok r := by
  exact ⟨bitsAt_of_all (by decide) (by decide +kernel), bitsAt_of_all (by decide) (by decide +kernel),
    bitsAt_of_all (by decide) (by decide +kernel), by decide, by decide, bitsAt_fields_of_all (by decide +kernel),
    by decide +kernel, exists_ok (by decide +kernel)⟩

theorem symbolAt_of_all {p : Port} {lens : List Nat} {pos sym q : Nat}
    (hs : sym < lens.length ∧ 1 ≤ lens.getD sym 0 ∧ lens.getD sym 0 ≤ 15 ∧ q = pos + lens.getD sym 0)
    (h : ((List.range (lens.getD sym 0)).all fun j =>
      match readBit p (pos + j) with
      | .ok b => b == (codeOf lens sym).testBit (lens.getD sym 0 - 1 - j)
      | .error _ => false) = true) : SymbolAt p lens pos sym q := by
  refine ⟨hs.1, hs.2.1, hs.2.2.1, hs.2.2.2, fun j hj => ?_⟩
  have hj' := List.all_eq_true.mp h j (List.mem_range.mpr hj)
  split at hj'
  · rename_i b hb; rw [hb, eq_of_beq hj']
  · cases hj'

/-- In fixed codes (R245): the literal 97 with no room, with a hole and with room; 256; 286. -/
theorem witness_CompressedDataRule_symbols :
    kraftSum fixedLitLens = 2 ^ 15 ∧ kraftSum fixedDistLens = 2 ^ 15 ∧
      SymbolAt (Port.ofBytes [0x4B, 0x04, 0x00]) fixedLitLens 3 97 11 ∧
      (Sink.start 0x200 0).n = (Sink.start 0x200 0).cap ∧ (Sink.start 0x200 1).n ≠ (Sink.start 0x200 1).cap ∧
      memOk openBus.platform 0x200 .write = true ∧
      memOk { regBase := 0, holes := [⟨.write, 0x200, 1⟩] } 0x200 .write = false ∧
      SymbolAt (Port.ofBytes [0x03, 0x00]) fixedLitLens 3 256 10 ∧
      SymbolAt (Port.ofBytes [0x1B, 0x03]) fixedLitLens 3 286 11 ∧
      ∃ e, decodeSymbol (Port.ofBytes []) fixedLitLens 0 = .error e :=
  ⟨by decide +kernel, by decide +kernel, symbolAt_of_all (by decide +kernel) (by decide +kernel), by decide, by decide,
    by decide, by decide, symbolAt_of_all (by decide +kernel) (by decide +kernel),
    symbolAt_of_all (by decide +kernel) (by decide +kernel), exists_error (by decide +kernel)⟩

/-- Length symbols with their distance symbols: V-INF-7 (284 with 31 at distance 1); 285 with the distance symbol 29 and 8191;
257 with the distance symbol 30; the input ending before each of the three parts after a length symbol; copies that succeed
and that do not. -/
theorem witness_CompressedDataRule_copies :
    (let p := Port.ofBytes [0xAB, 0x1A, 0xF9, 0x00, 0x00];
      SymbolAt p fixedLitLens 11 284 19 ∧ BitsAt p 19 5 31 ∧ SymbolAt p fixedDistLens 24 0 29 ∧ BitsAt p 29 0 0) ∧
    (let p := Port.ofBytes [0xA3, 0xF7, 0xFF, 0x03];
      SymbolAt p fixedLitLens 0 285 8 ∧ BitsAt p 8 0 0 ∧ SymbolAt p fixedDistLens 8 29 13 ∧ BitsAt p 13 13 8191) ∧
    (let p := Port.ofBytes [0x4B, 0x04, 0x3E];
      SymbolAt p fixedLitLens 11 257 18 ∧ BitsAt p 18 0 0 ∧ SymbolAt p fixedDistLens 18 30 23) ∧
    (SymbolAt (Port.ofBytes [0x23]) fixedLitLens 0 284 8 ∧ (∃ e, readBits (Port.ofBytes [0x23]) 5 8 = .error e) ∧
      SymbolAt (Port.ofBytes [0xA3]) fixedLitLens 0 285 8 ∧
      (∃ e, decodeSymbol (Port.ofBytes [0xA3]) fixedDistLens 8 = .error e) ∧
      ∃ e, readBits (Port.ofBytes [0xA3, 0x17]) 13 13 = .error e) ∧
    (∃ k', copyMatch openBus { base := 0x200, cap := 259, n := 1, rev := [0x7A] } 29 (227 + 31) (1 + 0) = .ok k') ∧
    ∃ e, copyMatch openBus (Sink.start 0x200 300) 26 (258 + 0) (24577 + 8191) = .error e := by
  refine ⟨⟨?_, bitsAt_of_all (by decide) (by decide +kernel), ?_, bitsAt_of_all (by decide) (by decide)⟩,
    ⟨?_, bitsAt_of_all (by decide) (by decide), ?_, bitsAt_of_all (by decide) (by decide +kernel)⟩,
    ⟨?_, bitsAt_of_all (by decide) (by decide), ?_⟩,
    ⟨?_, exists_error (by decide +kernel), ?_, exists_error (by decide +kernel), exists_error (by decide +kernel)⟩,
    exists_ok (by decide +kernel), exists_error (by decide +kernel)⟩ <;>
    exact symbolAt_of_all (by decide +kernel) (by decide +kernel)

/-- A stored block with data and one with a wrong NLEN; fixed blocks that end and that do not; a dynamic block that ends, one
with a bad header and one with a copy from nothing; block type 3; a block not the last; and no bit at all. -/
theorem witness_BlockRule :
    let startAt (pos : Nat) : Inflater := { pos := pos, sink := Sink.start 0x200 1, pads := [] }
    (let p := Port.ofBytes [1, 1, 0, 0xFE, 0xFF, 0x61];
      BitsAt p 0 1 1 ∧ BitsAt p 1 2 0 ∧ ∃ r', storedBlock p openBus (startAt 3) = .ok r') ∧
    (∃ e, storedBlock (Port.ofBytes [1, 1, 0, 0, 0]) openBus (startAt 3) = .error e) ∧
    (let p := Port.ofBytes [0x03, 0x00];
      BitsAt p 0 1 1 ∧ BitsAt p 1 2 1 ∧
        ∃ r', compressedData p openBus fixedLitLens fixedDistLens (8 * p.len) 3 (Sink.start 0x200 1) = .ok r') ∧
    (let p := Port.ofBytes [0x02];
      BitsAt p 0 1 0 ∧ BitsAt p 1 2 1 ∧
        ∃ e, compressedData p openBus fixedLitLens fixedDistLens (8 * p.len) 3 (Sink.start 0x200 1) = .error e) ∧
    (let p := Port.ofBytes (0xA0 :: headerBytes 0x21 [0xFD, 0x0F]);
      BitsAt p 5 1 1 ∧ BitsAt p 6 2 2 ∧
        ∃ r', (dynamicHeader p 8 >>= fun h => compressedData p openBus h.1 h.2.1 (8 * p.len) h.2.2 (Sink.start 0x200 1)) =
          .ok r') ∧
    (∃ e, dynamicHeader (Port.ofBytes (0xA0 :: headerBytes 0x00 [0xDD])) 8 = .error e) ∧
    (let p := Port.ofBytes (0xA0 :: headerBytes 0x21 [0xFD, 0xFF]);
      (∃ h, dynamicHeader p 8 = .ok h) ∧
        ∃ e, (dynamicHeader p 8 >>= fun h => compressedData p openBus h.1 h.2.1 (8 * p.len) h.2.2 (Sink.start 0x200 1)) =
          .error e) ∧
    (BitsAt (Port.ofBytes [0x07]) 0 1 1 ∧ BitsAt (Port.ofBytes [0x07]) 1 2 3) ∧
    ∃ e, readBits (Port.ofBytes []) 3 0 = .error e := by
  refine ⟨⟨?_, ?_, exists_ok (by decide +kernel)⟩, exists_error (by decide +kernel), ⟨?_, ?_, exists_ok (by decide +kernel)⟩,
    ⟨?_, ?_, exists_error (by decide +kernel)⟩, ⟨?_, ?_, exists_ok (by decide +kernel)⟩, exists_error (by decide +kernel),
    ⟨exists_ok (by decide +kernel), exists_error (by decide +kernel)⟩, ⟨?_, ?_⟩, exists_error (by decide +kernel)⟩ <;>
    exact bitsAt_of_all (by decide) (by decide +kernel)

/-- An illegal header (FDICT), and a legal one whose stream decodes with the trailer at bit 32; the input ending in the header,
in the blocks and in the trailer. -/
theorem witness_ZlibWrapperRule :
    (BitsAt (Port.ofBytes [0x78, 0x3F]) 0 8 0x78 ∧ BitsAt (Port.ofBytes [0x78, 0x3F]) 8 8 0x3F ∧
      Nat.testBit 0x3F 5 = true) ∧
    (let p := Port.ofBytes [0x78, 0x01, 0x03, 0x00, 0x00, 0x00, 0x00, 0x01];
      BitsAt p 0 8 0x78 ∧ BitsAt p 8 8 0x01 ∧ (0x78 * 256 + 0x01) % 31 = 0 ∧ BitsAt p 32 8 0 ∧ BitsAt p 56 8 1 ∧
        (∃ r, inflateBlocks p openBus (8 * p.len) { pos := 16, sink := Sink.start 0 0, pads := [] } = .ok r) ∧
        0 * 16777216 + 0 * 65536 + 0 * 256 + 1 = adlerSum []) ∧
    (∃ e, readBits (Port.ofBytes [0x78]) 16 0 = .error e) ∧
    (let p := Port.ofBytes [0x78, 0x01];
      ∃ e, inflateBlocks p openBus (8 * p.len) { pos := 16, sink := Sink.start 0 0, pads := [] } = .error e) ∧
    ∃ e, readBits (Port.ofBytes [0x78, 0x01, 0x03, 0x00]) 32 32 = .error e := by
  refine ⟨⟨bitsAt_of_all (by decide) (by decide), bitsAt_of_all (by decide) (by decide), by decide⟩,
    ⟨bitsAt_of_all (by decide) (by decide), bitsAt_of_all (by decide) (by decide), by decide,
      bitsAt_of_all (by decide) (by decide), bitsAt_of_all (by decide) (by decide), exists_ok (by decide +kernel), by decide⟩,
    exists_error (by decide +kernel), exists_error (by decide +kernel), exists_error (by decide +kernel)⟩

theorem witness_ResetRegistersReadResetValues :
    ({ State.reset with events := [.hardReset (cells 5 [7])] } : State).events = .hardReset (cells 5 [7]) :: [] ∧
      252 < 256 ∧ 252 % 4 = 0 := by refine ⟨rfl, by decide⟩

theorem witness_InflateStaysInItsBounds :
    ∃ r, inflateStream false (Port.ofBytes [0x4B, 0x04, 0x00]) openBus (Sink.start 0x200 1) = .ok r :=
  exists_ok (by decide +kernel)

/-- A distance below the length, and a distance one beyond the output; room for 3 bytes; and a hole at the third. -/
theorem witness_BackReferenceCopiesFromTheOutput :
    let k : Sink := { base := 0x200, cap := 5, n := 2, rev := [7, 9] }
    k.n = k.rev.length ∧ k.n < 3 ∧ 1 ≤ 2 ∧ 2 ≤ k.n ∧ 2 ≤ 32768 ∧ k.n + 3 ≤ k.cap ∧
      Writable openBus.platform (k.base + k.n) 3 ∧ k.n + 3 = k.cap ∧ k.n + 2 < k.cap ∧
      (let platform : Platform := { regBase := 0, holes := [⟨.write, 0x204, 1⟩] };
        Writable platform (k.base + k.n) 2 ∧ memOk platform (k.base + k.n + 2) .write = false) := by
  refine ⟨rfl, by decide, by decide, by decide, by decide, by decide, writable_of_noHoles rfl _ _, by decide, by decide, ?_,
    by decide⟩
  intro a h₁ h₂
  have : a = 0x202 ∨ a = 0x203 := by simp only at h₁ h₂; omega
  rcases this with rfl | rfl <;> decide

/-- Level 0 without the wrapper, and level 9 with it on empty data. -/
theorem witness_InflateUndoesDeflate :
    (let d := started 0x11#32 (regs 0x100 1 0x200 6) (cells 0x100 [0x41]);
      let s := started 0x10#32 (regs 0x100 6 0x200 1) (cells 0x100 [0x01, 0x01, 0x00, 0xFE, 0xFF, 0x41]);
      levelOk 0 = true ∧ SrcDstOk s.latch.args ∧ d.latch.args.len ≤ s.latch.args.cap ∧
        (∃ t, exec (.deflate 0) d = .next t ∧ t.status.err = false ∧
          s.sourceBytes = memBytes t.mem d.latch.args.dst t.results.outLen.toNat) ∧
        Readable s.platform s.latch.args.src s.latch.args.len ∧
        Writable s.platform s.latch.args.dst d.latch.args.len) ∧
    (let d := started 0x1911#32 (regs 0x100 0 0x200 8) [];
      let s := started 0x1010#32 (regs 0x100 8 0x200 0) (cells 0x100 [0x78, 0x01, 0x03, 0x00, 0x00, 0x00, 0x00, 0x01]);
      levelOk 9 = true ∧ SrcDstOk s.latch.args ∧ d.latch.args.len ≤ s.latch.args.cap ∧
        (∃ t, exec (.deflateZ 9) d = .next t ∧ t.status.err = false ∧
          s.sourceBytes = memBytes t.mem d.latch.args.dst t.results.outLen.toNat) ∧
        Readable s.platform s.latch.args.src s.latch.args.len ∧
        Writable s.platform s.latch.args.dst d.latch.args.len) := by
  refine ⟨⟨by decide, ⟨by decide, by decide, by decide⟩, by decide, ⟨_, rfl, by decide +kernel, by decide +kernel⟩,
    readable_started _ _ _ _ _, writable_started _ _ _ _ _⟩, by decide, ⟨by decide, by decide, by decide⟩, by decide,
    ⟨_, rfl, by decide +kernel, by decide +kernel⟩, readable_started _ _ _ _ _, writable_started _ _ _ _ _⟩

/-- Room for exactly BOUND bytes of one source byte. -/
theorem witness_DeflateOutputIsBounded :
    let s := started 0x11#32 (regs 0x100 1 0x200 6) (cells 0x100 [0x41])
    levelOk 0 = true ∧ s.latch.args.len = [0x41#8].length ∧
      [0x41#8].length + 5 * max 1 (([0x41#8].length + 65534) / 65535) + 0 ≤ s.latch.args.cap ∧
      ∃ t, exec (.deflate 0) s = .next t := ⟨by decide, by decide, by decide, _, rfl⟩

/-- Level 0: room for exactly the stored stream, and a hole just past it where there is more room. Level 9: room for exactly
BOUND bytes, whatever the device's choice is; and the 8 bytes for empty data with the wrapper. -/
theorem witness_DeflateCompletesWithAnAdmissibleStream :
    (let s := started 0x11#32 (regs 0x100 3 0x200 8) (cells 0x100 [0x61, 0x62, 0x63]);
      let n := (deflateStream s.sourceBytes (0#4).toNat false).length;
      levelOk 0 = true ∧ SrcDstOk s.latch.args ∧ Readable s.platform s.latch.args.src s.latch.args.len ∧
        n = s.latch.args.cap ∧ Writable s.platform s.latch.args.dst n) ∧
    (let s := holed .write 0x208 (started 0x11#32 (regs 0x100 3 0x200 9) (cells 0x100 [0x61, 0x62, 0x63]));
      let n := (deflateStream s.sourceBytes (0#4).toNat false).length;
      SrcDstOk s.latch.args ∧ Readable s.platform s.latch.args.src s.latch.args.len ∧ n = 8 ∧ n < s.latch.args.cap ∧
        Writable s.platform s.latch.args.dst 8 ∧ FirstHole s.platform .write s.latch.args.dst s.latch.args.cap 0x208) ∧
    (let s := started 0x911#32 (regs 0x100 1 0x200 6) (cells 0x100 [0x41]);
      let n := (deflateStream s.sourceBytes (9#4).toNat false).length;
      levelOk 9 = true ∧ (9#4) ≠ 0 ∧ SrcDstOk s.latch.args ∧ s.sourceBytes ≠ [] ∧
        Readable s.platform s.latch.args.src s.latch.args.len ∧ n ≤ s.latch.args.cap ∧
        Writable s.platform s.latch.args.dst n) ∧
    (let s := started 0x1911#32 (regs 0x100 0 0x200 8) [];
      let n := (deflateStream s.sourceBytes (9#4).toNat true).length;
      SrcDstOk s.latch.args ∧ Readable s.platform s.latch.args.src s.latch.args.len ∧ n = s.latch.args.cap ∧
        Writable s.platform s.latch.args.dst n) := by
  refine ⟨⟨by decide, ⟨by decide, by decide, by decide⟩, readable_started _ _ _ _ _, by decide +kernel,
      writable_started _ _ _ _ _⟩,
    ⟨⟨by decide, by decide, by decide⟩, readable_holed _ (.inl rfl), by decide +kernel, by decide +kernel,
      writable_holed _ (.inr (.inl (by decide))), firstHole_holed _ (by decide) (by decide)⟩,
    ⟨by decide, by decide, ⟨by decide, by decide, by decide⟩, by decide +kernel, readable_started _ _ _ _ _, ?_,
      writable_started _ _ _ _ _⟩,
    ⟨by decide, by decide, by decide⟩, readable_started _ _ _ _ _, by decide +kernel, writable_started _ _ _ _ _⟩
  have e : (started 0x911#32 (regs 0x100 1 0x200 6) (cells 0x100 [0x41])).sourceBytes = [0x41#8] := by decide +kernel
  rw [e, deflateStream, if_neg (by decide), if_neg (by decide)]
  dsimp only
  split
  · next h =>
    simp only [admissible, Bool.and_eq_true, decide_eq_true_eq] at h
    exact Nat.le_trans h.1.1.2 (by decide)
  · decide +kernel

/-- One byte too little for the 8 bytes of the stored stream. -/
theorem witness_DeflateTooLongForTheDestination :
    let s := started 0x11#32 (regs 0x100 3 0x200 7) (cells 0x100 [0x61, 0x62, 0x63])
    levelOk 0 = true ∧ SrcDstOk s.latch.args ∧ Readable s.platform s.latch.args.src s.latch.args.len ∧
      s.latch.args.cap < (deflateStream s.sourceBytes (0#4).toNat false).length ∧
      FirstHole (holed .read 0x102 s).platform .read s.latch.args.src s.latch.args.len 0x102 ∧
      (let u := started 0x11#32 (regs 0x100 3 0x200 8) (cells 0x100 [0x61, 0x62, 0x63]);
        (deflateStream u.sourceBytes (0#4).toNat false).length = 8 ∧ u.latch.args.cap = 8 ∧
          Readable (holed .write 0x207 u).platform u.latch.args.src u.latch.args.len ∧
          FirstHole (holed .write 0x207 u).platform .write u.latch.args.dst 8 0x207) :=
  ⟨by decide, ⟨by decide, by decide, by decide⟩, readable_started _ _ _ _ _, by decide +kernel,
    firstHole_holed _ (by decide) (by decide), by decide +kernel, by decide, readable_holed _ (.inl rfl),
    firstHole_holed _ (by decide) (by decide)⟩

theorem witness_EmptyInputStreams : 1 ≤ 1 ∧ 1 ≤ 9 := by decide

/-- Seven bytes; eight bytes whose last one is wrong; and a hole at the first, and at the last, byte of the signature. -/
theorem witness_ParseVerifiesTheSignature :
    (let s := started 0x20#32 (regs 0x100 7 0x200 0) (cells 0x100 smallPng);
      SrcDstOk s.latch.args ∧ s.latch.args.dst % 4 = 0 ∧ s.latch.args.len < 8) ∧
    (let s := started 0x20#32 (regs 0x100 8 0x200 0) (cells 0x100 [0x89, 0x50, 0x4E, 0x47, 0x0D, 0x0A, 0x1A, 0x0B]);
      SrcDstOk s.latch.args ∧ s.latch.args.dst % 4 = 0 ∧ 8 ≤ s.latch.args.len ∧ Readable s.platform s.latch.args.src 8 ∧
        memBytes s.mem s.latch.args.src 8 ≠ [0x89, 0x50, 0x4E, 0x47, 0x0D, 0x0A, 0x1A, 0x0A]) ∧
    (let s := started 0x20#32 (regs 0x100 8 0x200 0) (cells 0x100 smallPng);
      SrcDstOk s.latch.args ∧ s.latch.args.dst % 4 = 0 ∧ 8 ≤ s.latch.args.len ∧
        FirstHole (holed .read 0x100 s).platform .read s.latch.args.src 8 (s.latch.args.src + 0) ∧
        FirstHole (holed .read 0x107 s).platform .read s.latch.args.src 8 (s.latch.args.src + 7) ∧
        memBytes s.mem s.latch.args.src 7 = [0x89, 0x50, 0x4E, 0x47, 0x0D, 0x0A, 0x1A, 0x0A].take 7) := by
  refine ⟨⟨⟨by decide, by decide, by decide⟩, by decide, by decide⟩, ⟨⟨by decide, by decide, by decide⟩, by decide,
    by decide, readable_started _ _ _ _ _, by decide +kernel⟩, ⟨by decide, by decide, by decide⟩, by decide, by decide,
    firstHole_holed _ (by decide) (by decide), firstHole_holed _ (by decide) (by decide), by decide +kernel⟩

/-- FRM.PARSE of the signature and what follows it. -/
def sigThen (cap : Nat) (rest : List Nat) : State :=
  started 0x20#32 (regs 0x100 (8 + rest.length) 0x200 cap)
    (cells 0x100 ([0x89, 0x50, 0x4E, 0x47, 0x0D, 0x0A, 0x1A, 0x0A] ++ rest))

theorem parseReaches_sig {s : State} {rest : List Byte} (h : SrcDstOk s.latch.args) (ha : s.latch.args.dst % 4 = 0)
    (hs : s.sourceBytes = pngSignature ++ rest) (hm : s.latch.args.arg0.toNat = 0)
    (hr : Readable s.platform s.latch.args.src 8) : ParseReaches s [] rest :=
  ⟨h, ha, by intro c hc; simp at hc, by simpa [wireBytes] using hs, by intro c hc; simp at hc, .inl hm, by simp,
    by simpa [wireBytes] using hr, by intro a h₁ h₂; simp at h₂; omega⟩

/-- After the signature: one byte; a length of 2^31; a length of 1 with 8 bytes; a whole chunk `abcd` with a wrong CRC. -/
theorem witness_ParseErrorRule_data :
    ParseReaches (sigThen 16 [5]) [] [5] ∧
    (ParseReaches (sigThen 16 [0x80, 0, 0, 0, 0, 0, 0, 0, 0, 0, 0, 0]) [] (be32bytes (2 ^ 31) ++ List.replicate 8 0) ∧
      2 ^ 31 < 2 ^ 32 ∧ 2 ^ 31 - 1 < 2 ^ 31) ∧
    (ParseReaches (sigThen 16 [0, 0, 0, 1, 0, 0, 0, 0, 0, 0, 0, 0]) [] (be32bytes 1 ++ List.replicate 8 0) ∧
      (List.replicate 8 (0 : Byte)).length < 8 + 1) ∧
    (ParseReaches (sigThen 16 [0, 0, 0, 0, 0x61, 0x62, 0x63, 0x64, 0, 0, 0, 0]) []
        (be32bytes 0 ++ ([0x61, 0x62, 0x63, 0x64] ++ [] ++ [0, 0, 0, 0] ++ [])) ∧
      [0, 0, 0, 0] ≠ be32bytes (crc32 ([0x61, 0x62, 0x63, 0x64] ++ [])).toNat) := by
  refine ⟨?_, ⟨?_, by decide, by decide⟩, ⟨?_, by decide⟩, ?_, by decide +kernel⟩ <;>
    exact parseReaches_sig ⟨by decide, by decide, by decide⟩ (by decide) (by decide +kernel) (by decide)
      (readable_started _ _ _ _ _)

/-- The empty IEND chunk with room for 15 bytes; with holes at its first byte and at its CRC; and at the last byte of its
descriptor. -/
theorem witness_ParseErrorRule_room :
    let iend := [0, 0, 0, 0, 0x49, 0x45, 0x4E, 0x44, 0xAE, 0x42, 0x60, 0x82]
    let rest : List Byte := be32bytes 0 ++ (tagIend ++ [] ++ [0xAE, 0x42, 0x60, 0x82] ++ [])
    (ParseReaches (sigThen 15 iend) [] rest ∧ (sigThen 15 iend).latch.args.cap < 16 * (0 + 1)) ∧
    [0xAE, 0x42, 0x60, 0x82] = be32bytes (crc32 (tagIend ++ [])).toNat ∧
    (ParseReaches (holed .read 0x108 (sigThen 16 iend)) [] rest ∧
      FirstHole (holed .read 0x108 (sigThen 16 iend)).platform .read (0x100 + 8) 8 0x108) ∧
    (ParseReaches (holed .read 0x113 (sigThen 16 iend)) [] rest ∧
      Readable (holed .read 0x113 (sigThen 16 iend)).platform (0x100 + 8) 8 ∧
      FirstHole (holed .read 0x113 (sigThen 16 iend)).platform .read (0x100 + 8 + 8) (0 + 4) 0x113) ∧
    (ParseReaches (holed .write 0x20F (sigThen 16 iend)) [] rest ∧
      Readable (holed .write 0x20F (sigThen 16 iend)).platform (0x100 + 8 + 8) (0 + 4) ∧
      16 * (0 + 1) ≤ (sigThen 16 iend).latch.args.cap ∧
      FirstHole (holed .write 0x20F (sigThen 16 iend)).platform .write (0x200 + 16 * 0) 16 0x20F) := by
  refine ⟨⟨?_, by decide⟩, by decide +kernel, ⟨?_, firstHole_holed _ (by decide) (by decide)⟩,
    ⟨?_, readable_holed _ (.inr (.inl (by decide))), firstHole_holed _ (by decide) (by decide)⟩, ?_,
    readable_holed _ (.inl rfl), by decide, firstHole_holed _ (by decide) (by decide)⟩
  · exact parseReaches_sig ⟨by decide, by decide, by decide⟩ (by decide) (by decide +kernel) (by decide)
      (readable_started _ _ _ _ _)
  · exact parseReaches_sig ⟨by decide, by decide, by decide⟩ (by decide) (by decide +kernel) (by decide)
      (readable_holed _ (.inr (.inl (by decide))))
  · exact parseReaches_sig ⟨by decide, by decide, by decide⟩ (by decide) (by decide +kernel) (by decide)
      (readable_holed _ (.inr (.inl (by decide))))
  · exact parseReaches_sig ⟨by decide, by decide, by decide⟩ (by decide) (by decide +kernel) (by decide)
      (readable_holed _ (.inl rfl))

/-- A chunk of no data with the tag `abcd`. -/
def oneChunk : List (List Byte × List Byte) := [([0x61, 0x62, 0x63, 0x64], [])]

/-- The three stops: the IEND chunk with a byte after it, MAX_CHUNKS = 1, and the end of input; the last with no chunk. -/
theorem witness_ParseListsTheChunks :
    (let s := started 0x20#32 (regs 0x100 21 0x200 16) (cells 0x100 (smallPng ++ [5]));
      SrcDstOk s.latch.args ∧ s.latch.args.dst % 4 = 0 ∧ ChunksOk [(tagIend, [])] ∧
        s.sourceBytes = pngSignature ++ wireBytes [(tagIend, [])] ++ [5] ∧
        (true = true ↔ ∃ c, [(tagIend, ([] : List Byte))].getLast? = some c ∧ c.1 = tagIend) ∧
        s.latch.args.arg0.toNat = 0 ∧ 16 * 1 ≤ s.latch.args.cap ∧
        Readable s.platform s.latch.args.src (8 + (wireBytes [(tagIend, [])]).length) ∧
        Writable s.platform s.latch.args.dst 16) ∧
    (let s := started 0x20#32 (regs 0x100 20 0x200 16 0 1)
        (cells 0x100 ((pngSignature ++ wireBytes oneChunk).map BitVec.toNat));
      SrcDstOk s.latch.args ∧ s.latch.args.dst % 4 = 0 ∧ ChunksOk oneChunk ∧
        s.sourceBytes = pngSignature ++ wireBytes oneChunk ++ [] ∧
        ¬(∃ c, oneChunk.getLast? = some c ∧ c.1 = tagIend) ∧ s.latch.args.arg0.toNat ≠ 0 ∧
        oneChunk.length = s.latch.args.arg0.toNat ∧ 16 * oneChunk.length ≤ s.latch.args.cap ∧
        Readable s.platform s.latch.args.src (8 + (wireBytes oneChunk).length) ∧
        Writable s.platform s.latch.args.dst (16 * oneChunk.length)) ∧
    (let s := started 0x20#32 (regs 0x100 8 0x200 0) (cells 0x100 smallPng);
      SrcDstOk s.latch.args ∧ s.latch.args.dst % 4 = 0 ∧ ChunksOk [] ∧ s.sourceBytes = pngSignature ++ wireBytes [] ++ [] ∧
        s.latch.args.arg0.toNat = 0 ∧ Readable s.platform s.latch.args.src (8 + (wireBytes []).length) ∧
        Writable s.platform s.latch.args.dst (16 * 0)) := by
  refine ⟨⟨⟨by decide, by decide, by decide⟩, by decide, ?_, by decide +kernel, by decide, by decide, by decide,
    readable_started _ _ _ _ _, writable_started _ _ _ _ _⟩,
    ⟨⟨by decide, by decide, by decide⟩, by decide, ?_, by decide +kernel, by decide, by decide, by decide, by decide,
      readable_started _ _ _ _ _, writable_started _ _ _ _ _⟩,
    ⟨⟨by decide, by decide, by decide⟩, by decide, ?_, by decide +kernel, by decide,
      readable_started _ _ _ _ _, writable_started _ _ _ _ _⟩⟩
  · intro c hc
    simp only [List.mem_singleton] at hc
    subst hc
    decide
  · intro c hc
    simp only [oneChunk, List.mem_singleton] at hc
    subst hc
    decide
  · intro c hc
    simp at hc

/-- The stream of the signature and an empty chunk `abcd` whose type byte 3 has bit 0 flipped on the wire. -/
def flippedStream : List Byte :=
  pngSignature ++ wireBytes [] ++ be32bytes ([] : List Byte).length ++ [0x61, 0x62, 0x63, 0x65] ++ [] ++
    be32bytes (crc32 ([0x61, 0x62, 0x63, 0x64] ++ [])).toNat ++ []

theorem witness_ParseFindsEveryFlippedBit :
    let s := started 0x20#32 (regs 0x100 20 0x200 0 0 1) (cells 0x100 (flippedStream.map BitVec.toNat))
    let whole : List Byte := [0x61, 0x62, 0x63, 0x64] ++ []
    SrcDstOk s.latch.args ∧ s.latch.args.dst % 4 = 0 ∧ ChunksOk [] ∧ 3 < 4 + ([] : List Byte).length ∧ 0 < 8 ∧
      ([0x61, 0x62, 0x63, 0x65] : List Byte) ++ [] = whole.set 3 (whole.getD 3 0 ^^^ (1#8 <<< 0)) ∧ s.sourceBytes = flippedStream ∧
      ([] : List (List Byte × List Byte)).length < s.latch.args.arg0.toNat ∧ 16 * 0 ≤ s.latch.args.cap ∧
      Readable s.platform s.latch.args.src (8 + (wireBytes []).length + 12 + ([] : List Byte).length) ∧
      Writable s.platform s.latch.args.dst (16 * 0) := by
  refine ⟨⟨by decide, by decide, by decide⟩, by decide, ?_, by decide, by decide, by decide, by decide +kernel, by decide,
    by decide, readable_started _ _ _ _ _, writable_started _ _ _ _ _⟩
  intro c hc
  simp at hc

/-- The table of `catTable`, whose IDAT entries fit the destination exactly. -/
def catState : State := started 0x21#32 (regs 0 0 0x200 3 0x300 3) (cells 0x100 [7, 8, 9] ++ cells 0x300 catTable)

theorem witness_IdatcatConcatenatesTheIdatData :
    let idats := ((List.range catState.latch.args.entries).map catState.entry).filter fun e => decide (e.tag = tagIdat)
    TableDstOk catState.latch.args ∧ Readable catState.platform catState.latch.args.aux catState.latch.args.tableLen ∧
      (∀ e, e ∈ idats → catState.EntryOk e) ∧ idats ≠ [] ∧
      (idats.flatMap catState.entryData).length ≤ catState.latch.args.cap ∧
      Writable catState.platform catState.latch.args.dst (idats.flatMap catState.entryData).length ∧
      16 * catState.latch.args.entries < 2 ^ 32 := by
  have h : ((List.range catState.latch.args.entries).map catState.entry).filter (fun e => decide (e.tag = tagIdat)) =
      [⟨tagIdat, 2, 0x100⟩, ⟨tagIdat, 1, 0x102⟩] := by decide +kernel
  simp only [h]
  refine ⟨⟨by decide, by decide, by decide, by decide⟩, readable_started _ _ _ _ _, ?_, by decide, by decide +kernel,
    writable_started _ _ _ _ _, by decide⟩
  intro e he
  simp only [List.mem_cons, List.not_mem_nil, or_false] at he
  rcases he with rfl | rfl
  · exact ⟨by decide, by decide, readable_started _ _ _ _ _⟩
  · exact ⟨by decide, by decide, readable_started _ _ _ _ _⟩

/-- A framer command on a table of one entry at 0x300, its last tag byte, length and address given. -/
def oneEntry (cmd : Word) (cap tag3 len addr : Nat) : State :=
  started cmd (regs 0 0 0x200 cap 0x300 1) (cells 0x300 ([0x49, if cmd = 0x21#32 then 0x44 else 0x45,
    if cmd = 0x21#32 then 0x41 else 0x4E, tag3] ++ (le32bytes len ++ le32bytes addr).map BitVec.toNat))

/-- An IDAT entry: a region that wraps; one whose last byte is the destination's first; two bytes with room for one; holes in the
table, in the data and in the destination. -/
theorem witness_IdatcatErrorRule :
    let e := oneEntry 0x21#32
    (CatReaches (e 4 0x54 2 0xFFFFFFFF) 0 ∧ CatReaches (e 4 0x54 2 0x1FF) 0 ∧ CatReaches (e 1 0x54 2 0x1FE) 0) ∧
    (e 4 0x54 2 0xFFFFFFFF).entry 0 = ⟨tagIdat, 2, 0xFFFFFFFF⟩ ∧ 2 ^ 32 < 0xFFFFFFFF + 2 ∧
    (e 4 0x54 2 0x1FF).entry 0 = ⟨tagIdat, 2, 0x1FF⟩ ∧ (0x1FF ≤ 0x200 ∧ 0x200 < 0x1FF + 2 ∧ 0x200 < 0x200 + 4) ∧
    (e 1 0x54 2 0x1FE).entry 0 = ⟨tagIdat, 2, 0x1FE⟩ ∧ (∀ x, 0x1FE ≤ x → x < 0x1FE + 2 → ¬(0x200 ≤ x ∧ x < 0x200 + 1)) ∧
      (e 1 0x54 2 0x1FE).latch.args.cap < ((e 1 0x54 2 0x1FE).catBytes 0).length + 2 ∧
    (CatReaches (holed .read 0x30F (e 2 0x54 2 0x1FE)) 0 ∧
      FirstHole (holed .read 0x30F (e 2 0x54 2 0x1FE)).platform .read (0x300 + 16 * 0) 16 0x30F) ∧
    (CatReaches (holed .read 0x1FF (e 2 0x54 2 0x1FE)) 0 ∧
      Readable (holed .read 0x1FF (e 2 0x54 2 0x1FE)).platform (0x300 + 16 * 0) 16 ∧
      FirstHole (holed .read 0x1FF (e 2 0x54 2 0x1FE)).platform .read 0x1FE 2 0x1FF) ∧
    (CatReaches (holed .write 0x201 (e 2 0x54 2 0x1FE)) 0 ∧
      Readable (holed .write 0x201 (e 2 0x54 2 0x1FE)).platform 0x1FE 2 ∧
      FirstHole (holed .write 0x201 (e 2 0x54 2 0x1FE)).platform .write (0x200 + 0) 2 0x201) := by
  have reach : ∀ s : State, TableDstOk s.latch.args → 0 < s.latch.args.entries → CatReaches s 0 := fun s h₁ h₂ =>
    ⟨h₁, h₂, fun a h₁ h₂ => by omega, fun j hj => by omega, Nat.zero_le _, fun a h₁ h₂ => by simp [State.catBytes] at h₂; omega⟩
  refine ⟨⟨?_, ?_, ?_⟩, by decide +kernel, by decide, by decide +kernel, by decide, by decide +kernel,
    fun x h₁ h₂ h₃ => by omega, by decide +kernel, ⟨?_, firstHole_holed _ (by decide) (by decide)⟩,
    ⟨?_, readable_holed _ (.inr (.inr (by decide))), firstHole_holed _ (by decide) (by decide)⟩, ?_,
    readable_holed _ (.inl rfl), firstHole_holed _ (by decide) (by decide)⟩
  all_goals exact reach _ ⟨by decide, by decide, by decide, by decide⟩ (by decide)

/-- The empty table, and a table of one entry with another tag. -/
theorem witness_IdatcatWithoutIdatFails :
    (let s := started 0x21#32 (regs 0 0 0x200 8 0x300 0) [];
      TableDstOk s.latch.args ∧ Readable s.platform s.latch.args.aux s.latch.args.tableLen ∧
        ∀ k, k < s.latch.args.entries → (s.entry k).tag ≠ tagIdat) ∧
    (let s := started 0x21#32 (regs 0 0 0x200 8 0x300 1) (cells 0x300 [0x49, 0x44, 0x41, 0x55]);
      TableDstOk s.latch.args ∧ Readable s.platform s.latch.args.aux s.latch.args.tableLen ∧
        ∀ k, k < s.latch.args.entries → (s.entry k).tag ≠ tagIdat) := by
  refine ⟨⟨⟨by decide, by decide, by decide, by decide⟩, readable_started _ _ _ _ _, by decide⟩,
    ⟨by decide, by decide, by decide, by decide⟩, readable_started _ _ _ _ _, ?_⟩
  have e : (started 0x21#32 (regs 0 0 0x200 8 0x300 1) (cells 0x300 [0x49, 0x44, 0x41, 0x55])).latch.args.entries = 1 := by
    decide
  intro k hk
  rw [e] at hk
  have : k = 0 := by omega
  subst this
  decide +kernel

/-- The empty table (no IEND, one appended), and a table that ends at its first entry, an IEND, with one entry unread. -/
theorem witness_SerializeWritesTheStream :
    (let s := started 0x22#32 (regs 0 0 0x200 20 0x300 0) [];
      (0 ≤ s.latch.args.entries) ∧ (0 = s.latch.args.entries) ∧ TableDstOk s.latch.args ∧
        Readable s.platform s.latch.args.aux (16 * 0) ∧ 20 ≤ s.latch.args.cap ∧ Writable s.platform s.latch.args.dst 20) ∧
    (let s := started 0x22#32 (regs 0 0 0x200 20 0x300 2) (cells 0x300 [0x49, 0x45, 0x4E, 0x44]);
      1 ≤ s.latch.args.entries ∧ (s.entry 0).tag = tagIend ∧ (List.range 1).map s.entry = [s.entry 0] ∧
        TableDstOk s.latch.args ∧ Readable s.platform s.latch.args.aux (16 * 1) ∧ s.EntryOk (s.entry 0) ∧
        (s.entry 0).len ≤ Config.framerMaxLen ∧ (s.entry 0).len = 0 ∧
        (pngSignature ++ wireBytes [((s.entry 0).tag, s.entryData (s.entry 0))] ++ []).length ≤ s.latch.args.cap ∧
        Writable s.platform s.latch.args.dst 20) := by
  refine ⟨⟨by decide, by decide, ⟨by decide, by decide, by decide, by decide⟩, readable_started _ _ _ _ _, by decide,
    writable_started _ _ _ _ _⟩, by decide, by decide +kernel, rfl, ⟨by decide, by decide, by decide, by decide⟩,
    readable_started _ _ _ _ _, ⟨by decide +kernel, by decide +kernel, readable_started _ _ _ _ _⟩, by decide +kernel,
    by decide +kernel, by decide +kernel, writable_started _ _ _ _ _⟩

/-- The signature with room for 7 bytes and with a hole; the empty table with room for 19 bytes and with a hole in the closing
IEND. Entry 0: a length of 2^31; an IEND with a byte; a region that wraps; one that meets the destination; one byte with room
for none of its chunk; holes in the table, in the data and in the chunk. -/
theorem witness_SerializeErrorRule :
    let e := oneEntry 0x22#32
    let empty : Nat → State := fun cap => started 0x22#32 (regs 0 0 0x200 cap 0x300 0) []
    (TableDstOk (empty 7).latch.args ∧ (empty 7).latch.args.cap < 8 ∧ TableDstOk (empty 8).latch.args ∧
      FirstHole (holed .write 0x207 (empty 8)).platform .write 0x200 8 0x207) ∧
    (SerialReaches (empty 19) 0 ∧ 0 = (empty 19).latch.args.entries ∧ (empty 19).latch.args.cap < 8 + 12 ∧
      SerialReaches (holed .write 0x213 (empty 20)) 0 ∧
      FirstHole (holed .write 0x213 (empty 20)).platform .write (0x200 + 8) 12 0x213) ∧
    (SerialReaches (e 20 0 0x80000000 0) 0 ∧ 0 < (e 20 0 0x80000000 0).latch.args.entries ∧
      2 ^ 31 - 1 < ((e 20 0 0x80000000 0).entry 0).len) ∧
    (SerialReaches (e 20 0x44 1 0) 0 ∧ (e 20 0x44 1 0).entry 0 = ⟨tagIend, 1, 0⟩) ∧
    (SerialReaches (e 20 0 2 0xFFFFFFFF) 0 ∧ 2 ^ 32 < ((e 20 0 2 0xFFFFFFFF).entry 0).addr + ((e 20 0 2 0xFFFFFFFF).entry 0).len) ∧
    (SerialReaches (e 20 0 1 0x200) 0 ∧ ((e 20 0 1 0x200).entry 0).addr = 0x200 ∧ ((e 20 0 1 0x200).entry 0).len = 1) ∧
    (SerialReaches (e 20 0 1 0x1FF) 0 ∧ ((e 20 0 1 0x1FF).entry 0).addr = 0x1FF ∧
      (∀ x, 0x1FF ≤ x → x < 0x1FF + 1 → ¬(0x200 ≤ x ∧ x < 0x200 + 20)) ∧ (e 20 0 1 0x1FF).latch.args.cap < 8 + 12 + 1) ∧
    (SerialReaches (holed .read 0x300 (e 21 0 1 0x1FF)) 0 ∧
      FirstHole (holed .read 0x300 (e 21 0 1 0x1FF)).platform .read (0x300 + 16 * 0) 16 0x300) ∧
    (SerialReaches (holed .read 0x1FF (e 21 0 1 0x1FF)) 0 ∧
      FirstHole (holed .read 0x1FF (e 21 0 1 0x1FF)).platform .read 0x1FF 1 0x1FF) ∧
    (SerialReaches (holed .write 0x214 (e 21 0 1 0x1FF)) 0 ∧
      FirstHole (holed .write 0x214 (e 21 0 1 0x1FF)).platform .write (0x200 + 8) (12 + 1) 0x214) := by
  have reach : ∀ s : State, TableDstOk s.latch.args → 8 ≤ s.latch.args.cap → Writable s.platform s.latch.args.dst 8 →
      SerialReaches s 0 := fun s h₁ h₂ h₃ =>
    ⟨h₁, Nat.zero_le _, fun a h₁ h₂ => by omega, fun j hj => by omega, h₂, h₃⟩
  refine ⟨⟨⟨by decide, by decide, by decide, by decide⟩, by decide, ⟨by decide, by decide, by decide, by decide⟩,
      firstHole_holed _ (by decide) (by decide)⟩, ⟨?_, by decide, by decide, ?_, firstHole_holed _ (by decide) (by decide)⟩,
    ⟨?_, by decide, by decide +kernel⟩, ⟨?_, by decide +kernel⟩, ⟨?_, by decide +kernel⟩,
    ⟨?_, by decide +kernel, by decide +kernel⟩, ⟨?_, by decide +kernel, fun x h₁ h₂ h₃ => by omega, by decide⟩,
    ⟨?_, firstHole_holed _ (by decide) (by decide)⟩, ⟨?_, firstHole_holed _ (by decide) (by decide)⟩, ?_,
    firstHole_holed _ (by decide) (by decide)⟩ <;>
    refine reach _ ⟨by decide, by decide, by decide, by decide⟩ (by decide) ?_
  all_goals first
    | exact writable_started _ _ _ _ _
    | exact writable_holed _ (.inl rfl)
    | exact writable_holed _ (.inr (.inl (by decide)))

/-- A legal geometry, for each direction with a source one byte short, and with a destination one byte short. -/
theorem witness_GeometryChecksInOrder_prechecks :
    let a : Nat → Nat → Args := fun len cap => (started 0x30#32 (regs 0x100 len 0x200 cap 0 3 2 1) []).latch.args
    GeometryOk (a 7 6) ∧ GeometryOk (a 8 5) ∧ GeometryOk (a 5 8) ∧ GeometryOk (a 6 7) ∧ SrcDstOk (a 7 6) ∧
      (a 7 6).len < (a 7 6).rows * (1 + (a 7 6).rowBytes) ∧
      SrcDstOk (a 8 5) ∧ (a 8 5).rows * (1 + (a 8 5).rowBytes) ≤ (a 8 5).len ∧
      (a 8 5).cap < (a 8 5).rows * (a 8 5).rowBytes ∧ SrcDstOk (a 5 8) ∧ (a 5 8).len < (a 5 8).rows * (a 5 8).rowBytes ∧
      SrcDstOk (a 6 7) ∧ (a 6 7).rows * (a 6 7).rowBytes ≤ (a 6 7).len ∧
      (a 6 7).cap < (a 6 7).rows * (1 + (a 6 7).rowBytes) := by
  refine ⟨⟨by decide, by decide, by decide, by decide, by decide⟩, ⟨by decide, by decide, by decide, by decide, by decide⟩,
    ⟨by decide, by decide, by decide, by decide, by decide⟩, ⟨by decide, by decide, by decide, by decide, by decide⟩,
    ⟨by decide, by decide, by decide⟩, by decide,
    ⟨by decide, by decide, by decide⟩, by decide, by decide, ⟨by decide, by decide, by decide⟩, by decide,
    ⟨by decide, by decide, by decide⟩, by decide, by decide⟩

/-- Row 1 of the FLT.APPLY image: a hole at its last byte, and one at the last byte it writes. -/
theorem witness_ApplyFiltersTheImage_holes :
    let s := started 0x31#32 (regs 0x100 6 0x200 8 0 3 2 1) (cells 0x100 [1, 2, 3, 4, 5, 6])
    let r := holed .read 0x105 s
    let w := holed .write 0x207 s
    1 < s.latch.args.rows ∧ Readable r.platform 0x100 (1 * 3) ∧ Writable r.platform 0x200 (1 * (1 + 3)) ∧
      FirstHole r.platform .read (0x100 + 1 * 3) 3 0x105 ∧ Readable w.platform (0x100 + 1 * 3) 3 ∧
      Writable w.platform 0x200 (1 * (1 + 3)) ∧ FirstHole w.platform .write (0x200 + 1 * (1 + 3)) (1 + 3) 0x207 :=
  ⟨by decide, readable_holed _ (.inr (.inl (by decide))), writable_holed _ (.inl rfl),
    firstHole_holed _ (by decide) (by decide), readable_holed _ (.inl rfl), writable_holed _ (.inr (.inl (by decide))),
    firstHole_holed _ (by decide) (by decide)⟩

/-- Row 1 of a filtered image: a hole at its type byte; at its last byte; at the last byte it writes; and a type byte 5. -/
theorem witness_ReverseRebuildsTheImage_rows :
    let s : Nat → State := fun t => started 0x30#32 (regs 0x100 6 0x200 4 0 2 2 1) (cells 0x100 [4, 1, 2, t, 3, 4])
    let row1 := 0x100 + 1 * (1 + 2)
    1 < (s 0).latch.args.rows ∧ ((s 0).mem.read 0x100).toNat ≤ 4 ∧ ((s 5).mem.read row1).toNat = 5 ∧
      ((s 0).mem.read row1).toNat = 0 ∧
      (Readable (holed .read 0x103 (s 0)).platform 0x100 (1 * (1 + 2)) ∧
        memOk (holed .read 0x103 (s 0)).platform row1 .read = false) ∧
      FirstHole (holed .read 0x105 (s 0)).platform .read (row1 + 1) 2 0x105 ∧
      (Writable (holed .write 0x203 (s 0)).platform 0x200 (1 * 2) ∧
        FirstHole (holed .write 0x203 (s 0)).platform .write (0x200 + 1 * 2) 2 0x203) :=
  ⟨by decide, by decide +kernel, by decide +kernel, by decide +kernel,
    ⟨readable_holed _ (.inr (.inl (by decide))), by decide⟩, firstHole_holed _ (by decide) (by decide),
    writable_holed _ (.inr (.inl (by decide))), firstHole_holed _ (by decide) (by decide)⟩

/-- One state for each geometry check, each at the edge of the one before it. -/
theorem witness_GeometryChecksInOrder :
    let a : Nat → Nat → Nat → Args := fun rowBytes rows bpp =>
      (started 0x30#32 (regs 0x100 64 0x200 64 0 rowBytes rows bpp) []).latch.args
    SrcDstOk (a 4 1 3) ∧ ¬((a 4 1 3).bpp = 1 ∨ (a 4 1 3).bpp = 4) ∧
      (a 0 0 4).bpp = 4 ∧ (a 0 0 4).rows = 0 ∧
      (a 0 1 1).bpp = 1 ∧ (a 0 1 1).rows ≠ 0 ∧ (a 0 1 1).rowBytes = 0 ∧
      (a 6 1 4).rowBytes ≠ 0 ∧ (a 6 1 4).rowBytes % (a 6 1 4).bpp ≠ 0 ∧
      (a 0xFFFF 0x10000 1).rowBytes % (a 0xFFFF 0x10000 1).bpp = 0 ∧
      2 ^ 32 - 1 < (a 0xFFFF 0x10000 1).rows * (1 + (a 0xFFFF 0x10000 1).rowBytes) := by
  refine ⟨⟨by decide, by decide, by decide⟩, by decide⟩

/-- The image of the FLT.APPLY tests, its source and its room exact. -/
theorem witness_ApplyFiltersTheImage :
    let s := started 0xF31#32 (regs 0x100 6 0x200 8 0 3 2 1) (cells 0x100 [1, 2, 3, 4, 5, 6])
    SrcDstOk s.latch.args ∧ GeometryOk s.latch.args ∧ s.latch.args.rawBytes ≤ s.latch.args.len ∧
      s.latch.args.filteredBytes ≤ s.latch.args.cap ∧ Readable s.platform s.latch.args.src s.latch.args.rawBytes ∧
      Writable s.platform s.latch.args.dst s.latch.args.filteredBytes :=
  ⟨⟨by decide, by decide, by decide⟩, ⟨by decide, by decide, by decide, by decide, by decide⟩, by decide, by decide,
    readable_started _ _ _ _ _, writable_started _ _ _ _ _⟩

/-- Rows whose type bytes are 4 and 0, and rows whose second type byte is 5. -/
theorem witness_ReverseRebuildsTheImage :
    let s : Nat → State := fun t => started 0x30#32 (regs 0x100 6 0x200 4 0 2 2 1) (cells 0x100 [4, 1, 2, t, 3, 4])
    let image : State → Option (List Byte) := fun s =>
      unfilterImage s.latch.args.bpp s.latch.args.rowBytes s.latch.args.rows (zeroRow s.latch.args.rowBytes)
        (memBytes s.mem s.latch.args.src s.latch.args.filteredBytes)
    SrcDstOk (s 0).latch.args ∧ GeometryOk (s 0).latch.args ∧
      (s 0).latch.args.filteredBytes ≤ (s 0).latch.args.len ∧ (s 0).latch.args.rawBytes ≤ (s 0).latch.args.cap ∧
      (∀ t base n, Readable (s t).platform base n ∧ Writable (s t).platform base n) ∧
      image (s 0) = some [1, 3, 3, 4] ∧ image (s 5) = Option.none ∧ (s 5).latch.args = (s 0).latch.args :=
  ⟨⟨by decide, by decide, by decide⟩, ⟨by decide, by decide, by decide, by decide, by decide⟩, by decide, by decide,
    fun _ _ _ => ⟨readable_started _ _ _ _ _, writable_started _ _ _ _ _⟩, by decide +kernel, by decide +kernel, rfl⟩

/-- The image of the FLT.APPLY tests and its PAETH form. -/
theorem witness_ReverseUndoesApply :
    let d := started 0x431#32 (regs 0x100 6 0x200 8 0 3 2 1) (cells 0x100 [1, 2, 3, 4, 5, 6])
    let s := started 0x30#32 (regs 0x100 8 0x200 6 0 3 2 1) (cells 0x100 [4, 1, 1, 1, 4, 3, 1, 1])
    (∃ t, exec .fltApplyPaeth d = .next t ∧ t.status.err = false ∧
        memBytes s.mem s.latch.args.src s.latch.args.filteredBytes =
          memBytes t.mem d.latch.args.dst d.latch.args.filteredBytes) ∧
      s.latch.args.arg0 = d.latch.args.arg0 ∧ s.latch.args.arg1 = d.latch.args.arg1 ∧
      s.latch.args.arg2 = d.latch.args.arg2 ∧ SrcDstOk s.latch.args ∧
      s.latch.args.filteredBytes ≤ s.latch.args.len ∧ s.latch.args.rawBytes ≤ s.latch.args.cap ∧
      Readable s.platform s.latch.args.src s.latch.args.filteredBytes ∧
      Writable s.platform s.latch.args.dst s.latch.args.rawBytes :=
  ⟨⟨_, rfl, by decide +kernel, by decide +kernel⟩, rfl, rfl, rfl, ⟨by decide, by decide, by decide⟩, by decide, by decide,
    readable_started _ _ _ _ _, writable_started _ _ _ _ _⟩

/-- The last byte of a row shorter than BPP. -/
theorem witness_RowsUseTheNeighboursByIndex :
    1 ≤ 4 ∧ [1#8, 2#8, 3#8].length = [0#8, 0#8, 0#8].length ∧ 2 < [1#8, 2#8, 3#8].length := by decide

theorem witness_PaethPicksTheNearest :
    (((9 : Int) + 9 - 9 - (9 : Nat)).natAbs ≤ ((9 : Int) + 9 - 9 - (9 : Nat)).natAbs) ∧
      paethPredict 9 9 9 = 9 ∧ paethPredict 0 100 200 = 0 ∧ paethPredict 0 255 1 = 255 ∧ paethPredict 0 10 6 = 6 := by decide

end Sys2Proof.Tests
end

section
/-! PROOF. DEFLATE where the source, the room or the destination fails (rules R13, R87, R300, R310, R450). -/

namespace Sys2Proof.Machine

/-- DEFLATE and DEFLATE.Z run one body, which takes Z as an operand. -/
theorem exec_deflate (s : State) (level : BitVec 4) (z : Bool) :
    exec (if z then Instr.deflateZ level else Instr.deflate level) s =
      .next (complete true (deflateBody level.toNat z s.bus s.latch.args) s) := by
  cases z <;> rfl

/-- A body that raises ends DEFLATE with that error, and its destination is draws (R450, R87). -/
theorem deflate_fails_of_raise {s : State} {level : BitVec 4} {z : Bool} {e : ErrKind} {info : Nat}
    (h : deflateBody level.toNat z s.bus s.latch.args = .error { err := e, info := info }) :
    ∃ t, exec (if z then Instr.deflateZ level else Instr.deflate level) s = .next t ∧ Failure s t e info ∧
      DestinationDrawn s t := by
  rw [exec_deflate, h]
  exact ⟨_, rfl, raiseWith_failure true _ s, raiseWith_destinationDrawn _ s⟩

/-- A readable source reads as its bytes. -/
theorem memRead_source {s : State} (hr : Readable s.platform s.latch.args.src s.latch.args.len) :
    memRead s.bus s.latch.args.src s.latch.args.len = .ok s.sourceBytes := memRead_ok s.bus _ _ hr

section
variable {s : State} {level : Nat} {z : Bool}

/-- DEFLATE reads its source first, and stops at the first byte whose read does not complete (R13, R300). -/
theorem deflateBody_source_hole {x : Nat} (hok : SrcDstOk s.latch.args)
    (hx : FirstHole s.platform .read s.latch.args.src s.latch.args.len x) :
    deflateBody level z s.bus s.latch.args = .error { err := .bus .read, info := x } := by
  have hread : memRead s.bus s.latch.args.src s.latch.args.len = .error { err := .bus .read, info := x } := memRead_hole hx
  rw [deflateBody, checkSrcDst_ok hok, except_bind_ok, hread, except_bind_error]

/-- A stream that is longer than the destination is CapacityError before any byte of it is written (R300). -/
theorem deflateBody_full (hok : SrcDstOk s.latch.args) (hr : Readable s.platform s.latch.args.src s.latch.args.len)
    (hcap : s.latch.args.cap < (deflateStream s.sourceBytes level z).length) :
    deflateBody level z s.bus s.latch.args = .error (full 0) := by
  rw [deflateBody, checkSrcDst_ok hok, except_bind_ok, memRead_source hr, except_bind_ok]
  exact if_pos hcap

/-- A stream that fits is written from DST_ADDR on, up to the first byte whose write does not complete (R13, R300). -/
theorem deflateBody_destination_hole {x : Nat} (hok : SrcDstOk s.latch.args)
    (hr : Readable s.platform s.latch.args.src s.latch.args.len)
    (hcap : (deflateStream s.sourceBytes level z).length ≤ s.latch.args.cap)
    (hx : FirstHole s.platform .write s.latch.args.dst (deflateStream s.sourceBytes level z).length x) :
    deflateBody level z s.bus s.latch.args = .error { err := .bus .write, info := x } := by
  have hwrite : memWrite s.bus s.latch.args.sink (deflateStream s.sourceBytes level z) =
      .error { err := .bus .write, info := x } := memWrite_hole hx
  rw [deflateBody, checkSrcDst_ok hok, except_bind_ok, memRead_source hr, except_bind_ok]
  dsimp only
  rw [if_neg (Nat.not_lt.mpr hcap), hwrite, except_bind_error]

end

/-- Settles O46: one case for each part of the body that can raise, in the order in which it runs them. -/
theorem deflateTooLongForTheDestination : Obligations.DeflateTooLongForTheDestination := by
  intro s level z _ hok
  refine ⟨fun x hx => ?_, fun hr => ⟨fun hcap => ?_, fun hcap x hx => ?_⟩⟩
  · exact deflate_fails_of_raise (deflateBody_source_hole hok hx)
  · exact deflate_fails_of_raise (deflateBody_full hok hr hcap)
  · exact deflate_fails_of_raise (deflateBody_destination_hole hok hr hcap hx)

end Sys2Proof.Machine
end

section
/-! PROOF. Byte sequences in memory and on the wire: a sequence that memory holds, cut in two, and big-endian words (R13). -/

namespace Sys2Proof.Machine

/-- Memory holds the sequence `w` from `base` on. -/
def MemHolds (m : Memory) (base : Nat) (w : List Byte) : Prop := memBytes m base w.length = w

/-- Memory holds two sequences in a row where it holds the one and, past it, the other. -/
theorem memHolds_append {m : Memory} {base : Nat} {u v : List Byte} :
    MemHolds m base (u ++ v) ↔ MemHolds m base u ∧ MemHolds m (base + u.length) v := by
  unfold MemHolds
  rw [List.length_append, memBytes_append]
  exact ⟨fun h => List.append_inj h (memBytes_length _ _ _), fun ⟨hu, hv⟩ => by rw [hu, hv]⟩

/-- A readable sequence reads as memory holds it. -/
theorem memRead_of_memHolds {b : Bus} {base n : Nat} {w : List Byte} (hw : MemHolds b.mem base w)
    (hr : Readable b.platform base n) (hn : w.length = n) : memRead b base n = .ok w := by
  subst hn
  rw [memRead_ok b _ _ hr, hw]

/-- A range of two parts is readable where both parts are. -/
theorem readable_add {p : Platform} {base n k : Nat} :
    Readable p base (n + k) ↔ Readable p base n ∧ Readable p (base + n) k := by
  refine ⟨fun h => ⟨fun a h₁ h₂ => h a h₁ (by omega), fun a h₁ h₂ => h a (by omega) (by omega)⟩,
    fun ⟨h, h'⟩ a h₁ h₂ => ?_⟩
  by_cases ha : a < base + n
  · exact h a h₁ ha
  · exact h' a (by omega) (by omega)

/-- The first hole of a range of two parts is that of the first part, or that of the second after a readable first one. -/
theorem firstHole_read_add {p : Platform} {base n k x : Nat} (h : FirstHole p .read base (n + k) x) :
    FirstHole p .read base n x ∨ Readable p base n ∧ FirstHole p .read (base + n) k x := by
  obtain ⟨above, below, hole, before⟩ := h
  by_cases hx : x < base + n
  · exact .inl ⟨above, hx, hole, before⟩
  · exact .inr ⟨fun a h₁ h₂ => before a h₁ (by omega), by omega, by omega, hole,
      fun a h₁ h₂ => before a (by omega) h₂⟩

@[simp] theorem be32bytes_length (v : Nat) : (be32bytes v).length = 4 := rfl
@[simp] theorem le32bytes_length (v : Nat) : (le32bytes v).length = 4 := rfl

/-- Reading back a 32-bit number from its big-endian bytes (R13). -/
theorem be32_be32bytes {v : Nat} (h : v < 2 ^ 32) : be32 (be32bytes v) = v := by
  simp only [be32, be32bytes, byteAt, lowByte, List.getD_cons_zero, List.getD_cons_succ, BitVec.toNat_ofNat]
  omega

/-- Four bytes are the big-endian bytes of the number they give (R13). -/
theorem be32bytes_be32 {w : List Byte} (h : w.length = 4) : be32bytes (be32 w) = w := by
  obtain ⟨b₀, b₁, b₂, b₃, rfl⟩ : ∃ b₀ b₁ b₂ b₃, w = [b₀, b₁, b₂, b₃] := List.length_eq_four.mp h
  simp only [be32, be32bytes, byteAt, lowByte, List.getD_cons_zero, List.getD_cons_succ, List.cons.injEq, and_true]
  refine ⟨?_, ?_, ?_, ?_⟩ <;> apply BitVec.eq_of_toNat_eq <;> simp only [BitVec.toNat_ofNat] <;> omega

end Sys2Proof.Machine
end

section
/-! PROOF. The chunk read step and the chunk loop of FRM.PARSE (rules R341 to R343), from the bytes that memory holds. -/

namespace Sys2Proof.Machine

/-! ## The signature check (R341) -/

section
variable {b : Bus} {a : Args}

theorem checkSignature_short (h : a.len < 8) : checkSignature b a = .error (formatError .signature 0) := if_pos h

/-- A readable source of 8 bytes or more: the check compares its first 8. -/
theorem checkSignature_readable (h : 8 ≤ a.len) (hr : Readable b.platform a.src 8) :
    checkSignature b a =
      if memBytes b.mem a.src 8 ≠ pngSignature then .error (formatError .signature 0) else .ok () := by
  rw [checkSignature, if_neg (Nat.not_lt.mpr h), memRead_ok b _ _ hr]; rfl

theorem checkSignature_hole (h : 8 ≤ a.len) {x : Nat} (hx : FirstHole b.platform .read a.src 8 x) :
    checkSignature b a = .error { err := .bus .read, info := x } := by
  rw [checkSignature, if_neg (Nat.not_lt.mpr h), memRead_hole hx]; rfl

/-! ## The chunk read step (R342) -/

/-- The chunk read step past the header: length `l` and tag `t` are read. -/
def readContent (b : Bus) (a : Args) (p l : Nat) (t : List Byte) : Except Raise Chunk :=
  if Config.framerMaxLen < l then .error (formatError .length p)
  else if a.len - p < 12 + l then .error (formatError .truncated p)
  else do
    let d ← memRead b (a.src + p + 8) l
    let c ← memRead b (a.src + p + 8 + l) 4
    if (crc32 (t ++ d)).toNat ≠ be32 c then .error (formatError .crc p)
    else .ok { len := l, tag := t, data := d, crc := be32 c }

variable {p l : Nat} {tag data crc : List Byte}

theorem readChunk_truncated (h : a.len - p < 12) : readChunk b a p = .error (formatError .truncated p) := if_pos h

/-- A hole in the length and tag fields stops the step there. -/
theorem readChunk_header_hole (h : 12 ≤ a.len - p) {x : Nat} (hx : FirstHole b.platform .read (a.src + p) 8 x) :
    readChunk b a p = .error { err := .bus .read, info := x } := by
  rw [readChunk, if_neg (Nat.not_lt.mpr h), memRead_hole hx]; rfl

/-- Past a header that reads, the step goes on with its length and its tag. -/
theorem readChunk_header (h : 12 ≤ a.len - p) (hl : l < 2 ^ 32) (ht : tag.length = 4)
    (hm : MemHolds b.mem (a.src + p) (be32bytes l ++ tag)) (hr : Readable b.platform (a.src + p) 8) :
    readChunk b a p = readContent b a p l tag := by
  have hread : memRead b (a.src + p) 8 = .ok (be32bytes l ++ tag) := memRead_of_memHolds hm hr (by simp [ht])
  have hlen : be32 ((be32bytes l ++ tag).take 4) = l := be32_be32bytes hl
  rw [readChunk, if_neg (Nat.not_lt.mpr h), hread, except_bind_ok, hlen]; rfl

theorem readContent_length (h : Config.framerMaxLen < l) : readContent b a p l tag = .error (formatError .length p) := if_pos h

theorem readContent_truncated (hl : l ≤ Config.framerMaxLen) (h : a.len - p < 12 + l) :
    readContent b a p l tag = .error (formatError .truncated p) := by
  rw [readContent, if_neg (Nat.not_lt.mpr hl), if_pos h]

/-- A hole in the data and CRC fields of a chunk that fits stops the step there. -/
theorem readContent_hole (hl : l ≤ Config.framerMaxLen) (h : 12 + l ≤ a.len - p) {x : Nat}
    (hx : FirstHole b.platform .read (a.src + p + 8) (l + 4) x) :
    readContent b a p l tag = .error { err := .bus .read, info := x } := by
  rw [readContent, if_neg (Nat.not_lt.mpr hl), if_neg (Nat.not_lt.mpr h)]
  obtain hd | ⟨hr, hc⟩ := firstHole_read_add hx
  · rw [memRead_hole hd]; rfl
  · rw [memRead_ok b _ _ hr, memRead_hole hc]; rfl

/-- Data and CRC that read: the step compares the CRC of tag and data with the one on the wire. -/
theorem readContent_read (hl : l ≤ Config.framerMaxLen) (h : 12 + l ≤ a.len - p) (hd : data.length = l) (hc : crc.length = 4)
    (hm : MemHolds b.mem (a.src + p + 8) (data ++ crc)) (hr : Readable b.platform (a.src + p + 8) (l + 4)) :
    readContent b a p l tag =
      if crc ≠ be32bytes (crc32 (tag ++ data)).toNat then .error (formatError .crc p)
      else .ok { len := l, tag := tag, data := data, crc := (crc32 (tag ++ data)).toNat } := by
  obtain ⟨hrd, hrc⟩ := readable_add.mp hr
  obtain ⟨hmd, hmc⟩ := memHolds_append.mp hm
  rw [hd] at hmc
  rw [readContent, if_neg (Nat.not_lt.mpr hl), if_neg (Nat.not_lt.mpr h), memRead_of_memHolds hmd hrd hd, except_bind_ok,
    memRead_of_memHolds hmc hrc hc, except_bind_ok]
  by_cases hcrc : crc = be32bytes (crc32 (tag ++ data)).toNat
  · have hval : be32 crc = (crc32 (tag ++ data)).toNat := by rw [hcrc, be32_be32bytes (BitVec.isLt _)]
    rw [if_neg (not_not_intro hval.symm), if_neg (not_not_intro hcrc), hval]
  · have hval : (crc32 (tag ++ data)).toNat ≠ be32 crc := fun e => hcrc (by rw [e, be32bytes_be32 hc])
    rw [if_pos hval, if_pos hcrc]

end

/-- A whole chunk inside the source, readable and with its right CRC, is what the step gives. -/
theorem readChunk_chunkBytes {b : Bus} {a : Args} {p : Nat} {tag data : List Byte} (ht : tag.length = 4)
    (hd : data.length ≤ Config.framerMaxLen) (hfit : 12 + data.length ≤ a.len - p)
    (hm : MemHolds b.mem (a.src + p) (chunkBytes tag data)) (hr : Readable b.platform (a.src + p) (12 + data.length)) :
    readChunk b a p =
      .ok { len := data.length, tag := tag, data := data, crc := (crc32 (tag ++ data)).toNat } := by
  have hl : data.length < 2 ^ 32 := Nat.lt_of_le_of_lt hd (by decide)
  obtain ⟨hrh, hrc⟩ := readable_add.mp (show Readable b.platform (a.src + p) (8 + (data.length + 4)) by
    rwa [show 8 + (data.length + 4) = 12 + data.length by omega])
  rw [chunkBytes, List.append_assoc _ data] at hm
  obtain ⟨hmh, hmc⟩ := memHolds_append.mp hm
  rw [List.length_append, ht] at hmc
  rw [readChunk_header (by omega) hl ht hmh hrh, readContent_read hd hfit rfl rfl hmc hrc]
  exact if_neg (not_not_intro rfl)

/-! ## The chunk loop (R343) -/

theorem descriptor_length {c : Chunk} {addr : Nat} (h : c.tag.length = 4) : (descriptor c addr).length = 16 := by
  simp [descriptor, h]

theorem chunkBytes_length {tag data : List Byte} (h : tag.length = 4) :
    (chunkBytes tag data).length = 12 + data.length := by
  simp only [chunkBytes, List.length_append, be32bytes_length, h]; omega

section
variable {b : Bus} {a : Args} {n p k x : Nat} {o : Sink} {c : Chunk} {e : Raise}

/-- The error of the chunk read step ends the loop. -/
theorem parseChunks_readChunk_error (hp : p < a.len) (h : readChunk b a p = .error e) :
    parseChunks b a (n + 1) p k o = .error e := by
  rw [parseChunks, if_pos hp, h, except_bind_error]

/-- No room for the descriptor of a chunk that was read ends the loop. -/
theorem parseChunks_full (hp : p < a.len) (h : readChunk b a p = .ok c) (hcap : a.cap < 16 * (k + 1)) :
    parseChunks b a (n + 1) p k o = .error (full p) := by
  rw [parseChunks, if_pos hp, h, except_bind_ok, if_pos hcap]

/-- A hole under the descriptor of a chunk that was read ends the loop. -/
theorem parseChunks_descriptor_hole (hp : p < a.len) (h : readChunk b a p = .ok c) (ht : c.tag.length = 4)
    (hcap : 16 * (k + 1) ≤ a.cap) (hx : FirstHole b.platform .write (o.base + o.n) 16 x) :
    parseChunks b a (n + 1) p k o = .error { err := .bus .write, info := x } := by
  rw [← descriptor_length (addr := a.src + p + 8) ht] at hx
  rw [parseChunks, if_pos hp, h, except_bind_ok, if_neg (Nat.not_lt.mpr hcap), memWrite_hole hx, except_bind_error]

/-- A chunk that is neither IEND nor the last one of MAX_CHUNKS: the loop goes on past it, with its descriptor written. -/
theorem parseChunks_goesOn (hp : p < a.len) (h : readChunk b a p = .ok c) (ht : c.tag.length = 4)
    (hcap : 16 * (k + 1) ≤ a.cap) (hw : Writable b.platform (o.base + o.n) 16) (hiend : c.tag ≠ tagIend)
    (hmax : ¬(a.arg0.toNat ≠ 0 ∧ k + 1 = a.arg0.toNat)) :
    parseChunks b a (n + 1) p k o =
      parseChunks b a n (p + 12 + c.len) (k + 1) (o.push (descriptor c (a.src + p + 8))) := by
  rw [← descriptor_length (addr := a.src + p + 8) ht] at hw
  rw [parseChunks, if_pos hp, h, except_bind_ok, if_neg (Nat.not_lt.mpr hcap), memWrite_ok b _ _ hw, except_bind_ok]
  dsimp only
  rw [if_neg hiend, if_neg hmax]

end

/-- The loop stands at offset `p` with `k` chunks parsed and the sink `o`, and gets past the chunks `cs` without a stop. -/
structure ChunksPass (b : Bus) (a : Args) (p k : Nat) (o : Sink) (cs : List (List Byte × List Byte)) : Prop where
  chunks   : ChunksOk cs
  held     : MemHolds b.mem (a.src + p) (wireBytes cs)
  inside   : p + (wireBytes cs).length ≤ a.len
  readable : Readable b.platform (a.src + p) (wireBytes cs).length
  noIend   : ∀ c, c ∈ cs → c.1 ≠ tagIend
  noMax    : a.arg0.toNat = 0 ∨ k + cs.length < a.arg0.toNat
  room     : 16 * (k + cs.length) ≤ a.cap
  writable : Writable b.platform (o.base + o.n) (16 * cs.length)

/-- The descriptor of a chunk on the wire whose data lies at `addr` (R130). -/
def wireDescriptor (c : List Byte × List Byte) (addr : Nat) : List Byte :=
  descriptor { len := c.2.length, tag := c.1, data := c.2, crc := (crc32 (c.1 ++ c.2)).toNat } addr

@[simp] theorem wireBytes_cons (c : List Byte × List Byte) (cs : List (List Byte × List Byte)) :
    wireBytes (c :: cs) = chunkBytes c.1 c.2 ++ wireBytes cs := rfl

theorem tableBytes_cons (addr : Nat) (c : List Byte × List Byte) (cs : List (List Byte × List Byte)) :
    tableBytes addr (c :: cs) = wireDescriptor c (addr + 8) ++ tableBytes (addr + 12 + c.2.length) cs := rfl

theorem sink_push_push (o : Sink) (xs ys : List Byte) : (o.push xs).push ys = o.push (xs ++ ys) := by
  simp [Sink.push, Nat.add_assoc]

section
variable {b : Bus} {a : Args} {n p k : Nat} {o : Sink} {c : List Byte × List Byte} {cs : List (List Byte × List Byte)}

/-- The loop goes past the first of the chunks. -/
theorem ChunksPass.parse_head (h : ChunksPass b a p k o (c :: cs)) :
    parseChunks b a (n + 1) p k o =
      parseChunks b a n (p + 12 + c.2.length) (k + 1) (o.push (wireDescriptor c (a.src + p + 8))) := by
  obtain ⟨ht, hd⟩ := h.chunks c (by simp)
  obtain ⟨hheld, -⟩ := memHolds_append.mp h.held
  have hinside := h.inside
  have hreadable := h.readable
  have hroom := h.room
  have hwritable := h.writable
  rw [wireBytes_cons, List.length_append, chunkBytes_length ht] at hinside hreadable
  rw [List.length_cons] at hroom hwritable
  have hread := readChunk_chunkBytes ht hd (by omega) hheld (readable_add.mp hreadable).1
  refine parseChunks_goesOn (by omega) hread ht (by omega) (fun x h₁ h₂ => hwritable x h₁ (by omega))
    (h.noIend c (by simp)) ?_
  have hmax := h.noMax
  rw [List.length_cons] at hmax
  omega

/-- Past the first chunk, the loop passes the others. -/
theorem ChunksPass.tail (h : ChunksPass b a p k o (c :: cs)) :
    ChunksPass b a (p + 12 + c.2.length) (k + 1) (o.push (wireDescriptor c (a.src + p + 8))) cs := by
  obtain ⟨chunks, held, inside, readable, noIend, noMax, room, writable⟩ := h
  have ht : c.1.length = 4 := (chunks c (by simp)).1
  obtain ⟨-, heldTail⟩ := memHolds_append.mp held
  rw [chunkBytes_length ht] at heldTail
  rw [wireBytes_cons, List.length_append, chunkBytes_length ht] at inside readable
  rw [List.length_cons] at noMax room writable
  have hat : a.src + (p + 12 + c.2.length) = a.src + p + (12 + c.2.length) := by omega
  refine ⟨fun d hd => chunks d (.tail _ hd), hat ▸ heldTail, by omega, hat ▸ (readable_add.mp readable).2,
    fun d hd => noIend d (.tail _ hd), by omega, by omega, ?_⟩
  rw [sink_push_base, sink_push_n, wireDescriptor, descriptor_length ht]
  exact fun x h₁ h₂ => writable x (by omega) (by omega)

end

/-- The loop past the chunks `cs`: their wire bytes are taken and their descriptors are written. -/
theorem ChunksPass.parse {b : Bus} {a : Args} : ∀ {cs : List (List Byte × List Byte)} {n p k : Nat} {o : Sink},
    ChunksPass b a p k o cs →
    parseChunks b a (n + cs.length) p k o =
      parseChunks b a n (p + (wireBytes cs).length) (k + cs.length) (o.push (tableBytes (a.src + p) cs)) := by
  intro cs
  induction cs with
  | nil => intro n p k o _; rfl
  | cons c cs ih =>
    intro n p k o h
    have hwire : p + 12 + c.2.length + (wireBytes cs).length = p + (wireBytes (c :: cs)).length := by
      rw [wireBytes_cons, List.length_append, chunkBytes_length (h.chunks c (by simp)).1]; omega
    have hcount : k + 1 + cs.length = k + (c :: cs).length := by rw [List.length_cons]; omega
    have haddr : a.src + (p + 12 + c.2.length) = a.src + p + 12 + c.2.length := by omega
    calc parseChunks b a (n + cs.length + 1) p k o
      _ = parseChunks b a (n + cs.length) (p + 12 + c.2.length) (k + 1) (o.push (wireDescriptor c (a.src + p + 8))) :=
        h.parse_head
      _ = _ := ih h.tail
      _ = _ := by rw [hwire, hcount, haddr, sink_push_push, tableBytes_cons]

theorem tableBytes_length : ∀ {cs : List (List Byte × List Byte)} (addr : Nat), ChunksOk cs →
    (tableBytes addr cs).length = 16 * cs.length := by
  intro cs
  induction cs with
  | nil => intro addr _; rfl
  | cons c cs ih =>
    intro addr h
    rw [tableBytes_cons, List.length_append, wireDescriptor, descriptor_length (h c (by simp)).1,
      ih _ fun d hd => h d (.tail _ hd), List.length_cons]
    omega

/-- A whole chunk takes 12 bytes at least, so there are fewer chunks than bytes. -/
theorem length_le_wireBytes_length : ∀ {cs : List (List Byte × List Byte)}, cs.length ≤ (wireBytes cs).length := by
  intro cs
  induction cs with
  | nil => rfl
  | cons c cs ih =>
    rw [wireBytes_cons, List.length_append, List.length_cons, chunkBytes]
    simp only [List.length_append, be32bytes_length]
    omega

end Sys2Proof.Machine
end

section
/-! PROOF. Where FRM.PARSE stops with an error: at the signature, or at the first chunk that fails (rules R341 to R343). -/

namespace Sys2Proof.Machine

/-- FRM.PARSE whose body raises completes with that error. -/
theorem parse_fails_of_raise {s : State} {e : ErrKind} {info : Nat}
    (h : parseBody s.bus s.latch.args = .error { err := e, info := info }) : FailsWith .frmParse s e info :=
  failsWith_of_raise (exec_eq .frmParse s) h

/-- The operand checks passed, the error of the signature check is the command's. -/
theorem parse_fails_of_checkSignature {s : State} {e : ErrKind} {info : Nat} (hok : SrcDstOk s.latch.args)
    (halign : s.latch.args.dst % 4 = 0) (h : checkSignature s.bus s.latch.args = .error { err := e, info := info }) :
    FailsWith .frmParse s e info :=
  parse_fails_of_raise (by rw [parseBody, checkSrcTable_ok hok halign, except_bind_ok, h, except_bind_error])

section
variable {s : State} {cs : List (List Byte × List Byte)} {rest : List Byte}

/-- The source ends where `rest` does. -/
theorem ParseReaches.len_eq (h : ParseReaches s cs rest) :
    s.latch.args.len = 8 + (wireBytes cs).length + rest.length := by
  have hlen : s.sourceBytes.length = s.latch.args.len := memBytes_length _ _ _
  rw [← hlen, h.source, List.length_append, List.length_append]
  rfl

/-- Memory holds the signature, the chunks and what follows them in a row from SRC_ADDR on. -/
theorem ParseReaches.held (h : ParseReaches s cs rest) :
    MemHolds s.mem s.latch.args.src pngSignature ∧ MemHolds s.mem (s.latch.args.src + 8) (wireBytes cs) ∧
      MemHolds s.mem (s.latch.args.src + (8 + (wireBytes cs).length)) rest := by
  have hsource : MemHolds s.mem s.latch.args.src (pngSignature ++ wireBytes cs ++ rest) := by
    rw [← h.source, MemHolds, State.sourceBytes, memBytes_length]
  obtain ⟨hfront, hrest⟩ := memHolds_append.mp hsource
  obtain ⟨hsig, hwire⟩ := memHolds_append.mp hfront
  rw [List.length_append] at hrest
  exact ⟨hsig, hwire, hrest⟩

theorem ParseReaches.checkSignature_ok (h : ParseReaches s cs rest) : checkSignature s.bus s.latch.args = .ok () := by
  have hlen := h.len_eq
  rw [checkSignature_readable (by omega) (readable_add.mp h.readable).1]
  exact if_neg (not_not_intro h.held.1)

/-- The loop gets past the chunks. -/
theorem ParseReaches.pass (h : ParseReaches s cs rest) :
    ChunksPass s.bus s.latch.args 8 0 s.latch.args.sink cs where
  chunks := h.chunks
  held := h.held.2.1
  inside := by have := h.len_eq; omega
  readable := (readable_add.mp h.readable).2
  noIend := h.noIend
  noMax := by have := h.noMax; omega
  room := by have := h.room; omega
  writable := h.writable

/-- The destination after the descriptors of the chunks. -/
def sinkPast (a : Args) (cs : List (List Byte × List Byte)) : Sink := a.sink.push (tableBytes (a.src + 8) cs)

/-- An error of the loop's round past the chunks, whatever fuel is left, is the command's. -/
theorem ParseReaches.fails_of_round (h : ParseReaches s cs rest) {e : ErrKind} {info : Nat}
    (hround : ∀ n, parseChunks s.bus s.latch.args (n + 1) (8 + (wireBytes cs).length) cs.length
      (sinkPast s.latch.args cs) = .error { err := e, info := info }) : FailsWith .frmParse s e info := by
  obtain ⟨n, hn⟩ : ∃ n, s.latch.args.len = n + 1 + cs.length := by
    have hlen := h.len_eq
    have hcount := length_le_wireBytes_length (cs := cs)
    exact ⟨s.latch.args.len - 1 - cs.length, by omega⟩
  have hloop : parseChunks s.bus s.latch.args s.latch.args.len 8 0 s.latch.args.sink = .error { err := e, info := info } := by
    rw [hn, h.pass.parse, Nat.zero_add]
    exact hround n
  exact parse_fails_of_raise (by
    rw [parseBody, checkSrcTable_ok h.regions h.align, except_bind_ok, h.checkSignature_ok, except_bind_ok, hloop,
      except_bind_error])

/-- An error of the chunk read step past the chunks is the command's. -/
theorem ParseReaches.fails_of_readChunk (h : ParseReaches s cs rest) (hrest : rest ≠ []) {e : ErrKind} {info : Nat}
    (hread : readChunk s.bus s.latch.args (8 + (wireBytes cs).length) = .error { err := e, info := info }) :
    FailsWith .frmParse s e info := by
  have hlen := h.len_eq
  have hpos := List.length_pos_iff.mpr hrest
  exact h.fails_of_round fun n => parseChunks_readChunk_error (by omega) hread

/-- Past a header that reads, the step goes on with the length on the wire and the 4 bytes after it. -/
theorem ParseReaches.readChunk_eq {l : Nat} {more : List Byte} (h : ParseReaches s cs (be32bytes l ++ more))
    (hl : l < 2 ^ 32) (hmore : 8 ≤ more.length)
    (hr : Readable s.platform (s.latch.args.src + (8 + (wireBytes cs).length)) 8) :
    readChunk s.bus s.latch.args (8 + (wireBytes cs).length) =
      readContent s.bus s.latch.args (8 + (wireBytes cs).length) l (more.take 4) := by
  have hlen := h.len_eq
  rw [List.length_append, be32bytes_length] at hlen
  have hheld := h.held.2.2
  rw [← List.take_append_drop 4 more, ← List.append_assoc] at hheld
  exact readChunk_header (by omega) hl (by rw [List.length_take]; omega) (memHolds_append.mp hheld).1 hr

/-- Past a chunk whose bytes all read, the step compares the CRC of its tag and data with the one on the wire. -/
theorem ParseReaches.readChunk_read {l : Nat} {tag data crc tail : List Byte}
    (h : ParseReaches s cs (be32bytes l ++ (tag ++ data ++ crc ++ tail))) (hl : l ≤ Config.framerMaxLen)
    (ht : tag.length = 4) (hd : data.length = l) (hc : crc.length = 4)
    (hr : Readable s.platform (s.latch.args.src + (8 + (wireBytes cs).length)) 8)
    (hr' : Readable s.platform (s.latch.args.src + (8 + (wireBytes cs).length) + 8) (l + 4)) :
    readChunk s.bus s.latch.args (8 + (wireBytes cs).length) =
      if crc ≠ be32bytes (crc32 (tag ++ data)).toNat then .error (formatError .crc (8 + (wireBytes cs).length))
      else .ok { len := l, tag := tag, data := data, crc := (crc32 (tag ++ data)).toNat } := by
  have hlen := h.len_eq
  have hheld := h.held.2.2
  have hcut : be32bytes l ++ (tag ++ data ++ crc ++ tail) = (be32bytes l ++ tag) ++ (data ++ crc) ++ tail := by
    simp only [List.append_assoc]
  have htag : (tag ++ data ++ crc ++ tail).take 4 = tag := by
    rw [List.append_assoc, List.append_assoc, List.take_left' ht]
  rw [hcut] at hheld
  have hcontent := (memHolds_append.mp (memHolds_append.mp hheld).1).2
  simp only [List.length_append, be32bytes_length, ht, hd, hc] at hlen hcontent
  rw [h.readChunk_eq (Nat.lt_of_le_of_lt hl (by decide)) (by simp only [List.length_append]; omega) hr, htag,
    readContent_read hl (by omega) hd hc hcontent hr']

/-- A chunk that was read past the others, without room for its descriptor, is CapacityError at its length field. -/
theorem ParseReaches.fails_full (h : ParseReaches s cs rest) (hrest : rest ≠ []) {c : Chunk}
    (hread : readChunk s.bus s.latch.args (8 + (wireBytes cs).length) = .ok c)
    (hcap : s.latch.args.cap < 16 * (cs.length + 1)) : FailsWith .frmParse s .capacity (8 + (wireBytes cs).length) := by
  have hlen := h.len_eq
  have hpos := List.length_pos_iff.mpr hrest
  exact h.fails_of_round fun n => parseChunks_full (by omega) hread hcap

/-- A chunk that was read past the others, with a hole under its descriptor, is BusError(WRITE) there. -/
theorem ParseReaches.fails_descriptor_hole (h : ParseReaches s cs rest) (hrest : rest ≠ []) {c : Chunk}
    (hread : readChunk s.bus s.latch.args (8 + (wireBytes cs).length) = .ok c) (ht : c.tag.length = 4)
    (hcap : 16 * (cs.length + 1) ≤ s.latch.args.cap) {x : Nat}
    (hx : FirstHole s.platform .write (s.latch.args.dst + 16 * cs.length) 16 x) : FailsWith .frmParse s (.bus .write) x := by
  have hlen := h.len_eq
  have hpos := List.length_pos_iff.mpr hrest
  have hnext : (sinkPast s.latch.args cs).base + (sinkPast s.latch.args cs).n = s.latch.args.dst + 16 * cs.length := by
    rw [sinkPast, sink_push_base, sink_push_n, tableBytes_length _ h.chunks, Args.sink, sink_start_base, sink_start_n,
      Nat.zero_add]
  exact h.fails_of_round fun n => parseChunks_descriptor_hole (by omega) hread ht hcap (hnext ▸ hx)

end

/-- The errors of FRM.PARSE at a chunk come in the order of the chunk read step, then of the loop's round (R342, R343). -/
theorem parseErrorRule : ParseErrorRule := by
  intro s cs rest h
  have hlen := h.len_eq
  refine ⟨fun hne hshort => ?truncated, fun hrest => ⟨fun x hx => ?headerHole, fun l more hl hwire hr => ?header⟩⟩
  case truncated => exact h.fails_of_readChunk hne (readChunk_truncated (by omega))
  all_goals have hne : rest ≠ [] := List.length_pos_iff.mp (by omega)
  case headerHole => exact h.fails_of_readChunk hne (readChunk_header_hole (by omega) hx)
  case header =>
    subst hwire
    rw [List.length_append, be32bytes_length] at hlen hrest
    have hcontent := h.readChunk_eq hl (by omega) hr
    refine ⟨fun hlong => ?length, fun hmax hshort => ?truncated, fun hmax hfit => ⟨fun x hx => ?contentHole, ?content⟩⟩
    case length => exact h.fails_of_readChunk hne (hcontent.trans (readContent_length hlong))
    case truncated => exact h.fails_of_readChunk hne (hcontent.trans (readContent_truncated hmax (by omega)))
    case contentHole => exact h.fails_of_readChunk hne (hcontent.trans (readContent_hole hmax (by omega) hx))
    case content =>
      intro tag data crc tail hmore ht hd hc hr'
      subst hmore
      have hread := h.readChunk_read hmax ht hd hc hr hr'
      refine ⟨fun hbad => h.fails_of_readChunk hne (hread.trans (if_pos hbad)), fun hgood => ?_⟩
      have hchunk := hread.trans (if_neg (not_not_intro hgood))
      exact ⟨h.fails_full hne hchunk, fun hcap x => h.fails_descriptor_hole hne hchunk ht hcap⟩

/-- Settles O48: the signature check comes before the chunks, and the rest is ParseErrorRule. -/
theorem parseVerifiesTheSignature : Obligations.ParseVerifiesTheSignature := by
  refine ⟨fun s hok halign => ⟨fun hshort => ?_, fun hlen hr hne => ?_, fun hlen n _ hx _ => ?_⟩, parseErrorRule⟩
  all_goals apply parse_fails_of_checkSignature hok halign
  · exact checkSignature_short hshort
  · exact (checkSignature_readable hlen hr).trans (if_pos hne)
  · exact checkSignature_hole hlen hx

end Sys2Proof.Machine
end

section
/-! PROOF. The output of a decoder: one byte put out, and the copy of a back-reference (rules R231, R232). -/

namespace Sys2Proof.Machine

section
variable {b : Bus} {k k' : Sink} {pos : Nat} {x : Byte}

/-! ## One byte (R231) -/

/-- A byte goes out where there is room for it and its write completes. -/
theorem emit_ok (hroom : k.n < k.cap) (hw : memOk b.platform (k.base + k.n) .write = true) :
    emit b k pos x = .ok (k.push [x]) := by
  rw [emit, if_neg (Nat.ne_of_lt hroom), busWrite, if_pos hw]; rfl

theorem emit_full (h : k.n = k.cap) : emit b k pos x = .error (full (pos / 8)) := if_pos h

theorem emit_hole (hroom : k.n < k.cap) (hw : memOk b.platform (k.base + k.n) .write = false) :
    emit b k pos x = .error { err := .bus .write, info := k.base + k.n } := by
  rw [emit, if_neg (Nat.ne_of_lt hroom), busWrite, hw]; rfl

/-- `emit` succeeds only by appending the byte where the room is not used up. -/
theorem emit_eq_ok (h : emit b k pos x = .ok k') : k.n ≠ k.cap ∧ k' = k.push [x] := by
  rw [emit] at h
  split at h
  · cases h
  · next hroom =>
    rw [busWrite] at h
    split at h
    · cases h; exact ⟨hroom, rfl⟩
    · cases h

/-! ## The bytes of a copy (R232) -/

theorem sink_out_length (hn : k.n = k.rev.length) : k.out.length = k.n := by rw [Sink.out, List.length_reverse, hn]

/-- A back-reference inside the output and the window names the byte `distance` positions before the end of the output. -/
theorem windowByte_eq_out {distance : Nat} (hn : k.n = k.rev.length) (h₁ : 1 ≤ distance) (h₂ : distance ≤ k.n)
    (h₃ : distance ≤ Config.windowSize) : windowByte k distance = k.out.getD (k.n - distance) 0 := by
  have hback : k.rev.length - 1 - (k.n - distance) = distance - 1 := by omega
  simp only [windowByte, Sink.out, List.getD_eq_getElem?_getD]
  rw [List.getElem?_take_of_lt (by omega), List.getElem?_reverse (by omega), hback]

/-- The bytes of a back-reference of length `n`: each is taken from the output with the earlier ones appended. -/
def copiedBytes (distance : Nat) : Nat → Sink → List Byte
  | 0, _ => []
  | n + 1, k => windowByte k distance :: copiedBytes distance n (k.push [windowByte k distance])

@[simp] theorem copiedBytes_length (distance : Nat) : ∀ (n : Nat) (k : Sink), (copiedBytes distance n k).length = n := by
  intro n
  induction n with
  | zero => intro k; rfl
  | succ n ih => intro k; rw [copiedBytes, List.length_cons, ih]

theorem push_count (hn : k.n = k.rev.length) (xs : List Byte) : (k.push xs).n = (k.push xs).rev.length := by
  simp [Sink.push, hn, Nat.add_comm]

/-- A byte of the copy is the one `distance` positions before it in the whole output, also where the copy itself put it
there. -/
theorem copiedBytes_getD {distance : Nat} (h₁ : 1 ≤ distance) (h₃ : distance ≤ Config.windowSize) :
    ∀ {n j : Nat} {k : Sink}, k.n = k.rev.length → distance ≤ k.n → j < n →
    (k.out ++ copiedBytes distance n k).getD (k.n + j) 0 =
      (k.out ++ copiedBytes distance n k).getD (k.n + j - distance) 0 := by
  intro n
  induction n with
  | zero => intro j k _ _ h; omega
  | succ n ih =>
    intro j k hn h₂ hj
    have hout := sink_out_length hn
    cases j with
    | zero =>
      rw [copiedBytes, Nat.add_zero, List.getD_append_right _ _ _ _ (by omega), List.getD_append _ _ _ _ (by omega), hout,
        Nat.sub_self, List.getD_cons_zero]
      exact windowByte_eq_out hn h₁ h₂ h₃
    | succ j =>
      have hpush : (k.push [windowByte k distance]).out ++ copiedBytes distance n (k.push [windowByte k distance]) =
          k.out ++ copiedBytes distance (n + 1) k := by
        rw [sink_push_out, List.append_assoc]; rfl
      have hnext : (k.push [windowByte k distance]).n + j = k.n + (j + 1) := by rw [sink_push_n, List.length_singleton]; omega
      rw [← hpush, ← hnext]
      exact ih (push_count hn _) (by rw [sink_push_n]; omega) (by omega)

/-! ## The copy (R232) -/

theorem copyBytes_succ (distance n : Nat) :
    copyBytes b pos distance (n + 1) k = (emit b k pos (windowByte k distance) >>= copyBytes b pos distance n) := rfl

/-- A copy of two parts is the one and then the other. -/
theorem copyBytes_add (distance n : Nat) : ∀ (m : Nat) (k : Sink),
    copyBytes b pos distance (m + n) k = (copyBytes b pos distance m k >>= copyBytes b pos distance n) := by
  intro m
  induction m with
  | zero => intro k; rw [Nat.zero_add]; rfl
  | succ m ih =>
    intro k
    rw [Nat.succ_add, copyBytes_succ, copyBytes_succ]
    cases emit b k pos (windowByte k distance) with
    | error e => rfl
    | ok k' => exact ih k'

/-- A copy that fits and whose writes complete puts out its bytes. -/
theorem copyBytes_ok (distance : Nat) : ∀ (n : Nat) (k : Sink), k.n + n ≤ k.cap →
    Writable b.platform (k.base + k.n) n → copyBytes b pos distance n k = .ok (k.push (copiedBytes distance n k)) := by
  intro n
  induction n with
  | zero => intro k _ _; rfl
  | succ n ih =>
    intro k hroom hw
    have hrest : Writable b.platform (k.base + (k.n + 1)) n := fun a h₁ h₂ => hw a (by omega) (by omega)
    rw [copyBytes_succ, emit_ok (by omega) (hw _ (by omega) (by omega)), except_bind_ok,
      ih _ (show k.n + 1 + n ≤ k.cap by omega) hrest, sink_push_push]
    rfl

/-- Past the first `m` bytes, what the next byte's `emit` raises ends the copy. -/
theorem copyBytes_error {distance n m : Nat} {e : Raise} (hm : m < n) (hroom : k.n + m ≤ k.cap)
    (hw : Writable b.platform (k.base + k.n) m)
    (he : ∀ x, emit b (k.push (copiedBytes distance m k)) pos x = .error e) :
    copyBytes b pos distance n k = .error e := by
  obtain ⟨l, rfl⟩ : ∃ l, n = m + (l + 1) := ⟨n - m - 1, by omega⟩
  rw [copyBytes_add, copyBytes_ok distance m k hroom hw, except_bind_ok, copyBytes_succ, he, except_bind_error]

theorem copyMatch_distance {length distance : Nat} (h : k.n < distance) :
    copyMatch b k pos length distance = .error (corruptAt .distance pos) := if_pos h

theorem copyMatch_inside {length distance : Nat} (h : distance ≤ k.n) :
    copyMatch b k pos length distance = copyBytes b pos distance length k := if_neg (Nat.not_lt.mpr h)

end

/-- Settles O42: the copy is the output with `copiedBytes` appended, or it stops at the first byte whose `emit` fails. -/
theorem backReferenceCopiesFromTheOutput : Obligations.BackReferenceCopiesFromTheOutput := by
  intro b k pos length distance hn
  refine ⟨copyMatch_distance, fun h₁ h₂ h₃ => ?_⟩
  rw [copyMatch_inside h₂]
  refine ⟨fun hroom hw => ⟨_, copyBytes_ok distance length k hroom hw, ?_⟩,
    fun m hm hw => ⟨fun hfull => ?_, fun hroom hhole => ?_⟩⟩
  · refine ⟨congrArg (k.n + ·) (copiedBytes_length ..), rfl, rfl, (push_count hn _).symm, ?_, fun j hj => ?_⟩
    all_goals rw [sink_push_out]
    · exact List.take_left' (sink_out_length hn)
    · exact copiedBytes_getD h₁ h₃ hn h₂ hj
  · refine copyBytes_error hm (Nat.le_of_eq hfull) hw fun x => emit_full ?_
    rwa [sink_push_n, copiedBytes_length]
  · refine copyBytes_error hm (Nat.le_of_lt hroom) hw fun x => ?_
    have hn' : (k.push (copiedBytes distance m k)).n = k.n + m := by rw [sink_push_n, copiedBytes_length]
    rw [emit_hole (by rwa [hn']) (by rwa [hn', sink_push_base, ← Nat.add_assoc]), hn', sink_push_base, Nat.add_assoc]

end Sys2Proof.Machine
end

section
/-! PROOF. Inflate stays inside its input and its destination (rules R15, R230, R231, R250). -/

namespace Sys2Proof.Machine

/-! ## The destination -/

/-- A destination with sound bookkeeping and the given capacity. -/
structure Sink.Within (k : Sink) (cap : Nat) : Prop where
  ok   : k.Ok
  room : k.cap = cap

section
variable {b : Bus} {k k' : Sink} {cap : Nat}

theorem within_start (base cap : Nat) : (Sink.start base cap).Within cap := ⟨sink_start_ok base cap, rfl⟩

theorem Sink.Within.push (h : k.Within cap) {xs : List Byte} (hroom : k.n + xs.length ≤ cap) : (k.push xs).Within cap :=
  ⟨sink_push_ok h.ok (by rwa [h.room]), h.room⟩

theorem Sink.Within.out_length (h : k.Within cap) : k.out.length = k.n := sink_out_length h.ok.count

theorem Sink.Within.out_length_le (h : k.Within cap) : k.out.length ≤ cap := by
  rw [h.out_length, ← h.room]; exact h.ok.fits

theorem Sink.Within.emit {pos : Nat} {x : Byte} (h : k.Within cap) (he : emit b k pos x = .ok k') : k'.Within cap := by
  obtain ⟨hne, rfl⟩ := emit_eq_ok he
  have hfits := h.ok.fits
  rw [h.room] at hne hfits
  exact h.push (Nat.lt_of_le_of_ne hfits hne)

theorem Sink.Within.copyBytes {pos distance : Nat} : ∀ {n : Nat} {k : Sink}, k.Within cap →
    copyBytes b pos distance n k = .ok k' → k'.Within cap := by
  intro n
  induction n with
  | zero => intro k h hc; cases hc; exact h
  | succ n ih =>
    intro k h hc
    rw [copyBytes_succ, except_bind_eq_ok] at hc
    obtain ⟨k₁, he, hc⟩ := hc
    exact ih (h.emit he) hc

theorem Sink.Within.copyMatch {pos length distance : Nat} (h : k.Within cap)
    (hc : copyMatch b k pos length distance = .ok k') : k'.Within cap := by
  rw [Machine.copyMatch] at hc
  split at hc
  · cases hc
  · exact h.copyBytes hc

end

/-! ## The cursor -/

/-- The cursor is at most at the end of the input. -/
def Port.Inside (p : Port) (pos : Nat) : Prop := pos ≤ 8 * p.len

section
variable {p : Port}

theorem inside_zero : p.Inside 0 := Nat.zero_le _

theorem inside_alignToByte {pos : Nat} (h : p.Inside pos) : p.Inside (alignToByte pos) := by
  unfold Port.Inside alignToByte at *; omega

theorem readBit_inside {pos : Nat} {v : Bool} (h : readBit p pos = .ok v) : p.Inside (pos + 1) := by
  rw [readBit] at h
  split at h
  · unfold Port.Inside; omega
  · cases h

theorem readBits_inside_add : ∀ {n pos v : Nat}, p.Inside pos → readBits p n pos = .ok v → p.Inside (pos + n) := by
  intro n
  induction n with
  | zero => intro pos v hp _; exact hp
  | succ n ih =>
    intro pos v hp h
    rw [readBits, except_bind_eq_ok] at h
    obtain ⟨x, hx, h⟩ := h
    obtain ⟨y, hy, -⟩ := except_bind_eq_ok.mp h
    rw [Nat.add_comm n 1, ← Nat.add_assoc]
    exact ih (readBit_inside hx) hy

/-- Where the bits were read, the cursor past them is inside, however its place is written. -/
theorem readBits_inside {n pos v q : Nat} (hp : p.Inside pos) (h : readBits p n pos = .ok v)
    (hq : q = pos + n := by omega) : p.Inside q := hq ▸ readBits_inside_add hp h

/-- `ReadBits(n)` gives a number of `n` bits (R15). -/
theorem readBits_lt : ∀ {n pos v : Nat}, readBits p n pos = .ok v → v < 2 ^ n := by
  intro n
  induction n with
  | zero => intro pos v h; cases h; decide
  | succ n ih =>
    intro pos v h
    rw [readBits, except_bind_eq_ok] at h
    obtain ⟨x, -, h⟩ := h
    obtain ⟨y, hy, h⟩ := except_bind_eq_ok.mp h
    cases h
    have hx : bit x ≤ 1 := by cases x <;> decide
    have hlt := ih hy
    rw [Nat.pow_succ]
    omega

theorem readBigEndian_inside : ∀ {n pos acc v : Nat}, p.Inside pos → readBigEndian p n pos acc = .ok v →
    p.Inside (pos + 8 * n) := by
  intro n
  induction n with
  | zero => intro pos acc v hp _; exact hp
  | succ n ih =>
    intro pos acc v hp h
    rw [readBigEndian, except_bind_eq_ok] at h
    obtain ⟨x, hx, h⟩ := h
    have := ih (readBits_inside hp hx) h
    rwa [show pos + 8 * (n + 1) = pos + 8 + 8 * n by omega]

/-- A symbol ends inside the input: its last bit was read (R242). -/
theorem decodeFrom_inside {lens : List Nat} : ∀ {n k v pos s q : Nat}, decodeFrom p lens n k v pos = .ok (s, q) →
    p.Inside q := by
  intro n
  induction n with
  | zero => intro k v pos s q h; cases h
  | succ n ih =>
    intro k v pos s q h
    rw [decodeFrom, except_bind_eq_ok] at h
    obtain ⟨x, hx, h⟩ := h
    split at h
    · cases h; exact readBit_inside hx
    · exact ih h

theorem decodeSymbol_inside {lens : List Nat} {pos s q : Nat} (h : decodeSymbol p lens pos = .ok (s, q)) : p.Inside q :=
  decodeFrom_inside h

theorem clFields_inside : ∀ {order : List Nat} {pos : Nat} {fields : List (Nat × Nat)}, p.Inside pos →
    clFields p order pos = .ok fields → p.Inside (pos + 3 * order.length) := by
  intro order
  induction order with
  | nil => intro pos fields hp _; exact hp
  | cons s order ih =>
    intro pos fields hp h
    rw [clFields, except_bind_eq_ok] at h
    obtain ⟨l, hl, h⟩ := h
    obtain ⟨rest, hrest, -⟩ := except_bind_eq_ok.mp h
    have := ih (readBits_inside hp hl) hrest
    rwa [List.length_cons, show pos + 3 * (order.length + 1) = pos + 3 + 3 * order.length by omega]

theorem codeLengths_inside {cl : List Nat} {total : Nat} : ∀ {n : Nat} {rev : List Nat} {pos : Nat} {lens : List Nat} {q : Nat},
    p.Inside pos → codeLengths p cl total n rev pos = .ok (lens, q) → p.Inside q := by
  intro n
  induction n with
  | zero => intro rev pos lens q hp h; cases h; exact hp
  | succ n ih =>
    intro rev pos lens q hp h
    rw [codeLengths] at h
    split at h
    case isFalse => cases h; exact hp
    case isTrue =>
      obtain ⟨⟨s, pos₁⟩, hs, h⟩ := except_bind_eq_ok.mp h
      have hs := decodeSymbol_inside hs
      dsimp only at h
      split at h
      · exact ih hs h
      · split at h
        · split at h
          · cases h
          · obtain ⟨x, hx, h⟩ := except_bind_eq_ok.mp h
            split at h
            · cases h
            · exact ih (readBits_inside hs hx) h
        · generalize (if s = 17 then 3 else 7) = width, (if s = 17 then 3 else 11) = least at h
          obtain ⟨x, hx, h⟩ := except_bind_eq_ok.mp h
          split at h
          · cases h
          · exact ih (readBits_inside hs hx) h

/-- The header of a dynamic block ends inside the input (R247). -/
theorem dynamicHeader_inside {pos : Nat} {lit dist : List Nat} {q : Nat} (hp : p.Inside pos)
    (h : dynamicHeader p pos = .ok (lit, dist, q)) : p.Inside q := by
  rw [dynamicHeader, except_bind_eq_ok] at h
  obtain ⟨hlit, h₁, h⟩ := h
  obtain ⟨hdist, h₂, h⟩ := except_bind_eq_ok.mp h
  obtain ⟨hclen, h₃, h⟩ := except_bind_eq_ok.mp h
  have hcount := readBits_lt h₃
  replace h₃ : p.Inside (pos + 14) := readBits_inside (readBits_inside (readBits_inside hp h₁) h₂) h₃
  split at h
  · cases h
  · obtain ⟨fields, h₄, h⟩ := except_bind_eq_ok.mp h
    replace h₄ := clFields_inside h₃ h₄
    have horder : (clOrder.take (hclen + 4)).length = hclen + 4 := by
      rw [List.length_take, Nat.min_eq_left]; simp [clOrder]; omega
    rw [horder] at h₄
    dsimp only at h
    obtain ⟨cl, -, h⟩ := except_bind_eq_ok.mp h
    obtain ⟨⟨lens, pos₂⟩, h₅, h⟩ := except_bind_eq_ok.mp h
    replace h₅ := codeLengths_inside h₄ h₅
    dsimp only at h
    split at h
    · cases h
    · obtain ⟨_, -, h⟩ := except_bind_eq_ok.mp h
      obtain ⟨_, -, h⟩ := except_bind_eq_ok.mp h
      cases h
      exact h₅

end

/-! ## The decoder -/

/-- The decoder's cursor is inside the input and its output inside the destination. -/
structure InBounds (p : Port) (cap pos : Nat) (k : Sink) : Prop where
  cursor : p.Inside pos
  output : k.Within cap

section
variable {p : Port} {b : Bus} {cap : Nat}

theorem storedBytes_inBounds : ∀ {n pos : Nat} {k : Sink} {q : Nat} {k' : Sink}, InBounds p cap pos k →
    storedBytes p b n pos k = .ok (q, k') → InBounds p cap q k' := by
  intro n
  induction n with
  | zero => intro pos k q k' hb h; cases h; exact hb
  | succ n ih =>
    intro pos k q k' hb h
    rw [storedBytes, except_bind_eq_ok] at h
    obtain ⟨v, hv, h⟩ := h
    obtain ⟨k₁, he, h⟩ := except_bind_eq_ok.mp h
    exact ih ⟨readBits_inside hb.cursor hv, hb.output.emit he⟩ h

theorem align_inBounds {r : Inflater} (hb : InBounds p cap r.pos r.sink) : InBounds p cap r.align.pos r.align.sink :=
  ⟨inside_alignToByte hb.cursor, hb.output⟩

theorem storedBlock_inBounds {r r' : Inflater} (hb : InBounds p cap r.pos r.sink) (h : storedBlock p b r = .ok r') :
    InBounds p cap r'.pos r'.sink := by
  rw [storedBlock] at h
  dsimp only at h
  obtain ⟨len, hlen, h⟩ := except_bind_eq_ok.mp h
  obtain ⟨nlen, hnlen, h⟩ := except_bind_eq_ok.mp h
  split at h
  · cases h
  · obtain ⟨⟨pos, k⟩, hdata, h⟩ := except_bind_eq_ok.mp h
    cases h
    have hq := align_inBounds hb
    exact storedBytes_inBounds ⟨readBits_inside (readBits_inside hq.cursor hlen) hnlen, hq.output⟩ hdata

theorem compressedData_inBounds {lit dist : List Nat} : ∀ {n pos : Nat} {k : Sink} {q : Nat} {k' : Sink},
    InBounds p cap pos k → compressedData p b lit dist n pos k = .ok (q, k') → InBounds p cap q k' := by
  intro n
  induction n with
  | zero => intro pos k q k' _ h; cases h
  | succ n ih =>
    intro pos k q k' hb h
    rw [compressedData, except_bind_eq_ok] at h
    obtain ⟨⟨s, pos₁⟩, hs, h⟩ := h
    replace hs := decodeSymbol_inside hs
    dsimp only at h
    split at h
    case isTrue =>
      obtain ⟨k₁, he, h⟩ := except_bind_eq_ok.mp h
      exact ih ⟨hs, hb.output.emit he⟩ h
    case isFalse =>
      split at h
      · cases h; exact ⟨hs, hb.output⟩
      · split at h
        · cases h
        · obtain ⟨lx, hlx, h⟩ := except_bind_eq_ok.mp h
          obtain ⟨⟨d, pos₃⟩, hd, h⟩ := except_bind_eq_ok.mp h
          dsimp only at h
          split at h
          · cases h
          · obtain ⟨dx, hdx, h⟩ := except_bind_eq_ok.mp h
            obtain ⟨k₁, hcopy, h⟩ := except_bind_eq_ok.mp h
            exact ih ⟨readBits_inside (decodeSymbol_inside hd) hdx, hb.output.copyMatch hcopy⟩ h

theorem inflateBlock_inBounds {r r' : Inflater} {final : Bool} (hb : InBounds p cap r.pos r.sink)
    (h : inflateBlock p b r = .ok (final, r')) : InBounds p cap r'.pos r'.sink := by
  rw [inflateBlock, except_bind_eq_ok] at h
  obtain ⟨fin, hfin, h⟩ := h
  obtain ⟨btype, hbtype, h⟩ := except_bind_eq_ok.mp h
  have hq : InBounds p cap (r.pos + 3) r.sink := ⟨readBits_inside (readBits_inside hb.cursor hfin) hbtype, hb.output⟩
  dsimp only at h
  split at h
  · obtain ⟨q', hstored, h⟩ := except_bind_eq_ok.mp h
    cases h
    exact storedBlock_inBounds (r := { r with pos := r.pos + 3 }) hq hstored
  · obtain ⟨⟨pos, k⟩, hdata, h⟩ := except_bind_eq_ok.mp h
    cases h
    exact compressedData_inBounds hq hdata
  · obtain ⟨⟨lit, dist, pos₁⟩, hheader, h⟩ := except_bind_eq_ok.mp h
    dsimp only at h
    obtain ⟨⟨pos, k⟩, hdata, h⟩ := except_bind_eq_ok.mp h
    cases h
    exact compressedData_inBounds ⟨dynamicHeader_inside hq.cursor hheader, hq.output⟩ hdata
  · cases h

theorem inflateBlocks_inBounds : ∀ {n : Nat} {r r' : Inflater}, InBounds p cap r.pos r.sink →
    inflateBlocks p b n r = .ok r' → InBounds p cap r'.pos r'.sink := by
  intro n
  induction n with
  | zero => intro r r' _ h; cases h
  | succ n ih =>
    intro r r' hb h
    rw [inflateBlocks, except_bind_eq_ok] at h
    obtain ⟨⟨final, r₁⟩, hblock, h⟩ := h
    replace hblock := inflateBlock_inBounds hb hblock
    dsimp only at h
    split at h
    · cases h; exact hblock
    · exact ih hblock h

theorem zlibHeader_inBounds {r r' : Inflater} (hb : InBounds p cap r.pos r.sink) (h : zlibHeader p r = .ok r') :
    InBounds p cap r'.pos r'.sink := by
  rw [zlibHeader, except_bind_eq_ok] at h
  obtain ⟨cmf, hcmf, h⟩ := h
  obtain ⟨flg, hflg, h⟩ := except_bind_eq_ok.mp h
  split at h
  · cases h
    exact ⟨(readBits_inside (readBits_inside hb.cursor hcmf) hflg : p.Inside (r.pos + 16)), hb.output⟩
  · cases h

theorem zlibTrailer_inBounds {r r' : Inflater} (hb : InBounds p cap r.pos r.sink) (h : zlibTrailer p r = .ok r') :
    InBounds p cap r'.pos r'.sink := by
  rw [zlibTrailer, except_bind_eq_ok] at h
  obtain ⟨a, ha, h⟩ := h
  split at h
  · cases h
  · cases h
    have hq := align_inBounds hb
    exact ⟨readBigEndian_inside hq.cursor ha, hq.output⟩

/-- A stream that is decoded ends inside the input and the destination. -/
theorem inflateStream_inBounds {z : Bool} {k : Sink} {r : Inflater} (hk : k.Within cap)
    (h : inflateStream z p b k = .ok r) : InBounds p cap r.pos r.sink := by
  have hstart : InBounds p cap 0 k := ⟨inside_zero, hk⟩
  cases z with
  | false =>
    simp only [inflateStream, Bool.false_eq_true, if_false, except_bind_ok] at h
    obtain ⟨r₁, hblocks, h⟩ := except_bind_eq_ok.mp h
    cases h
    exact inflateBlocks_inBounds hstart hblocks
  | true =>
    simp only [inflateStream, if_true] at h
    obtain ⟨r₁, hheader, h⟩ := except_bind_eq_ok.mp h
    obtain ⟨r₂, hblocks, h⟩ := except_bind_eq_ok.mp h
    exact zlibTrailer_inBounds (inflateBlocks_inBounds (zlibHeader_inBounds hstart hheader) hblocks) h

end

/-- Settles O40: every part of the decoder keeps its cursor inside the input and its output inside the destination. -/
theorem inflateStaysInItsBounds : Obligations.InflateStaysInItsBounds := by
  intro z p b base cap r h
  obtain ⟨hcursor, houtput⟩ := inflateStream_inBounds (within_start base cap) h
  refine ⟨houtput.out_length_le, ?_, houtput.out_length.symm⟩
  unfold Port.Inside at hcursor
  unfold Inflater.used
  omega

end Sys2Proof.Machine
end

section
/-! PROOF. What a command that succeeds puts out fits its destination, and its flags are the three of R43 at most (rules R41, R43,
R87); and with it the frame of every command. -/

namespace Sys2Proof.Machine

/-- The output fits the capacity, and FLAGS_OUT[31:3] is 0 (R43). -/
structure Done.Sound (cap : Nat) (d : Done) : Prop where
  fits  : d.out.length ≤ cap
  flags : d.flags.toNat < 8

theorem noFlags_lt : (0 : Word).toNat < 8 := by decide

theorem parseFlags_lt (iendSeen trailing maxStop : Bool) : (parseFlags iendSeen trailing maxStop).toNat < 8 := by
  revert iendSeen trailing maxStop; decide

theorem serializeFlags_lt (iendAppended : Bool) : (serializeFlags iendAppended).toNat < 8 := by
  revert iendAppended; decide

/-- MemWrite of a sequence that fits stays inside the destination. -/
theorem Sink.Within.memWrite {b : Bus} {k k' : Sink} {cap : Nat} {xs : List Byte} (h : k.Within cap)
    (hroom : k.n + xs.length ≤ cap) (hw : memWrite b k xs = .ok k') : k'.Within cap ∧ k'.n = k.n + xs.length := by
  obtain rfl := memWrite_eq_ok hw
  exact ⟨h.push hroom, rfl⟩

theorem memRead_length {b : Bus} {base n : Nat} {xs : List Byte} (h : memRead b base n = .ok xs) : xs.length = n := by
  rw [(memRead_eq_ok h).2, memBytes_length]

section
variable {b : Bus} {a : Args} {d : Done}

/-! ## CRC, inflate and deflate -/

theorem crcComputeBody_sound (h : crcComputeBody b a = .ok d) : d.Sound 0 := by
  rw [crcComputeBody, except_bind_eq_ok] at h
  obtain ⟨-, -, h⟩ := h
  obtain ⟨s, -, h⟩ := except_bind_eq_ok.mp h
  cases h
  exact ⟨Nat.le_refl _, noFlags_lt⟩

theorem crcVerifyBody_sound (h : crcVerifyBody b a = .ok d) : d.Sound 0 := by
  rw [crcVerifyBody, except_bind_eq_ok] at h
  obtain ⟨-, -, h⟩ := h
  obtain ⟨s, -, h⟩ := except_bind_eq_ok.mp h
  cases h
  exact ⟨Nat.le_refl _, noFlags_lt⟩

theorem inflateBody_sound {z : Bool} (h : inflateBody z b a = .ok d) : d.Sound a.cap := by
  rw [inflateBody, except_bind_eq_ok] at h
  obtain ⟨-, -, h⟩ := h
  obtain ⟨r, hr, h⟩ := except_bind_eq_ok.mp h
  cases h
  exact ⟨(inflateStream_inBounds (within_start a.dst a.cap) hr).output.out_length_le, noFlags_lt⟩

theorem deflateBody_sound {level : Nat} {z : Bool} (h : deflateBody level z b a = .ok d) : d.Sound a.cap := by
  rw [deflateBody, except_bind_eq_ok] at h
  obtain ⟨-, -, h⟩ := h
  obtain ⟨data, -, h⟩ := except_bind_eq_ok.mp h
  dsimp only at h
  split at h
  · cases h
  · next hroom =>
    obtain ⟨k, hk, h⟩ := except_bind_eq_ok.mp h
    cases h
    have hfits : a.sink.n + (deflateStream data level z).length ≤ a.cap := by
      rw [Args.sink, sink_start_n]; omega
    exact ⟨((within_start a.dst a.cap).memWrite hfits hk).1.out_length_le, noFlags_lt⟩

/-! ## The framer -/

/-- The tag of a chunk that was read is its 4 bytes on the wire (R132, R342). -/
theorem readChunk_tag_length {p : Nat} {c : Chunk} (h : readChunk b a p = .ok c) : c.tag.length = 4 := by
  rw [readChunk] at h
  split at h
  · cases h
  · obtain ⟨head, hhead, h⟩ := except_bind_eq_ok.mp h
    have hlen := memRead_length hhead
    dsimp only at h
    split at h
    · cases h
    · split at h
      · cases h
      · obtain ⟨data, -, h⟩ := except_bind_eq_ok.mp h
        obtain ⟨crc, -, h⟩ := except_bind_eq_ok.mp h
        split at h
        · cases h
        · cases h
          rw [List.length_drop, hlen]

/-- The chunk loop keeps one 16-byte entry for each chunk parsed, and stops before the entries pass the capacity (R343). -/
theorem parseChunks_within : ∀ {n p k : Nat} {o : Sink} {e : ParseEnd}, o.Within a.cap → o.n = 16 * k →
    parseChunks b a n p k o = .ok e → e.sink.Within a.cap := by
  intro n
  induction n with
  | zero => intro p k o e ho _ h; cases h; exact ho
  | succ n ih =>
    intro p k o e ho hcount h
    rw [parseChunks] at h
    split at h
    case isFalse => cases h; exact ho
    case isTrue =>
      obtain ⟨c, hc, h⟩ := except_bind_eq_ok.mp h
      split at h
      · cases h
      · next hroom =>
        obtain ⟨o', ho', h⟩ := except_bind_eq_ok.mp h
        have hentry := descriptor_length (addr := a.src + p + 8) (readChunk_tag_length hc)
        obtain ⟨hwithin, hn⟩ := ho.memWrite (by omega) ho'
        dsimp only at h
        split at h
        · cases h; exact hwithin
        · split at h
          · cases h; exact hwithin
          · exact ih hwithin (by omega) h

theorem parseBody_sound (h : parseBody b a = .ok d) : d.Sound a.cap := by
  rw [parseBody, except_bind_eq_ok] at h
  obtain ⟨-, -, h⟩ := h
  obtain ⟨-, -, h⟩ := except_bind_eq_ok.mp h
  obtain ⟨e, he, h⟩ := except_bind_eq_ok.mp h
  cases h
  exact ⟨(parseChunks_within (within_start a.dst a.cap) rfl he).out_length_le, parseFlags_lt _ _ _⟩

/-- The entry loop of FRM.IDATCAT copies an entry's data only where it fits (R347). -/
theorem catEntries_within : ∀ {n k m : Nat} {o : Sink} {m' : Nat} {o' : Sink}, o.Within a.cap →
    catEntries b a n k m o = .ok (m', o') → o'.Within a.cap := by
  intro n
  induction n with
  | zero => intro k m o m' o' ho h; cases h; exact ho
  | succ n ih =>
    intro k m o m' o' ho h
    rw [catEntries, except_bind_eq_ok] at h
    obtain ⟨e, -, h⟩ := h
    split at h
    · exact ih ho h
    · obtain ⟨-, -, h⟩ := except_bind_eq_ok.mp h
      split at h
      · cases h
      · obtain ⟨data, hdata, h⟩ := except_bind_eq_ok.mp h
        obtain ⟨o₁, ho₁, h⟩ := except_bind_eq_ok.mp h
        have hlen := memRead_length hdata
        exact ih (ho.memWrite (by omega) ho₁).1 h

theorem idatcatBody_sound (h : idatcatBody b a = .ok d) : d.Sound a.cap := by
  rw [idatcatBody, except_bind_eq_ok] at h
  obtain ⟨-, -, h⟩ := h
  obtain ⟨⟨m, o⟩, ho, h⟩ := except_bind_eq_ok.mp h
  dsimp only at h
  split at h
  · cases h
  · cases h
    exact ⟨(catEntries_within (within_start a.dst a.cap) ho).out_length_le, noFlags_lt⟩

/-- `put` tests the room before it writes (R350). -/
theorem putBytes_within {o o' : Sink} {bytes : List Byte} {j : Nat} (ho : o.Within a.cap)
    (h : putBytes b a o bytes j = .ok o') : o'.Within a.cap := by
  rw [putBytes] at h
  split at h
  · cases h
  · exact (ho.memWrite (by omega) h).1

theorem serializeEntries_within : ∀ {n k : Nat} {o : Sink} {e : SerializeEnd}, o.Within a.cap →
    serializeEntries b a n k o = .ok e → e.sink.Within a.cap := by
  intro n
  induction n with
  | zero => intro k o e ho h; cases h; exact ho
  | succ n ih =>
    intro k o e ho h
    rw [serializeEntries, except_bind_eq_ok] at h
    obtain ⟨entry, -, h⟩ := h
    obtain ⟨-, -, h⟩ := except_bind_eq_ok.mp h
    obtain ⟨data, -, h⟩ := except_bind_eq_ok.mp h
    obtain ⟨o', ho', h⟩ := except_bind_eq_ok.mp h
    have hwithin := putBytes_within ho ho'
    split at h
    · cases h; exact hwithin
    · exact ih hwithin h

theorem closeStream_within {e : SerializeEnd} {w : Nat} {appended : Bool} {o : Sink} (he : e.sink.Within a.cap)
    (h : closeStream b a e = .ok (w, appended, o)) : o.Within a.cap := by
  rw [closeStream] at h
  split at h
  · cases h; exact he
  · obtain ⟨o', ho', h⟩ := except_bind_eq_ok.mp h
    cases h
    exact putBytes_within he ho'

theorem serializeBody_sound (h : serializeBody b a = .ok d) : d.Sound a.cap := by
  rw [serializeBody, except_bind_eq_ok] at h
  obtain ⟨-, -, h⟩ := h
  obtain ⟨o, ho, h⟩ := except_bind_eq_ok.mp h
  obtain ⟨e, he, h⟩ := except_bind_eq_ok.mp h
  obtain ⟨⟨w, appended, o'⟩, ho', h⟩ := except_bind_eq_ok.mp h
  cases h
  have hsignature := putBytes_within (within_start a.dst a.cap) ho
  have hend := closeStream_within (serializeEntries_within hsignature he) ho'
  exact ⟨hend.out_length_le, serializeFlags_lt _⟩

/-! ## The filter unit -/

theorem reverseFrom_length_le (t : FilterType) (bpp : Nat) : ∀ (filt prev curPassed prevPassed : List Byte),
    (reverseFrom t bpp filt prev curPassed prevPassed).length ≤ filt.length := by
  intro filt
  induction filt with
  | nil => intro prev _ _; exact Nat.le_refl 0
  | cons f filt ih =>
    intro prev _ _
    cases prev with
    | nil => exact Nat.zero_le _
    | cons b prev => exact Nat.succ_le_succ (ih prev _ _)

theorem applyFrom_length_le (t : FilterType) (bpp : Nat) : ∀ (cur prev curPassed prevPassed : List Byte),
    (applyFrom t bpp cur prev curPassed prevPassed).length ≤ cur.length := by
  intro cur
  induction cur with
  | nil => intro prev _ _; exact Nat.le_refl 0
  | cons x cur ih =>
    intro prev _ _
    cases prev with
    | nil => exact Nat.zero_le _
    | cons b prev => exact Nat.succ_le_succ (ih prev _ _)

/-- The row loop of FLT.REVERSE writes at most ROW_BYTES for each row (R390). -/
theorem reverseRows_within : ∀ {n base : Nat} {prev : List Byte} {o o' : Sink}, o.Within a.cap →
    o.n + n * a.rowBytes ≤ a.cap → reverseRows b a n base prev o = .ok o' → o'.Within a.cap := by
  intro n
  induction n with
  | zero => intro base prev o o' ho _ h; cases h; exact ho
  | succ n ih =>
    intro base prev o o' ho hroom h
    rw [reverseRows, except_bind_eq_ok] at h
    obtain ⟨t, -, h⟩ := h
    split at h
    · cases h
    · next f _ =>
      obtain ⟨filt, hfilt, h⟩ := except_bind_eq_ok.mp h
      obtain ⟨o₁, ho₁, h⟩ := except_bind_eq_ok.mp h
      have hrow : (reverseRow f a.bpp filt prev).length ≤ a.rowBytes :=
        memRead_length hfilt ▸ reverseFrom_length_le f a.bpp filt prev [] []
      rw [Nat.succ_mul] at hroom
      obtain ⟨hwithin, hn⟩ := ho.memWrite (by omega) ho₁
      exact ih hwithin (by omega) h

theorem reverseBody_sound (h : reverseBody b a = .ok d) : d.Sound a.cap := by
  rw [reverseBody, except_bind_eq_ok] at h
  obtain ⟨-, -, h⟩ := h
  obtain ⟨-, -, h⟩ := except_bind_eq_ok.mp h
  split at h
  · cases h
  · split at h
    · cases h
    · next hroom =>
      obtain ⟨o, ho, h⟩ := except_bind_eq_ok.mp h
      cases h
      have hfits : a.sink.n + a.rows * a.rowBytes ≤ a.cap := by
        rw [Args.rawBytes] at hroom; rw [Args.sink, sink_start_n]; omega
      exact ⟨(reverseRows_within (within_start a.dst a.cap) hfits ho).out_length_le, noFlags_lt⟩

/-- The row loop of FLT.APPLY writes at most 1 + ROW_BYTES for each row (R392). -/
theorem applyRows_within {choice : Option FilterType} : ∀ {n base : Nat} {prev : List Byte} {o o' : Sink}, o.Within a.cap →
    o.n + n * (1 + a.rowBytes) ≤ a.cap → applyRows b a choice n base prev o = .ok o' → o'.Within a.cap := by
  intro n
  induction n with
  | zero => intro base prev o o' ho _ h; cases h; exact ho
  | succ n ih =>
    intro base prev o o' ho hroom h
    rw [applyRows, except_bind_eq_ok] at h
    obtain ⟨cur, hcur, h⟩ := h
    obtain ⟨o₁, ho₁, h⟩ := except_bind_eq_ok.mp h
    have hrow : (applyRow (filterFor choice a.bpp cur prev) a.bpp cur prev).length ≤ a.rowBytes :=
      memRead_length hcur ▸ applyFrom_length_le _ a.bpp cur prev [] []
    rw [Nat.succ_mul] at hroom
    obtain ⟨hwithin, hn⟩ := ho.memWrite (by rw [List.length_cons]; omega) ho₁
    rw [List.length_cons] at hn
    exact ih hwithin (by omega) h

theorem applyBody_sound {choice : Option FilterType} (h : applyBody choice b a = .ok d) : d.Sound a.cap := by
  rw [applyBody, except_bind_eq_ok] at h
  obtain ⟨-, -, h⟩ := h
  obtain ⟨-, -, h⟩ := except_bind_eq_ok.mp h
  split at h
  · cases h
  · split at h
    · cases h
    · next hroom =>
      obtain ⟨o, ho, h⟩ := except_bind_eq_ok.mp h
      cases h
      have hfits : a.sink.n + a.rows * (1 + a.rowBytes) ≤ a.cap := by
        rw [Args.filteredBytes] at hroom; rw [Args.sink, sink_start_n]; omega
      exact ⟨(applyRows_within (within_start a.dst a.cap) hfits ho).out_length_le, noFlags_lt⟩

/-! ## Every command -/

/-- How many bytes a command may put out: its capacity, and none where it has no destination (R87, R127). -/
def outputRoom (i : Instr) (a : Args) : Nat := if usesDestination i then a.cap else 0

theorem outputRoom_le_cap (i : Instr) (a : Args) : outputRoom i a ≤ a.cap := by
  unfold outputRoom; split <;> omega

theorem commandBody_sound {i : Instr} (h : commandBody i b a = .ok d) : d.Sound (outputRoom i a) := by
  cases i with
  | nop => cases h; exact ⟨Nat.zero_le _, noFlags_lt⟩
  | crcCompute => exact crcComputeBody_sound h
  | crcVerify => exact crcVerifyBody_sound h
  | inflate => exact inflateBody_sound h
  | inflateZ => exact inflateBody_sound h
  | deflate level => exact deflateBody_sound h
  | deflateZ level => exact deflateBody_sound h
  | frmParse => exact parseBody_sound h
  | frmIdatcat => exact idatcatBody_sound h
  | frmSerialize => exact serializeBody_sound h
  | fltReverse => exact reverseBody_sound h
  | fltApplyNone => exact applyBody_sound h
  | fltApplySub => exact applyBody_sound h
  | fltApplyUp => exact applyBody_sound h
  | fltApplyAvg => exact applyBody_sound h
  | fltApplyPaeth => exact applyBody_sound h
  | fltApplyAuto => exact applyBody_sound h

end

/-- The number of bytes written that fit the destination is what OUT_LEN shows (R41). -/
theorem outLen_toNat {s : State} {d : Done} (h : d.out.length ≤ s.latch.args.cap) :
    (finishWith d s).results.outLen.toNat = d.out.length := by
  rw [finishWith_results, BitVec.toNat_ofNat, Nat.mod_eq_of_lt (Nat.lt_of_le_of_lt h s.latch.args.dstCap.isLt)]

/-- Settles O23: an output fits its destination (`commandBody_sound`), and an error draws the destination alone. -/
theorem commandsWriteOnlyTheirDestination : Obligations.CommandsWriteOnlyTheirDestination := by
  intro i s
  refine ⟨_, exec_eq i s, complete_hostSideKept _ _ s, complete_busy _ _ s, complete_done _ _ s, complete_ovr _ _ s, ?_⟩
  cases hbody : commandBody i s.bus s.latch.args with
  | ok d =>
    obtain ⟨hfits, -⟩ := commandBody_sound hbody
    have hcap := Nat.le_trans hfits (outputRoom_le_cap i s.latch.args)
    have hframe : ∀ a, a < s.latch.args.dst ∨ s.latch.args.dst + d.out.length ≤ a →
        (finishWith d s).mem.read a = s.mem.read a := fun a => read_writeBytes_outside d.out s.mem s.latch.args.dst a
    rw [complete_ok]
    refine ⟨fun a ha => hframe a (by omega), fun hdst => ?_, nofun, fun _ => ?_⟩
    · have hnone : d.out = [] := by
        rw [outputRoom, hdst] at hfits
        exact List.length_eq_zero_iff.mp (Nat.le_zero.mp hfits)
      rw [finishWith_mem, hnone]; rfl
    · rw [outLen_toNat hcap]
      exact ⟨hcap, fun a ha => hframe a (.inr ha)⟩
  | error e =>
    rw [complete_error]
    refine ⟨(raiseWith_failure _ e s).elsewhere, fun hdst => ?_, fun _ hdst => ?_, nofun⟩
    · rw [hdst]; exact raiseWith_noDestination_mem e s
    · rw [hdst]; exact raiseWith_destinationDrawn e s

end Sys2Proof.Machine
end

section
/-! PROOF. Every step that goes on keeps the machine invariant (rules R34, R35, R43, R46, R91, R124, R449, R450). -/

namespace Sys2Proof.Machine

/-- No error has the code 0 (R442). -/
theorem errKind_code_ne_zero (e : ErrKind) : e.code ≠ 0 := by
  cases e with
  | capacity => decide
  | format k | corrupt k | dimensions k | illegal k | param k | bus k => cases k <;> decide

/-! ## Updates that keep the invariant

The invariant speaks of memory, STATUS, the results, the latch, CMD and the duties only: where an update leaves these as they
are, `{ h with }` carries every clause over. -/

section
variable {s t : State}

/-- A state with no result and no error bit: only its memory and, while BUSY, its start matter. -/
theorem inv_of_noResults (hmem : t.mem.wf = true) (hresults : t.results = Results.zero) (herr : t.status.err = false)
    (hbusy : t.status.busy = true → t.status.done = false ∧ t.latch.cmd = t.cmd ∧ t.latch ∈ t.unseen) : t.Inv where
  memWf := hmem
  busyQuiet := fun h => ⟨(hbusy h).1, herr, hresults⟩
  busyCmd := fun h => (hbusy h).2.1
  busyDuty := fun h => (hbusy h).2.2
  codeLegal := by rw [hresults]; exact .inl rfl
  errCoded := by rw [herr]; exact nofun
  errNoResults := by rw [hresults]; exact fun _ => ⟨rfl, rfl, rfl, rfl⟩
  okNoInfo := by rw [hresults]; exact fun _ => rfl
  flagsSmall := by rw [hresults]; decide

theorem startCommand_inv (w : Word) (h : s.Inv) : (startCommand w s).Inv :=
  inv_of_noResults h.memWf rfl rfl fun _ => ⟨rfl, rfl, List.mem_cons_self⟩

theorem softReset_inv (h : s.Inv) : (softReset s).Inv :=
  inv_of_noResults (wf_softReset h.memWf) (softReset_results s) (by rw [softReset_status]; rfl)
    (by rw [softReset_status]; exact nofun)

theorem hardReset_inv (image : List Host.Cell) (s : State) : (hardReset image s).Inv :=
  inv_of_noResults (wf_hardReset image s) rfl rfl nofun

/-- STATUS may lose DONE and ERR, and OVR is free. -/
theorem State.Inv.with_status {st : Status} (h : s.Inv) (hbusy : st.busy = s.status.busy)
    (hdone : st.done = true → s.status.done = true) (herr : st.err = true → s.status.err = true) :
    ({ s with status := st } : State).Inv :=
  { h with
    busyQuiet := fun hb =>
      have ⟨hd, he, hr⟩ := h.busyQuiet (hbusy ▸ hb)
      ⟨Bool.eq_false_iff.mpr (mt hdone (Bool.eq_false_iff.mp hd)),
        Bool.eq_false_iff.mpr (mt herr (Bool.eq_false_iff.mp he)), hr⟩
    busyCmd := fun hb => h.busyCmd (hbusy ▸ hb)
    busyDuty := fun hb => h.busyDuty (hbusy ▸ hb)
    errCoded := fun he => h.errCoded (herr he) }

/-- The duties may end only while no command runs. -/
theorem seeCompletion_inv (h : s.Inv) (hidle : s.status.busy = false) : (seeCompletion s).Inv :=
  { h with busyDuty := fun hbusy => absurd (hidle.symm.trans hbusy) Bool.false_ne_true }

/-! ## Completions -/

/-- After a success there is no code, and the flags are those of the command (R43, R449). -/
theorem finishWith_inv {d : Done} (hmem : s.mem.wf = true) (hflags : d.flags.toNat < 8) : (finishWith d s).Inv where
  memWf := wf_finishWith d hmem
  busyQuiet := nofun
  busyCmd := nofun
  busyDuty := nofun
  codeLegal := .inl rfl
  errCoded := nofun
  errNoResults := fun h => absurd rfl h
  okNoInfo := fun _ => rfl
  flagsSmall := hflags

/-- After an error there is its code and no other result (R450). -/
theorem raiseWith_inv (hasDst : Bool) (r : Raise) (hmem : s.mem.wf = true) : (raiseWith hasDst r s).Inv where
  memWf := wf_raiseWith hasDst r hmem
  busyQuiet := nofun
  busyCmd := nofun
  busyDuty := nofun
  codeLegal := .inr ⟨r.err, rfl⟩
  errCoded := fun _ => errKind_code_ne_zero r.err
  errNoResults := fun _ => ⟨rfl, rfl, rfl, rfl⟩
  okNoInfo := fun h => absurd h (errKind_code_ne_zero r.err)
  flagsSmall := noFlags_lt

theorem exec_inv {i : Instr} (hmem : s.mem.wf = true) (h : exec i s = .next t) : t.Inv := by
  obtain rfl := exec_next h
  cases hbody : commandBody i s.bus s.latch.args with
  | ok d => exact finishWith_inv hmem (commandBody_sound hbody).flags
  | error e => exact raiseWith_inv _ e hmem

theorem executeStep_inv (hmem : s.mem.wf = true) (h : executeStep s = .next t) : t.Inv := by
  cases hdec : decode s.latch.cmd with
  | ok i => exact exec_inv hmem (executeStep_decoded hdec ▸ h)
  | error k =>
    rw [executeStep_illegal hdec] at h
    cases h
    exact raiseWith_inv true _ hmem

/-! ## Events -/

theorem writeReg_inv (r : Reg) (w : Word) (h : s.Inv) : (writeReg s r w).Inv := by
  cases r with
  | id | result | outLen | inUsed | flagsOut | errCode | errInfo => exact h
  | srcAddr | srcLen | dstAddr | dstCap | auxAddr | arg0 | arg1 | arg2 => exact { h with }
  | status => exact h.with_status rfl (fun hd => (Bool.and_eq_true_iff.mp hd).1) fun he => (Bool.and_eq_true_iff.mp he).1
  | ctrl =>
    rw [writeReg, writeCtrl]
    split
    · exact softReset_inv h
    · exact { h with }
  | cmd =>
    rw [writeReg, writeCmd]
    split
    · exact h.with_status rfl id id
    · exact startCommand_inv w h

theorem hostWrite_inv (o : Nat) (w : Word) (h : s.Inv) : (hostWrite s o w).Inv := by
  rw [hostWrite]
  split
  · exact writeReg_inv _ w h
  · exact h

theorem registerWrite_inv {addr value : Word} (h : s.Inv) (hstep : registerWrite s addr value = .next t) : t.Inv := by
  rw [registerWrite] at hstep
  split at hstep
  · cases hstep
  · split at hstep
    · cases hstep
    · cases hstep; exact hostWrite_inv _ value h

/-- A register read changes `rdata` alone, and ends the duties only where it shows BUSY = 0. -/
theorem registerRead_inv {addr : Word} (h : s.Inv) (hstep : registerRead s addr = .next t) : t.Inv := by
  rw [registerRead] at hstep
  split at hstep
  · cases hstep
  · next o _ =>
    have hread : ({ s with rdata := hostRead s o } : State).Inv := { h with }
    split at hstep
    · cases hstep
    · dsimp only at hstep
      split at hstep
      · next hseen => cases hstep; exact seeCompletion_inv hread hseen.2
      · cases hstep; exact hread

theorem memoryStore_inv {addr : Word} {x : Byte} (h : s.Inv) (hstep : memoryStore s addr x = .next t) : t.Inv := by
  rw [memoryStore] at hstep
  split at hstep
  · cases hstep
  · cases hstep; exact { h with memWf := wf_write _ x h.memWf }

theorem memoryLoad_inv {addr : Word} (h : s.Inv) (hstep : memoryLoad s addr = .next t) : t.Inv := by
  rw [memoryLoad] at hstep
  split at hstep
  · cases hstep
  · cases hstep; exact { h with }

/-- IRQ is high only with DONE, so no command runs where it is accepted. -/
theorem sampleIrq_inv (h : s.Inv) : (sampleIrq s).Inv := by
  rw [sampleIrq]
  split
  · next hirq =>
    have hdone : s.status.done = true := (Bool.and_eq_true_iff.mp hirq).2
    refine seeCompletion_inv h (Bool.eq_false_iff.mpr fun hbusy => ?_)
    exact absurd ((h.busyQuiet hbusy).1.symm.trans hdone) Bool.false_ne_true
  · exact h

theorem waitEnds_inv (h : s.Inv) (hidle : s.status.busy = false) : (waitEnds s).Inv :=
  seeCompletion_inv ({ h with }) hidle

/-- An event that goes on keeps the invariant; a `wait` ends only while IDLE. -/
theorem takeEvent_inv {e : Event} (h : s.Inv) (hwait : e = .wait → s.status.busy = false) (hstep : takeEvent e s = .next t) :
    t.Inv := by
  cases e with
  | regWrite addr value => exact registerWrite_inv h hstep
  | regRead addr => exact registerRead_inv h hstep
  | memStore addr x => exact memoryStore_inv h hstep
  | memLoad addr => exact memoryLoad_inv h hstep
  | takeIrq => cases hstep; exact sampleIrq_inv h
  | hardReset image => cases hstep; exact hardReset_inv image s
  | coreStep =>
    rw [takeEvent] at hstep
    split at hstep
    · exact executeStep_inv h.memWf hstep
    · cases hstep; exact h
  | wait => cases hstep; exact waitEnds_inv h (hwait rfl)

end

/-- Settles O8: by what a step can be, rest, the execute step or an event. -/
theorem stepKeepsInvariant : Obligations.StepKeepsInvariant := by
  intro s t h hstep
  obtain ⟨-, -, hrest⟩ | ⟨-, -, hexec⟩ | ⟨e, es, -, hwait, hevent⟩ := step_cases s
  · rw [hrest] at hstep; cases hstep; exact h
  · exact executeStep_inv h.memWf (hexec ▸ hstep)
  · have hnext : ({ s with events := es } : State).Inv := { h with }
    exact takeEvent_inv hnext hwait (hevent ▸ hstep)

end Sys2Proof.Machine
end

section
/-! PROOF. The register window: offsets, reads after a reset, and writes (rules R31, R90, R424, R480, R481). -/

namespace Sys2Proof.Machine

/-! ## Offsets and addresses (R31) -/

theorem regAt_offset (r : Reg) : regAt r.offset = some r := by cases r <;> rfl

/-- The register at an offset is the one that has it. -/
theorem regAt_eq_some {o : Nat} {r : Reg} : regAt o = some r ↔ o = r.offset := by
  refine ⟨fun h => ?_, fun h => h ▸ regAt_offset r⟩
  unfold regAt at h
  split at h
  all_goals cases h
  all_goals rfl

/-- The window is the 256 addresses from REG_BASE on, past the top of the address space too (log entry 13). -/
theorem windowOffset_eq_some {p : Platform} {addr : Word} {o : Nat} :
    windowOffset p addr = some o ↔ o < 256 ∧ addr = p.regBase + BitVec.ofNat 32 o := by
  rw [windowOffset]
  constructor
  · intro h
    split at h
    · next hin =>
      cases h
      exact ⟨hin, by rw [BitVec.ofNat_toNat, BitVec.setWidth_eq, BitVec.add_comm, BitVec.sub_add_cancel]⟩
    · cases h
  · rintro ⟨ho, rfl⟩
    have hoffset : (p.regBase + BitVec.ofNat 32 o - p.regBase).toNat = o := by
      rw [BitVec.add_comm, BitVec.add_sub_cancel, BitVec.toNat_ofNat, Nat.mod_eq_of_lt (by omega)]
    rw [hoffset, if_pos ho]

/-! ## Steps that take an event -/

/-- An event other than `wait` is taken whatever the core does. -/
theorem step_event {s : State} {e : Event} {es : List Event} (h : s.events = e :: es) (hwait : e ≠ .wait) :
    step s = takeEvent e { s with events := es } := by
  rw [step, h]
  cases e with
  | wait => exact absurd rfl hwait
  | _ => rfl

/-! ## After a reset (R480, R481) -/

section
variable (mem : Memory) (s : State)

theorem readReg_resetRegs (r : Reg) : readReg (resetRegs mem s) r = if r = .id then 0x504E4707#32 else 0 := by
  cases r <;> rfl

/-- ID reads its constant and every other offset 0. -/
theorem hostRead_resetRegs (o : Nat) : hostRead (resetRegs mem s) o = if o = 0 then 0x504E4707#32 else 0 := by
  rw [hostRead]
  split
  · next r hr =>
    obtain rfl := regAt_eq_some.mp hr
    rw [readReg_resetRegs]
    cases r <;> rfl
  · next hnone => rw [if_neg]; rintro rfl; cases hnone

theorem irq_resetRegs : (resetRegs mem s).irq = false := rfl

end

/-- Settles O11: both the state of `State.reset` and a hard reset are `resetRegs` of some memory. -/
theorem resetRegistersReadResetValues : Obligations.ResetRegistersReadResetValues := by
  have hreset : State.reset = resetRegs [] State.reset := rfl
  refine ⟨?_, fun s image es hs => ⟨_, step_event hs nofun, ?_, rfl, rfl, rfl, fun a ha => read_ofImage image ha⟩⟩
  · rw [hreset]
    exact ⟨fun o _ _ => hostRead_resetRegs _ _ o, rfl, irq_resetRegs _ _, rfl, rfl⟩
  · exact ⟨fun o _ _ => hostRead_resetRegs _ _ o, rfl, irq_resetRegs _ _, rfl, rfl⟩

/-! ## Writes (R424) -/

/-- From the result registers on, a write is ignored, at a register as at a reserved offset. -/
theorem hostWrite_ignored {s : State} {o : Nat} (w : Word) (h : 0x30 ≤ o) : hostWrite s o w = s := by
  rw [hostWrite]
  split
  · next r hr =>
    obtain rfl := regAt_eq_some.mp hr
    cases r with
    | result | outLen | inUsed | flagsOut | errCode | errInfo => rfl
    | _ => exact absurd h (by decide)
  · rfl

section
variable {s : State} {addr w : Word} {o : Nat}

theorem registerWrite_outside (h : windowOffset s.platform addr = none) :
    registerWrite s addr w = .refused (.outsideRegisterWindow addr) := by rw [registerWrite, h]

theorem registerRead_outside (h : windowOffset s.platform addr = none) :
    registerRead s addr = .refused (.outsideRegisterWindow addr) := by rw [registerRead, h]

theorem registerWrite_aligned (h : windowOffset s.platform addr = some o) (ho : o % 4 = 0) :
    registerWrite s addr w = .next (hostWrite s o w) := by
  rw [registerWrite, h]; exact if_neg (not_not_intro ho)

theorem registerWrite_misaligned (h : windowOffset s.platform addr = some o) (ho : o % 4 ≠ 0) :
    registerWrite s addr w = .refused (.misalignedRegisterAccess addr) := by
  rw [registerWrite, h]; exact if_pos ho

theorem registerRead_misaligned (h : windowOffset s.platform addr = some o) (ho : o % 4 ≠ 0) :
    registerRead s addr = .refused (.misalignedRegisterAccess addr) := by
  rw [registerRead, h]; exact if_pos ho

end

/-- Settles O18: the argument registers by their arms, the window by `windowOffset_eq_some`, the accesses by their offset. -/
theorem otherRegisterWrites : Obligations.OtherRegisterWrites := by
  refine ⟨fun s w => ⟨rfl, rfl, rfl, rfl, rfl, rfl, rfl, rfl, rfl, fun o _ ho _ => hostWrite_ignored w ho⟩,
    fun p addr o => windowOffset_eq_some, fun s addr w => ⟨fun h => ?_, fun o h => ⟨?_, fun ho => ?_⟩, fun es => ⟨?_, ?_⟩⟩⟩
  · exact ⟨registerWrite_outside h, registerRead_outside h⟩
  · exact registerWrite_aligned h
  · exact ⟨registerWrite_misaligned h ho, registerRead_misaligned h ho⟩
  · exact fun hs => step_event hs nofun
  · exact fun hs => step_event hs nofun

end Sys2Proof.Machine
end

section
/-! PROOF. The canonical form of system memory is unique (rule R80). -/

namespace Sys2Proof.Machine

section
variable {m m' : Memory} {lo a x y : Nat} {b c : Byte}

/-- Below its first address a canonical memory reads as unlisted. -/
theorem read_below (h : Memory.wfFrom lo m = true) (ha : a < lo) : m.read a = unlistedByte := by
  induction m generalizing lo with
  | nil => rfl
  | cons cell m ih =>
    obtain ⟨x, b⟩ := cell
    obtain ⟨hlo, -, -, htail⟩ := wfFrom_cons.mp h
    rw [Memory.read, if_neg (by omega)]
    exact ih htail (by omega)

@[simp] theorem read_cons_head : Memory.read ((x, b) :: m) x = b := if_pos rfl

theorem read_cons_tail (h : x ≠ a) : Memory.read ((x, b) :: m) a = m.read a := if_neg h

/-- The first address of a canonical memory is not below that of one that reads alike: it lists a byte there. -/
theorem first_le_of_read_eq (h : Memory.wfFrom lo ((x, b) :: m) = true) (h' : Memory.wfFrom y m' = true)
    (hread : Memory.read ((x, b) :: m) x = m'.read x) : y ≤ x := by
  obtain ⟨-, -, hb, -⟩ := wfFrom_cons.mp h
  refine Nat.le_of_not_lt fun hlt => hb ?_
  rw [← read_cons_head (x := x) (b := b) (m := m), hread, read_below h' hlt]

/-- From its first address on, a canonical memory is canonical. -/
theorem wfFrom_first (h : Memory.wfFrom lo ((x, b) :: m) = true) : Memory.wfFrom x ((x, b) :: m) = true := by
  obtain ⟨-, hcell⟩ := wfFrom_cons.mp h
  exact wfFrom_cons.mpr ⟨Nat.le_refl x, hcell⟩

/-- The tails of two canonical memories that begin at one address read alike where the memories do. -/
theorem tails_read_eq (h : Memory.wfFrom lo ((x, b) :: m) = true) (h' : Memory.wfFrom lo ((x, c) :: m') = true)
    (hread : ∀ a, Memory.read ((x, b) :: m) a = Memory.read ((x, c) :: m') a) (a : Nat) : m.read a = m'.read a := by
  obtain ⟨-, -, -, htail⟩ := wfFrom_cons.mp h
  obtain ⟨-, -, -, htail'⟩ := wfFrom_cons.mp h'
  by_cases ha : x = a
  · rw [← ha, read_below htail (Nat.lt_succ_self x), read_below htail' (Nat.lt_succ_self x)]
  · rw [← read_cons_tail (b := b) ha, hread a, read_cons_tail ha]

end

/-- An empty memory and one that lists a byte do not read alike. -/
theorem not_read_eq_nil {m : Memory} {lo x : Nat} {b : Byte} (h : Memory.wfFrom lo ((x, b) :: m) = true) :
    ¬∀ a, Memory.read ((x, b) :: m) a = Memory.read [] a := fun hread =>
  absurd (first_le_of_read_eq (y := x + 1) h rfl (hread x)) (by omega)

/-- Canonical memories that read alike are one list. -/
theorem eq_of_wfFrom_of_read_eq {m m' : Memory} {lo : Nat} (h : Memory.wfFrom lo m = true) (h' : Memory.wfFrom lo m' = true)
    (hread : ∀ a, m.read a = m'.read a) : m = m' := by
  induction m generalizing m' lo with
  | nil =>
    cases m' with
    | nil => rfl
    | cons cell' m' => exact absurd (fun a => (hread a).symm) (not_read_eq_nil h')
  | cons cell m ih =>
    obtain ⟨x, b⟩ := cell
    cases m' with
    | nil => exact absurd hread (not_read_eq_nil h)
    | cons cell' m' =>
      obtain ⟨y, c⟩ := cell'
      have hle := first_le_of_read_eq h (wfFrom_first h') (hread x)
      have hge := first_le_of_read_eq h' (wfFrom_first h) (hread y).symm
      obtain rfl : x = y := by omega
      have hbyte : b = c := by simpa using hread x
      obtain ⟨-, -, -, htail⟩ := wfFrom_cons.mp h
      obtain ⟨-, -, -, htail'⟩ := wfFrom_cons.mp h'
      rw [hbyte, ih htail htail' (tails_read_eq h h' hread)]

/-- Settles O22, by induction on the list of cells. -/
theorem canonicalMemoriesAreEqualWhenTheyReadAlike : Obligations.CanonicalMemoriesAreEqualWhenTheyReadAlike :=
  fun _ _ => eq_of_wfFrom_of_read_eq

end Sys2Proof.Machine
end

section
/-! PROOF. The host duties: which accesses they forbid, and what ends them (rules R91, R92, R427; log entry 5). -/

namespace Sys2Proof.Machine

/-! ## Which bytes a command's duties protect -/

/-- The address is in the region `[base, base + len)`. -/
def InRange (addr base len : Nat) : Prop := base ≤ addr ∧ addr < base + len

/-- The address is a destination byte of the command, or of a word that is no command (log entry 5). -/
def InDestination (l : Latch) (addr : Nat) : Prop :=
  InRange addr l.args.dst l.args.cap ∧ ∀ i, decode l.cmd = .ok i → usesDestination i = true

/-- One of the first `n` entries of the table at `aux` names the address as chunk data. -/
def NamedByTable (m : Memory) (aux addr n : Nat) : Prop :=
  ∃ k, k < n ∧
    let e := entryOf (memBytes m (aux + 16 * k) 16)
    InRange addr e.addr e.len

/-- The address is an input byte of the command: source, descriptor table, or chunk data the table names. -/
def InInput (m : Memory) (l : Latch) (addr : Nat) : Prop :=
  ∃ i, decode l.cmd = .ok i ∧
    (usesSource i = true ∧ InRange addr l.args.src l.args.len ∨
      usesTable i = true ∧ (InRange addr l.args.aux l.args.tableLen ∨ NamedByTable m l.args.aux addr l.args.entries))

theorem inRegion_iff {addr base len : Nat} : inRegion addr base len = true ↔ InRange addr base len := by
  simp only [inRegion, InRange, Bool.and_eq_true, decide_eq_true_eq]

theorem tableNames_iff {m : Memory} {aux addr n : Nat} : tableNames m aux addr n = true ↔ NamedByTable m aux addr n := by
  induction n with
  | zero => exact ⟨nofun, fun ⟨_, hk, _⟩ => absurd hk (Nat.not_lt_zero _)⟩
  | succ n ih =>
    rw [tableNames, Bool.or_eq_true, inRegion_iff, ih]
    constructor
    · rintro (hlast | ⟨k, hk, hin⟩)
      · exact ⟨n, Nat.lt_succ_self n, hlast⟩
      · exact ⟨k, Nat.lt_succ_of_lt hk, hin⟩
    · rintro ⟨k, hk, hin⟩
      obtain hlt | rfl := Nat.lt_succ_iff_lt_or_eq.mp hk
      · exact .inr ⟨k, hlt, hin⟩
      · exact .inl hin

section
variable {m : Memory} {l : Latch} {addr : Nat} {isWrite : Bool}

theorem isInput_iff {i : Instr} {a : Args} : isInput m i a addr = true ↔
    usesSource i = true ∧ InRange addr a.src a.len ∨
      usesTable i = true ∧ (InRange addr a.aux a.tableLen ∨ NamedByTable m a.aux addr a.entries) := by
  simp only [isInput, Bool.or_eq_true, Bool.and_eq_true, inRegion_iff, tableNames_iff]

/-- The duties of one command forbid every access to its destination, and a store to its input (R91). -/
theorem dutyForbids_iff : dutyForbids m l addr isWrite = true ↔ InDestination l addr ∨ isWrite = true ∧ InInput m l addr := by
  rw [dutyForbids]
  cases h : decode l.cmd with
  | error k => simp [InDestination, InInput, h, inRegion_iff]
  | ok i => simp [InDestination, InInput, h, inRegion_iff, isInput_iff, and_comm]

end

/-! ## Host loads and stores -/

section
variable {s : State} {addr : Word} {x : Byte}

/-- A store is forbidden where a command whose completion the host has not seen protects the byte. -/
theorem breaksDuty_store_iff {a : Nat} : breaksDuty s a true = true ↔
    ∃ l, l ∈ s.unseen ∧ (InDestination l a ∨ InInput s.mem l a) := by
  simp only [breaksDuty, List.any_eq_true, dutyForbids_iff, true_and]

/-- A load is forbidden where a command whose completion the host has not seen has the byte in its destination. -/
theorem breaksDuty_load_iff {a : Nat} : breaksDuty s a false = true ↔ ∃ l, l ∈ s.unseen ∧ InDestination l a := by
  simp only [breaksDuty, List.any_eq_true, dutyForbids_iff, Bool.false_eq_true, false_and, or_false]

theorem memoryStore_refused (h : ∃ l, l ∈ s.unseen ∧ (InDestination l addr.toNat ∨ InInput s.mem l addr.toNat)) :
    memoryStore s addr x = .refused (.hostDuty addr) := if_pos (breaksDuty_store_iff.mpr h)

theorem memoryLoad_refused (h : ∃ l, l ∈ s.unseen ∧ InDestination l addr.toNat) :
    memoryLoad s addr = .refused (.hostDuty addr) := if_pos (breaksDuty_load_iff.mpr h)

/-- A destination byte of an unseen command is closed to the host. -/
theorem memory_refused_of_destination {l : Latch} (hl : l ∈ s.unseen) (h : InDestination l addr.toNat) :
    memoryStore s addr x = .refused (.hostDuty addr) ∧ memoryLoad s addr = .refused (.hostDuty addr) :=
  ⟨memoryStore_refused ⟨l, hl, .inl h⟩, memoryLoad_refused ⟨l, hl, h⟩⟩

/-- A store that no duty forbids changes its byte alone. -/
theorem memoryStore_open (h : ∀ l, l ∈ s.unseen → ¬InDestination l addr.toNat ∧ ¬InInput s.mem l addr.toNat) :
    memoryStore s addr x = .next { s with mem := s.mem.write addr.toNat x } := by
  refine if_neg fun hbreaks => ?_
  obtain ⟨l, hl, hprotected⟩ := breaksDuty_store_iff.mp hbreaks
  exact hprotected.elim (h l hl).1 (h l hl).2

/-- A load that no duty forbids gives the byte of memory. -/
theorem memoryLoad_open (h : ∀ l, l ∈ s.unseen → ¬InDestination l addr.toNat) :
    memoryLoad s addr = .next { s with rdata := (s.mem.read addr.toNat).setWidth 32 } := by
  refine if_neg fun hbreaks => ?_
  obtain ⟨l, hl, hdst⟩ := breaksDuty_load_iff.mp hbreaks
  exact h l hl hdst

/-! ## What ends the duties -/

/-- An aligned register read shows the register, and a STATUS read with BUSY = 0 ends the duties (R427). -/
theorem registerRead_aligned {o : Nat} (h : windowOffset s.platform addr = some o) (ho : o % 4 = 0) :
    registerRead s addr = .next { s with
      rdata := hostRead s o
      unseen := if o = 0x08 ∧ s.status.busy = false then [] else s.unseen } := by
  rw [registerRead, h]
  dsimp only
  rw [if_neg (not_not_intro ho)]
  have hstatus : regAt o = some .status ↔ o = 0x08 := regAt_eq_some
  simp only [hstatus]
  split <;> rfl

theorem registerRead_unseen {t : State} (h : registerRead s addr = .next t) :
    t.unseen = if windowOffset s.platform addr = some 0x08 ∧ s.status.busy = false then [] else s.unseen := by
  cases hoffset : windowOffset s.platform addr with
  | none => rw [registerRead_outside hoffset] at h; cases h
  | some o =>
    by_cases ho : o % 4 = 0
    · rw [registerRead_aligned hoffset ho] at h
      cases h
      simp only [Option.some.injEq]
    · rw [registerRead_misaligned hoffset ho] at h; cases h

/-- A sample of IRQ ends the duties where the line is high (R92, R455). -/
theorem sampleIrq_eq : sampleIrq s = { s with unseen := if s.irq then [] else s.unseen } := by
  rw [sampleIrq]
  split <;> rfl

end

/-- Settles O21: the running command is one of the unseen ones (`State.Inv.busyDuty`), and their duties are said by
`dutyForbids_iff`. -/
theorem hostDutiesAreRefused : Obligations.HostDutiesAreRefused := by
  intro s addr x
  refine ⟨fun hinv i hbusy hi => ?running, fun hinv k hbusy hk hin => ?illegal, memoryLoad_refused, memoryStore_refused,
    fun hopen => ⟨_, memoryLoad_open hopen, rfl, ?loaded⟩, fun hopen => ⟨_, memoryStore_open hopen, rfl, fun a => ?stored⟩,
    fun a t => registerRead_unseen, fun a ha => ⟨_, registerRead_aligned ha rfl⟩,
    fun es => ⟨fun hs => ?_, fun hs => ?_, fun hs => ?irq⟩⟩
  case running =>
    have hunseen := hinv.busyDuty hbusy
    have store_refused (h : usesSource i = true ∧ InRange addr.toNat s.latch.args.src s.latch.args.len ∨
        usesTable i = true ∧ (InRange addr.toNat s.latch.args.aux s.latch.args.tableLen ∨
          NamedByTable s.mem s.latch.args.aux addr.toNat s.latch.args.entries)) :
        memoryStore s addr x = .refused (.hostDuty addr) := memoryStore_refused ⟨_, hunseen, .inr ⟨i, hi, h⟩⟩
    refine ⟨fun huses hin => memory_refused_of_destination hunseen ⟨hin, fun j hj => ?_⟩,
      fun huses hin => store_refused (.inl ⟨huses, hin⟩), fun huses hin => store_refused (.inr ⟨huses, .inl hin⟩),
      fun huses k hk hin => store_refused (.inr ⟨huses, .inr ⟨k, hk, hin⟩⟩)⟩
    rw [hi] at hj
    cases hj
    exact huses
  case illegal =>
    refine memory_refused_of_destination (hinv.busyDuty hbusy) ⟨hin, fun j hj => ?_⟩
    rw [hk] at hj
    cases hj
  case loaded => exact BitVec.toNat_setWidth_of_le (by decide)
  case stored =>
    simp only [read_write, addr.isLt, and_true]
  · exact step_event hs nofun
  · exact step_event hs nofun
  case irq => rw [step_event hs nofun, takeEvent, sampleIrq_eq]; rfl

end Sys2Proof.Machine
end

section
/-! PROOF. The operand checks that every command begins with, and where they fail (rules R86, R88, R89, R127, R445); the execute
step of an illegal word (R126, R450); and what an outcome depends on (R84, R254). -/

namespace Sys2Proof.Machine

/-! ## What a check answers -/

section
variable {base len base₂ len₂ info : Nat} {rest : Except Raise Unit}

theorem checkRegion_wrap (h : 2 ^ 32 < base + len) :
    checkRegion base len info = .error { err := .param .wrap, info := info } := by
  have hwraps : regionOk base len = false := decide_eq_false (Nat.not_le.mpr h)
  rw [checkRegion, hwraps]; rfl

theorem checkRegion_ok (h : regionOk base len = true) : checkRegion base len info = .ok () := if_pos h

/-- The bounds of an input and a destination: one of the two regions wraps, or both pass and the other checks follow (R445). -/
theorem checkRegions_wrap (h : 2 ^ 32 < base + len ∨ 2 ^ 32 < base₂ + len₂) :
    (do checkRegion base len 0; checkRegion base₂ len₂ 0; rest) = .error { err := .param .wrap, info := 0 } := by
  by_cases hfirst : 2 ^ 32 < base + len
  · rw [checkRegion_wrap hfirst, except_bind_error]
  · rw [checkRegion_ok (decide_eq_true (Nat.not_lt.mp hfirst)), except_bind_ok,
      checkRegion_wrap (h.resolve_left hfirst), except_bind_error]

theorem checkRegions_ok (h : regionOk base len = true) (h₂ : regionOk base₂ len₂ = true) :
    (do checkRegion base len 0; checkRegion base₂ len₂ 0; rest) = rest := by
  rw [checkRegion_ok h, except_bind_ok, checkRegion_ok h₂, except_bind_ok]

theorem checkAlign_error (h : base % 4 ≠ 0) : checkAlign base = .error { err := .param .align, info := 0 } := if_pos h

theorem checkAlign_ok (h : base % 4 = 0) : checkAlign base = .ok () := if_neg (not_not_intro h)

theorem checkOverlap_error {x : Nat} (h₁ : base ≤ x) (h₂ : x < base + len) (h₃ : base₂ ≤ x) (h₄ : x < base₂ + len₂) :
    checkOverlap base len base₂ len₂ info = .error { err := .param .overlap, info := info } := by
  rw [checkOverlap, overlaps_eq_true h₁ h₂ h₃ h₄]; rfl

end

section
variable {a : Args} {x : Nat}

theorem checkSrcTable_align (hsrc : regionOk a.src a.len = true) (hdst : regionOk a.dst a.cap = true) (h : a.dst % 4 ≠ 0) :
    checkSrcTable a = .error { err := .param .align, info := 0 } := by
  rw [checkSrcTable, checkRegions_ok hsrc hdst, checkAlign_error h, except_bind_error]

theorem checkTableDst_align (htable : regionOk a.aux a.tableLen = true) (hdst : regionOk a.dst a.cap = true)
    (h : a.aux % 4 ≠ 0) : checkTableDst a = .error { err := .param .align, info := 0 } := by
  rw [checkTableDst, checkRegions_ok htable hdst, checkAlign_error h, except_bind_error]

theorem checkSrcDst_overlap (hsrc : regionOk a.src a.len = true) (hdst : regionOk a.dst a.cap = true)
    (h₁ : a.src ≤ x) (h₂ : x < a.src + a.len) (h₃ : a.dst ≤ x) (h₄ : x < a.dst + a.cap) :
    checkSrcDst a = .error { err := .param .overlap, info := 0 } := by
  rw [checkSrcDst, checkRegions_ok hsrc hdst, checkOverlap_error h₁ h₂ h₃ h₄]

/-- Past the bounds and the alignment, the checks of FRM.PARSE are those of any source and destination. -/
theorem checkSrcTable_aligned (h : a.dst % 4 = 0) : checkSrcTable a = checkSrcDst a := by
  rw [checkSrcTable, checkSrcDst, checkAlign_ok h]; rfl

theorem checkTableDst_overlap (htable : regionOk a.aux a.tableLen = true) (hdst : regionOk a.dst a.cap = true)
    (halign : a.aux % 4 = 0) (h₁ : a.aux ≤ x) (h₂ : x < a.aux + a.tableLen) (h₃ : a.dst ≤ x) (h₄ : x < a.dst + a.cap) :
    checkTableDst a = .error { err := .param .overlap, info := 0 } := by
  rw [checkTableDst, checkRegions_ok htable hdst, checkAlign_ok halign, except_bind_ok, checkOverlap_error h₁ h₂ h₃ h₄]

end

/-! ## The checks of a command -/

/-- The operand checks a command begins with, before it reads memory (R127, R445 stages 2 to 4). -/
def operandChecks (i : Instr) (a : Args) : Except Raise Unit :=
  match i with
  | .nop => .ok ()
  | .crcCompute | .crcVerify => checkRegion a.src a.len 0
  | .frmParse => checkSrcTable a
  | .frmIdatcat | .frmSerialize => checkTableDst a
  | .inflate | .inflateZ | .deflate _ | .deflateZ _ | .fltReverse | .fltApplyNone | .fltApplySub | .fltApplyUp | .fltApplyAvg
  | .fltApplyPaeth | .fltApplyAuto => checkSrcDst a

/-- Every command's body begins with its operand checks. -/
theorem commandBody_checks (i : Instr) (b : Bus) (a : Args) :
    ∃ rest, commandBody i b a = (operandChecks i a >>= fun _ => rest) := by
  cases i <;> exact ⟨_, rfl⟩

/-- A command whose operand checks raise completes with that error; its destination, where it has one, is draws. -/
theorem exec_fails_of_check {i : Instr} {s : State} {e : ErrKind} {info : Nat}
    (h : operandChecks i s.latch.args = .error { err := e, info := info }) :
    ∃ t, exec i s = .next t ∧ Failure s t e info ∧ (usesDestination i = true → DestinationDrawn s t) ∧
      (usesDestination i = false → t.mem = s.mem) := by
  obtain ⟨rest, hbody⟩ := commandBody_checks i s.bus s.latch.args
  refine ⟨_, exec_eq i s, ?_⟩
  rw [hbody, h, except_bind_error, complete_error]
  refine ⟨raiseWith_failure _ _ s, fun hdst => ?_, fun hdst => ?_⟩
  · rw [hdst]; exact raiseWith_destinationDrawn _ s
  · rw [hdst]; exact raiseWith_noDestination_mem _ s

/-- A command with a destination whose operand checks raise completes with that error and draws its destination. -/
theorem exec_fails_drawn_of_check {i : Instr} {s : State} {e : ErrKind} {info : Nat} (hdst : usesDestination i = true)
    (h : operandChecks i s.latch.args = .error { err := e, info := info }) :
    ∃ t, exec i s = .next t ∧ Failure s t e info ∧ DestinationDrawn s t := by
  obtain ⟨t, hexec, hfail, hdrawn, -⟩ := exec_fails_of_check h
  exact ⟨t, hexec, hfail, hdrawn hdst⟩

section
variable {i : Instr} {a : Args}

/-- A used region that wraps fails the checks, before any other check (R88, R445). -/
theorem operandChecks_wrap (h : (usesSource i = true ∧ 2 ^ 32 < a.src + a.len) ∨
    (usesTable i = true ∧ 2 ^ 32 < a.aux + a.tableLen) ∨ (usesDestination i = true ∧ 2 ^ 32 < a.dst + a.cap)) :
    operandChecks i a = .error { err := .param .wrap, info := 0 } := by
  cases i with
  | nop => simp [usesSource, usesTable, usesDestination] at h
  | crcCompute | crcVerify =>
    have hsrc : 2 ^ 32 < a.src + a.len := by simpa [usesSource, usesTable, usesDestination] using h
    exact checkRegion_wrap hsrc
  | frmIdatcat | frmSerialize =>
    have hregions : 2 ^ 32 < a.aux + a.tableLen ∨ 2 ^ 32 < a.dst + a.cap := by
      simpa [usesSource, usesTable, usesDestination] using h
    exact checkRegions_wrap hregions
  | _ =>
    have hregions : 2 ^ 32 < a.src + a.len ∨ 2 ^ 32 < a.dst + a.cap := by
      simpa [usesSource, usesTable, usesDestination] using h
    exact checkRegions_wrap hregions

/-- A source that shares an address with the destination fails the checks of a command that has both (R89). -/
theorem operandChecks_source_overlap {x : Nat} (hsource : usesSource i = true) (hdestination : usesDestination i = true)
    (hsrc : regionOk a.src a.len = true) (hdst : regionOk a.dst a.cap = true) (halign : i = .frmParse → a.dst % 4 = 0)
    (h₁ : a.src ≤ x) (h₂ : x < a.src + a.len) (h₃ : a.dst ≤ x) (h₄ : x < a.dst + a.cap) :
    operandChecks i a = .error { err := .param .overlap, info := 0 } := by
  have hoverlap := checkSrcDst_overlap hsrc hdst h₁ h₂ h₃ h₄
  cases i with
  | nop | frmIdatcat | frmSerialize => exact absurd hsource Bool.false_ne_true
  | crcCompute | crcVerify => exact absurd hdestination Bool.false_ne_true
  | frmParse => exact (checkSrcTable_aligned (halign rfl)).trans hoverlap
  | _ => exact hoverlap

/-- The commands with an input table are FRM.IDATCAT and FRM.SERIALIZE (R127). -/
theorem operandChecks_table (h : usesTable i = true) : operandChecks i a = checkTableDst a := by
  cases i with
  | frmIdatcat | frmSerialize => rfl
  | _ => exact absurd h Bool.false_ne_true

end

/-- Settles O25: the bounds are the first of the operand checks. -/
theorem wrappedRegionIsRefused : Obligations.WrappedRegionIsRefused :=
  fun _ _ h => exec_fails_of_check (operandChecks_wrap h)

/-- Settles O26: the alignment is checked after the bounds and before the overlap. -/
theorem misalignedTableIsRefused : Obligations.MisalignedTableIsRefused := by
  refine fun s hdst => ⟨fun hsrc halign => ?_, fun htable halign i hi => ?_⟩
  · exact exec_fails_drawn_of_check (i := .frmParse) rfl (checkSrcTable_align hsrc hdst halign)
  · obtain ⟨huses, hdestination⟩ : usesTable i = true ∧ usesDestination i = true := by
      simp only [List.mem_cons, List.not_mem_nil, or_false] at hi
      obtain rfl | rfl := hi <;> exact ⟨rfl, rfl⟩
    exact exec_fails_drawn_of_check hdestination ((operandChecks_table huses).trans (checkTableDst_align htable hdst halign))

/-- Settles O27: past the bounds and the alignment, a shared address is an overlap, with the source or with the table. -/
theorem overlappingDestinationIsRefused : Obligations.OverlappingDestinationIsRefused := by
  intro i s x hdestination hdst h₃ h₄ h
  apply exec_fails_drawn_of_check hdestination
  obtain ⟨huses, hsrc, halign, h₁, h₂⟩ | ⟨huses, htable, halign, h₁, h₂⟩ := h
  · exact operandChecks_source_overlap huses hdestination hsrc hdst halign h₁ h₂ h₃ h₄
  · exact (operandChecks_table huses).trans (checkTableDst_overlap htable hdst halign h₁ h₂ h₃ h₄)

/-- Settles O4: the execute step of an illegal word raises with the whole word, and its destination is the latched one. -/
theorem illegalWordCompletesWithItsWord : Obligations.IllegalWordCompletesWithItsWord := by
  refine fun s k h => ⟨_, executeStep_illegal h, raiseWith_failure true _ s, ?_, raiseWith_destinationDrawn _ s⟩
  rw [raiseIllegal, raiseWith_results, BitVec.ofNat_toNat, BitVec.setWidth_eq]

/-- Settles O28: the body is a function of the bus and the latched operands, and an error changes memory in the destination
alone. -/
theorem outcomeDependsOnLatchMemoryPlatform : Obligations.OutcomeDependsOnLatchMemoryPlatform := by
  intro i s s' t t' hargs hmem hplatform ht ht'
  have hbus : s'.bus = s.bus := by rw [State.bus, State.bus, hmem, hplatform]
  obtain rfl := exec_next ht
  obtain rfl := exec_next ht'
  rw [← hargs, hbus]
  cases commandBody i s.bus s.latch.args with
  | ok d =>
    have hwritten : (finishWith d s).mem = (finishWith d s').mem := by rw [finishWith_mem, finishWith_mem, hargs, hmem]
    exact ⟨rfl, rfl, fun _ => hwritten, fun a _ => congrArg (Memory.read · a) hwritten⟩
  | error e =>
    refine ⟨rfl, rfl, nofun, fun a ha => ?_⟩
    rw [complete_error, complete_error, (raiseWith_failure _ e s).elsewhere a ha,
      (raiseWith_failure _ e s').elsewhere a (hargs ▸ ha), hmem]

end Sys2Proof.Machine
end

section
/-! PROOF. The entries of a descriptor table and their data (rules R86, R88, R89, R130), for the entry loops of FRM.IDATCAT and
FRM.SERIALIZE. -/

namespace Sys2Proof.Machine

@[simp] theorem entry_tag_length (s : State) (k : Nat) : (s.entry k).tag.length = 4 := by
  simp [State.entry, entryOf]

@[simp] theorem entryData_length (s : State) (e : Entry) : (s.entryData e).length = e.len := memBytes_length _ _ _

section
variable {s : State} {e : Entry} {k : Nat}

/-- An entry whose data region is inside the address space and apart from the destination passes its checks. -/
theorem State.EntryOk.checkEntry_ok (h : s.EntryOk e) : checkEntry s.latch.args e k = .ok () := by
  obtain ⟨hregion, hapart, -⟩ := h
  rw [checkEntry, checkRegion, if_pos hregion, except_bind_ok, checkOverlap, hapart]; rfl

theorem readEntry_hole {x : Nat} (hx : FirstHole s.platform .read (s.latch.args.aux + 16 * k) 16 x) :
    readEntry s.bus s.latch.args k = .error { err := .bus .read, info := x } := by
  rw [readEntry, memRead_hole hx, except_bind_error]

/-- A table that is readable past entry `k` reads at entry `k` too. -/
theorem readable_table_succ {p : Platform} {aux : Nat} (h : Readable p aux (16 * (k + 1))) :
    Readable p aux (16 * k) ∧ Readable p (aux + 16 * k) 16 := readable_add.mp h

theorem writable_mono {p : Platform} {base n m : Nat} (h : Writable p base m) (hle : n ≤ m) : Writable p base n :=
  fun a h₁ h₂ => h a h₁ (by omega)

/-- A range of two parts is writable where both parts are. -/
theorem writable_add {p : Platform} {base n m : Nat} (h : Writable p base (n + m)) :
    Writable p base n ∧ Writable p (base + n) m :=
  ⟨fun a h₁ h₂ => h a h₁ (by omega), fun a h₁ h₂ => h a (by omega) (by omega)⟩

end

/-- A command whose body gives its results completes with them, where the destination is inside the address space (R449). -/
theorem exec_success (i : Instr) {s : State} {d : Done} (hdst : regionOk s.latch.args.dst s.latch.args.cap = true)
    (hbody : commandBody i s.bus s.latch.args = .ok d) :
    ∃ t, exec i s = .next t ∧ Success s t d.result d.inUsed d.flags d.out := by
  have htop := of_decide_eq_true hdst
  have hfits := Nat.le_trans (commandBody_sound hbody).fits (outputRoom_le_cap i s.latch.args)
  refine ⟨_, exec_eq i s, ?_⟩
  rw [hbody, complete_ok]
  exact finishWith_success d s (by omega)

end Sys2Proof.Machine
end

section
/-! PROOF. FRM.IDATCAT: one entry, the entry loop up to an entry, and how the command ends (rules R88, R89, R347, R348). -/

namespace Sys2Proof.Machine

/-! ## One entry (R347) -/

/-- What one round of the entry loop does for an IDAT entry: its checks, the room, its data copied. -/
def catEntry (b : Bus) (a : Args) (e : Entry) (k : Nat) (o : Sink) : Except Raise Sink := do
  checkEntry a e k
  if a.cap < o.n + e.len then .error (full k)
  else do
    let d ← memRead b e.addr e.len
    memWrite b o d

section
variable {b : Bus} {a : Args} {e : Entry} {n k m : Nat} {o : Sink} {r : Raise}

theorem catEntry_check_error (h : checkEntry a e k = .error r) : catEntry b a e k o = .error r := by
  rw [catEntry, h, except_bind_error]

theorem catEntry_full (h : checkEntry a e k = .ok ()) (hcap : a.cap < o.n + e.len) :
    catEntry b a e k o = .error (full k) := by
  rw [catEntry, h, except_bind_ok, if_pos hcap]

theorem catEntry_data_hole (h : checkEntry a e k = .ok ()) (hcap : o.n + e.len ≤ a.cap) {x : Nat}
    (hx : FirstHole b.platform .read e.addr e.len x) :
    catEntry b a e k o = .error { err := .bus .read, info := x } := by
  rw [catEntry, h, except_bind_ok, if_neg (Nat.not_lt.mpr hcap), memRead_hole hx, except_bind_error]

/-- An entry that passes its checks, fits and reads: its data is written. -/
theorem catEntry_write (h : checkEntry a e k = .ok ()) (hcap : o.n + e.len ≤ a.cap) (hr : Readable b.platform e.addr e.len) :
    catEntry b a e k o = memWrite b o (memBytes b.mem e.addr e.len) := by
  rw [catEntry, h, except_bind_ok, if_neg (Nat.not_lt.mpr hcap), memRead_ok b _ _ hr, except_bind_ok]

theorem catEntries_read_error (h : readEntry b a k = .error r) : catEntries b a (n + 1) k m o = .error r := by
  rw [catEntries, h, except_bind_error]

/-- A round passes over an entry with another tag. -/
theorem catEntries_other (hread : readEntry b a k = .ok e) (htag : e.tag ≠ tagIdat) :
    catEntries b a (n + 1) k m o = catEntries b a n (k + 1) m o := by
  rw [catEntries, hread, except_bind_ok, if_pos htag]

/-- A round copies an IDAT entry, counts it and goes on. -/
theorem catEntries_idat (hread : readEntry b a k = .ok e) (htag : e.tag = tagIdat) :
    catEntries b a (n + 1) k m o = (catEntry b a e k o >>= catEntries b a n (k + 1) (m + 1)) := by
  rw [catEntries, hread, except_bind_ok, if_neg (not_not_intro htag), catEntry]
  cases checkEntry a e k with
  | error r => rfl
  | ok _ =>
    rw [except_bind_ok, except_bind_ok]
    split
    · rfl
    · cases memRead b e.addr e.len <;> rfl

end

/-! ## What is put out for the first entries -/

/-- The IDAT entries among the first `k`, in table order. -/
def State.idats (s : State) (k : Nat) : List Entry := ((List.range k).map s.entry).filter fun e => decide (e.tag = tagIdat)

/-- The destination after the data of the IDAT entries among the first `k`. -/
def State.catSink (s : State) (k : Nat) : Sink := s.latch.args.sink.push (s.catBytes k)

section
variable {s : State} {k : Nat}

theorem catBytes_eq : s.catBytes k = (s.idats k).flatMap s.entryData := rfl

theorem idats_succ_idat (h : (s.entry k).tag = tagIdat) : s.idats (k + 1) = s.idats k ++ [s.entry k] := by
  simp [State.idats, List.range_succ, h]

theorem idats_succ_other (h : (s.entry k).tag ≠ tagIdat) : s.idats (k + 1) = s.idats k := by
  simp [State.idats, List.range_succ, h]

theorem catBytes_succ_idat (h : (s.entry k).tag = tagIdat) :
    s.catBytes (k + 1) = s.catBytes k ++ s.entryData (s.entry k) := by
  rw [catBytes_eq, idats_succ_idat h, List.flatMap_append, List.flatMap_singleton]; rfl

theorem catBytes_succ_other (h : (s.entry k).tag ≠ tagIdat) : s.catBytes (k + 1) = s.catBytes k := by
  rw [catBytes_eq, idats_succ_other h]; rfl

theorem catBytes_length_le_succ : (s.catBytes k).length ≤ (s.catBytes (k + 1)).length := by
  by_cases h : (s.entry k).tag = tagIdat
  · rw [catBytes_succ_idat h, List.length_append]; omega
  · rw [catBytes_succ_other h]

theorem catSink_n : (s.catSink k).n = (s.catBytes k).length := by
  rw [State.catSink, sink_push_n, Args.sink, sink_start_n, Nat.zero_add]

/-- The next destination byte. -/
theorem catSink_next : (s.catSink k).base + (s.catSink k).n = s.latch.args.dst + (s.catBytes k).length := by
  rw [catSink_n]; rfl

theorem catSink_out : (s.catSink k).out = s.catBytes k := by
  rw [State.catSink, sink_push_out, Args.sink, sink_start_out, List.nil_append]

/-! ## The entry loop up to entry `k` -/

/-- FRM.IDATCAT gets past the first `k` entries, whether or not there is another (R347). -/
structure CatPasses (s : State) (k : Nat) : Prop where
  regions  : TableDstOk s.latch.args
  inTable  : k ≤ s.latch.args.entries
  table    : Readable s.platform s.latch.args.aux (16 * k)
  before   : ∀ j, j < k → (s.entry j).tag = tagIdat → s.EntryOk (s.entry j)
  room     : (s.catBytes k).length ≤ s.latch.args.cap
  writable : Writable s.platform s.latch.args.dst (s.catBytes k).length

theorem CatReaches.passes (h : CatReaches s k) : CatPasses s k :=
  ⟨h.regions, Nat.le_of_lt h.inTable, h.table, h.before, h.room, h.writable⟩

/-- What gets past an entry gets to it. -/
theorem CatPasses.pred (h : CatPasses s (k + 1)) : CatPasses s k := by
  obtain ⟨regions, inTable, table, before, room, writable⟩ := h
  have hle := catBytes_length_le_succ (s := s) (k := k)
  exact ⟨regions, by omega, (readable_table_succ table).1, fun j hj => before j (by omega), by omega,
    writable_mono writable hle⟩

/-- The round at an IDAT entry that the loop gets past copies its data. -/
theorem CatPasses.catEntry_ok (h : CatPasses s (k + 1)) (htag : (s.entry k).tag = tagIdat) :
    catEntry s.bus s.latch.args (s.entry k) k (s.catSink k) = .ok (s.catSink (k + 1)) := by
  have hentry := h.before k (Nat.lt_succ_self k) htag
  have hroom := h.room
  have hw := h.writable
  rw [catBytes_succ_idat htag, List.length_append] at hroom hw
  rw [catEntry_write hentry.checkEntry_ok (by rw [catSink_n]; rwa [entryData_length] at hroom) hentry.2.2, State.catSink,
    State.catSink, catBytes_succ_idat htag, ← sink_push_push]
  exact memWrite_ok s.bus _ _ (catSink_next (s := s) (k := k) ▸ (writable_add hw).2)

/-- The loop past the first `k` entries: the IDAT entries among them are counted and their data went out. -/
theorem CatPasses.loop (h : CatPasses s k) :
    catEntries s.bus s.latch.args s.latch.args.entries 0 0 s.latch.args.sink =
      catEntries s.bus s.latch.args (s.latch.args.entries - k) k (s.idats k).length (s.catSink k) := by
  induction k with
  | zero => rfl
  | succ k ih =>
    have hleft : s.latch.args.entries - k = s.latch.args.entries - (k + 1) + 1 := by have := h.inTable; omega
    have hread := readEntry_ok (readable_table_succ h.table).2
    rw [ih h.pred, hleft]
    by_cases htag : (s.entry k).tag = tagIdat
    · rw [catEntries_idat hread htag, h.catEntry_ok htag, except_bind_ok, idats_succ_idat htag, List.length_append,
        List.length_singleton]
    · rw [catEntries_other hread htag, idats_succ_other htag, State.catSink, State.catSink, catBytes_succ_other htag]

/-! ## Where it stops with an error -/

theorem idatcat_fails_of_raise {e : ErrKind} {info : Nat}
    (h : idatcatBody s.bus s.latch.args = .error { err := e, info := info }) : FailsWith .frmIdatcat s e info :=
  failsWith_of_raise (exec_eq .frmIdatcat s) h

section
variable {e : ErrKind} {info : Nat}

/-- An error of the loop's round at entry `k`, whatever number of entries is left, is the command's. -/
theorem CatReaches.fails_of_round (h : CatReaches s k)
    (hround : ∀ n, catEntries s.bus s.latch.args (n + 1) k (s.idats k).length (s.catSink k) =
      .error { err := e, info := info }) : FailsWith .frmIdatcat s e info := by
  obtain ⟨n, hn⟩ : ∃ n, s.latch.args.entries - k = n + 1 := ⟨s.latch.args.entries - k - 1, by have := h.inTable; omega⟩
  exact idatcat_fails_of_raise (by
    rw [idatcatBody, checkTableDst_ok h.regions, except_bind_ok, h.passes.loop, hn, hround, except_bind_error])

theorem CatReaches.fails_of_entry (h : CatReaches s k) (hread : Readable s.platform (s.latch.args.aux + 16 * k) 16)
    (htag : (s.entry k).tag = tagIdat)
    (hentry : catEntry s.bus s.latch.args (s.entry k) k (s.catSink k) = .error { err := e, info := info }) :
    FailsWith .frmIdatcat s e info :=
  h.fails_of_round fun _ => by rw [catEntries_idat (readEntry_ok hread) htag, hentry, except_bind_error]

end

/-- The errors of FRM.IDATCAT at an entry come in the order of the loop's round. -/
theorem idatcatErrorRule : IdatcatErrorRule := by
  intro s k h
  refine ⟨fun x hx => h.fails_of_round fun _ => catEntries_read_error (readEntry_hole hx), fun hread htag => ?_⟩
  obtain ⟨hwrap, hinside⟩ := checkEntry_cases s.latch.args (s.entry k) k
  refine ⟨fun htop => h.fails_of_entry hread htag (catEntry_check_error (hwrap htop)), fun htop => ?_⟩
  obtain ⟨hoverlap, hpass⟩ := hinside htop
  refine ⟨fun x h₁ h₂ h₃ h₄ => h.fails_of_entry hread htag (catEntry_check_error (hoverlap x h₁ h₂ h₃ h₄)), fun hapart => ?_⟩
  have hcheck := hpass hapart
  refine ⟨fun hcap => h.fails_of_entry hread htag (catEntry_full hcheck (catSink_n ▸ hcap)), fun hcap => ?_⟩
  replace hcap : (s.catSink k).n + (s.entry k).len ≤ s.latch.args.cap := catSink_n ▸ hcap
  refine ⟨fun x hx => h.fails_of_entry hread htag (catEntry_data_hole hcheck hcap hx), fun hr x hx =>
    h.fails_of_entry hread htag ((catEntry_write hcheck hcap hr).trans (memWrite_hole ?_))⟩
  rw [catSink_next, memBytes_length]
  exact hx

/-! ## How it completes -/

/-- Past every entry, with an IDAT entry among them, the body gives their number and their data (R347). -/
theorem CatPasses.body (h : CatPasses s s.latch.args.entries) (hidats : s.idats s.latch.args.entries ≠ []) :
    idatcatBody s.bus s.latch.args = .ok {
      result := BitVec.ofNat 32 (s.idats s.latch.args.entries).length, inUsed := countWord s.latch.args.tableLen, flags := 0,
      out := s.catBytes s.latch.args.entries } := by
  rw [idatcatBody, checkTableDst_ok h.regions, except_bind_ok, h.loop, Nat.sub_self, catEntries, except_bind_ok]
  dsimp only
  rw [if_neg fun h => hidats (List.length_eq_zero_iff.mp h), catSink_out]

end

/-- Settles O51: the loop gets past every entry, and its errors are those of the first round that fails. -/
theorem idatcatConcatenatesTheIdatData : Obligations.IdatcatConcatenatesTheIdatData := by
  refine ⟨idatcatErrorRule, ?_⟩
  intro s n idats payload hok htable hentries hidats hroom hw
  have hpass : CatPasses s s.latch.args.entries := {
    regions := hok
    inTable := Nat.le_refl _
    table := htable
    before := fun j hj htag => hentries _ (List.mem_filter.mpr
      ⟨List.mem_map_of_mem (List.mem_range.mpr hj), decide_eq_true htag⟩)
    room := hroom
    writable := hw }
  obtain ⟨t, hexec, hsuccess⟩ := exec_success .frmIdatcat hok.dst (hpass.body hidats)
  exact ⟨t, _, hexec, hsuccess, fun hlt => if_pos hlt⟩

end Sys2Proof.Machine
end

section
/-! PROOF. FRM.SERIALIZE: one entry, the entry loop up to an entry, and how the command ends (rules R132, R350, R351). -/

namespace Sys2Proof.Machine

/-! ## `put` (R350) -/

section
variable {b : Bus} {a : Args} {o : Sink} {bytes : List Byte} {j : Nat}

theorem putBytes_ok (hroom : o.n + bytes.length ≤ a.cap) (hw : Writable b.platform (o.base + o.n) bytes.length) :
    putBytes b a o bytes j = .ok (o.push bytes) := by
  rw [putBytes, if_neg (Nat.not_lt.mpr hroom), memWrite_ok b _ _ hw]

theorem putBytes_full (h : a.cap < o.n + bytes.length) : putBytes b a o bytes j = .error (full j) := if_pos h

theorem putBytes_hole (hroom : o.n + bytes.length ≤ a.cap) {x : Nat}
    (hx : FirstHole b.platform .write (o.base + o.n) bytes.length x) :
    putBytes b a o bytes j = .error { err := .bus .write, info := x } := by
  rw [putBytes, if_neg (Nat.not_lt.mpr hroom), memWrite_hole hx]

end

/-! ## One entry (R350) -/

/-- What one round of the entry loop does to the destination: the checks of the entry, its data read, its chunk put out. -/
def serialEntry (b : Bus) (a : Args) (e : Entry) (k : Nat) (o : Sink) : Except Raise Sink := do
  checkSerialEntry a e k
  let d ← memRead b e.addr e.len
  putBytes b a o (chunkBytes e.tag d) k

section
variable {b : Bus} {a : Args} {e : Entry} {n k : Nat} {o o' : Sink} {r : Raise}

theorem checkSerialEntry_chunkLen (h : Config.framerMaxLen < e.len) :
    checkSerialEntry a e k = .error { err := .param .chunkLen, info := k } := if_pos h

theorem checkSerialEntry_iendLen (hlen : e.len ≤ Config.framerMaxLen) (htag : e.tag = tagIend) (h : e.len ≠ 0) :
    checkSerialEntry a e k = .error { err := .param .iendLen, info := k } := by
  rw [checkSerialEntry, if_neg (Nat.not_lt.mpr hlen), if_pos ⟨htag, h⟩]; rfl

/-- Past the two checks of the length, the checks are those of the data region. -/
theorem checkSerialEntry_region (hlen : e.len ≤ Config.framerMaxLen) (h : e.tag = tagIend → e.len = 0) :
    checkSerialEntry a e k = checkEntry a e k := by
  rw [checkSerialEntry, if_neg (Nat.not_lt.mpr hlen), if_neg fun ⟨htag, hne⟩ => hne (h htag)]

theorem serialEntry_check_error (h : checkSerialEntry a e k = .error r) : serialEntry b a e k o = .error r := by
  rw [serialEntry, h, except_bind_error]

theorem serialEntry_data_hole (h : checkSerialEntry a e k = .ok ()) {x : Nat} (hx : FirstHole b.platform .read e.addr e.len x) :
    serialEntry b a e k o = .error { err := .bus .read, info := x } := by
  rw [serialEntry, h, except_bind_ok, memRead_hole hx, except_bind_error]

/-- An entry that passes its checks and whose data reads puts out its chunk. -/
theorem serialEntry_put (h : checkSerialEntry a e k = .ok ()) (hr : Readable b.platform e.addr e.len) :
    serialEntry b a e k o = putBytes b a o (chunkBytes e.tag (memBytes b.mem e.addr e.len)) k := by
  rw [serialEntry, h, except_bind_ok, memRead_ok b _ _ hr, except_bind_ok]

theorem serializeEntries_read_error (h : readEntry b a k = .error r) : serializeEntries b a (n + 1) k o = .error r := by
  rw [serializeEntries, h, except_bind_error]

/-- A round that reads its entry: the entry goes out, and the loop ends at IEND and goes on past any other tag. -/
theorem serializeEntries_round (hread : readEntry b a k = .ok e) :
    serializeEntries b a (n + 1) k o = (serialEntry b a e k o >>= fun o' =>
      if e.tag = tagIend then .ok { w := k + 1, used := 16 * (k + 1), ended := true, sink := o' }
      else serializeEntries b a n (k + 1) o') := by
  rw [serializeEntries, hread, except_bind_ok, serialEntry]
  cases checkSerialEntry a e k with
  | error r => rfl
  | ok _ => cases memRead b e.addr e.len <;> rfl

theorem serializeEntries_entry_error (hread : readEntry b a k = .ok e) (h : serialEntry b a e k o = .error r) :
    serializeEntries b a (n + 1) k o = .error r := by
  rw [serializeEntries_round hread, h, except_bind_error]

theorem serializeEntries_iend (hread : readEntry b a k = .ok e) (h : serialEntry b a e k o = .ok o') (htag : e.tag = tagIend) :
    serializeEntries b a (n + 1) k o = .ok { w := k + 1, used := 16 * (k + 1), ended := true, sink := o' } := by
  rw [serializeEntries_round hread, h, except_bind_ok, if_pos htag]

theorem serializeEntries_goesOn (hread : readEntry b a k = .ok e) (h : serialEntry b a e k o = .ok o')
    (htag : e.tag ≠ tagIend) : serializeEntries b a (n + 1) k o = serializeEntries b a n (k + 1) o' := by
  rw [serializeEntries_round hread, h, except_bind_ok, if_neg htag]

end

/-! ## What is put out for the first entries -/

/-- The chunk that entry `k` stands for (R132, R350). -/
def State.entryChunk (s : State) (k : Nat) : List Byte := chunkBytes (s.entry k).tag (s.entryData (s.entry k))

/-- The destination after the signature and the chunks of the first `k` entries. -/
def State.serialSink (s : State) (k : Nat) : Sink := s.latch.args.sink.push (s.serialBytes k)

section
variable {s : State} {k : Nat}

theorem entryChunk_length : (s.entryChunk k).length = 12 + (s.entry k).len := by
  rw [State.entryChunk, chunkBytes_length (entry_tag_length s k), entryData_length]

theorem serialBytes_zero : s.serialBytes 0 = pngSignature := List.append_nil _

theorem serialBytes_succ : s.serialBytes (k + 1) = s.serialBytes k ++ s.entryChunk k := by
  simp [State.serialBytes, State.entryChunk, List.range_succ, wireBytes]

theorem serialBytes_succ_length :
    (s.serialBytes (k + 1)).length = (s.serialBytes k).length + (12 + (s.entry k).len) := by
  rw [serialBytes_succ, List.length_append, entryChunk_length]

theorem serialSink_n : (s.serialSink k).n = (s.serialBytes k).length := by
  rw [State.serialSink, sink_push_n, Args.sink, sink_start_n, Nat.zero_add]

/-- The next destination byte. -/
theorem serialSink_next : (s.serialSink k).base + (s.serialSink k).n = s.latch.args.dst + (s.serialBytes k).length := by
  rw [serialSink_n]; rfl

theorem serialSink_out : (s.serialSink k).out = s.serialBytes k := by
  rw [State.serialSink, sink_push_out, Args.sink, sink_start_out, List.nil_append]

theorem serialSink_succ : s.serialSink (k + 1) = (s.serialSink k).push (s.entryChunk k) := by
  rw [State.serialSink, State.serialSink, sink_push_push, serialBytes_succ]

/-- An entry that can be serialized: its data region is in order and its length legal (R350). -/
structure State.SerialEntryOk (s : State) (e : Entry) : Prop where
  region : s.EntryOk e
  len    : e.len ≤ Config.framerMaxLen
  iend   : e.tag = tagIend → e.len = 0

/-- An entry in order puts its chunk at the end of the output, where there is room. -/
theorem State.SerialEntryOk.serialEntry_ok (h : s.SerialEntryOk (s.entry k))
    (hroom : (s.serialBytes (k + 1)).length ≤ s.latch.args.cap)
    (hw : Writable s.platform s.latch.args.dst (s.serialBytes (k + 1)).length) :
    serialEntry s.bus s.latch.args (s.entry k) k (s.serialSink k) = .ok (s.serialSink (k + 1)) := by
  obtain ⟨hregion, hlen, hiend⟩ := h
  rw [serialBytes_succ_length, ← entryChunk_length] at hroom hw
  rw [serialEntry_put ((checkSerialEntry_region hlen hiend).trans hregion.checkEntry_ok) hregion.2.2, serialSink_succ]
  exact putBytes_ok (serialSink_n ▸ hroom) (serialSink_next ▸ (writable_add hw).2)

/-! ## The entry loop up to entry `k` -/

theorem SerialReaches.entryOk {j : Nat} (h : SerialReaches s k) (hj : j < k) : s.SerialEntryOk (s.entry j) :=
  ⟨(h.before j hj).1, (h.before j hj).2.1, fun hiend => absurd hiend (h.before j hj).2.2⟩

/-- What gets past an entry gets to it. -/
theorem SerialReaches.pred (h : SerialReaches s (k + 1)) : SerialReaches s k := by
  obtain ⟨regions, inTable, table, before, room, writable⟩ := h
  rw [serialBytes_succ_length] at room writable
  exact ⟨regions, by omega, (readable_table_succ table).1, fun j hj => before j (by omega), by omega,
    (writable_add writable).1⟩

/-- The loop past the first `k` entries: their chunks went out after the signature. -/
theorem SerialReaches.loop (h : SerialReaches s k) :
    serializeEntries s.bus s.latch.args s.latch.args.entries 0 (s.serialSink 0) =
      serializeEntries s.bus s.latch.args (s.latch.args.entries - k) k (s.serialSink k) := by
  induction k with
  | zero => rfl
  | succ k ih =>
    have hleft : s.latch.args.entries - k = s.latch.args.entries - (k + 1) + 1 := by have := h.inTable; omega
    have hentry := (h.entryOk (Nat.lt_succ_self k)).serialEntry_ok h.room h.writable
    rw [ih h.pred, hleft, serializeEntries_goesOn (readEntry_ok (readable_table_succ h.table).2) hentry
      (h.before k (Nat.lt_succ_self k)).2.2]

/-- The part of FRM.SERIALIZE after the entry loop: the closing IEND and the results. -/
def finishSerialize (b : Bus) (a : Args) (e : SerializeEnd) : Except Raise Done := do
  let (w, appended, o) ← closeStream b a e
  .ok { result := BitVec.ofNat 32 w, inUsed := BitVec.ofNat 32 e.used, flags := serializeFlags appended, out := o.out }

/-- FRM.SERIALIZE past the signature and the first `k` entries. -/
theorem SerialReaches.body (h : SerialReaches s k) :
    serializeBody s.bus s.latch.args =
      (serializeEntries s.bus s.latch.args (s.latch.args.entries - k) k (s.serialSink k) >>=
        finishSerialize s.bus s.latch.args) := by
  have hstart : putBytes s.bus s.latch.args s.latch.args.sink pngSignature 0 = .ok (s.serialSink 0) := by
    have hroom := h.room
    have hw := h.writable
    rw [State.serialBytes, List.length_append] at hroom hw
    rw [State.serialSink, serialBytes_zero]
    refine putBytes_ok ?_ (writable_add hw).1
    rw [Args.sink, sink_start_n]; omega
  rw [serializeBody, checkTableDst_ok h.regions, except_bind_ok, hstart, except_bind_ok, h.loop]
  rfl

/-! ## Where it stops with an error -/

theorem serialize_fails_of_raise {e : ErrKind} {info : Nat}
    (h : serializeBody s.bus s.latch.args = .error { err := e, info := info }) : FailsWith .frmSerialize s e info :=
  failsWith_of_raise (exec_eq .frmSerialize s) h

/-- A signature that cannot be put out ends the command. -/
theorem serialize_fails_of_signature {e : ErrKind} {info : Nat} (hok : TableDstOk s.latch.args)
    (h : putBytes s.bus s.latch.args s.latch.args.sink pngSignature 0 = .error { err := e, info := info }) :
    FailsWith .frmSerialize s e info :=
  serialize_fails_of_raise (by rw [serializeBody, checkTableDst_ok hok, except_bind_ok, h, except_bind_error])

section
variable {e : ErrKind} {info : Nat}

/-- An error of the loop's round at entry `k`, whatever number of entries is left, is the command's. -/
theorem SerialReaches.fails_of_round (h : SerialReaches s k) (hk : k < s.latch.args.entries)
    (hround : ∀ n, serializeEntries s.bus s.latch.args (n + 1) k (s.serialSink k) = .error { err := e, info := info }) :
    FailsWith .frmSerialize s e info := by
  obtain ⟨n, hn⟩ : ∃ n, s.latch.args.entries - k = n + 1 := ⟨s.latch.args.entries - k - 1, by omega⟩
  exact serialize_fails_of_raise (by rw [h.body, hn, hround, except_bind_error])

theorem SerialReaches.fails_of_entry (h : SerialReaches s k) (hk : k < s.latch.args.entries)
    (hread : Readable s.platform (s.latch.args.aux + 16 * k) 16)
    (hentry : serialEntry s.bus s.latch.args (s.entry k) k (s.serialSink k) = .error { err := e, info := info }) :
    FailsWith .frmSerialize s e info :=
  h.fails_of_round hk fun _ => serializeEntries_entry_error (readEntry_ok hread) hentry

/-- Past the last entry, a closing IEND that cannot be put out ends the command. -/
theorem SerialReaches.fails_of_close (h : SerialReaches s s.latch.args.entries)
    (hput : putBytes s.bus s.latch.args (s.serialSink s.latch.args.entries) (chunkBytes tagIend []) s.latch.args.entries =
      .error { err := e, info := info }) : FailsWith .frmSerialize s e info :=
  serialize_fails_of_raise (by
    rw [h.body, Nat.sub_self, serializeEntries, except_bind_ok, finishSerialize, closeStream, if_neg Bool.false_ne_true,
      hput, except_bind_error, except_bind_error])

end

/-- The errors of FRM.SERIALIZE come in the order of its body: the signature, the rounds of the loop, the closing IEND. -/
theorem serializeErrorRule : SerializeErrorRule := by
  refine ⟨fun s hok => ⟨fun hcap => ?_, fun hcap x hx => ?_⟩,
    fun s k h => ⟨?close, fun hk => ⟨fun x hx => ?_, fun hread => ?entry⟩⟩⟩
  · exact serialize_fails_of_signature hok (putBytes_full (by rw [Args.sink, sink_start_n]; exact hcap))
  · exact serialize_fails_of_signature hok (putBytes_hole (by rw [Args.sink, sink_start_n]; exact hcap) hx)
  case close =>
    rintro rfl
    refine ⟨fun hcap => ?_, fun hcap x hx => ?_⟩
    · exact h.fails_of_close (putBytes_full (serialSink_n ▸ hcap))
    · exact h.fails_of_close (putBytes_hole (serialSink_n ▸ hcap) (serialSink_next ▸ hx))
  · exact h.fails_of_round hk fun _ => serializeEntries_read_error (readEntry_hole hx)
  case entry =>
    have fails_of_check {e : ErrKind} (hcheck : checkSerialEntry s.latch.args (s.entry k) k = .error { err := e, info := k }) :
        FailsWith .frmSerialize s e k := h.fails_of_entry hk hread (serialEntry_check_error hcheck)
    refine ⟨fun hlong => fails_of_check (checkSerialEntry_chunkLen hlong), fun hlen => ⟨fun htag hne =>
      fails_of_check (checkSerialEntry_iendLen hlen htag hne), fun hiend => ?_⟩⟩
    have hregion := checkSerialEntry_region (a := s.latch.args) (k := k) hlen hiend
    obtain ⟨hwrap, hinside⟩ := checkEntry_cases s.latch.args (s.entry k) k
    refine ⟨fun htop => fails_of_check (hregion.trans (hwrap htop)), fun htop => ?_⟩
    obtain ⟨hoverlap, hpass⟩ := hinside htop
    refine ⟨fun x h₁ h₂ h₃ h₄ => fails_of_check (hregion.trans (hoverlap x h₁ h₂ h₃ h₄)), fun hapart => ?_⟩
    have hcheck := hregion.trans (hpass hapart)
    refine ⟨fun x hx => h.fails_of_entry hk hread (serialEntry_data_hole hcheck hx), fun hr => ?_⟩
    have hchunk : (s.entryChunk k).length = 12 + (s.entry k).len := entryChunk_length
    have hput : serialEntry s.bus s.latch.args (s.entry k) k (s.serialSink k) =
        putBytes s.bus s.latch.args (s.serialSink k) (s.entryChunk k) k := serialEntry_put hcheck hr
    refine ⟨fun hcap => h.fails_of_entry hk hread (hput.trans (putBytes_full ?_)), fun hcap x hx =>
      h.fails_of_entry hk hread (hput.trans (putBytes_hole ?_ ?_))⟩
    · rw [serialSink_n, hchunk]; omega
    · rw [serialSink_n, hchunk]; omega
    · rw [serialSink_next, hchunk]; exact hx

/-! ## How it completes -/

/-- The table ends at entry `k`, an IEND: nothing is appended. -/
theorem SerialReaches.body_ended (h : SerialReaches s k) (hk : k < s.latch.args.entries)
    (hread : Readable s.platform (s.latch.args.aux + 16 * k) 16) (hentry : s.SerialEntryOk (s.entry k))
    (htag : (s.entry k).tag = tagIend) (hroom : (s.serialBytes (k + 1)).length ≤ s.latch.args.cap)
    (hw : Writable s.platform s.latch.args.dst (s.serialBytes (k + 1)).length) :
    serializeBody s.bus s.latch.args = .ok {
      result := BitVec.ofNat 32 (k + 1), inUsed := BitVec.ofNat 32 (16 * (k + 1)), flags := 0,
      out := s.serialBytes (k + 1) } := by
  obtain ⟨n, hn⟩ : ∃ n, s.latch.args.entries - k = n + 1 := ⟨s.latch.args.entries - k - 1, by omega⟩
  rw [h.body, hn, serializeEntries_iend (readEntry_ok hread) (hentry.serialEntry_ok hroom hw) htag, except_bind_ok,
    finishSerialize, closeStream, if_pos rfl, except_bind_ok]
  dsimp only
  rw [serialSink_out]
  rfl

/-- The closing IEND chunk on the wire (R351). -/
theorem chunkBytes_iend : chunkBytes tagIend [] =
    [0x00, 0x00, 0x00, 0x00, 0x49, 0x45, 0x4E, 0x44, 0xAE, 0x42, 0x60, 0x82] := by decide +kernel

/-- The table has no IEND: an empty one is appended. -/
theorem SerialReaches.body_appended (h : SerialReaches s s.latch.args.entries)
    (hroom : (s.serialBytes s.latch.args.entries ++ chunkBytes tagIend []).length ≤ s.latch.args.cap)
    (hw : Writable s.platform s.latch.args.dst (s.serialBytes s.latch.args.entries ++ chunkBytes tagIend []).length) :
    serializeBody s.bus s.latch.args = .ok {
      result := BitVec.ofNat 32 (s.latch.args.entries + 1), inUsed := BitVec.ofNat 32 (16 * s.latch.args.entries), flags := 1,
      out := s.serialBytes s.latch.args.entries ++ chunkBytes tagIend [] } := by
  rw [List.length_append] at hroom hw
  have hput : putBytes s.bus s.latch.args (s.serialSink s.latch.args.entries) (chunkBytes tagIend []) s.latch.args.entries =
      .ok ((s.serialSink s.latch.args.entries).push (chunkBytes tagIend [])) :=
    putBytes_ok (serialSink_n ▸ hroom) (serialSink_next ▸ (writable_add hw).2)
  rw [h.body, Nat.sub_self, serializeEntries, except_bind_ok, finishSerialize, closeStream, if_neg Bool.false_ne_true, hput,
    except_bind_ok, except_bind_ok]
  dsimp only
  rw [sink_push_out, serialSink_out]
  rfl

end

/-- Settles O53: the loop is followed to its end, an IEND entry (`body_ended`) or the end of the table (`body_appended`). -/
theorem serializeWritesTheStream : Obligations.SerializeWritesTheStream := by
  refine ⟨serializeErrorRule, ?_⟩
  intro s k ended n es stream hk hdrop hended hall hok htable hentries hroom hw
  have hentry : ∀ j, j < k → s.SerialEntryOk (s.entry j) := fun j hj =>
    have ⟨hregion, hlen, hiend⟩ := hentries _ (List.mem_map_of_mem (List.mem_range.mpr hj))
    ⟨hregion, hlen, hiend⟩
  cases ended with
  | true =>
    have hstream : stream = s.serialBytes k := List.append_nil _
    obtain ⟨e, hlast, htag⟩ := hended.mp rfl
    cases k with
    | zero => cases hlast
    | succ k =>
      have hes : es = (List.range k).map s.entry ++ [s.entry k] := by simp [es, List.range_succ]
      rw [hes, List.getLast?_concat] at hlast
      rw [hes, List.dropLast_concat] at hdrop
      cases hlast
      rw [hstream] at hroom hw ⊢
      have hlen := serialBytes_succ_length (s := s) (k := k)
      have hreach : SerialReaches s k := {
        regions := hok
        inTable := by omega
        table := (readable_table_succ htable).1
        before := fun j hj => ⟨(hentry j (by omega)).region, (hentry j (by omega)).len,
          hdrop _ (List.mem_map_of_mem (List.mem_range.mpr hj))⟩
        room := by omega
        writable := writable_mono hw (by omega) }
      exact exec_success .frmSerialize hok.dst (hreach.body_ended hk (readable_table_succ htable).2 (hentry k (by omega)) htag
        hroom hw)
  | false =>
    obtain rfl : k = s.latch.args.entries := hall rfl
    have hstream : stream = s.serialBytes s.latch.args.entries ++ chunkBytes tagIend [] := by
      rw [chunkBytes_iend]; rfl
    have hnoIend : ∀ j, j < s.latch.args.entries → (s.entry j).tag ≠ tagIend := by
      intro j hj htag
      have hmem : s.entry j ∈ es := List.mem_map_of_mem (List.mem_range.mpr hj)
      by_cases hlast : es.getLast? = some (s.entry j)
      · exact Bool.false_ne_true (hended.mpr ⟨_, hlast, htag⟩)
      · exact hdrop _ (List.mem_dropLast_of_mem_of_ne_getLast? hmem (Ne.symm hlast)) htag
    rw [hstream] at hroom hw ⊢
    have hreach : SerialReaches s s.latch.args.entries := {
      regions := hok
      inTable := Nat.le_refl _
      table := htable
      before := fun j hj => ⟨(hentry j hj).region, (hentry j hj).len, hnoIend j hj⟩
      room := by rw [List.length_append] at hroom; omega
      writable := writable_mono hw (by rw [List.length_append]; omega) }
    exact exec_success .frmSerialize hok.dst (hreach.body_appended hroom hw)

end Sys2Proof.Machine
end

section
/-! PROOF. The command word: its fields as numbers, its decoding said once, and the encoding as its inverse (rules R120 to R123,
R126, R128). -/

namespace Sys2Proof

/-! ## The fields of a word as numbers (R121) -/

section
variable (op : BitVec 8) (mod : BitVec 4) (z : Bool) (w : Word)

theorem toNat_append_eq {m n : Nat} (x : BitVec m) (y : BitVec n) : (x ++ y).toNat = 2 ^ n * x.toNat + y.toNat := by
  rw [BitVec.toNat_append, ← Nat.shiftLeft_add_eq_or_of_lt y.isLt, Nat.shiftLeft_eq, Nat.mul_comm]

theorem toNat_packFields : (packFields op mod z).toNat = op.toNat + 256 * mod.toNat + 4096 * z.toNat := by
  rw [packFields, BitVec.toNat_cast, toNat_append_eq, toNat_append_eq, toNat_append_eq, BitVec.toNat_ofBool, BitVec.toNat_ofNat]
  omega

theorem toNat_fieldOp : (fieldOp w).toNat = w.toNat % 256 := BitVec.extractLsb'_toNat 0 8 w

theorem toNat_fieldMod : (fieldMod w).toNat = w.toNat / 256 % 16 := by
  rw [fieldMod, BitVec.extractLsb'_toNat, Nat.shiftRight_eq_div_pow]

theorem toNat_fieldRsv : (fieldRsv w).toNat = w.toNat / 2 ^ 13 := by
  have hw := w.isLt
  rw [fieldRsv, BitVec.extractLsb'_toNat, Nat.shiftRight_eq_div_pow]
  omega

theorem toNat_fieldZ : (fieldZ w).toNat = w.toNat / 4096 % 2 := by
  rw [fieldZ, BitVec.getLsbD, Nat.toNat_testBit]

theorem fieldRsv_eq_zero_iff : fieldRsv w = 0 ↔ w.toNat / 2 ^ 13 = 0 := by
  rw [← BitVec.toNat_inj, toNat_fieldRsv]; rfl

theorem fieldZ_iff : fieldZ w = true ↔ w.toNat / 4096 % 2 = 1 := by
  rw [← toNat_fieldZ]; cases fieldZ w <;> decide

/-! ## A packed word has its fields, and a word with RSV = 0 is the packed word of its fields -/

@[simp] theorem fieldOp_packFields : fieldOp (packFields op mod z) = op := by
  have hop := op.isLt
  refine BitVec.eq_of_toNat_eq ?_
  rw [toNat_fieldOp, toNat_packFields]; omega

@[simp] theorem fieldMod_packFields : fieldMod (packFields op mod z) = mod := by
  have hop := op.isLt
  have hmod := mod.isLt
  refine BitVec.eq_of_toNat_eq ?_
  rw [toNat_fieldMod, toNat_packFields]; omega

@[simp] theorem fieldZ_packFields : fieldZ (packFields op mod z) = z := by
  have hop := op.isLt
  have hmod := mod.isLt
  rw [Bool.eq_iff_iff, fieldZ_iff, toNat_packFields]
  cases z with
  | false => simp; omega
  | true => simp; omega

@[simp] theorem fieldRsv_packFields : fieldRsv (packFields op mod z) = 0 := by
  have hop := op.isLt
  have hmod := mod.isLt
  have hz := z.toNat_le
  rw [fieldRsv_eq_zero_iff, toNat_packFields]; omega

theorem packFields_fields {w : Word} (h : fieldRsv w = 0) : packFields (fieldOp w) (fieldMod w) (fieldZ w) = w := by
  rw [fieldRsv_eq_zero_iff] at h
  refine BitVec.eq_of_toNat_eq ?_
  rw [toNat_packFields, toNat_fieldOp, toNat_fieldMod, toNat_fieldZ]; omega

end

/-! ## The opcode map (R122) -/

/-- The OP value of an opcode. -/
def Opcode.byte : Opcode → BitVec 8
  | .nop => 0x00
  | .crcCompute => 0x01
  | .crcVerify => 0x02
  | .inflate => 0x10
  | .deflate => 0x11
  | .frmParse => 0x20
  | .frmIdatcat => 0x21
  | .frmSerialize => 0x22
  | .fltReverse => 0x30
  | .fltApply => 0x31

/-- The assigned OP values are those of the opcodes. -/
theorem opcodeOf_eq_some {b : BitVec 8} {o : Opcode} : opcodeOf b = some o ↔ b = o.byte := by
  refine ⟨fun h => ?_, fun h => by subst h; cases o <;> rfl⟩
  unfold opcodeOf at h
  split at h
  case h_11 => cases h
  all_goals
    next hb => cases h; exact BitVec.eq_of_toNat_eq hb

/-- The OP values of the map, in its order. -/
theorem mem_opcodes_iff {n : Nat} :
    n ∈ [0x00, 0x01, 0x02, 0x10, 0x11, 0x20, 0x21, 0x22, 0x30, 0x31] ↔ ∃ o : Opcode, n = o.byte.toNat := by
  refine ⟨fun h => ?_, fun ⟨o, h⟩ => by subst h; cases o <;> decide⟩
  simp only [List.mem_cons, List.not_mem_nil, or_false] at h
  rcases h with h | h | h | h | h | h | h | h | h | h
  · exact ⟨.nop, h⟩
  · exact ⟨.crcCompute, h⟩
  · exact ⟨.crcVerify, h⟩
  · exact ⟨.inflate, h⟩
  · exact ⟨.deflate, h⟩
  · exact ⟨.frmParse, h⟩
  · exact ⟨.frmIdatcat, h⟩
  · exact ⟨.frmSerialize, h⟩
  · exact ⟨.fltReverse, h⟩
  · exact ⟨.fltApply, h⟩

/-- Z = 1 is legal on INFLATE and DEFLATE (R123). -/
theorem takesZ_iff {o : Opcode} : o.takesZ = true ↔ o.byte.toNat ∈ [0x10, 0x11] := by cases o <;> decide

/-! ## MOD (R123) -/

/-- The opcode, MOD and Z of a command. -/
def Instr.fields : Instr → Opcode × BitVec 4 × Bool
  | .nop => (.nop, 0, false)
  | .crcCompute => (.crcCompute, 0, false)
  | .crcVerify => (.crcVerify, 0, false)
  | .inflate => (.inflate, 0, false)
  | .inflateZ => (.inflate, 0, true)
  | .deflate level => (.deflate, level, false)
  | .deflateZ level => (.deflate, level, true)
  | .frmParse => (.frmParse, 0, false)
  | .frmIdatcat => (.frmIdatcat, 0, false)
  | .frmSerialize => (.frmSerialize, 0, false)
  | .fltReverse => (.fltReverse, 0, false)
  | .fltApplyNone => (.fltApply, 0, false)
  | .fltApplySub => (.fltApply, 1, false)
  | .fltApplyUp => (.fltApply, 2, false)
  | .fltApplyAvg => (.fltApply, 3, false)
  | .fltApplyPaeth => (.fltApply, 4, false)
  | .fltApplyAuto => (.fltApply, 15, false)

theorem encode_eq (i : Instr) : encode i = packFields i.fields.1.byte i.fields.2.1 i.fields.2.2 := by cases i <;> rfl

theorem takesZ_of_fields (i : Instr) : i.fields.2.2 = true → i.fields.1.takesZ = true := by
  cases i with
  | inflateZ | deflateZ level => exact fun _ => rfl
  | _ => exact nofun

/-- The fields of a command that exists select it. -/
theorem select_fields {i : Instr} (h : i.wellFormed = true) : select i.fields.1 i.fields.2.1 i.fields.2.2 = some i := by
  cases i with
  | deflate level | deflateZ level => exact if_pos h
  | _ => rfl

/-- What is selected is a command that exists, with these fields, where Z = 1 is legal. -/
theorem fields_of_select {op : Opcode} {mod : BitVec 4} {z : Bool} {i : Instr} (hz : z = true → op.takesZ = true)
    (h : select op mod z = some i) : i.wellFormed = true ∧ i.fields = (op, mod, z) := by
  have modEq {n : Nat} (hn : mod.toNat = n) : mod = BitVec.ofNat 4 n := by rw [← hn, BitVec.ofNat_toNat, BitVec.setWidth_eq]
  unfold select at h
  cases op with
  | inflate =>
    dsimp only at h
    split at h
    · next hmod => rw [modEq hmod]; cases z <;> (cases h; exact ⟨rfl, rfl⟩)
    · cases h
  | deflate =>
    dsimp only at h
    split at h
    · next hlevel => cases z <;> (cases h; exact ⟨hlevel, rfl⟩)
    · cases h
  | fltApply =>
    obtain rfl : z = false := Bool.eq_false_iff.mpr fun h => absurd (hz h) Bool.false_ne_true
    dsimp only at h
    split at h
    case h_7 => cases h
    all_goals next hmod => rw [modEq hmod]; cases h; exact ⟨rfl, rfl⟩
  | _ =>
    obtain rfl : z = false := Bool.eq_false_iff.mpr fun h => absurd (hz h) Bool.false_ne_true
    dsimp only at h
    split at h
    · next hmod => rw [modEq hmod]; cases h; exact ⟨rfl, rfl⟩
    · cases h

/-- Which MOD is legal for an OP value (R123). -/
def ModLegal (op mod : Nat) : Prop :=
  (op = 0x11 → mod ≤ 9) ∧ (op = 0x31 → mod ∈ [0, 1, 2, 3, 4, 15]) ∧ (op ≠ 0x11 → op ≠ 0x31 → mod = 0)

/-- MOD selects nothing exactly where it is not legal. -/
theorem select_eq_none {op : Opcode} {mod : BitVec 4} {z : Bool} :
    select op mod z = none ↔ ¬ModLegal op.byte.toNat mod.toNat := by
  unfold select
  cases op with
  | deflate => simp [ModLegal, Opcode.byte, levelOk]
  | fltApply =>
    dsimp only
    split
    case h_7 h₀ h₁ h₂ h₃ h₄ h₁₅ => simpa [ModLegal, Opcode.byte] using ⟨h₀, h₁, h₂, h₃, h₄, h₁₅⟩
    all_goals next hmod => simp [ModLegal, Opcode.byte, hmod]
  | _ => simp [ModLegal, Opcode.byte]

/-! ## The decoder (R126) -/

section
variable {w : Word} {op : Opcode} {i : Instr}

theorem decode_reservedBits (h : fieldRsv w ≠ 0) : decode w = .error .reservedBits := if_pos h

theorem decode_opcode (hrsv : fieldRsv w = 0) (h : opcodeOf (fieldOp w) = none) : decode w = .error .opcode := by
  rw [decode, if_neg (not_not_intro hrsv), h]

section
variable (hrsv : fieldRsv w = 0) (hop : opcodeOf (fieldOp w) = some op)
include hrsv hop

theorem decode_zbit (h : ¬(fieldZ w = true → op.takesZ = true)) : decode w = .error .zbit := by
  rw [decode, if_neg (not_not_intro hrsv), hop]
  exact if_pos (by simpa using h)

theorem decode_mod (hz : fieldZ w = true → op.takesZ = true) (h : select op (fieldMod w) (fieldZ w) = none) :
    decode w = .error .mod := by
  rw [decode, if_neg (not_not_intro hrsv), hop]
  dsimp only
  rw [if_neg (by simpa using hz), h]

theorem decode_ok (hz : fieldZ w = true → op.takesZ = true) (h : select op (fieldMod w) (fieldZ w) = some i) :
    decode w = .ok i := by
  rw [decode, if_neg (not_not_intro hrsv), hop]
  dsimp only
  rw [if_neg (by simpa using hz), h]

end

/-- A word that decodes passed every check, and its fields select its command. -/
theorem checks_of_decode (h : decode w = .ok i) : fieldRsv w = 0 ∧ ∃ op, opcodeOf (fieldOp w) = some op ∧
    (fieldZ w = true → op.takesZ = true) ∧ select op (fieldMod w) (fieldZ w) = some i := by
  by_cases hrsv : fieldRsv w = 0
  case neg => rw [decode_reservedBits hrsv] at h; cases h
  cases hop : opcodeOf (fieldOp w) with
  | none => rw [decode_opcode hrsv hop] at h; cases h
  | some op =>
    by_cases hz : fieldZ w = true → op.takesZ = true
    case neg => rw [decode_zbit hrsv hop hz] at h; cases h
    cases hsel : select op (fieldMod w) (fieldZ w) with
    | none => rw [decode_mod hrsv hop hz hsel] at h; cases h
    | some j => rw [decode_ok hrsv hop hz hsel] at h; cases h; exact ⟨hrsv, op, rfl, hz, hsel⟩

theorem decode_encode (h : i.wellFormed = true) : decode (encode i) = .ok i := by
  rw [encode_eq]
  refine decode_ok (op := i.fields.1) (fieldRsv_packFields ..) ?_ ?_ ?_
  · rw [fieldOp_packFields, opcodeOf_eq_some]
  · rw [fieldZ_packFields]; exact takesZ_of_fields i
  · rw [fieldMod_packFields, fieldZ_packFields]; exact select_fields h

theorem wellFormed_and_encode_of_decode (h : decode w = .ok i) : i.wellFormed = true ∧ encode i = w := by
  obtain ⟨hrsv, op, hop, hz, hsel⟩ := checks_of_decode h
  obtain ⟨hwf, hfields⟩ := fields_of_select hz hsel
  refine ⟨hwf, ?_⟩
  rw [encode_eq, hfields, ← opcodeOf_eq_some.mp hop, packFields_fields hrsv]

end

/-- Settles O1: the decoder is the inverse of `encode` on the fields of a command. -/
theorem decodeAndEncodeAgree : Obligations.DecodeAndEncodeAgree :=
  ⟨fun _ => decode_encode, fun _ _ => wellFormed_and_encode_of_decode⟩

/-- Settles O3: each word, evaluated. -/
theorem specWordsDecode : Obligations.SpecWordsDecode := by
  unfold Obligations.SpecWordsDecode
  decide

open Machine in
/-- Settles O2: the number of each field against the check of the decoder on it. -/
theorem decodeChecksInOrder : Obligations.DecodeChecksInOrder := by
  intro w rsv op mod z assigned zLegal modLegal raises
  have raises_of_decode {k : Illegal} (h : decode w = .error k) : raises k := by
    refine ⟨h, fun s hs => ?_⟩
    subst hs
    exact ⟨_, executeStep_illegal h, raiseWith_failure true _ s⟩
  have hrsv : rsv = 0 ↔ fieldRsv w = 0 := (fieldRsv_eq_zero_iff w).symm
  have hassigned : assigned ↔ ∃ o, opcodeOf (fieldOp w) = some o := by
    simp only [assigned, op, mem_opcodes_iff, opcodeOf_eq_some, ← toNat_fieldOp, BitVec.toNat_inj]
  simp only [hassigned, hrsv, ne_eq, not_exists]
  refine ⟨fun h => raises_of_decode (decode_reservedBits h), fun h hop => raises_of_decode (decode_opcode h ?_), ?_⟩
  · exact Option.eq_none_iff_forall_ne_some.mpr hop
  have checked {o : Opcode} (ho : opcodeOf (fieldOp w) = some o) :
      (zLegal ↔ (fieldZ w = true → o.takesZ = true)) ∧ (modLegal ↔ select o (fieldMod w) (fieldZ w) ≠ none) := by
    have hop : o.byte.toNat = op := by rw [← opcodeOf_eq_some.mp ho, toNat_fieldOp]
    rw [fieldZ_iff, takesZ_iff, Ne, select_eq_none, toNat_fieldMod, hop, not_not]
    exact ⟨Iff.rfl, Iff.rfl⟩
  refine ⟨fun h ⟨o, ho⟩ hz => ?_, fun h ⟨o, ho⟩ hz hmod => ?_, fun h ⟨o, ho⟩ hz hmod => ?_⟩
  all_goals obtain ⟨hzLegal, hmodLegal⟩ := checked ho
  · exact raises_of_decode (decode_zbit h ho (mt hzLegal.mpr hz))
  · exact raises_of_decode (decode_mod h ho (hzLegal.mp hz) (not_not.mp (mt hmodLegal.mpr hmod)))
  · obtain ⟨i, hi⟩ := Option.ne_none_iff_exists'.mp (hmodLegal.mp hmod)
    exact ⟨i, decode_ok h ho (hzLegal.mp hz) hi⟩

end Sys2Proof
end

section
/-! PROOF. The execute step in a step, the end of a wait, and the CMD write (rules R124, R125, R143, R461, R495). -/

namespace Sys2Proof.Machine

/-! ## One step, by the next event -/

section
variable {s : State} {es : List Event}

theorem step_noEvent_busy (hbusy : s.status.busy = true) (h : s.events = []) : step s = executeStep s := by
  rw [step, h]; exact if_pos hbusy

theorem step_wait_busy (hbusy : s.status.busy = true) (h : s.events = .wait :: es) : step s = executeStep s := by
  rw [step, h]; exact if_pos hbusy

theorem step_coreStep_busy (hbusy : s.status.busy = true) (h : s.events = .coreStep :: es) :
    step s = executeStep { s with events := es } := by
  rw [step_event h nofun]; exact if_pos hbusy

theorem step_noEvent_idle (hidle : s.status.busy = false) (h : s.events = []) : step s = .next s := by
  rw [step, h]; exact if_neg (Bool.eq_false_iff.mp hidle)

theorem step_wait_idle (hidle : s.status.busy = false) (h : s.events = .wait :: es) :
    step s = .next (waitEnds { s with events := es }) := by
  rw [step, h]; exact if_neg (Bool.eq_false_iff.mp hidle)

theorem step_coreStep_idle (hidle : s.status.busy = false) (h : s.events = .coreStep :: es) :
    step s = .next { s with events := es } := by
  rw [step_event h nofun]; exact if_neg (Bool.eq_false_iff.mp hidle)

end

/-- Settles O6: the execute step in the three places where it comes, and the two steps of an idle core. -/
theorem stepRunsDecodedCommand : Obligations.StepRunsDecodedCommand := by
  refine ⟨fun s i hbusy hdec => ⟨fun h => ?_, fun es h => ?_, fun es h => ?_⟩,
    fun s k hbusy _ => ⟨step_noEvent_busy hbusy, fun _ => step_wait_busy hbusy, fun _ => step_coreStep_busy hbusy⟩,
    fun s hidle => ⟨step_noEvent_idle hidle, fun _ => step_coreStep_idle hidle⟩⟩
  · rw [step_noEvent_busy hbusy h, executeStep_decoded hdec]
  · rw [step_wait_busy hbusy h, executeStep_decoded hdec]
  · rw [step_coreStep_busy hbusy h]; exact executeStep_decoded hdec

theorem decode_of_decodeTableWord {nbits w : Nat} {i : Instr} (h : decodeTableWord nbits w = some i) :
    decode (tableWord nbits w) = .ok i := by
  rw [decodeTableWord] at h
  cases hdec : decode (tableWord nbits w) with
  | ok j => rw [hdec] at h; cases h; rfl
  | error k => rw [hdec] at h; cases h

/-- Settles O7: the start latches the word, and the next event is the execute step. -/
theorem fetchedWordRunsNext : Obligations.FetchedWordRunsNext := by
  intro s nbits w i h
  rw [step_coreStep_busy (withFetchWord_status s nbits w ▸ rfl) (withFetchWord_events s nbits w)]
  exact executeStep_decoded (decode_of_decodeTableWord h)

/-- BUSY is bit 0 of the STATUS word (R34). -/
theorem statusWord_busy (t : Status) : t.word.getLsbD 0 = t.busy := by
  obtain ⟨busy, done, err, ovr⟩ := t
  revert busy done err ovr
  decide

/-- Settles O10: the execute step is a completion, which leaves BUSY = 0 and the `wait` next. -/
theorem waitEndsAfterTheExecuteStep : Obligations.WaitEndsAfterTheExecuteStep := by
  intro s es hbusy hs
  obtain ⟨hasDst, r, hexec⟩ := executeStep_complete s
  have hidle := complete_busy hasDst r s
  have hwait : (complete hasDst r s).events = .wait :: es := (complete_events hasDst r s).trans hs
  exact ⟨_, _, (step_wait_busy hbusy hs).trans hexec, hidle, complete_done hasDst r s, step_wait_idle hidle hwait, rfl, rfl,
    (statusWord_busy _).trans hidle, rfl, rfl, rfl⟩

/-! ## The CMD write -/

/-- Settles O13: a CMD write while IDLE is the start. -/
theorem cmdWriteWhileIdleStarts : Obligations.CmdWriteWhileIdleStarts := by
  intro s w hidle
  have hstart : hostWrite s 0x0C w = startCommand w s := if_neg (Bool.eq_false_iff.mp hidle)
  rw [hstart]
  exact ⟨rfl, rfl, rfl, rfl, rfl, rfl, rfl, rfl, rfl, rfl, rfl, rfl, rfl⟩

/-- Settles O14: the other branch of the CMD write. -/
theorem cmdWriteWhileBusyIsDropped : Obligations.CmdWriteWhileBusyIsDropped := fun _ _ hbusy => if_pos hbusy

end Sys2Proof.Machine
end

section
/-! PROOF. How FRM.PARSE completes, at each of its three stops (rules R343, R344). -/

namespace Sys2Proof.Machine

/-! ## The end of the loop (R343) -/

section
variable {b : Bus} {a : Args} {n p k : Nat} {o : Sink} {c : Chunk}

/-- An IEND chunk, and the last one of MAX_CHUNKS, is the last one listed. -/
theorem parseChunks_lastChunk (hp : p < a.len) (h : readChunk b a p = .ok c) (ht : c.tag.length = 4)
    (hcap : 16 * (k + 1) ≤ a.cap) (hw : Writable b.platform (o.base + o.n) 16)
    (hstop : c.tag ≠ tagIend → a.arg0.toNat ≠ 0 ∧ k + 1 = a.arg0.toNat) :
    parseChunks b a (n + 1) p k o = .ok {
      p := p + 12 + c.len, k := k + 1, iend := decide (c.tag = tagIend), maxStop := decide (c.tag ≠ tagIend),
      sink := o.push (descriptor c (a.src + p + 8)) } := by
  rw [← descriptor_length (addr := a.src + p + 8) ht] at hw
  rw [parseChunks, if_pos hp, h, except_bind_ok, if_neg (Nat.not_lt.mpr hcap), memWrite_ok b _ _ hw, except_bind_ok]
  dsimp only
  by_cases hiend : c.tag = tagIend
  · rw [if_pos hiend, decide_eq_true hiend, decide_eq_false (not_not_intro hiend)]
  · rw [if_neg hiend, if_pos (hstop hiend), decide_eq_false hiend, decide_eq_true hiend]

theorem parseChunks_endOfInput (hp : a.len ≤ p) :
    parseChunks b a (n + 1) p k o = .ok { p := p, k := k, iend := false, maxStop := false, sink := o } :=
  if_neg (Nat.not_lt.mpr hp)

end

/-! ## What is listed -/

theorem wireBytes_append (cs ds : List (List Byte × List Byte)) : wireBytes (cs ++ ds) = wireBytes cs ++ wireBytes ds :=
  List.flatMap_append

theorem wireBytes_singleton (c : List Byte × List Byte) : wireBytes [c] = chunkBytes c.1 c.2 := List.append_nil _

theorem tableBytes_append {cs : List (List Byte × List Byte)} (ds : List (List Byte × List Byte)) (addr : Nat) (h : ChunksOk cs) :
    tableBytes addr (cs ++ ds) = tableBytes addr cs ++ tableBytes (addr + (wireBytes cs).length) ds := by
  induction cs generalizing addr with
  | nil => rfl
  | cons c cs ih =>
    have haddr : addr + 12 + c.2.length + (wireBytes cs).length = addr + (wireBytes (c :: cs)).length := by
      rw [wireBytes_cons, List.length_append, chunkBytes_length (h c (by simp)).1]; omega
    rw [List.cons_append, tableBytes_cons, tableBytes_cons, ih _ fun d hd => h d (.tail _ hd), haddr, List.append_assoc]

/-- FLAGS_OUT of FRM.PARSE bit by bit (R43). -/
theorem parseFlags_eq (iend trailing maxStop : Bool) : parseFlags iend trailing maxStop =
    BitVec.ofNat 32 ((if iend then 1 else 0) + (if trailing then 2 else 0) + (if maxStop then 4 else 0)) := by
  cases iend <;> cases trailing <;> cases maxStop <;> rfl

section
variable {s : State} {cs : List (List Byte × List Byte)} {rest : List Byte}

/-- The results of FRM.PARSE are those of the round past the chunks, whatever fuel is left. -/
theorem ParseReaches.body_of_round (h : ParseReaches s cs rest) {e : ParseEnd}
    (hround : ∀ n, parseChunks s.bus s.latch.args (n + 1) (8 + (wireBytes cs).length) cs.length
      (sinkPast s.latch.args cs) = .ok e) :
    parseBody s.bus s.latch.args = .ok {
      result := BitVec.ofNat 32 e.k, inUsed := BitVec.ofNat 32 e.p,
      flags := parseFlags e.iend (decide (e.p < s.latch.args.len)) e.maxStop, out := e.sink.out } := by
  obtain ⟨n, hn⟩ : ∃ n, s.latch.args.len = n + 1 + cs.length := by
    have hlen := h.len_eq
    have hcount := length_le_wireBytes_length (cs := cs)
    exact ⟨s.latch.args.len - 1 - cs.length, by omega⟩
  have hloop : parseChunks s.bus s.latch.args s.latch.args.len 8 0 s.latch.args.sink = .ok e := by
    rw [hn, h.pass.parse, Nat.zero_add]
    exact hround n
  rw [parseBody, checkSrcTable_ok h.regions h.align, except_bind_ok, h.checkSignature_ok, except_bind_ok, hloop,
    except_bind_ok]

theorem sinkPast_out (a : Args) : (sinkPast a cs).out = tableBytes (a.src + 8) cs := by
  rw [sinkPast, sink_push_out, Args.sink, sink_start_out, List.nil_append]

/-- The source ends after the chunks: they are all listed. -/
theorem ParseReaches.body_endOfInput (h : ParseReaches s cs []) :
    parseBody s.bus s.latch.args = .ok {
      result := BitVec.ofNat 32 cs.length, inUsed := BitVec.ofNat 32 (8 + (wireBytes cs).length),
      flags := parseFlags false false false, out := tableBytes (s.latch.args.src + 8) cs } := by
  have hlen : s.latch.args.len = 8 + (wireBytes cs).length := h.len_eq
  rw [h.body_of_round fun n => parseChunks_endOfInput (Nat.le_of_eq hlen), sinkPast_out, hlen,
    decide_eq_false (Nat.lt_irrefl _)]

/-- One more chunk stands past the others, and the loop stops after it: it is listed too, and what follows is not read. -/
theorem ParseReaches.body_lastChunk {c : List Byte × List Byte} (h : ParseReaches s cs (chunkBytes c.1 c.2 ++ rest))
    (ht : c.1.length = 4) (hd : c.2.length ≤ Config.framerMaxLen) (hcap : 16 * (cs.length + 1) ≤ s.latch.args.cap)
    (hr : Readable s.platform s.latch.args.src (8 + (wireBytes (cs ++ [c])).length))
    (hw : Writable s.platform s.latch.args.dst (16 * (cs.length + 1)))
    (hstop : c.1 ≠ tagIend → s.latch.args.arg0.toNat ≠ 0 ∧ cs.length + 1 = s.latch.args.arg0.toNat) :
    parseBody s.bus s.latch.args = .ok {
      result := BitVec.ofNat 32 (cs.length + 1), inUsed := BitVec.ofNat 32 (8 + (wireBytes (cs ++ [c])).length),
      flags := parseFlags (decide (c.1 = tagIend)) (decide (rest ≠ [])) (decide (c.1 ≠ tagIend)),
      out := tableBytes (s.latch.args.src + 8) (cs ++ [c]) } := by
  have hchunk := chunkBytes_length (data := c.2) ht
  have hwire : 8 + (wireBytes (cs ++ [c])).length = 8 + (wireBytes cs).length + 12 + c.2.length := by
    rw [wireBytes_append, wireBytes_singleton, List.length_append, hchunk]; omega
  have hlen := h.len_eq
  rw [List.length_append, hchunk] at hlen
  have htrailing : 8 + (wireBytes (cs ++ [c])).length < s.latch.args.len ↔ rest ≠ [] := by
    rw [hwire, ← List.length_pos_iff]; omega
  have htable : tableBytes (s.latch.args.src + 8) (cs ++ [c]) = tableBytes (s.latch.args.src + 8) cs ++
      wireDescriptor c (s.latch.args.src + (8 + (wireBytes cs).length) + 8) := by
    rw [tableBytes_append _ _ h.chunks, tableBytes_cons, tableBytes, List.append_nil, Nat.add_assoc _ 8]
  rw [hwire, Nat.add_assoc _ 12] at hr
  have hread := readChunk_chunkBytes (b := s.bus) (a := s.latch.args) ht hd (by omega) (memHolds_append.mp h.held.2.2).1
    (readable_add.mp hr).2
  have hnext : (sinkPast s.latch.args cs).base + (sinkPast s.latch.args cs).n = s.latch.args.dst + 16 * cs.length := by
    rw [sinkPast, sink_push_base, sink_push_n, tableBytes_length _ h.chunks, Args.sink, sink_start_base, sink_start_n,
      Nat.zero_add]
  rw [h.body_of_round fun n => parseChunks_lastChunk (by omega) hread ht hcap (hnext ▸ (writable_add hw).2) hstop]
  simp only [← hwire, htrailing, sink_push_out, sinkPast_out, htable]
  rfl

end

/-- Settles O49: the loop passes the chunks up to its stop, the end of the input or a last chunk. -/
theorem parseListsTheChunks : Obligations.ParseListsTheChunks := by
  intro s cs rest iend maxStop hok halign hchunks hsource hdrop hiend hmax hmaxStop hend hroom hr hw
  by_cases hstop : iend = false ∧ maxStop = false
  case pos =>
    obtain ⟨rfl, rfl⟩ := hstop
    obtain rfl : rest = [] := hend rfl rfl
    have hnoIend : ∀ c, c ∈ cs → c.1 ≠ tagIend := by
      intro c hc htag
      by_cases hlast : cs.getLast? = some c
      · exact Bool.false_ne_true (hiend.mpr ⟨c, hlast, htag⟩)
      · exact hdrop c (List.mem_dropLast_of_mem_of_ne_getLast? hc (Ne.symm hlast)) htag
    have hnoMax : s.latch.args.arg0.toNat = 0 ∨ cs.length < s.latch.args.arg0.toNat := by
      have hne := mt hmaxStop.mpr Bool.false_ne_true
      simp only [true_and] at hne
      omega
    have hreach : ParseReaches s cs [] := ⟨hok, halign, hchunks, hsource, hnoIend, hnoMax, hroom, hr, hw⟩
    exact exec_success .frmParse hok.dst hreach.body_endOfInput
  case neg =>
    obtain rfl | ⟨cs, c, rfl⟩ := List.eq_nil_or_concat' cs
    · refine absurd ⟨Bool.eq_false_iff.mpr fun h => ?_, Bool.eq_false_iff.mpr fun h => ?_⟩ hstop
      · obtain ⟨c, hlast, -⟩ := hiend.mp h
        cases hlast
      · obtain ⟨-, hne, hzero⟩ := hmaxStop.mp h
        exact hne hzero.symm
    · rw [List.getLast?_concat] at hiend
      rw [List.dropLast_concat] at hdrop
      rw [List.length_append, List.length_singleton] at hmax hmaxStop hroom hw ⊢
      obtain ⟨ht, hd⟩ := hchunks c (by simp)
      have hreach : ParseReaches s cs (chunkBytes c.1 c.2 ++ rest) := {
        regions := hok
        align := halign
        chunks := fun d hd => hchunks d (List.mem_append_left _ hd)
        source := by rw [hsource, wireBytes_append, wireBytes_singleton]; simp only [List.append_assoc]
        noIend := hdrop
        noMax := by omega
        room := by omega
        readable := fun x h₁ h₂ => hr x h₁ (by rw [wireBytes_append, List.length_append]; omega)
        writable := writable_mono hw (by omega) }
      have hlast : iend = decide (c.1 = tagIend) := by
        rw [Bool.eq_iff_iff, hiend, decide_eq_true_iff]; simp
      have hother : maxStop = decide (c.1 ≠ tagIend) := by
        rw [decide_not, ← hlast]
        cases iend with
        | false => exact Bool.eq_true_of_not_eq_false fun h => hstop ⟨rfl, h⟩
        | true => exact Bool.eq_false_iff.mpr fun h => absurd (hmaxStop.mp h).1 nofun
      have hbody := hreach.body_lastChunk ht hd hroom hr hw fun hne =>
        (hmaxStop.mp (hother.trans (decide_eq_true hne))).2
      rw [← hlast, ← hother] at hbody
      obtain ⟨t, hexec, hsuccess⟩ := exec_success .frmParse hok.dst hbody
      refine ⟨t, hexec, ?_⟩
      rw [parseFlags_eq] at hsuccess
      simpa using hsuccess

end Sys2Proof.Machine
end

section
/-! PROOF. FLT.REVERSE: one row, the row loop up to a row, and how the command ends (rules R13, R141, R389, R390). -/

namespace Sys2Proof.Machine

/-! ## Type bytes and rows (R141, R389) -/

theorem readable_mono {p : Platform} {base n m : Nat} (h : Readable p base m) (hle : n ≤ m) : Readable p base n :=
  fun a h₁ h₂ => h a h₁ (by omega)

/-- Among the rows that are not in order there is a first one. -/
theorem exists_first {rows : Nat} {P : Nat → Prop} (h : ∃ r, r < rows ∧ ¬P r) :
    ∃ r, r < rows ∧ ¬P r ∧ ∀ r', r' < r → P r' := by
  classical
  obtain ⟨hrows, hbad⟩ := Nat.find_spec h
  exact ⟨Nat.find h, hrows, hbad, fun r' hr' => not_not.mp fun hn => Nat.find_min h hr' ⟨hr'.trans hrows, hn⟩⟩

theorem filterOf_eq_none : ∀ {t : Nat}, filterOf t = Option.none ↔ ¬t ≤ 4
  | 0 | 1 | 2 | 3 | 4 => by decide
  | t + 5 => ⟨fun _ => by omega, fun _ => rfl⟩

theorem filterOf_of_le {t : Nat} (h : t ≤ 4) : ∃ f, filterOf t = some f :=
  Option.ne_none_iff_exists'.mp fun hnone => filterOf_eq_none.mp hnone h

theorem reverseFrom_length (t : FilterType) (bpp : Nat) : ∀ {filt prev : List Byte} (curPassed prevPassed : List Byte),
    filt.length = prev.length → (reverseFrom t bpp filt prev curPassed prevPassed).length = filt.length := by
  intro filt
  induction filt with
  | nil => intro prev _ _ _; rfl
  | cons f filt ih =>
    intro prev _ _ h
    cases prev with
    | nil => cases h
    | cons b prev => exact congrArg (· + 1) (ih _ _ (Nat.succ.inj h))

theorem reverseRow_length {t : FilterType} {bpp : Nat} {filt prev : List Byte} (h : filt.length = prev.length) :
    (reverseRow t bpp filt prev).length = filt.length := reverseFrom_length t bpp [] [] h

/-! ## One row of the image (R390) -/

section
variable {m : Memory} {bpp rowBytes n base : Nat} {prev : List Byte} {f : FilterType}

/-- A filtered image in memory begins with a type byte and the bytes of its row. -/
theorem memBytes_filtered (m : Memory) (base rowBytes n : Nat) :
    memBytes m base ((n + 1) * (1 + rowBytes)) =
      m.read base :: (memBytes m (base + 1) rowBytes ++ memBytes m (base + (1 + rowBytes)) (n * (1 + rowBytes))) := by
  rw [Nat.succ_mul, Nat.add_comm, Nat.add_comm 1 rowBytes, Nat.add_right_comm, memBytes_succ, memBytes_append,
    Nat.add_assoc base 1, Nat.add_comm 1 rowBytes]

theorem unfilterImage_badType (h : filterOf (m.read base).toNat = Option.none) :
    unfilterImage bpp rowBytes (n + 1) prev (memBytes m base ((n + 1) * (1 + rowBytes))) = Option.none := by
  rw [memBytes_filtered, unfilterImage, h]

theorem unfilterImage_row (h : filterOf (m.read base).toNat = some f) :
    unfilterImage bpp rowBytes (n + 1) prev (memBytes m base ((n + 1) * (1 + rowBytes))) =
      (unfilterImage bpp rowBytes n (reverseRow f bpp (memBytes m (base + 1) rowBytes) prev)
        (memBytes m (base + (1 + rowBytes)) (n * (1 + rowBytes)))).map
          (reverseRow f bpp (memBytes m (base + 1) rowBytes) prev ++ ·) := by
  rw [memBytes_filtered, unfilterImage, h]
  dsimp only
  rw [List.take_left' (memBytes_length _ _ _), List.drop_left' (memBytes_length _ _ _)]

end

/-! ## One round of the row loop (R390) -/

section
variable {b : Bus} {a : Args} {n base x : Nat} {prev : List Byte} {o : Sink} {f : FilterType}

theorem reverseRows_typeHole (h : memOk b.platform (a.src + base) .read = false) :
    reverseRows b a (n + 1) base prev o = .error { err := .bus .read, info := a.src + base } := by
  rw [reverseRows, busRead, h]; rfl

section
variable (htype : memOk b.platform (a.src + base) .read = true)
include htype

theorem reverseRows_badType (h : filterOf (b.mem.read (a.src + base)).toNat = Option.none) :
    reverseRows b a (n + 1) base prev o = .error { err := .corrupt .filterType, info := base } := by
  rw [reverseRows, busRead_ok htype, except_bind_ok, h]

variable (hf : filterOf (b.mem.read (a.src + base)).toNat = some f)
include hf

theorem reverseRows_rowHole (h : FirstHole b.platform .read (a.src + base + 1) a.rowBytes x) :
    reverseRows b a (n + 1) base prev o = .error { err := .bus .read, info := x } := by
  rw [reverseRows, busRead_ok htype, except_bind_ok, hf]
  dsimp only
  rw [memRead_hole h, except_bind_error]

/-- A row that reads is rebuilt and written, and the loop goes on with it as the row above. -/
theorem reverseRows_row (hr : Readable b.platform (a.src + base + 1) a.rowBytes) :
    reverseRows b a (n + 1) base prev o =
      (memWrite b o (reverseRow f a.bpp (memBytes b.mem (a.src + base + 1) a.rowBytes) prev) >>=
        reverseRows b a n (base + (1 + a.rowBytes)) (reverseRow f a.bpp (memBytes b.mem (a.src + base + 1) a.rowBytes) prev)) := by
  rw [reverseRows, busRead_ok htype, except_bind_ok, hf]
  dsimp only
  rw [memRead_ok b _ _ hr, except_bind_ok]

end

/-! ## The row loop up to row `r` -/

/-- The loop gets past the first `r` rows: they were rebuilt to `img`, the last of them is `prev`, and the rest of the image is
rebuilt below it. -/
structure RowsPass (b : Bus) (a : Args) (r : Nat) (prev img : List Byte) : Prop where
  prevLength : prev.length = a.rowBytes
  imgLength  : img.length = r * a.rowBytes
  loop       : ∀ n, reverseRows b a (r + n) 0 (zeroRow a.rowBytes) a.sink =
    reverseRows b a n (r * (1 + a.rowBytes)) prev (a.sink.push img)
  image      : ∀ n, unfilterImage a.bpp a.rowBytes (r + n) (zeroRow a.rowBytes)
      (memBytes b.mem a.src ((r + n) * (1 + a.rowBytes))) =
    (unfilterImage a.bpp a.rowBytes n prev (memBytes b.mem (a.src + r * (1 + a.rowBytes)) (n * (1 + a.rowBytes)))).map (img ++ ·)

end

section
variable {b : Bus} {a : Args} {r : Nat} {prev img : List Byte}

/-- The row past the first `r` rows. -/
theorem RowsPass.next (h : RowsPass b a r prev img) {f : FilterType}
    (hf : filterOf (b.mem.read (a.src + r * (1 + a.rowBytes))).toNat = some f)
    (hr : Readable b.platform (a.src + r * (1 + a.rowBytes)) (1 + a.rowBytes))
    (hw : Writable b.platform (a.dst + r * a.rowBytes) a.rowBytes) :
    ∃ cur, RowsPass b a (r + 1) cur (img ++ cur) := by
  obtain ⟨htype, hrow⟩ := readable_add.mp hr
  have hcur : (reverseRow f a.bpp (memBytes b.mem (a.src + r * (1 + a.rowBytes) + 1) a.rowBytes) prev).length = a.rowBytes := by
    rw [reverseRow_length (by rw [memBytes_length, h.prevLength]), memBytes_length]
  refine ⟨_, hcur, ?_, fun n => ?_, fun n => ?_⟩
  · rw [List.length_append, h.imgLength, hcur, Nat.succ_mul]
  · have hwrite : Writable b.platform ((a.sink.push img).base + (a.sink.push img).n) a.rowBytes := by
      rwa [sink_push_base, sink_push_n, h.imgLength, Args.sink, sink_start_n, Nat.zero_add]
    rw [Nat.add_assoc, Nat.add_comm 1 n, h.loop, reverseRows_row (htype _ (by omega) (by omega)) hf hrow,
      memWrite_ok b _ _ (hcur.symm ▸ hwrite), except_bind_ok, sink_push_push, Nat.succ_mul]
  · rw [Nat.add_assoc, Nat.add_comm 1 n, h.image, unfilterImage_row hf, Option.map_map, Nat.succ_mul,
      ← Nat.add_assoc a.src (r * _)]
    exact congrArg (Option.map · _) (funext fun rest => (List.append_assoc ..).symm)

theorem rowsPass_zero (b : Bus) (a : Args) : RowsPass b a 0 (zeroRow a.rowBytes) [] where
  prevLength := List.length_replicate
  imgLength := (Nat.zero_mul _).symm
  loop := fun n => by rw [Nat.zero_add, Nat.zero_mul]; rfl
  image := fun n => by rw [Nat.zero_add, Nat.zero_mul]; exact (congrFun Option.map_id _).symm

/-- Rows with legal type bytes, readable and with room that can be written, are passed. -/
theorem exists_rowsPass (htypes : ∀ r', r' < r → (b.mem.read (a.src + r' * (1 + a.rowBytes))).toNat ≤ 4)
    (hr : Readable b.platform a.src (r * (1 + a.rowBytes))) (hw : Writable b.platform a.dst (r * a.rowBytes)) :
    ∃ prev img, RowsPass b a r prev img := by
  induction r with
  | zero => exact ⟨_, _, rowsPass_zero b a⟩
  | succ r ih =>
    rw [Nat.succ_mul] at hr hw
    obtain ⟨hrBefore, hrRow⟩ := readable_add.mp hr
    obtain ⟨hwBefore, hwRow⟩ := writable_add hw
    obtain ⟨prev, img, h⟩ := ih (fun r' hr' => htypes r' (Nat.lt_succ_of_lt hr')) hrBefore hwBefore
    obtain ⟨f, hf⟩ := filterOf_of_le (htypes r (Nat.lt_succ_self r))
    obtain ⟨cur, hcur⟩ := h.next hf hrRow hwRow
    exact ⟨cur, _, hcur⟩

/-- Past the last row the image is rebuilt. -/
theorem RowsPass.image_all (h : RowsPass b a a.rows prev img) :
    unfilterImage a.bpp a.rowBytes a.rows (zeroRow a.rowBytes) (memBytes b.mem a.src a.filteredBytes) = some img := by
  have himage := h.image 0
  rw [unfilterImage, Option.map_some, List.append_nil] at himage
  exact himage

/-- A row with a type byte that is not recognised has no image (R141). -/
theorem RowsPass.image_badType (h : RowsPass b a r prev img) (hrows : r < a.rows)
    (htype : ¬(b.mem.read (a.src + r * (1 + a.rowBytes))).toNat ≤ 4) :
    unfilterImage a.bpp a.rowBytes a.rows (zeroRow a.rowBytes) (memBytes b.mem a.src a.filteredBytes) = Option.none := by
  obtain ⟨n, hn⟩ : ∃ n, a.rows = r + (n + 1) := ⟨a.rows - r - 1, by omega⟩
  rw [Args.filteredBytes, hn, h.image, unfilterImage_badType (filterOf_eq_none.mpr htype), Option.map_none]

end

/-! ## How the command ends -/

/-- The operands of FLT.REVERSE pass every check before the rows (R381, R390). -/
structure ReverseOk (a : Args) : Prop where
  regions  : SrcDstOk a
  geometry : GeometryOk a
  source   : a.filteredBytes ≤ a.len
  room     : a.rawBytes ≤ a.cap

section
variable {s : State} {r : Nat} {prev img : List Byte}

/-- Past the checks the command is its row loop. -/
theorem ReverseOk.body {b : Bus} {a : Args} (h : ReverseOk a) :
    reverseBody b a = (reverseRows b a a.rows 0 (zeroRow a.rowBytes) a.sink >>= fun o =>
      .ok { result := 0, inUsed := BitVec.ofNat 32 a.filteredBytes, flags := 0, out := o.out }) := by
  rw [reverseBody, checkSrcDst_ok h.regions, except_bind_ok, checkGeometry_ok h.geometry, except_bind_ok,
    if_neg (Nat.not_lt.mpr h.source), if_neg (Nat.not_lt.mpr h.room)]

theorem ReverseOk.success (h : ReverseOk s.latch.args) (hpass : RowsPass s.bus s.latch.args s.latch.args.rows prev img) :
    ∃ t, exec .fltReverse s = .next t ∧ Success s t 0 (BitVec.ofNat 32 s.latch.args.filteredBytes) 0 img := by
  have hloop := hpass.loop 0
  rw [Nat.add_zero, reverseRows] at hloop
  have hbody := h.body (b := s.bus)
  rw [hloop, except_bind_ok, sink_push_out, Args.sink, sink_start_out, List.nil_append] at hbody
  exact exec_success .fltReverse h.regions.dst hbody

/-- An error of the loop's round past the first `r` rows, whatever number of rows is left, is the command's. -/
theorem ReverseOk.fails_of_round (h : ReverseOk s.latch.args) (hpass : RowsPass s.bus s.latch.args r prev img)
    (hrows : r < s.latch.args.rows) {e : ErrKind} {info : Nat}
    (hround : ∀ n, reverseRows s.bus s.latch.args (n + 1) (r * (1 + s.latch.args.rowBytes)) prev (s.latch.args.sink.push img) =
      .error { err := e, info := info }) : FailsWith .fltReverse s e info := by
  obtain ⟨n, hn⟩ : ∃ n, s.latch.args.rows = r + (n + 1) := ⟨s.latch.args.rows - r - 1, by omega⟩
  refine failsWith_of_raise (exec_eq .fltReverse s) (body := reverseBody s.bus s.latch.args) ?_
  rw [h.body, hn, hpass.loop, hround, except_bind_error]

/-- The rebuilt row that meets a hole in the destination. -/
theorem RowsPass.row_destination_hole {b : Bus} {a : Args} {n x : Nat} {f : FilterType} (h : RowsPass b a r prev img)
    (htype : memOk b.platform (a.src + r * (1 + a.rowBytes)) .read = true)
    (hf : filterOf (b.mem.read (a.src + r * (1 + a.rowBytes))).toNat = some f)
    (hr : Readable b.platform (a.src + r * (1 + a.rowBytes) + 1) a.rowBytes)
    (hx : FirstHole b.platform .write (a.dst + r * a.rowBytes) a.rowBytes x) :
    reverseRows b a (n + 1) (r * (1 + a.rowBytes)) prev (a.sink.push img) = .error { err := .bus .write, info := x } := by
  rw [reverseRows_row htype hf hr, memWrite_hole, except_bind_error]
  rwa [reverseRow_length (by rw [memBytes_length, h.prevLength]), memBytes_length, sink_push_base, sink_push_n, h.imgLength,
    Args.sink, sink_start_n, Nat.zero_add]

end

/-- Settles O56: the rows before the first bad type byte are passed (`exists_rowsPass`), and the round at a row raises in the
order of its accesses. -/
theorem reverseRebuildsTheImage : Obligations.ReverseRebuildsTheImage := by
  intro s hregions hgeometry hsource hroom a image row typeOk fails
  have hok : ReverseOk a := ⟨hregions, hgeometry, hsource, hroom⟩
  refine ⟨fun hr hw => ?image, fun r x hrows htypes hr hw => ?round⟩
  case image =>
    by_cases hall : ∀ r, r < a.rows → typeOk r
    · obtain ⟨prev, img, hpass⟩ := exists_rowsPass (b := s.bus) hall hr hw
      have himage : image = some img := hpass.image_all
      rw [himage]
      refine ⟨⟨nofun, fun ⟨r, hrows, hbad⟩ => absurd (hall r hrows) hbad⟩, fun img' h => ?_⟩
      cases h
      exact hok.success hpass
    · have hbad : ∃ r, r < a.rows ∧ ¬typeOk r := by
        simpa only [not_forall, exists_prop] using hall
      obtain ⟨r, hrows, htype, hbefore⟩ := exists_first hbad
      have hle := Nat.le_of_lt hrows
      obtain ⟨prev, img, hpass⟩ := exists_rowsPass (b := s.bus) hbefore
        (readable_mono hr (Nat.mul_le_mul_right _ hle)) (writable_mono hw (Nat.mul_le_mul_right _ hle))
      have himage : image = Option.none := hpass.image_badType hrows htype
      rw [himage]
      exact ⟨⟨fun _ => hbad, fun _ => rfl⟩, nofun⟩
  case round =>
    obtain ⟨prev, img, hpass⟩ := exists_rowsPass (b := s.bus) htypes hr hw
    have fails_of_round {e : ErrKind} {info : Nat} := hok.fails_of_round hpass hrows (e := e) (info := info)
    refine ⟨fun hhole => fails_of_round fun _ => reverseRows_typeHole hhole, fun hread => ⟨fun hbad => ?_, fun htype => ?_⟩⟩
    · exact fails_of_round fun _ => reverseRows_badType hread (filterOf_eq_none.mpr hbad)
    · obtain ⟨f, hf⟩ := filterOf_of_le htype
      exact ⟨fun hx => fails_of_round fun _ => reverseRows_rowHole hread hf hx,
        fun hr hx => fails_of_round fun _ => hpass.row_destination_hole hread hf hr hx⟩

end Sys2Proof.Machine
end

section
/-! PROOF. Canonical Huffman codes: the code space, what `build` answers, and a symbol read from its code (rules R240 to R242). -/

namespace Sys2Proof.Machine

/-! ## The code space (R240, R241) -/

/-- What the codes of the `n` lengths from `k` on take of the code space, counted in codes of the last of these lengths. -/
def codeSpace (lens : List Nat) : Nat → Nat → Nat
  | 0, _ => 0
  | n + 1, k => countLen lens k * 2 ^ n + codeSpace lens n (k + 1)

theorem kraftSum_eq_codeSpace (lens : List Nat) : kraftSum lens = codeSpace lens 15 1 := rfl

section
variable {lens : List Nat}

/-- `build` compares the codes of the lengths left with the code space left. -/
theorem kraftFrom_cases : ∀ {n k left : Nat},
    (codeSpace lens n k = left * 2 ^ n → kraftFrom lens n k left = .ok ()) ∧
    (codeSpace lens n k < left * 2 ^ n → kraftFrom lens n k left = .error .huffIncomplete) ∧
    (left * 2 ^ n < codeSpace lens n k → kraftFrom lens n k left = .error .huffOversub) := by
  intro n
  induction n with
  | zero =>
    intro k left
    rw [codeSpace, kraftFrom, Nat.pow_zero, Nat.mul_one]
    exact ⟨fun h => if_neg (by omega), fun h => if_pos h, fun h => absurd h (Nat.not_lt_zero _)⟩
  | succ n ih =>
    intro k left
    have hspace : left * 2 ^ (n + 1) = 2 * left * 2 ^ n := by rw [Nat.pow_succ]; ring
    rw [codeSpace, kraftFrom, hspace]
    by_cases hover : 2 * left < countLen lens k
    · have hmore : 2 * left * 2 ^ n < countLen lens k * 2 ^ n := Nat.mul_lt_mul_of_pos_right hover (Nat.two_pow_pos n)
      exact ⟨fun h => by omega, fun h => by omega, fun _ => if_pos hover⟩
    · have hsplit : 2 * left * 2 ^ n = countLen lens k * 2 ^ n + (2 * left - countLen lens k) * 2 ^ n := by
        rw [← Nat.add_mul, Nat.add_sub_cancel' (Nat.not_lt.mp hover)]
      rw [if_neg hover, hsplit]
      obtain ⟨hok, hincomplete, hoversub⟩ := ih (k := k + 1) (left := 2 * left - countLen lens k)
      exact ⟨fun h => hok (by omega), fun h => hincomplete (by omega), fun h => hoversub (by omega)⟩

section
variable {pos : Nat}

theorem buildCode_complete (h : kraftSum lens = 2 ^ 15) : buildCode lens pos = .ok lens := by
  rw [kraftSum_eq_codeSpace] at h
  rw [buildCode, kraftFrom_cases.1 (h.trans (Nat.one_mul _).symm)]

theorem buildCode_incomplete (h : kraftSum lens < 2 ^ 15) : buildCode lens pos = .error (corruptAt .huffIncomplete pos) := by
  rw [kraftSum_eq_codeSpace] at h
  rw [buildCode, kraftFrom_cases.2.1 (by rwa [Nat.one_mul])]

theorem buildCode_oversub (h : 2 ^ 15 < kraftSum lens) : buildCode lens pos = .error (corruptAt .huffOversub pos) := by
  rw [kraftSum_eq_codeSpace] at h
  rw [buildCode, kraftFrom_cases.2.2 (by rwa [Nat.one_mul])]

end

/-! ## The codes (R240) -/

/-- The number past the last code of a length. -/
def codeEnd (lens : List Nat) (k : Nat) : Nat := firstCode lens k + countLen lens k

theorem firstCode_succ {k : Nat} (h : 1 ≤ k) : firstCode lens (k + 1) = 2 * codeEnd lens k := by
  obtain ⟨j, rfl⟩ : ∃ j, k = j + 1 := ⟨k - 1, by omega⟩
  exact Nat.mul_comm _ 2

theorem codeEnd_succ {k : Nat} (h : 1 ≤ k) : codeEnd lens (k + 1) = 2 * codeEnd lens k + countLen lens (k + 1) := by
  rw [codeEnd, firstCode_succ h]

/-- The codes up to length `k` end at `codeEnd`, and the longer ones take the rest. -/
theorem kraftSum_eq_codeEnd {n k : Nat} (hk : 1 ≤ k) (hn : k + n = 15) :
    kraftSum lens = codeEnd lens k * 2 ^ n + codeSpace lens n (k + 1) := by
  induction k, hk using Nat.le_induction generalizing n with
  | base =>
    obtain rfl : n = 14 := by omega
    rw [kraftSum_eq_codeSpace, codeSpace, codeEnd, firstCode, Nat.zero_add]
  | succ k hk ih =>
    rw [ih (n := n + 1) (by omega), codeSpace, codeEnd_succ hk, Nat.pow_succ]
    ring

/-- In a code that is not over-subscribed the codes of a length fit its bits. -/
theorem codeEnd_le {k : Nat} (h : kraftSum lens ≤ 2 ^ 15) (hk : 1 ≤ k) (hk' : k ≤ 15) : codeEnd lens k ≤ 2 ^ k := by
  have hn : k + (15 - k) = 15 := by omega
  have hpow : 2 ^ 15 = 2 ^ k * 2 ^ (15 - k) := by rw [← Nat.pow_add, hn]
  rw [kraftSum_eq_codeEnd hk hn, hpow] at h
  exact Nat.le_of_mul_le_mul_right (Nat.le_trans (Nat.le_add_right ..) h) (Nat.two_pow_pos _)

/-- The codes of a length begin past those of each shorter length, followed by any bits. -/
theorem codeEnd_mul_le_firstCode {k n : Nat} (hk : 1 ≤ k) : codeEnd lens k * 2 ^ (n + 1) ≤ firstCode lens (k + (n + 1)) := by
  induction n with
  | zero => rw [firstCode_succ hk, Nat.mul_comm]; exact Nat.le_refl _
  | succ n ih =>
    have hstep : firstCode lens (k + (n + 1)) ≤ codeEnd lens (k + (n + 1)) := Nat.le_add_right _ _
    rw [Nat.pow_succ, ← Nat.mul_assoc, ← Nat.add_assoc k, firstCode_succ (by omega)]
    omega

/-! ## Symbols of one length (R240, R242) -/

theorem countLen_take_lt : ∀ {lens : List Nat} {sym : Nat}, sym < lens.length →
    countLen (lens.take sym) (lens.getD sym 0) < countLen lens (lens.getD sym 0) := by
  intro lens
  induction lens with
  | nil => intro sym h; exact absurd h (Nat.not_lt_zero _)
  | cons l ls ih =>
    intro sym h
    cases sym with
    | zero => simp [countLen]
    | succ sym =>
      have := ih (Nat.lt_of_succ_lt_succ h)
      rw [List.take_succ_cons, List.getD_cons_succ, countLen, countLen]
      split <;> omega

section
variable {l k j s : Nat} {ls : List Nat}

theorem nthOfLen_cons_zero (h : l = k) : nthOfLen (l :: ls) k 0 s = some s := if_pos h

theorem nthOfLen_cons_succ (h : l = k) : nthOfLen (l :: ls) k (j + 1) s = nthOfLen ls k j (s + 1) := if_pos h

theorem nthOfLen_cons_other (h : l ≠ k) : nthOfLen (l :: ls) k j s = nthOfLen ls k j (s + 1) := if_neg h

end

/-- A symbol is the entry of its length that has as many of them before it as its code says. -/
theorem nthOfLen_count : ∀ {lens : List Nat} {sym s : Nat}, sym < lens.length →
    nthOfLen lens (lens.getD sym 0) (countLen (lens.take sym) (lens.getD sym 0)) s = some (s + sym) := by
  intro lens
  induction lens with
  | nil => intro sym s h; exact absurd h (Nat.not_lt_zero _)
  | cons l ls ih =>
    intro sym s h
    cases sym with
    | zero => exact nthOfLen_cons_zero rfl
    | succ sym =>
      have hrest := ih (s := s + 1) (Nat.lt_of_succ_lt_succ h)
      rw [Nat.add_right_comm, Nat.add_assoc] at hrest
      rw [List.take_succ_cons, List.getD_cons_succ, countLen]
      by_cases hl : l = ls.getD sym 0
      · rw [if_pos hl, nthOfLen_cons_succ hl, hrest]
      · rw [if_neg hl, nthOfLen_cons_other hl, hrest]

theorem nthOfLen_none : ∀ {lens : List Nat} {k j s : Nat}, countLen lens k ≤ j → nthOfLen lens k j s = none := by
  intro lens
  induction lens with
  | nil => intro k j s _; rfl
  | cons l ls ih =>
    intro k j s h
    rw [countLen] at h
    by_cases hl : l = k
    · rw [if_pos hl] at h
      cases j with
      | zero => exact absurd h (Nat.not_succ_le_zero _)
      | succ j => rw [nthOfLen_cons_succ hl, ih (Nat.le_of_succ_le_succ h)]
    · rw [if_neg hl] at h
      rw [nthOfLen_cons_other hl, ih h]

theorem symbolOf_codeOf {sym : Nat} (h : sym < lens.length) : symbolOf lens (lens.getD sym 0) (codeOf lens sym) = some sym := by
  rw [symbolOf, codeOf, if_neg (by omega), Nat.add_sub_cancel_left, nthOfLen_count h, Nat.zero_add]

theorem symbolOf_none {k v : Nat} (h : codeEnd lens k ≤ v) : symbolOf lens k v = none := by
  rw [codeEnd] at h
  rw [symbolOf, if_neg (by omega), nthOfLen_none (by omega)]

/-! ## A symbol read from its code (R242) -/

theorem codeOf_lt_codeEnd {sym : Nat} (h : sym < lens.length) : codeOf lens sym < codeEnd lens (lens.getD sym 0) :=
  Nat.add_lt_add_left (countLen_take_lt h) _

/-- The number that the first bits of `v` form grows by the next bit. -/
theorem leadingBits_succ (v n : Nat) : 2 * (v / 2 ^ (n + 1)) + bit (v.testBit n) = v / 2 ^ n := by
  have hbit : bit (v.testBit n) = v / 2 ^ n % 2 := by
    rw [← Nat.toNat_testBit]; cases v.testBit n <;> rfl
  rw [hbit, Nat.pow_succ, ← Nat.div_div_eq_div_mul, Nat.div_add_mod]

variable {p : Port} {pos sym q : Nat}

/-- Past the first bits of a symbol's code, which are no shorter code, the rest of the code is read. -/
theorem decodeFrom_symbolAt (h : SymbolAt p lens pos sym q) : ∀ {n i : Nat}, i + (n + 1) = lens.getD sym 0 →
    decodeFrom p lens (15 - i) (i + 1) (codeOf lens sym / 2 ^ (n + 1)) (pos + i) = .ok (sym, q) := by
  obtain ⟨hsym, -, htop, hq, hspells⟩ := h
  intro n
  induction n with
  | zero =>
    intro i hi
    have hbit := hspells i (by omega)
    rw [show lens.getD sym 0 - 1 - i = 0 by omega] at hbit
    rw [show 15 - i = 14 - i + 1 by omega, decodeFrom, hbit, except_bind_ok, leadingBits_succ, Nat.pow_zero, Nat.div_one, hi,
      symbolOf_codeOf hsym, hq, ← hi]
    rfl
  | succ n ih =>
    intro i hi
    have hbit := hspells i (by omega)
    rw [show lens.getD sym 0 - 1 - i = n + 1 by omega] at hbit
    have hlonger : codeEnd lens (i + 1) ≤ codeOf lens sym / 2 ^ (n + 1) := by
      rw [Nat.le_div_iff_mul_le (Nat.two_pow_pos _)]
      refine Nat.le_trans (codeEnd_mul_le_firstCode (by omega)) ?_
      rw [show i + 1 + (n + 1) = lens.getD sym 0 by omega]
      exact Nat.le_add_right _ _
    rw [show 15 - i = 15 - (i + 1) + 1 by omega, decodeFrom, hbit, except_bind_ok, leadingBits_succ, symbolOf_none hlonger]
    exact ih (by omega)

/-- `decode` reads the symbol whose code stands at the cursor. -/
theorem decodeSymbol_symbolAt (hkraft : kraftSum lens = 2 ^ 15) (h : SymbolAt p lens pos sym q) :
    decodeSymbol p lens pos = .ok (sym, q) := by
  have ⟨hsym, hlow, htop, _, _⟩ := h
  obtain ⟨n, hn⟩ : ∃ n, 0 + (n + 1) = lens.getD sym 0 := ⟨lens.getD sym 0 - 1, by omega⟩
  have hfits : codeOf lens sym < 2 ^ (n + 1) := by
    rw [← Nat.zero_add (n + 1), hn]
    exact Nat.lt_of_lt_of_le (codeOf_lt_codeEnd hsym) (codeEnd_le (Nat.le_of_eq hkraft) hlow htop)
  rw [decodeSymbol, ← decodeFrom_symbolAt h hn, Nat.div_eq_of_lt hfits]
  rfl

end

end Sys2Proof.Machine
end

section
/-! PROOF. The bits of the source, and a stored block from the bits that stand on the wire (rules R15, R230, R246). -/

namespace Sys2Proof.Machine

/-- Bit `pos mod 8` of byte `pos / 8` of the source; TRUNCATED past it; BusError where the byte does not read (R230). -/
theorem sourceBitsRule : SourceBitsRule := by
  intro b base len pos bit
  refine ⟨fun h => if_neg (Nat.not_lt.mpr h), fun h => ?_⟩
  have hbit : bit = (busRead b (base + pos / 8) >>= fun x => .ok (x.getLsbD (pos % 8))) := if_pos h
  rw [hbit]
  refine ⟨fun hread => ?_, fun hhole => ?_⟩
  · rw [busRead_ok hread, except_bind_ok]
  · rw [busRead, hhole]; rfl

/-! ## Stored blocks (R246) -/

/-- The complement of a 16-bit number (R246). -/
theorem xor_ffff {n : Nat} (h : n < 2 ^ 16) : n ^^^ 0xFFFF = 65535 - n := by
  have hn : (BitVec.ofNat 16 n).toNat = n := by rw [BitVec.toNat_ofNat, Nat.mod_eq_of_lt h]
  have hxor := congrArg BitVec.toNat (BitVec.xor_allOnes (x := BitVec.ofNat 16 n))
  rwa [BitVec.toNat_xor, BitVec.toNat_not, BitVec.toNat_allOnes, hn] at hxor

section
variable {p : Port} {b : Bus}

theorem storedBytes_add (n : Nat) : ∀ (m pos : Nat) (k : Sink),
    storedBytes p b (m + n) pos k = (storedBytes p b m pos k >>= fun r => storedBytes p b n r.1 r.2) := by
  intro m
  induction m with
  | zero => intro pos k; rw [Nat.zero_add]; rfl
  | succ m ih =>
    intro pos k
    rw [Nat.succ_add, storedBytes, storedBytes]
    cases readBits p 8 pos with
    | error e => rfl
    | ok v =>
      rw [except_bind_ok, except_bind_ok]
      cases emit b k (pos + 8) (lowByte v) with
      | error e => rfl
      | ok k' => exact ih (pos + 8) k'

section
variable {r : Inflater} {e : Raise} {len nlen : Nat}

/-- The header of a stored block that cannot be read ends it. -/
theorem storedBlock_header_error (h : readBits p 32 r.align.pos = .error e) : storedBlock p b r = .error e := by
  rw [storedBlock]
  dsimp only
  obtain hlen | ⟨len, hlen, hnlen⟩ := readBits_append (n := 16) (m := 16) h
  · rw [hlen, except_bind_error]
  · rw [hlen, except_bind_ok, hnlen, except_bind_error]

variable (hlen : BitsAt p r.align.pos 16 len) (hnlen : BitsAt p (r.align.pos + 16) 16 nlen)
include hlen hnlen

theorem storedBlock_storedLen (h : nlen ≠ 65535 - len) :
    storedBlock p b r = .error (corruptAt .storedLen (r.align.pos + 32)) := by
  rw [storedBlock]
  dsimp only
  rw [readBits_bitsAt hlen, except_bind_ok, readBits_bitsAt hnlen, except_bind_ok]
  refine if_pos fun hxor => h ?_
  have := hlen.1
  have := hnlen.1
  rw [hxor, xor_ffff hnlen.1]
  omega

/-- Past its header a stored block is its bytes. -/
theorem storedBlock_bytes (h : nlen = 65535 - len) :
    storedBlock p b r = (storedBytes p b len (r.align.pos + 32) r.sink >>= fun t =>
      .ok { pos := t.1, sink := t.2, pads := r.align.pads }) := by
  rw [storedBlock]
  dsimp only
  rw [readBits_bitsAt hlen, except_bind_ok, readBits_bitsAt hnlen, except_bind_ok]
  refine if_neg (not_not_intro ?_)
  have := hlen.1
  rw [xor_ffff hnlen.1, h]
  omega

end

end

/-- A stored block follows the bits on the wire: its header, its bytes one by one, and where it stops. -/
theorem storedBlockRule : StoredBlockRule := by
  intro p b r q go
  refine ⟨fun e => storedBlock_header_error, fun len nlen hlen hnlen => ⟨storedBlock_storedLen hlen hnlen, ?_⟩⟩
  intro hcomplement data hdata hwire hroom hw m w
  have hgo : go = _ := storedBlock_bytes hlen hnlen hcomplement
  have hpass : storedBytes p b data.length (r.align.pos + 32) r.sink = .ok (m, r.sink.push data) :=
    storedBytes_ok data _ _ hwire hroom hw
  refine ⟨fun hall => ?_, fun hmore => ?_⟩
  · rw [hgo, ← hall, hpass, except_bind_ok]
    rfl
  · obtain ⟨n, rfl⟩ : ∃ n, len = data.length + (n + 1) := ⟨len - data.length - 1, by omega⟩
    rw [storedBytes_add, hpass, except_bind_ok, storedBytes] at hgo
    refine ⟨fun e he => ?_, fun v hv => ⟨fun hfull => ?_, fun hnotFull hhole => ?_⟩⟩
    · rw [hgo, he, except_bind_error, except_bind_error]
    · rw [hgo, readBits_bitsAt hv, except_bind_ok, emit_full hfull, except_bind_error, except_bind_error]
    · have hless : (r.sink.push data).n < (r.sink.push data).cap := Nat.lt_of_le_of_ne hroom hnotFull
      rw [hgo, readBits_bitsAt hv, except_bind_ok, emit_hole hless hhole, except_bind_error, except_bind_error]
      rfl

end Sys2Proof.Machine
end

section
/-! PROOF. The code-length sequence of a dynamic block, item by item (rules R137, R247). -/

namespace Sys2Proof.Machine

/-! ## The lengths that items give (R137) -/

/-- The lengths an item gives after the length `last`. -/
def LenToken.lens (last : Nat) : LenToken → List Nat
  | .len l => [l]
  | .again n => List.replicate n last
  | .zeros n => List.replicate n 0

theorem LenToken.lens_length (last : Nat) (t : LenToken) : (t.lens last).length = t.count := by
  cases t with
  | len l => rfl
  | again n | zeros n => exact List.length_replicate

theorem LenToken.lens_reverse (last : Nat) (t : LenToken) : (t.lens last).reverse = t.lens last := by
  cases t with
  | len l => rfl
  | again n | zeros n => exact List.reverse_replicate

theorem expandLens_cons (t : LenToken) (ts : List LenToken) (acc : List Nat) :
    expandLens (t :: ts) acc = expandLens ts (acc ++ t.lens (acc.getLastD 0)) := by
  cases t <;> rfl

theorem countLens_cons (t : LenToken) (ts : List LenToken) : countLens (t :: ts) = t.count + countLens ts := by
  rw [countLens, List.map_cons, List.sum_cons]; rfl

theorem expandLens_length : ∀ {ts : List LenToken} {acc : List Nat},
    (expandLens ts acc).length = acc.length + countLens ts := by
  intro ts
  induction ts with
  | nil => intro acc; rfl
  | cons t ts ih =>
    intro acc
    rw [expandLens_cons, ih, List.length_append, LenToken.lens_length, countLens_cons, Nat.add_assoc]

/-! ## The symbols that repeat (R137) -/

/-- The extra bits of symbols 16, 17 and 18. -/
def repeatWidth (s : Nat) : Nat := if s = 16 then 2 else if s = 17 then 3 else 7

/-- The fewest lengths that symbols 16, 17 and 18 give. -/
def repeatLeast (s : Nat) : Nat := if s = 16 then 3 else if s = 17 then 3 else 11

/-- What symbols 16, 17 and 18 repeat after the length `last`. -/
def repeatValue (last s : Nat) : Nat := if s = 16 then last else 0

/-- An item is a length, or a symbol that repeats with its extra bits. -/
theorem tokenAt_cases {p : Port} {cl : List Nat} {pos q : Nat} {t : LenToken} (h : TokenAt p cl pos t q) :
    (∃ l, t = .len l ∧ l ≤ 15 ∧ SymbolAt p cl pos l q) ∨
    ∃ s m x, 16 ≤ s ∧ SymbolAt p cl pos s m ∧ BitsAt p m (repeatWidth s) x ∧ q = m + repeatWidth s ∧
      t.count = repeatLeast s + x ∧ (s = 16 → t.isAgain = true) ∧
      ∀ last, t.lens last = List.replicate (repeatLeast s + x) (repeatValue last s) := by
  cases t with
  | len l => exact .inl ⟨l, rfl, h⟩
  | again n =>
    obtain ⟨m, x, hsym, hbits, rfl, rfl⟩ := h
    exact .inr ⟨16, m, x, by decide, hsym, hbits, rfl, rfl, fun _ => rfl, fun _ => rfl⟩
  | zeros n =>
    obtain ⟨m, x, hsym, hbits, rfl, rfl⟩ | ⟨m, x, hsym, hbits, rfl, rfl⟩ := h
    · exact .inr ⟨17, m, x, by decide, hsym, hbits, rfl, rfl, nofun, fun _ => rfl⟩
    · exact .inr ⟨18, m, x, by decide, hsym, hbits, rfl, rfl, nofun, fun _ => rfl⟩

/-! ## One round (R247) -/

section
variable {p : Port} {cl : List Nat} {total n pos m s : Nat} {rev : List Nat} {e : Raise}

section
variable (hmore : rev.length < total)
include hmore

theorem codeLengths_decode_error (h : decodeSymbol p cl pos = .error e) : codeLengths p cl total (n + 1) rev pos = .error e := by
  rw [codeLengths, if_pos hmore, h, except_bind_error]

theorem codeLengths_len (h : decodeSymbol p cl pos = .ok (s, m)) (hs : s ≤ 15) :
    codeLengths p cl total (n + 1) rev pos = codeLengths p cl total n (s :: rev) m := by
  rw [codeLengths, if_pos hmore, h, except_bind_ok]
  exact if_pos hs

/-- A symbol that repeats: its extra bits, the room, and the round after it. -/
theorem codeLengths_repeat (h : decodeSymbol p cl pos = .ok (s, m)) (hs : 16 ≤ s) (hrev : s = 16 → rev ≠ []) :
    codeLengths p cl total (n + 1) rev pos = (readBits p (repeatWidth s) m >>= fun x =>
      if total < rev.length + (repeatLeast s + x) then .error (corruptAt .clRepeat (m + repeatWidth s))
      else codeLengths p cl total n (List.replicate (repeatLeast s + x) (repeatValue (rev.headD 0) s) ++ rev)
        (m + repeatWidth s)) := by
  rw [codeLengths, if_pos hmore, h, except_bind_ok]
  dsimp only
  rw [if_neg (by omega)]
  by_cases h16 : s = 16
  · subst h16
    obtain ⟨v, older, rfl⟩ := List.exists_cons_of_ne_nil (hrev rfl)
    rfl
  · simp only [repeatWidth, repeatLeast, repeatValue, if_neg h16]

end

/-- The first item cannot repeat (R247). -/
theorem codeLengths_first_again (htotal : 0 < total) (h : decodeSymbol p cl pos = .ok (16, m)) :
    codeLengths p cl total (n + 1) [] pos = .error (corruptAt .clRepeat m) := by
  rw [codeLengths, List.length_nil, if_pos htotal, h, except_bind_ok]
  rfl

/-- With every length read the rounds end. -/
theorem codeLengths_done (h : rev.length = total) : codeLengths p cl total n rev pos = .ok (rev.reverse, pos) := by
  cases n with
  | zero => rfl
  | succ n => rw [codeLengths, if_neg (by omega)]

end

/-! ## Items (R247) -/

section
variable {p : Port} {cl : List Nat} {total n pos q : Nat} {rev : List Nat} {t : LenToken}

section
variable (hkraft : kraftSum cl = 2 ^ 15) (hagain : rev = [] → t.isAgain = false) (ht : TokenAt p cl pos t q)
include hkraft hagain ht

/-- An item that fits: its lengths are added. -/
theorem codeLengths_token (hmore : rev.length < total) (hfits : rev.length + t.count ≤ total) :
    codeLengths p cl total (n + 1) rev pos = codeLengths p cl total n (t.lens (rev.headD 0) ++ rev) q := by
  obtain ⟨l, rfl, hl, hsym⟩ | ⟨s, m, x, hs, hsym, hbits, rfl, hcount, h16, hlens⟩ := tokenAt_cases ht
  · exact codeLengths_len hmore (decodeSymbol_symbolAt hkraft hsym) hl
  · have hrev : s = 16 → rev ≠ [] := fun h hnil => absurd (h16 h) (by rw [hagain hnil]; exact nofun)
    rw [codeLengths_repeat hmore (decodeSymbol_symbolAt hkraft hsym) hs hrev, readBits_bitsAt hbits, except_bind_ok,
      if_neg (by omega), hlens]

/-- An item that runs past the lengths to come (R247). -/
theorem codeLengths_token_over (hmore : rev.length < total) (hover : total < rev.length + t.count) :
    codeLengths p cl total (n + 1) rev pos = .error (corruptAt .clRepeat q) := by
  obtain ⟨l, rfl, -, -⟩ | ⟨s, m, x, hs, hsym, hbits, rfl, hcount, h16, -⟩ := tokenAt_cases ht
  · rw [LenToken.count] at hover; omega
  · have hrev : s = 16 → rev ≠ [] := fun h hnil => absurd (h16 h) (by rw [hagain hnil]; exact nofun)
    rw [codeLengths_repeat hmore (decodeSymbol_symbolAt hkraft hsym) hs hrev, readBits_bitsAt hbits, except_bind_ok,
      if_pos (by omega)]

end

theorem count_pos (ht : TokenAt p cl pos t q) : 1 ≤ t.count := by
  obtain ⟨l, rfl, -, -⟩ | ⟨s, m, x, -, -, -, -, hcount, -, -⟩ := tokenAt_cases ht
  · exact Nat.le_refl 1
  · have hleast : 1 ≤ repeatLeast s := by unfold repeatLeast; split <;> [decide; (split <;> decide)]
    omega

theorem countLens_pos : ∀ {ts : List LenToken} {pos : Nat}, TokensAt p cl pos ts q → ts ≠ [] → 1 ≤ countLens ts
  | [], _, _, hne => absurd rfl hne
  | t :: ts, _, ⟨_, ht, _⟩, _ => by
    have hpos := count_pos ht
    rw [countLens_cons]; omega

theorem headD_reverse (acc : List Nat) : acc.reverse.headD 0 = acc.getLastD 0 := by
  rw [List.headD_eq_head?_getD, List.head?_reverse, List.getLastD_eq_getLast?]

/-- The rounds past the items `ts`: their lengths follow those in `acc`, and rounds are left for the lengths to come. -/
theorem codeLengths_tokens (hkraft : kraftSum cl = 2 ^ 15) : ∀ {ts : List LenToken} {acc : List Nat} {n pos : Nat},
    TokensAt p cl pos ts q → (acc = [] → ∀ t, ts.head? = some t → t.isAgain = false) →
    acc.length + countLens ts ≤ total → total ≤ n + acc.length →
    ∃ n', total ≤ n' + (expandLens ts acc).length ∧
      codeLengths p cl total n acc.reverse pos = codeLengths p cl total n' (expandLens ts acc).reverse q := by
  intro ts
  induction ts with
  | nil => intro acc n pos h _ _ hn; cases h; exact ⟨n, hn, rfl⟩
  | cons t ts ih =>
    intro acc n pos h hagain hfits hn
    obtain ⟨m, ht, hts⟩ := h
    have hpos := count_pos ht
    rw [countLens_cons] at hfits
    obtain ⟨n, rfl⟩ : ∃ n', n = n' + 1 := ⟨n - 1, by omega⟩
    have hlen : (acc ++ t.lens (acc.getLastD 0)).length = acc.length + t.count := by
      rw [List.length_append, LenToken.lens_length]
    have hround : codeLengths p cl total (n + 1) acc.reverse pos =
        codeLengths p cl total n (acc ++ t.lens (acc.getLastD 0)).reverse m := by
      rw [codeLengths_token hkraft (fun hnil => hagain (List.reverse_eq_nil_iff.mp hnil) t rfl) ht
        (by rw [List.length_reverse]; omega) (by rw [List.length_reverse]; omega), List.reverse_append, LenToken.lens_reverse,
        headD_reverse]
    rw [hround, expandLens_cons]
    refine ih hts (fun hnil => ?_) (by omega) (by omega)
    rw [hnil] at hlen
    exact absurd hlen (by rw [List.length_nil]; omega)

end

/-- The rounds follow the items on the wire, up to the last length or to the item that fails. -/
theorem codeLengthsRule : CodeLengthsRule := by
  intro p cl total pos _ hkraft go
  refine ⟨fun q htotal hsym => ?_, fun ts q hts hagain => ⟨fun hcount => ?_, fun hmore => ?_⟩⟩
  · obtain ⟨n, hn⟩ : ∃ n, total = n + 1 := ⟨total - 1, by omega⟩
    have := codeLengths_first_again (n := n) htotal (decodeSymbol_symbolAt hkraft hsym)
    rwa [← hn] at this
  all_goals
    have hpass := codeLengths_tokens (total := total) (acc := []) (n := total) hkraft hts (fun _ => hagain)
    rw [List.length_nil, Nat.zero_add, Nat.add_zero] at hpass
    obtain ⟨n, hn, hgo⟩ := hpass (by omega) (Nat.le_refl _)
    rw [List.reverse_nil] at hgo
    have hlen : (expandLens ts []).reverse.length = countLens ts := by
      rw [List.length_reverse, expandLens_length, List.length_nil, Nat.zero_add]
    rw [← List.length_reverse, hlen] at hn
    have hgo : go = _ := hgo
    rw [hgo]
  · rw [codeLengths_done (hlen.trans hcount), List.reverse_reverse]
  · obtain ⟨n, rfl⟩ : ∃ n', n = n' + 1 := ⟨n - 1, by omega⟩
    have hroom : (expandLens ts []).reverse.length < total := hlen ▸ hmore
    have hfirst (h : (expandLens ts []).reverse = []) : ts = [] := by
      rw [h, List.length_nil] at hlen
      exact by_contra fun hne => absurd (countLens_pos hts hne) (by omega)
    refine ⟨fun e => codeLengths_decode_error hroom, fun s width m e hs hnotFirst hsym hbits => ?_,
      fun t q' ht hnotFirst hover => ?_⟩
    · have hsymbol : 16 ≤ s ∧ width = repeatWidth s := by
        simp only [List.mem_cons, Prod.mk.injEq, List.not_mem_nil, or_false] at hs
        obtain ⟨rfl, rfl⟩ | ⟨rfl, rfl⟩ | ⟨rfl, rfl⟩ := hs <;> decide
      obtain ⟨hrepeats, rfl⟩ := hsymbol
      rw [codeLengths_repeat hroom (decodeSymbol_symbolAt hkraft hsym) hrepeats fun h hnil => hnotFirst (hfirst hnil) h, hbits,
        except_bind_error]
    · exact codeLengths_token_over hkraft (fun hnil => hnotFirst (hfirst hnil)) ht hroom (hlen ▸ hover)

end Sys2Proof.Machine
end

section
/-! PROOF. The header of a dynamic block: the counts, the code-length code, and the two codes (rules R136, R241, R247). -/

namespace Sys2Proof.Machine

/-! ## The code-length-code fields (R136) -/

section
variable {p : Port}

theorem clFields_error : ∀ {order : List Nat} {pos : Nat} {e : Raise}, readBits p (3 * order.length) pos = .error e →
    clFields p order pos = .error e := by
  intro order
  induction order with
  | nil => intro pos e h; cases h
  | cons s order ih =>
    intro pos e h
    rw [List.length_cons, Nat.mul_succ, Nat.add_comm] at h
    rw [clFields]
    obtain hfirst | ⟨l, hl, hrest⟩ := readBits_append h
    · rw [hfirst, except_bind_error]
    · rw [hl, except_bind_ok, ih hrest, except_bind_error]

/-- The fields on the wire, each with the symbol it is for. -/
theorem clFields_ok : ∀ {order : List Nat} {pos : Nat} {f : Nat → Nat},
    (∀ i, i < order.length → BitsAt p (pos + 3 * i) 3 (f i)) →
    clFields p order pos = .ok (order.mapIdx fun i s => (s, f i)) := by
  intro order
  induction order with
  | nil => intro pos f _; rfl
  | cons s order ih =>
    intro pos f h
    have hrest := ih (pos := pos + 3) (f := fun i => f (i + 1)) fun i hi => by
      have := h (i + 1) (Nat.succ_lt_succ hi)
      rwa [Nat.mul_succ, Nat.add_comm (3 * i), ← Nat.add_assoc] at this
    have hfirst : readBits p 3 pos = .ok (f 0) := readBits_bitsAt (h 0 (Nat.succ_pos _))
    rw [clFields, hfirst, except_bind_ok, hrest, except_bind_ok, List.mapIdx_cons]

/-- A symbol among the first `n` of the order has its field, any other length 0. -/
theorem clLookup_take : ∀ {order : List Nat} {n s : Nat} {f : Nat → Nat}, n ≤ order.length →
    clLookup ((order.take n).mapIdx fun i s => (s, f i)) s =
      if order.idxOf s < n then f (order.idxOf s) else 0 := by
  intro order
  induction order with
  | nil => intro n s f h; rw [if_neg (by have := Nat.le_zero.mp h; omega)]; simp [clLookup]
  | cons a order ih =>
    intro n s f h
    cases n with
    | zero => rfl
    | succ n =>
      rw [List.take_succ_cons, List.mapIdx_cons, clLookup]
      by_cases ha : a = s
      · subst ha; simp
      · have hrest := ih (s := s) (f := fun i => f (i + 1)) (Nat.le_of_succ_le_succ h)
        rw [if_neg ha, hrest, List.idxOf_cons_ne _ ha]
        simp only [Nat.succ_eq_add_one, Nat.add_lt_add_iff_right]

end

/-! ## The steps of the header (R247) -/

section
variable {p : Port} {pos hlit hdist hclen : Nat} {e : Raise}

theorem dynamicHeader_counts_error (h : readBits p 14 pos = .error e) : dynamicHeader p pos = .error e := by
  rw [dynamicHeader]
  obtain hlit | ⟨_, hlit, h⟩ := readBits_append (n := 5) (m := 9) h
  · rw [hlit, except_bind_error]
  · rw [hlit, except_bind_ok]
    obtain hdist | ⟨_, hdist, hclen⟩ := readBits_append (n := 5) (m := 4) h
    · rw [hdist, except_bind_error]
    · rw [hdist, except_bind_ok, hclen, except_bind_error]

section
variable (h₁ : BitsAt p pos 5 hlit) (h₂ : BitsAt p (pos + 5) 5 hdist) (h₃ : BitsAt p (pos + 10) 4 hclen)
include h₁ h₂ h₃

theorem dynamicHeader_hlitHdist (h : 286 < hlit + 257 ∨ 30 < hdist + 1) :
    dynamicHeader p pos = .error (corruptAt .hlitHdist (pos + 14)) := by
  rw [dynamicHeader, readBits_bitsAt h₁, except_bind_ok, readBits_bitsAt h₂, except_bind_ok, readBits_bitsAt h₃,
    except_bind_ok]
  exact if_pos h

end

/-- The two codes of a block from their lengths, the checks in their order (R247). -/
def blockCodes (lens : List Nat) (litCount q : Nat) : Except Raise (List Nat × List Nat × Nat) :=
  if lens.getD 256 0 = 0 then .error (corruptAt .noEob q)
  else do
    let lit ← buildCode (lens.take litCount) q
    let dist ← buildCode (lens.drop litCount) q
    .ok (lit, dist, q)

/-- The header past its counts and the fields of the code-length code: that code, the lengths, and the two codes. -/
def headerCodes (p : Port) (q hlit hdist : Nat) (cl : List Nat) : Except Raise (List Nat × List Nat × Nat) := do
  let cl ← buildCode cl q
  let r ← codeLengths p cl (hlit + 257 + (hdist + 1)) (hlit + 257 + (hdist + 1)) [] q
  blockCodes r.1 (hlit + 257) r.2

/-- The code-length code's lengths from its first fields (R136). -/
def clFromFields (hclen : Nat) (f : Nat → Nat) : List Nat :=
  (List.range 19).map fun s => if clOrder.idxOf s < hclen + 4 then f (clOrder.idxOf s) else 0

theorem clOrder_take_length (h : hclen < 2 ^ 4) : (clOrder.take (hclen + 4)).length = hclen + 4 :=
  List.length_take_of_le (show hclen + 4 ≤ 19 by omega)

section
variable (h₁ : BitsAt p pos 5 hlit) (h₂ : BitsAt p (pos + 5) 5 hdist) (h₃ : BitsAt p (pos + 10) 4 hclen)
  (hrange : ¬(286 < hlit + 257 ∨ 30 < hdist + 1))
include h₁ h₂ h₃ hrange

theorem dynamicHeader_inRange :
    dynamicHeader p pos = (clFields p (clOrder.take (hclen + 4)) (pos + 14) >>= fun fields =>
      headerCodes p (pos + 14 + 3 * (hclen + 4)) hlit hdist (clLens fields)) := by
  rw [dynamicHeader, readBits_bitsAt h₁, except_bind_ok, readBits_bitsAt h₂, except_bind_ok, readBits_bitsAt h₃,
    except_bind_ok]
  exact if_neg hrange

theorem dynamicHeader_fields_error (h : readBits p (3 * (hclen + 4)) (pos + 14) = .error e) : dynamicHeader p pos = .error e := by
  rw [← clOrder_take_length h₃.1] at h
  rw [dynamicHeader_inRange h₁ h₂ h₃ hrange, clFields_error h, except_bind_error]

theorem dynamicHeader_fields {f : Nat → Nat} (h : ∀ i, i < hclen + 4 → BitsAt p (pos + 14 + 3 * i) 3 (f i)) :
    dynamicHeader p pos = headerCodes p (pos + 14 + 3 * (hclen + 4)) hlit hdist (clFromFields hclen f) := by
  have hle : hclen + 4 ≤ 19 := Nat.add_le_add_right (Nat.le_of_lt_succ h₃.1) 4
  rw [← clOrder_take_length h₃.1] at h
  rw [dynamicHeader_inRange h₁ h₂ h₃ hrange, clFields_ok fun i hi => h i hi, except_bind_ok]
  exact congrArg _ (List.map_congr_left fun s _ => clLookup_take hle)

end

section
variable {lens : List Nat} {n q : Nat}

theorem blockCodes_noEob (h : lens.getD 256 0 = 0) : blockCodes lens n q = .error (corruptAt .noEob q) := if_pos h

/-- The two codes are built in turn, and each must be complete. -/
theorem blockCodes_build (h : lens.getD 256 0 ≠ 0) :
    (kraftSum (lens.take n) < 2 ^ 15 → blockCodes lens n q = .error (corruptAt .huffIncomplete q)) ∧
    (2 ^ 15 < kraftSum (lens.take n) → blockCodes lens n q = .error (corruptAt .huffOversub q)) ∧
    (kraftSum (lens.take n) = 2 ^ 15 →
      (kraftSum (lens.drop n) < 2 ^ 15 → blockCodes lens n q = .error (corruptAt .huffIncomplete q)) ∧
      (2 ^ 15 < kraftSum (lens.drop n) → blockCodes lens n q = .error (corruptAt .huffOversub q)) ∧
      (kraftSum (lens.drop n) = 2 ^ 15 → blockCodes lens n q = .ok (lens.take n, lens.drop n, q))) := by
  rw [blockCodes, if_neg h]
  refine ⟨fun hlit => ?_, fun hlit => ?_, fun hlit => ?_⟩
  · rw [buildCode_incomplete hlit, except_bind_error]
  · rw [buildCode_oversub hlit, except_bind_error]
  · rw [buildCode_complete hlit, except_bind_ok]
    refine ⟨fun hdist => ?_, fun hdist => ?_, fun hdist => ?_⟩
    · rw [buildCode_incomplete hdist, except_bind_error]
    · rw [buildCode_oversub hdist, except_bind_error]
    · rw [buildCode_complete hdist, except_bind_ok]

end

end

/-- The header follows the bits on the wire in the order of its fields, and its checks come in their order. -/
theorem dynamicHeaderRule : DynamicHeaderRule := by
  intro p pos
  refine ⟨fun e => dynamicHeader_counts_error, fun hlit hdist hclen h₁ h₂ h₃ =>
    ⟨dynamicHeader_hlitHdist h₁ h₂ h₃, fun hlitLe hdistLe => ?_⟩⟩
  have hrange : ¬(286 < hlit + 257 ∨ 30 < hdist + 1) := by omega
  refine ⟨fun e => dynamicHeader_fields_error h₁ h₂ h₃ hrange, ?_⟩
  intro f hf order cl pos₁ total
  have hgo : dynamicHeader p pos = headerCodes p pos₁ hlit hdist cl := dynamicHeader_fields h₁ h₂ h₃ hrange hf
  rw [hgo, headerCodes]
  refine ⟨fun hcl => ?_, fun hcl => ?_, fun hcl => ?_⟩
  · rw [buildCode_incomplete hcl, except_bind_error]
  · rw [buildCode_oversub hcl, except_bind_error]
  · rw [buildCode_complete hcl, except_bind_ok]
    refine ⟨fun e he => ?_, ?_⟩
    · rw [he, except_bind_error]
    · intro lens q hlens lit dist
      rw [hlens, except_bind_ok]
      exact ⟨blockCodes_noEob, blockCodes_build⟩

end Sys2Proof.Machine
end

section
/-! PROOF. Compressed data symbol by symbol, and the blocks of a stream, from the bits on the wire (rules R134, R138, R139, R248,
R250). -/

namespace Sys2Proof.Machine

/-! ## One byte put out, where no invariant of the destination is at hand (R231) -/

section
variable {b : Bus} {k : Sink} {pos : Nat} {x : Byte}

/-- Where the room is not used up, a byte that goes out is one write. -/
theorem emit_room (h : k.n ≠ k.cap) : emit b k pos x = busWrite b k x := if_neg h

theorem busWrite_hole (h : memOk b.platform (k.base + k.n) .write = false) :
    busWrite b k x = .error { err := .bus .write, info := k.base + k.n } := by
  rw [busWrite, h]; rfl

theorem busWrite_ok (h : memOk b.platform (k.base + k.n) .write = true) : busWrite b k x = .ok (k.push [x]) := if_pos h

end

/-! ## One round of compressed data (R248) -/

section
variable {p : Port} {b : Bus} {lit dist : List Nat} {n pos s q : Nat} {k k' : Sink} {e : Raise}

theorem compressedData_decode_error (h : decodeSymbol p lit pos = .error e) :
    compressedData p b lit dist (n + 1) pos k = .error e := by
  rw [compressedData, h, except_bind_error]

section
variable (h : decodeSymbol p lit pos = .ok (s, q))
include h

theorem compressedData_literal (hs : s < 256) :
    compressedData p b lit dist (n + 1) pos k = (emit b k q (lowByte s) >>= compressedData p b lit dist n q) := by
  rw [compressedData, h, except_bind_ok]
  exact if_pos hs

theorem compressedData_endOfBlock (hs : s = 256) : compressedData p b lit dist (n + 1) pos k = .ok (q, k) := by
  subst hs
  rw [compressedData, h, except_bind_ok]
  rfl

theorem compressedData_symbol (hs : 285 < s) : compressedData p b lit dist (n + 1) pos k = .error (corruptAt .symbol q) := by
  rw [compressedData, h, except_bind_ok]
  dsimp only
  rw [if_neg (by omega), if_neg (by omega), if_pos hs]

/-- A length symbol: its extra bits, the distance symbol with its own, and the copy. -/
theorem compressedData_match (h₁ : 257 ≤ s) (h₂ : s ≤ 285) :
    compressedData p b lit dist (n + 1) pos k = (do
      let x ← readBits p (lenExtra.getD (s - 257) 0) q
      let (d, q') ← decodeSymbol p dist (q + lenExtra.getD (s - 257) 0)
      if 29 < d then .error (corruptAt .symbol q')
      else do
        let y ← readBits p (distExtra.getD d 0) q'
        let k' ← copyMatch b k (q' + distExtra.getD d 0) (lenBase.getD (s - 257) 0 + x) (distBase.getD d 0 + y)
        compressedData p b lit dist n (q' + distExtra.getD d 0) k') := by
  rw [compressedData, h, except_bind_ok]
  dsimp only
  rw [if_neg (by omega), if_neg (by omega), if_neg (by omega)]

end

end

/-- One round of compressed data is what the symbol at the cursor says. -/
theorem compressedDataRule : CompressedDataRule := by
  intro p b lit dist n pos k hlit hdist baseL extraL baseD extraD go
  have htables : baseL = lenBase ∧ extraL = lenExtra ∧ baseD = distBase ∧ extraD = distExtra := ⟨rfl, rfl, rfl, rfl⟩
  clear_value baseL extraL baseD extraD
  obtain ⟨rfl, rfl, rfl, rfl⟩ := htables
  refine ⟨fun e => compressedData_decode_error, fun s q hsym => ?_⟩
  have hs := decodeSymbol_symbolAt hlit hsym
  refine ⟨fun hliteral => ?literal, compressedData_endOfBlock hs, compressedData_symbol hs, fun h₁ h₂ => ?copy⟩
  case literal =>
    have hgo : go = _ := compressedData_literal hs hliteral
    rw [hgo]
    refine ⟨fun hfull => ?_, fun hroom hhole => ?_, fun hroom hw => ?_⟩
    · rw [emit_full hfull, except_bind_error]
    · rw [emit_room hroom, busWrite_hole hhole, except_bind_error]
    · rw [emit_room hroom, busWrite_ok hw, except_bind_ok]; rfl
  case copy =>
    have hgo : go = _ := compressedData_match hs h₁ h₂
    rw [hgo]
    refine ⟨fun e hx => ?_, fun x hx => ?_⟩
    · rw [hx, except_bind_error]
    rw [readBits_bitsAt hx, except_bind_ok]
    refine ⟨fun e hd => ?_, fun d q' hd => ?_⟩
    · rw [hd, except_bind_error]
    rw [decodeSymbol_symbolAt hdist hd, except_bind_ok]
    refine ⟨fun hbad => if_pos hbad, fun hgood => ?_⟩
    dsimp only
    rw [if_neg (Nat.not_lt.mpr hgood)]
    refine ⟨fun e hy => ?_, fun y hy => ?_⟩
    · rw [hy, except_bind_error]
    rw [readBits_bitsAt hy, except_bind_ok]
    refine ⟨fun e hcopy => ?_, fun k' hcopy => ?_⟩
    · rw [hcopy, except_bind_error]
    · rw [hcopy, except_bind_ok]

/-! ## Blocks (R134, R250) -/

/-- Compressed data under a literal/length and a distance code, from `pos` on. -/
def codedContent (p : Port) (b : Bus) (q : Inflater) (lit dist : List Nat) (pos : Nat) : Except Raise Inflater := do
  let d ← compressedData p b lit dist (8 * p.len) pos q.sink
  .ok { q with pos := d.1, sink := d.2 }

/-- The content of a block by its type, the header bits read. -/
def blockContent (p : Port) (b : Bus) (q : Inflater) : Nat → Except Raise Inflater
  | 0 => storedBlock p b q
  | 1 => codedContent p b q fixedLitLens fixedDistLens q.pos
  | 2 => dynamicHeader p q.pos >>= fun h => codedContent p b q h.1 h.2.1 h.2.2
  | _ => .error (corruptAt .btype q.pos)

section
variable {p : Port} {b : Bus} {r : Inflater} {n final btype : Nat} {e : Raise}

theorem inflateBlocks_header_error (h : readBits p 3 r.pos = .error e) : inflateBlocks p b (n + 1) r = .error e := by
  rw [inflateBlocks, inflateBlock]
  obtain hfinal | ⟨v, hfinal, htype⟩ := readBits_append (n := 1) (m := 2) h
  · rw [hfinal, except_bind_error, except_bind_error]
  · rw [hfinal, except_bind_ok, htype, except_bind_error, except_bind_error]

/-- A block is its header and its content. -/
theorem inflateBlock_content (hfinal : BitsAt p r.pos 1 final) (htype : BitsAt p (r.pos + 1) 2 btype) :
    inflateBlock p b r =
      (blockContent p b { r with pos := r.pos + 3 } btype >>= fun r' => .ok (decide (final = 1), r')) := by
  rw [inflateBlock, readBits_bitsAt hfinal, except_bind_ok, readBits_bitsAt htype, except_bind_ok]
  match btype with
  | 0 => rfl
  | 1 =>
    dsimp only [blockContent, codedContent]
    cases compressedData p b fixedLitLens fixedDistLens (8 * p.len) (r.pos + 3) r.sink <;> rfl
  | 2 =>
    dsimp only [blockContent, codedContent]
    cases dynamicHeader p (r.pos + 3) with
    | error e => rfl
    | ok h =>
      rw [except_bind_ok, except_bind_ok]
      cases compressedData p b h.1 h.2.1 (8 * p.len) h.2.2 r.sink <;> rfl
  | _ + 3 => rfl

/-- After a block the stream ends or goes on with the next one. -/
theorem inflateBlocks_block (hfinal : BitsAt p r.pos 1 final) (htype : BitsAt p (r.pos + 1) 2 btype) :
    inflateBlocks p b (n + 1) r = (blockContent p b { r with pos := r.pos + 3 } btype >>= fun r' =>
      if final = 1 then .ok r' else inflateBlocks p b n r') := by
  rw [inflateBlocks, inflateBlock_content hfinal htype]
  cases blockContent p b { r with pos := r.pos + 3 } btype with
  | error e => rfl
  | ok r' => simp only [except_bind_ok, decide_eq_true_eq]

/-- A raw stream is its blocks from bit 0 on. -/
theorem inflateStream_raw (p : Port) (b : Bus) (k : Sink) :
    inflateStream false p b k = inflateBlocks p b (8 * p.len) { pos := 0, sink := k, pads := [] } := by
  simp only [inflateStream, Bool.false_eq_true, if_false, except_bind_ok]
  cases inflateBlocks p b (8 * p.len) { pos := 0, sink := k, pads := [] } <;> rfl

end

/-- Each block of a stream is what its header says, and the stream ends after the block with BFINAL = 1. -/
theorem blockRule : BlockRule := by
  refine ⟨inflateStream_raw, fun p b n r => ⟨fun e => inflateBlocks_header_error, ?_⟩⟩
  intro final btype hfinal htype q after coded
  have hgo : inflateBlocks p b (n + 1) r = (blockContent p b q btype >>= after) := inflateBlocks_block hfinal htype
  have coded_of_eq {lit dist : List Nat} {pos : Nat}
      (h : inflateBlocks p b (n + 1) r = (codedContent p b q lit dist pos >>= after)) : coded lit dist pos := by
    refine ⟨fun e he => ?_, fun pos' k hk => ?_⟩
    · rw [h, codedContent, he, except_bind_error, except_bind_error]
    · rw [h, codedContent, hk, except_bind_ok, except_bind_ok]
  refine ⟨?stored, ?fixed, ?dynamic, fun hreserved => by subst hreserved; exact hgo⟩
  all_goals
    rintro rfl
    rw [blockContent] at hgo
  case stored =>
    refine ⟨fun e he => ?_, fun r' hr' => ?_⟩
    · rw [hgo, he, except_bind_error]
    · rw [hgo, hr', except_bind_ok]
  case fixed => exact coded_of_eq hgo
  case dynamic =>
    refine ⟨fun e he => ?_, fun lit dist pos hheader => coded_of_eq ?_⟩
    · rw [hgo, he, except_bind_error, except_bind_error]
    · rw [hgo, hheader, except_bind_ok]

end Sys2Proof.Machine
end

section
/-! PROOF. The zlib wrapper with its Adler-32, and how INFLATE completes with the decoding (rules R140, R250 to R252). -/

namespace Sys2Proof.Machine

/-! ## Adler-32 (R252) -/

/-- The bytes of a sequence, added up. -/
def byteSum (s : List Byte) : Nat := (s.map BitVec.toNat).sum

/-- Each byte of a sequence once for itself and once for each byte after it, added up. -/
def weightedSum : List Byte → Nat
  | [] => 0
  | x :: s => (s.length + 1) * x.toNat + weightedSum s

theorem adlerStep_foldl : ∀ {s : List Byte} {s1 s2 : Nat}, s1 < 65521 → s2 < 65521 →
    s.foldl adlerStep (s1, s2) =
      ((s1 + byteSum s) % 65521, (s2 + s.length * s1 + weightedSum s) % 65521) := by
  intro s
  induction s with
  | nil => intro s1 s2 h₁ h₂; simp [byteSum, weightedSum, Nat.mod_eq_of_lt h₁, Nat.mod_eq_of_lt h₂]
  | cons x s ih =>
    intro s1 s2 _ _
    have h₁ : (s1 + x.toNat) % 65521 ≡ s1 + x.toNat [MOD 65521] := Nat.mod_modEq _ _
    have h₂ : (s2 + (s1 + x.toNat) % 65521) % 65521 ≡ s2 + (s1 + x.toNat) [MOD 65521] :=
      (Nat.mod_modEq _ _).trans (h₁.add_left s2)
    rw [List.foldl_cons, adlerStep]
    dsimp only
    rw [ih (Nat.mod_lt _ (by decide)) (Nat.mod_lt _ (by decide)), (h₁.add_right _ : _ % _ = _ % _),
      (((h₂.add (h₁.mul_left s.length)).add_right _ : _ % _ = _ % _))]
    have hsum : s1 + x.toNat + byteSum s = s1 + byteSum (x :: s) := by
      rw [byteSum, byteSum, List.map_cons, List.sum_cons, Nat.add_assoc]
    have hweighted : s2 + (s1 + x.toNat) + s.length * (s1 + x.toNat) + weightedSum s =
        s2 + (x :: s).length * s1 + weightedSum (x :: s) := by
      rw [weightedSum, List.length_cons]; ring
    rw [hsum, hweighted]

theorem sum_range_succ_map (f : Nat → Nat) (n : Nat) :
    ((List.range (n + 1)).map f).sum = f 0 + ((List.range n).map fun i => f (i + 1)).sum := by
  rw [List.range_succ_eq_map, List.map_cons, List.sum_cons, List.map_map]; rfl

theorem byteSum_eq (s : List Byte) : byteSum s = ((List.range s.length).map (byteAt s)).sum := by
  induction s with
  | nil => rfl
  | cons x s ih => rw [List.length_cons, sum_range_succ_map, byteSum, List.map_cons, List.sum_cons, ← byteSum, ih]; rfl

theorem weightedSum_eq (s : List Byte) : weightedSum s = ((List.range s.length).map fun i => (s.length - i) * byteAt s i).sum := by
  induction s with
  | nil => rfl
  | cons x s ih =>
    rw [List.length_cons, sum_range_succ_map, weightedSum, ih]
    simp only [Nat.add_sub_add_right]
    rfl

theorem adler32_eq_adlerSum (s : List Byte) : adler32 s = adlerSum s := by
  rw [adler32, adlerStep_foldl (by decide) (by decide), byteSum_eq, weightedSum_eq, adlerSum, Nat.mul_one, Nat.zero_add]

/-! ## The zlib wrapper (R140, R250, R251) -/

section
variable {p : Port} {b : Bus} {k : Sink} {r : Inflater} {cmf flg : Nat} {e : Raise}

theorem inflateStream_zlib : inflateStream true p b k =
    (zlibHeader p { pos := 0, sink := k, pads := [] } >>= fun r => inflateBlocks p b (8 * p.len) r >>= zlibTrailer p) := by
  simp only [inflateStream, if_true]

theorem zlibHeader_error (h : readBits p 16 r.pos = .error e) : zlibHeader p r = .error e := by
  rw [zlibHeader]
  obtain hcmf | ⟨v, hcmf, hflg⟩ := readBits_append (n := 8) (m := 8) h
  · rw [hcmf, except_bind_error]
  · rw [hcmf, except_bind_ok, hflg, except_bind_error]

theorem zlibHeaderOk_iff : zlibHeaderOk cmf flg = true ↔
    cmf % 16 = 8 ∧ cmf / 16 ≤ 7 ∧ (cmf * 256 + flg) % 31 = 0 ∧ flg.testBit 5 = false := by
  have hbit : flg / 32 % 2 = 0 ↔ flg.testBit 5 = false := by
    rw [← Bool.not_eq_true, ← Nat.toNat_testBit flg 5]
    cases flg.testBit 5 <;> decide
  simp only [zlibHeaderOk, Bool.and_eq_true, decide_eq_true_eq, hbit, and_assoc]

theorem readBigEndian_error : ∀ {n pos acc : Nat}, readBits p (8 * n) pos = .error e → readBigEndian p n pos acc = .error e := by
  intro n
  induction n with
  | zero => intro pos acc h; cases h
  | succ n ih =>
    intro pos acc h
    rw [Nat.mul_succ, Nat.add_comm] at h
    rw [readBigEndian]
    obtain hfirst | ⟨v, hv, hrest⟩ := readBits_append h
    · rw [hfirst, except_bind_error]
    · rw [hv, except_bind_ok, ih hrest]

/-- Four bytes on the wire are the big-endian number they give (R250). -/
theorem readBigEndian_bytes {pos a0 a1 a2 a3 : Nat} (h₀ : BitsAt p pos 8 a0) (h₁ : BitsAt p (pos + 8) 8 a1)
    (h₂ : BitsAt p (pos + 16) 8 a2) (h₃ : BitsAt p (pos + 24) 8 a3) :
    readBigEndian p 4 pos 0 = .ok (a0 * 16777216 + a1 * 65536 + a2 * 256 + a3) := by
  rw [readBigEndian, readBits_bitsAt h₀, except_bind_ok, readBigEndian, readBits_bitsAt h₁, except_bind_ok, readBigEndian,
    readBits_bitsAt h₂, except_bind_ok, readBigEndian, readBits_bitsAt h₃, except_bind_ok, readBigEndian]
  exact congrArg Except.ok (by ring)

theorem zlibTrailer_error (h : readBits p 32 r.align.pos = .error e) : zlibTrailer p r = .error e := by
  rw [zlibTrailer, readBigEndian_error (n := 4) h, except_bind_error]

theorem zlibTrailer_read {a : Nat} (h : readBigEndian p 4 r.align.pos 0 = .ok a) :
    zlibTrailer p r = if a ≠ adlerSum r.sink.out then .error (corruptAt .adler (r.align.pos + 32))
      else .ok { pos := r.align.pos + 32, sink := r.sink, pads := r.align.pads } := by
  rw [zlibTrailer, h, except_bind_ok, adler32_eq_adlerSum]
  rfl

end

/-- The wrapper: its header, the blocks, and its trailer against the Adler-32 of the output. -/
theorem zlibWrapperRule : ZlibWrapperRule := by
  intro p b k
  rw [inflateStream_zlib]
  refine ⟨fun e he => by rw [zlibHeader_error he, except_bind_error], ?_⟩
  intro cmf flg hcmf hflg legal blocks
  have hheader : zlibHeader p { pos := 0, sink := k, pads := [] } =
      if zlibHeaderOk cmf flg then .ok { pos := 16, sink := k, pads := [] }
      else .error { err := .corrupt .zlibHeader, info := 0 } := by
    rw [zlibHeader, readBits_bitsAt hcmf, except_bind_ok, readBits_bitsAt hflg, except_bind_ok]
  have hlegal : zlibHeaderOk cmf flg = true ↔ legal := zlibHeaderOk_iff
  refine ⟨fun hbad => ?_, fun hgood => ?_⟩
  · rw [hheader, if_neg (mt hlegal.mp hbad), except_bind_error]
  · rw [hheader, if_pos (hlegal.mpr hgood), except_bind_ok]
    refine ⟨fun e he => ?_, ?_⟩
    · rw [show inflateBlocks p b (8 * p.len) { pos := 16, sink := k, pads := [] } = .error e from he, except_bind_error]
    · intro r hr q
      rw [show inflateBlocks p b (8 * p.len) { pos := 16, sink := k, pads := [] } = .ok r from hr, except_bind_ok]
      refine ⟨fun e => zlibTrailer_error, ?_⟩
      intro a0 a1 a2 a3 h₀ h₁ h₂ h₃ a
      rw [zlibTrailer_read (readBigEndian_bytes h₀ h₁ h₂ h₃)]
      exact ⟨fun hne => if_pos hne, fun heq => if_neg (not_not_intro heq)⟩

/-! ## How the command completes (R250) -/

/-- INFLATE and INFLATE.Z run one body, which takes Z as an operand. -/
theorem commandBody_inflate (z : Bool) (b : Bus) (a : Args) :
    commandBody (if z then .inflateZ else .inflate) b a = inflateBody z b a := by cases z <;> rfl

/-- Past the checks the command is the decoding of its source. -/
theorem inflateBody_eq {z : Bool} {b : Bus} {a : Args} (h : SrcDstOk a) :
    inflateBody z b a = (inflateStream z (Port.ofRegion b a.src a.len) b a.sink >>= fun r =>
      .ok { result := 0, inUsed := BitVec.ofNat 32 r.used, flags := 0, out := r.sink.out }) := by
  rw [inflateBody, checkSrcDst_ok h, except_bind_ok]

/-- Settles O39: the seven rules, and INFLATE as the completion of the decoding. -/
theorem inflateCompletesWithTheDecoding : Obligations.InflateCompletesWithTheDecoding := by
  refine ⟨sourceBitsRule, blockRule, storedBlockRule, codeLengthsRule, dynamicHeaderRule, compressedDataRule, zlibWrapperRule,
    ?_⟩
  intro s z hok run i
  have hbody : commandBody i s.bus s.latch.args = (run >>= fun r => .ok
      { result := 0, inUsed := BitVec.ofNat 32 r.used, flags := 0, out := r.sink.out }) :=
    (commandBody_inflate z _ _).trans (inflateBody_eq hok)
  refine ⟨fun r hr => ?_, fun e he => ?_⟩
  · rw [hr, except_bind_ok] at hbody
    exact exec_success i hok.dst hbody
  · rw [he, except_bind_error] at hbody
    exact failsWith_of_raise (exec_eq i s) hbody

end Sys2Proof.Machine
end

section
/-! PROOF. The CRC register as a bijection of words: the table form is the bitwise form, and a changed byte changes the CRC
(rules R49, R200, R201, R202, R208). -/

namespace Sys2Proof.Machine

/-! ## The table form is the bitwise form (R49, R201) -/

section
variable {c d : Word}

theorem crcShift_of_bit (h : c.getLsbD 0 = true) : crcShift c = (c >>> 1) ^^^ Config.crcPoly := if_pos h

theorem crcShift_of_noBit (h : c.getLsbD 0 = false) : crcShift c = c >>> 1 := if_neg (Bool.eq_false_iff.mp h)

/-- A word with bit 0 clear passes a step as its plain shift, apart from the rest of the register. -/
theorem crcShift_xor (h : d.getLsbD 0 = false) : crcShift (c ^^^ d) = crcShift c ^^^ (d >>> 1) := by
  have hbit : (c ^^^ d).getLsbD 0 = c.getLsbD 0 := by rw [BitVec.getLsbD_xor, h, Bool.xor_false]
  cases hc : c.getLsbD 0 with
  | false => rw [crcShift_of_noBit (hbit.trans hc), crcShift_of_noBit hc, BitVec.ushiftRight_xor_distrib]
  | true =>
    rw [crcShift_of_bit (hbit.trans hc), crcShift_of_bit hc, BitVec.ushiftRight_xor_distrib, BitVec.xor_assoc, BitVec.xor_assoc,
      BitVec.xor_comm (d >>> 1)]

end

/-- A word with its `n` low bits clear passes `n` steps as its plain shift. -/
theorem crcShifts_xor : ∀ {n : Nat} {c d : Word}, (∀ i, i < n → d.getLsbD i = false) →
    crcShifts n (c ^^^ d) = crcShifts n c ^^^ (d >>> n) := by
  intro n
  induction n with
  | zero => intro c d _; rfl
  | succ n ih =>
    intro c d h
    have hshifted : ∀ i, i < n → (d >>> 1).getLsbD i = false := fun i hi => by
      rw [BitVec.getLsbD_ushiftRight]; exact h _ (by omega)
    rw [crcShifts, crcShift_xor (h 0 n.succ_pos), ih hshifted, ← BitVec.shiftRight_add, Nat.add_comm 1]
    rfl

theorem crcShifts_eq_iterate (n : Nat) : crcShifts n = crcShift^[n] := by
  induction n with
  | zero => rfl
  | succ n ih => funext c; rw [crcShifts, ih]; rfl

/-- A byte has no bit above its 8. -/
theorem byte_ushiftRight_eight (b : Byte) : b.setWidth 32 >>> 8 = 0#32 := by
  apply BitVec.eq_of_getLsbD_eq
  intro i _
  rw [BitVec.getLsbD_ushiftRight, BitVec.getLsbD_setWidth, BitVec.getLsbD_of_ge b _ (by omega), Bool.and_false]
  exact BitVec.getLsbD_zero.symm

/-- In 8 steps the low byte of a register becomes its table entry and the other bits only shift: the register is its low byte
and a word with the low byte clear. -/
theorem crcShifts_eight (x : Word) : crcShifts 8 x = crcTable (x.setWidth 8) ^^^ (x >>> 8) := by
  have hlow : ∀ i, i < 8 → ((x.setWidth 8).setWidth 32 ^^^ x).getLsbD i = false := fun i hi => by
    simp [hi, show i < 32 by omega]
  calc crcShifts 8 x
      = crcShifts 8 ((x.setWidth 8).setWidth 32 ^^^ ((x.setWidth 8).setWidth 32 ^^^ x)) := by
        rw [← BitVec.xor_assoc, BitVec.xor_self, BitVec.zero_xor]
    _ = crcTable (x.setWidth 8) ^^^ (((x.setWidth 8).setWidth 32 ^^^ x) >>> 8) := crcShifts_xor hlow
    _ = crcTable (x.setWidth 8) ^^^ (x >>> 8) := by
        rw [BitVec.ushiftRight_xor_distrib, byte_ushiftRight_eight, BitVec.zero_xor]

/-- One byte by the table (R200) is 8 steps of the register with the byte in it (R201). -/
theorem crcUpdate_eq_crcShifts (r : Word) (b : Byte) : crcUpdate r b = crcShifts 8 (r ^^^ b.setWidth 32) := by
  rw [crcShifts_eight, BitVec.ushiftRight_xor_distrib, byte_ushiftRight_eight, BitVec.xor_zero, crcUpdate]

/-- Settles O32: the same update of the register, byte by byte. -/
theorem crcTableFormIsBitwiseForm : Obligations.CrcTableFormIsBitwiseForm := by
  intro bytes
  have hstep : crcUpdate = fun r b => crcShift^[8] (r ^^^ b.setWidth 32) := by
    funext r b
    rw [crcUpdate_eq_crcShifts, crcShifts_eq_iterate]
  rw [crc32, crcRun, hstep]
  rfl

/-! ## A changed byte changes the CRC (R208) -/

/-- The polynomial's bit 31 is set, so a step keeps the bit it shifts out. -/
theorem getLsbD_crcShift_top (c : Word) : (crcShift c).getLsbD 31 = c.getLsbD 0 := by
  have hpoly : Config.crcPoly.getLsbD 31 = true := by decide
  have hshift : (c >>> 1).getLsbD 31 = false := by rw [BitVec.getLsbD_ushiftRight]; exact BitVec.getLsbD_of_ge _ _ (by decide)
  cases hc : c.getLsbD 0 with
  | false => rw [crcShift_of_noBit hc, hshift]
  | true => rw [crcShift_of_bit hc, BitVec.getLsbD_xor, hshift, hpoly]; rfl

/-- A word is its bit 0 and the bits above it. -/
theorem eq_of_bit_zero_of_shift {c d : Word} (hbit : c.getLsbD 0 = d.getLsbD 0) (hshift : c >>> 1 = d >>> 1) : c = d := by
  apply BitVec.eq_of_getLsbD_eq
  intro i _
  cases i with
  | zero => exact hbit
  | succ i =>
    have hi := congrArg (BitVec.getLsbD · i) hshift
    simpa only [BitVec.getLsbD_ushiftRight, Nat.add_comm 1] using hi

theorem crcShift_injective : Function.Injective crcShift := by
  intro c d h
  have hbit : c.getLsbD 0 = d.getLsbD 0 := by rw [← getLsbD_crcShift_top, h, getLsbD_crcShift_top]
  refine eq_of_bit_zero_of_shift hbit ?_
  cases hc : c.getLsbD 0 with
  | false => rwa [crcShift_of_noBit hc, crcShift_of_noBit (hbit ▸ hc)] at h
  | true =>
    rw [crcShift_of_bit hc, crcShift_of_bit (hbit ▸ hc)] at h
    exact (BitVec.xor_left_inj _).mp h

theorem crcShifts_injective (n : Nat) : Function.Injective (crcShifts n) :=
  crcShifts_eq_iterate n ▸ crcShift_injective.iterate n

/-- A byte takes different registers to different registers. -/
theorem crcUpdate_register_injective (b : Byte) : Function.Injective (crcUpdate · b) := by
  intro r r' h
  simp only [crcUpdate_eq_crcShifts] at h
  exact (BitVec.xor_left_inj _).mp (crcShifts_injective 8 h)

/-- Different bytes take a register to different registers. -/
theorem crcUpdate_byte_injective (r : Word) : Function.Injective (crcUpdate r) := by
  intro b b' h
  rw [crcUpdate_eq_crcShifts, crcUpdate_eq_crcShifts] at h
  have hwide := (BitVec.xor_right_inj _).mp (crcShifts_injective 8 h)
  have hbytes := congrArg (BitVec.setWidth 8) hwide
  simpa using hbytes

theorem crcRun_cons (r : Word) (b : Byte) (s : List Byte) : crcRun r (b :: s) = crcRun (crcUpdate r b) s := rfl

/-- The bytes of a sequence take different registers to different registers. -/
theorem crcRun_injective (s : List Byte) : Function.Injective (crcRun · s) := by
  induction s with
  | nil => exact fun _ _ h => h
  | cons b s ih => exact fun _ _ h => crcUpdate_register_injective b (ih h)

/-- From any register, another byte at one place of a sequence gives another register. -/
theorem crcRun_set_ne {x : Byte} : ∀ {s : List Byte} {i : Nat} (r : Word), i < s.length → x ≠ s.getD i 0 →
    crcRun r (s.set i x) ≠ crcRun r s := by
  intro s
  induction s with
  | nil => intro i r hi; exact absurd hi (Nat.not_lt_zero i)
  | cons b s ih =>
    intro i r hi hx
    cases i with
    | zero => exact fun h => hx (crcUpdate_byte_injective r (crcRun_injective s h))
    | succ i => exact ih (crcUpdate r b) (Nat.lt_of_succ_lt_succ hi) hx

theorem flipped_bit_ne (b : Byte) {j : Nat} (hj : j < 8) : b ^^^ (1#8 <<< j) ≠ b := by
  intro h
  have hbit := congrArg (BitVec.getLsbD · j) h
  simp [hj] at hbit

/-- Settles O33: the register of a run tells one changed byte, and a flipped bit changes its byte. -/
theorem crcDetectsEverySingleBitFlip : Obligations.CrcDetectsEverySingleBitFlip := by
  intro bytes i j hi hj h
  exact crcRun_set_ne Config.crcInit hi (flipped_bit_ne _ hj) ((BitVec.xor_left_inj _).mp h)

/-! ## Check values (R49, R202) -/

theorem crc32_nil : crc32 [] = 0 := by decide

/-- Settles O34: each value, evaluated. -/
theorem crcCheckValues : Obligations.CrcCheckValues :=
  ⟨crc32_nil, by decide +kernel, by decide +kernel, by decide, by decide, by decide, by decide, by decide, by decide⟩

end Sys2Proof.Machine
end

section
/-! PROOF. CRC.COMPUTE and CRC.VERIFY: a word computed from the source bytes, or the first error (rules R88, R203 to R205). -/

namespace Sys2Proof.Machine

/-! ## Completions that leave memory as it was -/

section
variable {i : Instr} {s : State}

/-- A command whose body succeeds with no output changes no byte (R449). -/
theorem exec_success_noOutput {result inUsed flags : Word}
    (hbody : commandBody i s.bus s.latch.args = .ok { result := result, inUsed := inUsed, flags := flags, out := [] }) :
    ∃ t, exec i s = .next t ∧ Success s t result inUsed flags [] ∧ t.mem = s.mem := by
  refine ⟨_, exec_eq i s, ?_⟩
  rw [hbody, complete_ok]
  exact ⟨finishWith_success _ s (Nat.le_of_lt s.latch.args.dstAddr.isLt), rfl⟩

/-- A command without a destination whose body raises changes no byte (R450). -/
theorem exec_failure_noDestination {e : ErrKind} {info : Nat} (hdst : usesDestination i = false)
    (hbody : commandBody i s.bus s.latch.args = .error { err := e, info := info }) :
    ∃ t, exec i s = .next t ∧ Failure s t e info ∧ t.mem = s.mem := by
  refine ⟨_, exec_eq i s, ?_⟩
  rw [hbody, hdst, complete_error]
  exact ⟨raiseWith_failure false _ s, raiseWith_noDestination_mem _ s⟩

end

/-! ## The body of both commands -/

/-- The source bounds, the source bytes, and a word computed from them: the body of CRC.COMPUTE and of CRC.VERIFY. -/
def sourceDigest (f : List Byte → Word) (b : Bus) (a : Args) : Except Raise Done := do
  checkRegion a.src a.len 0
  let s ← memRead b a.src a.len
  .ok { result := f s, inUsed := a.srcLen, flags := 0, out := [] }

theorem commandBody_crcCompute (b : Bus) (a : Args) : commandBody .crcCompute b a = sourceDigest crc32 b a := rfl

theorem commandBody_crcVerify (b : Bus) (a : Args) :
    commandBody .crcVerify b a = sourceDigest (crcVerify · a.arg0) b a := rfl

section
variable {f : List Byte → Word} {s : State}

theorem sourceDigest_wrap (h : 2 ^ 32 < s.latch.args.src + s.latch.args.len) :
    sourceDigest f s.bus s.latch.args = .error { err := .param .wrap, info := 0 } := by
  rw [sourceDigest, checkRegion_wrap h, except_bind_error]

theorem sourceDigest_hole {x : Nat} (hregion : regionOk s.latch.args.src s.latch.args.len = true)
    (hx : FirstHole s.platform .read s.latch.args.src s.latch.args.len x) :
    sourceDigest f s.bus s.latch.args = .error { err := .bus .read, info := x } := by
  have hread : memRead s.bus s.latch.args.src s.latch.args.len = .error { err := .bus .read, info := x } := memRead_hole hx
  rw [sourceDigest, checkRegion_ok hregion, except_bind_ok, hread, except_bind_error]

theorem sourceDigest_ok (hregion : regionOk s.latch.args.src s.latch.args.len = true)
    (hr : Readable s.platform s.latch.args.src s.latch.args.len) :
    sourceDigest f s.bus s.latch.args =
      .ok { result := f s.sourceBytes, inUsed := s.latch.args.srcLen, flags := 0, out := [] } := by
  rw [sourceDigest, checkRegion_ok hregion, except_bind_ok, memRead_source hr, except_bind_ok]

/-- An empty source is inside the address space wherever it lies, and nothing of it is read. -/
theorem sourceDigest_empty (h : s.latch.args.len = 0) :
    sourceDigest f s.bus s.latch.args = .ok { result := f [], inUsed := 0, flags := 0, out := [] } := by
  have hregion : regionOk s.latch.args.src s.latch.args.len = true :=
    decide_eq_true (by rw [h]; exact Nat.le_of_lt s.latch.args.srcAddr.isLt)
  have hbytes : s.sourceBytes = [] := by rw [State.sourceBytes, h, memBytes_zero]
  have hlen : s.latch.args.srcLen = 0 := BitVec.eq_of_toNat_eq h
  rw [sourceDigest_ok hregion fun a h₁ h₂ => by omega, hbytes, hlen]

end

theorem firstHole_of_readable_below {p : Platform} {base n x : Nat} (h₁ : base ≤ x) (h₂ : x < base + n)
    (hx : memOk p x .read = false) (hr : Readable p base (x - base)) : FirstHole p .read base n x :=
  ⟨h₁, h₂, hx, fun a ha hax => hr a ha (by omega)⟩

section
variable {i : Instr} {f : List Byte → Word} {s : State}

/-- The four ways a command with such a body completes: the empty source, the readable one, WRAP, and the first byte whose read
fails. Memory stays. -/
theorem sourceDigest_completes (hdst : usesDestination i = false)
    (hbody : commandBody i s.bus s.latch.args = sourceDigest f s.bus s.latch.args) :
    (s.latch.args.len = 0 → ∃ t, exec i s = .next t ∧ Success s t (f []) 0 0 [] ∧ t.mem = s.mem) ∧
    (regionOk s.latch.args.src s.latch.args.len = true → Readable s.platform s.latch.args.src s.latch.args.len →
      ∃ t, exec i s = .next t ∧ Success s t (f s.sourceBytes) s.latch.args.srcLen 0 [] ∧ t.mem = s.mem) ∧
    (2 ^ 32 < s.latch.args.src + s.latch.args.len →
      ∃ t, exec i s = .next t ∧ Failure s t (.param .wrap) 0 ∧ t.mem = s.mem) ∧
    (regionOk s.latch.args.src s.latch.args.len = true → ∀ a, s.latch.args.src ≤ a →
      a < s.latch.args.src + s.latch.args.len → memOk s.platform a .read = false →
      Readable s.platform s.latch.args.src (a - s.latch.args.src) →
      ∃ t, exec i s = .next t ∧ Failure s t (.bus .read) a ∧ t.mem = s.mem) := by
  refine ⟨fun hempty => ?empty, fun hregion hr => ?readable, fun hwrap => ?wrap, fun hregion a h₁ h₂ ha hr => ?hole⟩
  case empty => exact exec_success_noOutput (hbody.trans (sourceDigest_empty hempty))
  case readable => exact exec_success_noOutput (hbody.trans (sourceDigest_ok hregion hr))
  case wrap => exact exec_failure_noDestination hdst (hbody.trans (sourceDigest_wrap hwrap))
  case hole =>
    exact exec_failure_noDestination hdst
      (hbody.trans (sourceDigest_hole hregion (firstHole_of_readable_below h₁ h₂ ha hr)))

end

/-- Settles O30: the digest is the CRC, and the CRC of no bytes is 0. -/
theorem crcComputeGivesTheCrc : Obligations.CrcComputeGivesTheCrc := by
  refine ⟨by decide, fun s => ?_⟩
  have h := sourceDigest_completes (i := .crcCompute) (s := s) rfl (commandBody_crcCompute _ _)
  rwa [crc32_nil] at h

/-- Settles O31: the digest is the answer of VERIFY, and no bytes have the CRC 0. -/
theorem crcVerifyComparesTheCrc : Obligations.CrcVerifyComparesTheCrc := by
  refine ⟨by decide, fun s => ?_⟩
  have hempty : crcVerify [] s.latch.args.arg0 = if s.latch.args.arg0 = 0 then 1 else 0 := by
    rw [crcVerify, crc32_nil]
    exact if_congr eq_comm rfl rfl
  have h := sourceDigest_completes (i := .crcVerify) (s := s) rfl (commandBody_crcVerify _ _)
  rwa [hempty] at h

end Sys2Proof.Machine
end

section
/-! PROOF. Symbol decoding read backwards: the symbol that `decode` answers has its canonical code on the wire, and on a complete
code `decode` stops only with the input (rules R240 to R242). -/

namespace Sys2Proof.Machine

/-! ## Symbols of one length (R240, R242) -/

section
variable {lens : List Nat} {k v m : Nat}

/-- The `j`-th entry of a length is an entry of that length with `j` of them before it. -/
theorem nthOfLen_eq_some : ∀ {lens : List Nat} {j s : Nat}, nthOfLen lens k j s = some m →
    ∃ i, m = s + i ∧ i < lens.length ∧ lens.getD i 0 = k ∧ countLen (lens.take i) k = j := by
  intro lens
  induction lens with
  | nil => intro j s h; cases h
  | cons l ls ih =>
    have hlater {j s : Nat} (h : nthOfLen ls k j (s + 1) = some m) :
        ∃ i, m = s + (i + 1) ∧ i + 1 < (l :: ls).length ∧ (l :: ls).getD (i + 1) 0 = k ∧ countLen (ls.take i) k = j := by
      obtain ⟨i, hm, hi, hlen, hcount⟩ := ih h
      exact ⟨i, by omega, Nat.succ_lt_succ hi, hlen, hcount⟩
    intro j s h
    by_cases hl : l = k
    · cases j with
      | zero =>
        rw [nthOfLen_cons_zero hl] at h
        cases h
        exact ⟨0, rfl, Nat.succ_pos _, hl, rfl⟩
      | succ j =>
        rw [nthOfLen_cons_succ hl] at h
        obtain ⟨i, hm, hi, hlen, hcount⟩ := hlater h
        exact ⟨i + 1, hm, hi, hlen, by rw [List.take_succ_cons, countLen, if_pos hl, hcount]⟩
    · rw [nthOfLen_cons_other hl] at h
      obtain ⟨i, hm, hi, hlen, hcount⟩ := hlater h
      exact ⟨i + 1, hm, hi, hlen, by rw [List.take_succ_cons, countLen, if_neg hl, hcount]⟩

theorem countLen_le_of_nthOfLen_none : ∀ {lens : List Nat} {j s : Nat}, nthOfLen lens k j s = none → countLen lens k ≤ j := by
  intro lens
  induction lens with
  | nil => intro j s _; exact Nat.zero_le j
  | cons l ls ih =>
    intro j s h
    rw [countLen]
    by_cases hl : l = k
    · rw [if_pos hl]
      cases j with
      | zero => rw [nthOfLen_cons_zero hl] at h; cases h
      | succ j => rw [nthOfLen_cons_succ hl] at h; exact Nat.succ_le_succ (ih h)
    · rw [if_neg hl]
      rw [nthOfLen_cons_other hl] at h
      exact ih h

/-- The symbol of a value has that length, and its code is the value. -/
theorem symbolOf_eq_some (h : symbolOf lens k v = some m) : m < lens.length ∧ lens.getD m 0 = k ∧ codeOf lens m = v := by
  rw [symbolOf] at h
  split at h
  · cases h
  · next hlow =>
    obtain ⟨i, hm, hi, hlen, hcount⟩ := nthOfLen_eq_some h
    obtain rfl : m = i := by omega
    exact ⟨hi, hlen, by rw [codeOf, hlen, hcount]; omega⟩

/-- A value from the first code of its length on that is no code is past the last one. -/
theorem codeEnd_le_of_symbolOf_none (h : symbolOf lens k v = none) (hfirst : firstCode lens k ≤ v) : codeEnd lens k ≤ v := by
  rw [symbolOf, if_neg (Nat.not_lt.mpr hfirst)] at h
  have := countLen_le_of_nthOfLen_none h
  rw [codeEnd]
  omega

/-- A complete code takes every value of 15 bits. -/
theorem codeEnd_complete (hkraft : kraftSum lens = 2 ^ 15) : codeEnd lens 15 = 2 ^ 15 := by
  rw [← hkraft, kraftSum_eq_codeEnd (n := 0) (k := 15) (by decide) rfl, codeSpace, Nat.pow_zero, Nat.mul_one, Nat.add_zero]

end

/-! ## The bits that `decode` has read (R15, R242) -/

section
variable {p : Port} {lens : List Nat} {pos i v sym q : Nat} {b : Bool}

theorem testBit_low (v : Nat) (b : Bool) : (2 * v + bit b).testBit 0 = b := by
  rw [Nat.testBit_zero, Nat.mul_add_mod]
  cases b <;> rfl

theorem testBit_above_low (v j : Nat) (b : Bool) : (2 * v + bit b).testBit (j + 1) = v.testBit j := by
  have hbit : bit b < 2 := by cases b <;> decide
  have hhalf : (2 * v + bit b) / 2 = v := by omega
  rw [Nat.testBit_succ, hhalf]

theorem spells_zero : Spells p pos 0 v := fun _ h => absurd h (Nat.not_lt_zero _)

/-- One more bit: the number so far doubles, and the bit is its lowest. -/
theorem spells_succ (h : Spells p pos i v) (hb : readBit p (pos + i) = .ok b) : Spells p pos (i + 1) (2 * v + bit b) := by
  intro j hj
  obtain hj | rfl := Nat.lt_succ_iff_lt_or_eq.mp hj
  · rw [h j hj, show i + 1 - 1 - j = i - 1 - j + 1 by omega, testBit_above_low]
  · rw [hb, Nat.add_sub_cancel, Nat.sub_self, testBit_low]

/-- After `i` bits that spell `v`, the symbol that comes out has its code on the wire from the first of them on. -/
theorem symbolAt_of_decodeFrom : ∀ {n i v : Nat}, n + i = 15 → Spells p pos i v →
    decodeFrom p lens n (i + 1) v (pos + i) = .ok (sym, q) → SymbolAt p lens pos sym q := by
  intro n
  induction n with
  | zero => intro i v _ _ h; cases h
  | succ n ih =>
    intro i v hi hspells h
    rw [decodeFrom, except_bind_eq_ok] at h
    obtain ⟨b, hb, h⟩ := h
    replace hspells := spells_succ hspells hb
    split at h
    · next s hs =>
      cases h
      obtain ⟨hsym, hlen, hcode⟩ := symbolOf_eq_some hs
      exact ⟨hsym, by omega, by omega, by rw [hlen, Nat.add_assoc], by rwa [hlen, hcode]⟩
    · exact ih (by omega) hspells h

/-- `decode` answers a symbol only where its code stands at the cursor. -/
theorem symbolAt_of_decodeSymbol (h : decodeSymbol p lens pos = .ok (sym, q)) : SymbolAt p lens pos sym q :=
  symbolAt_of_decodeFrom (i := 0) rfl spells_zero h

/-- On a complete code, after `i` bits `v` that no shorter code begins: only a bit that cannot be read ends the decoding in an
error, for past 15 bits `v` would be past the last code. -/
theorem readBit_error_of_decodeFrom {e : Raise} (hkraft : kraftSum lens = 2 ^ 15) : ∀ {n i v pos : Nat}, n + i = 15 →
    v < 2 ^ i → firstCode lens (i + 1) ≤ 2 * v → decodeFrom p lens n (i + 1) v pos = .error e →
    ∃ j, j < n ∧ readBit p (pos + j) = .error e := by
  intro n
  induction n with
  | zero =>
    intro i v pos hi hv hfirst _
    obtain rfl : i = 15 := by omega
    rw [firstCode_succ (by decide), codeEnd_complete hkraft] at hfirst
    omega
  | succ n ih =>
    intro i v pos hi hv hfirst h
    rw [decodeFrom, except_bind_eq_error] at h
    obtain hread | ⟨b, -, h⟩ := h
    · exact ⟨0, Nat.succ_pos n, hread⟩
    · have hbit : bit b < 2 := by cases b <;> decide
      split at h
      · cases h
      · next hnone =>
        have hpast := codeEnd_le_of_symbolOf_none hnone (by omega)
        obtain ⟨j, hj, hread⟩ := ih (by omega) (by rw [Nat.pow_succ]; omega)
          (by rw [firstCode_succ (Nat.le_add_left 1 i)]; omega) h
        exact ⟨j + 1, Nat.succ_lt_succ hj, by rwa [← Nat.add_assoc, Nat.add_right_comm]⟩

end

/-- Settles O36: the symbol that comes out has its code at the cursor (`symbolAt_of_decodeSymbol`), and the code at the cursor
comes out (`decodeSymbol_symbolAt`). -/
theorem decodeReadsCanonicalCodes : Obligations.DecodeReadsCanonicalCodes := fun _ _ _ _ _ hkraft =>
  ⟨symbolAt_of_decodeSymbol, decodeSymbol_symbolAt hkraft⟩

/-- Settles O35: `build` compares the Kraft sum with the code space. -/
theorem buildAcceptsExactlyCompleteCodes : Obligations.BuildAcceptsExactlyCompleteCodes := fun _ _ =>
  ⟨buildCode_complete, buildCode_incomplete, buildCode_oversub⟩

/-- Settles O37: the first code of length 1 is 0, so before any bit is read no code is passed. -/
theorem decodeFailsOnlyWithTheInput : Obligations.DecodeFailsOnlyWithTheInput := fun _ _ _ _ hkraft =>
  readBit_error_of_decodeFrom (i := 0) hkraft rfl (by decide) (Nat.le_refl 0)

end Sys2Proof.Machine
end

section
/-! PROOF. The fixed codes are runs of equal lengths, so their codes are counted run by run (rules R240, R245). -/

namespace Sys2Proof.Machine

/-! ## Runs of equal lengths -/

theorem countLen_append (as bs : List Nat) (k : Nat) : countLen (as ++ bs) k = countLen as k + countLen bs k := by
  induction as with
  | nil => exact (Nat.zero_add _).symm
  | cons a as ih =>
    rw [List.cons_append, countLen, countLen, ih]
    split <;> omega

theorem countLen_replicate (n l k : Nat) : countLen (List.replicate n l) k = if l = k then n else 0 := by
  induction n with
  | zero => exact (ite_self 0).symm
  | succ n ih =>
    rw [List.replicate_succ, countLen, ih]
    split <;> rfl

theorem getD_replicate_append {n l s : Nat} {xs : List Nat} :
    (List.replicate n l ++ xs).getD s 0 = if s < n then l else xs.getD (s - n) 0 := by
  split
  · next h => rw [List.getD_append _ _ _ _ (by rwa [List.length_replicate]), List.getD_replicate _ h]
  · next h => rw [List.getD_append_right _ _ _ _ (by rw [List.length_replicate]; omega), List.length_replicate]

/-- The first symbol of a length has the first code of that length. -/
theorem codeOf_eq_firstCode {lens : List Nat} {s l : Nat} (hlen : lens.getD s 0 = l) (hfirst : countLen (lens.take s) l = 0) :
    codeOf lens s = firstCode lens l := by
  rw [codeOf, hlen, hfirst, Nat.add_zero]

/-! ## The fixed literal/length code (R245) -/

theorem fixedLitLens_length : fixedLitLens.length = 288 := by
  simp only [fixedLitLens, List.length_append, List.length_replicate]

theorem fixedLitLens_getD {s : Nat} (h : s < 288) :
    fixedLitLens.getD s 0 = if s < 144 then 8 else if s < 256 then 9 else if s < 280 then 7 else 8 := by
  have hlast (h' : 280 ≤ s) : (List.replicate 8 8).getD (s - 144 - 112 - 24) 0 = 8 := List.getD_replicate _ (by omega)
  simp only [fixedLitLens, List.append_assoc, getD_replicate_append]
  split_ifs <;> omega

theorem countLen_fixedLitLens (k : Nat) : countLen fixedLitLens k =
    (if 8 = k then 144 else 0) + (if 9 = k then 112 else 0) + (if 7 = k then 24 else 0) + if 8 = k then 8 else 0 := by
  simp only [fixedLitLens, countLen_append, countLen_replicate]

theorem countLen_take_fixedLitLens (s k : Nat) : countLen (fixedLitLens.take s) k =
    (if 8 = k then min s 144 else 0) + (if 9 = k then min (s - 144) 112 else 0) + (if 7 = k then min (s - 256) 24 else 0) +
      if 8 = k then min (s - 280) 8 else 0 := by
  simp only [fixedLitLens, List.take_append, List.take_replicate, List.length_append, List.length_replicate, countLen_append,
    countLen_replicate]

theorem firstCode_fixedLitLens :
    firstCode fixedLitLens 7 = 0 ∧ firstCode fixedLitLens 8 = 48 ∧ firstCode fixedLitLens 9 = 400 := by
  simp only [firstCode, countLen_fixedLitLens]; decide

theorem kraftSum_fixedLitLens : kraftSum fixedLitLens = 2 ^ 15 := by
  simp only [kraftSum, countLen_fixedLitLens]; decide

/-! ## The fixed distance code (R245) -/

theorem countLen_fixedDistLens (k : Nat) : countLen fixedDistLens k = if 5 = k then 32 else 0 := countLen_replicate 32 5 k

theorem kraftSum_fixedDistLens : kraftSum fixedDistLens = 2 ^ 15 := by
  simp only [kraftSum, countLen_fixedDistLens]; decide

theorem fixedDistLens_getD {d : Nat} (h : d < 32) : fixedDistLens.getD d 0 = 5 := List.getD_replicate _ h

theorem codeOf_fixedDistLens {d : Nat} (h : d < 32) : codeOf fixedDistLens d = d := by
  have hfirst : firstCode fixedDistLens 5 = 0 := by simp only [firstCode, countLen_fixedDistLens]; rfl
  rw [codeOf, fixedDistLens_getD h, hfirst, fixedDistLens, List.take_replicate, countLen_replicate, if_pos rfl]
  omega

/-- Settles O38: the fixed codes are runs of equal lengths, and 256, 0 and 144 are the first symbols of their lengths. -/
theorem fixedCodesAreComplete : Obligations.FixedCodesAreComplete := by
  obtain ⟨hfirst₇, hfirst₈, hfirst₉⟩ := firstCode_fixedLitLens
  have hlen₂₅₆ : fixedLitLens.getD 256 0 = 7 := fixedLitLens_getD (by decide)
  have hlen₀ : fixedLitLens.getD 0 0 = 8 := fixedLitLens_getD (by decide)
  have hlen₁₄₄ : fixedLitLens.getD 144 0 = 9 := fixedLitLens_getD (by decide)
  exact ⟨kraftSum_fixedLitLens, kraftSum_fixedDistLens, fixedLitLens_length,
    hlen₂₅₆, (codeOf_eq_firstCode hlen₂₅₆ (countLen_take_fixedLitLens ..)).trans hfirst₇,
    hlen₀, (codeOf_eq_firstCode hlen₀ (countLen_take_fixedLitLens ..)).trans hfirst₈,
    hlen₁₄₄, (codeOf_eq_firstCode hlen₁₄₄ (countLen_take_fixedLitLens ..)).trans hfirst₉,
    fun _ => fixedLitLens_getD, List.length_replicate, fun _ hd => ⟨fixedDistLens_getD hd, codeOf_fixedDistLens hd⟩⟩

end Sys2Proof.Machine
end

section
/-! PROOF. An error leaves no result but its code and information, and a success no error (rules R442, R449, R450). -/

namespace Sys2Proof.Machine

/-- The table of R442 is whole: one case for each class, and in it one for each subcode. -/
theorem mem_errKind_all (e : ErrKind) : e ∈ ErrKind.all := by
  cases e with
  | format k | corrupt k | dimensions k | illegal k | param k | bus k => cases k <;> decide
  | capacity => decide

/-- Settles O24: a command ends with `raise` or with `finish`, and each names every result register. -/
theorem errorsReportNoPartialResult : Obligations.ErrorsReportNoPartialResult := by
  intro i s t h
  rw [exec_next h]
  cases commandBody i s.bus s.latch.args with
  | ok d => exact ⟨nofun, fun _ => ⟨rfl, rfl⟩⟩
  | error r => exact ⟨fun _ => ⟨rfl, rfl, rfl, rfl, r.err, mem_errKind_all r.err, rfl⟩, nofun⟩

end Sys2Proof.Machine
end

section
/-! PROOF. The bounds on rounds never end a loop: every round ends its loop or goes on nearer to the end of what the loop reads,
and a loop at that end answers alike whatever rounds are left (rules R242, R247, R248, R250, R343; log entry 11). -/

namespace Sys2Proof.Machine

/-! ## One round of a loop -/

section
variable {σ α β : Type} {loop : Nat → σ → Except Raise α} {Last : α → Prop} {Next : σ → Prop}

/-- What a round does, whatever rounds are left after it: it fails, it ends the loop with an answer, or the loop goes on from a
next state. -/
inductive Round (loop : Nat → σ → Except Raise α) (Last : α → Prop) (Next : σ → Prop) (round : Nat → Except Raise α) : Prop
  | fails (e : Raise) (h : ∀ n, round n = .error e)
  | ends (a : α) (hlast : Last a) (h : ∀ n, round n = .ok a)
  | goesOn (s : σ) (hnext : Next s) (h : ∀ n, round n = loop n s)

/-- A part of a round that does not depend on the rounds left: its error fails the round, its value goes to the rest. -/
theorem Round.bind {x : Except Raise β} {f : β → Nat → Except Raise α} (h : ∀ a, x = .ok a → Round loop Last Next (f a)) :
    Round loop Last Next fun n => x >>= fun a => f a n := by
  cases x with
  | error e => exact .fails e fun _ => rfl
  | ok a => exact h a rfl

theorem Round.ite {c : Prop} [Decidable c] {f g : Nat → Except Raise α} (hf : c → Round loop Last Next f)
    (hg : ¬c → Round loop Last Next g) : Round loop Last Next fun n => if c then f n else g n := by
  by_cases h : c
  · simpa only [if_pos h] using hf h
  · simpa only [if_neg h] using hg h

/-- A loop whose rounds each lower `left`, and which answers alike for all bounds where `left` is 0, is not ended by a bound of
`left` rounds or more. -/
theorem rounds_never_run_out {left : σ → Nat} {Last : σ → α → Prop} {Next : σ → σ → Prop}
    (hround : ∀ s, Round loop (Last s) (Next s) fun n => loop (n + 1) s)
    (hnext : ∀ {s s'}, 0 < left s → Next s s' → left s' < left s)
    (hdone : ∀ {s}, left s = 0 → ∀ n, loop n s = loop 0 s) (more : Nat) :
    ∀ {n : Nat} {s : σ}, left s ≤ n → loop (n + more) s = loop n s := by
  intro n
  induction n with
  | zero => intro s h; exact hdone (Nat.le_zero.mp h) _
  | succ n ih =>
    intro s h
    obtain hzero | hpos := Nat.eq_zero_or_pos (left s)
    · rw [hdone hzero, hdone hzero (n + 1)]
    · rw [Nat.succ_add]
      obtain ⟨e, hr⟩ | ⟨a, -, hr⟩ | ⟨s', hs', hr⟩ := hround s
      · rw [hr, hr]
      · rw [hr, hr]
      · have hless := hnext hpos hs'
        rw [hr, hr, ih (by omega)]

/-- The answer of a loop is related to its start as that of a last round is, where the rounds before it keep the relation. -/
theorem answer_of_rounds {Last : σ → α → Prop} {Next : σ → σ → Prop}
    (hround : ∀ s, Round loop (Last s) (Next s) fun n => loop (n + 1) s)
    (hnext : ∀ {s s' a}, Next s s' → Last s' a → Last s a) (hzero : ∀ {s a}, loop 0 s = .ok a → Last s a) :
    ∀ {n : Nat} {s : σ} {a : α}, loop n s = .ok a → Last s a := by
  intro n
  induction n with
  | zero => exact hzero
  | succ n ih =>
    intro s a h
    obtain ⟨e, hr⟩ | ⟨a', hlast, hr⟩ | ⟨s', hs', hr⟩ := hround s
    all_goals rw [hr] at h
    · cases h
    · cases h; exact hlast
    · exact hnext hs' (ih h)

end

/-! ## The cursor past what was read (R15) -/

section
variable {p : Port} {b : Bus} {pos q : Nat}

/-- The bits that were read stand at the cursor. -/
theorem bitsAt_of_readBits {n pos v : Nat} (h : readBits p n pos = .ok v) : BitsAt p pos n v := by
  refine ⟨readBits_lt h, ?_⟩
  induction n generalizing pos v with
  | zero => exact fun _ hj => absurd hj (Nat.not_lt_zero _)
  | succ n ih =>
    rw [readBits, except_bind_eq_ok] at h
    obtain ⟨x, hx, h⟩ := h
    obtain ⟨y, hy, h⟩ := except_bind_eq_ok.mp h
    cases h
    rw [Nat.add_comm (bit x)]
    intro j hj
    cases j with
    | zero => rw [testBit_low]; exact hx
    | succ j =>
      rw [testBit_above_low, ← ih hy j (Nat.lt_of_succ_lt_succ hj), Nat.add_assoc, Nat.add_comm 1 j]

theorem readBit_past (h : 8 * p.len ≤ pos) : readBit p pos = .error (corruptAt .truncated pos) := if_neg (by omega)

theorem readBits_past {n : Nat} (h : 8 * p.len ≤ pos) : readBits p (n + 1) pos = .error (corruptAt .truncated pos) := by
  rw [readBits, readBit_past h, except_bind_error]

theorem decodeSymbol_past {lens : List Nat} (h : 8 * p.len ≤ pos) :
    decodeSymbol p lens pos = .error (corruptAt .truncated pos) := by
  rw [decodeSymbol, decodeFrom, readBit_past h, except_bind_error]

/-- A symbol takes a bit at least (R242). -/
theorem decodeSymbol_cursor {lens : List Nat} {s : Nat} (h : decodeSymbol p lens pos = .ok (s, q)) : pos < q := by
  obtain ⟨-, hlow, -, rfl, -⟩ := symbolAt_of_decodeSymbol h
  omega

/-! ## The code lengths of a dynamic block (R247) -/

/-- Every round adds a length. -/
theorem codeLengths_round (p : Port) (cl : List Nat) (total : Nat) (rev : List Nat) (pos : Nat) :
    Round (fun n (s : List Nat × Nat) => codeLengths p cl total n s.1 s.2) (pos ≤ ·.2)
      (fun s => rev.length < s.1.length ∧ pos ≤ s.2) fun n => codeLengths p cl total (n + 1) rev pos := by
  refine .ite (fun _ => .bind fun ⟨s, q⟩ hs => ?_) fun _ => .ends (rev.reverse, pos) (Nat.le_refl pos) fun _ => rfl
  have hq := Nat.le_of_lt (decodeSymbol_cursor hs)
  have hless {m x v : Nat} (hm : 0 < m) : rev.length < (List.replicate (m + x) v ++ rev).length := by
    rw [List.length_append, List.length_replicate]; omega
  have hleast : 0 < (if s = 17 then 3 else 11) := by split <;> decide
  -- The branches in order: a length, the symbol 16, the symbols 17 and 18.
  refine .ite (fun _ => .goesOn (s :: rev, q) ⟨Nat.lt_succ_self _, hq⟩ fun _ => rfl) fun _ => .ite (fun _ => ?again)
    fun _ => .bind fun x _ => .ite (fun _ => .fails _ fun _ => rfl)
      fun _ => .goesOn (_, _) ⟨hless hleast, Nat.le_add_right_of_le hq⟩ fun _ => rfl
  case again =>
    cases rev with
    | nil => exact .fails _ fun _ => rfl
    | cons v older =>
      exact .bind fun x _ => .ite (fun _ => .fails _ fun _ => rfl)
        fun _ => .goesOn (_, _) ⟨hless (by decide), Nat.le_add_right_of_le hq⟩ fun _ => rfl

theorem codeLengths_cursor {cl rev lens : List Nat} {total n : Nat} (h : codeLengths p cl total n rev pos = .ok (lens, q)) :
    pos ≤ q :=
  answer_of_rounds (fun s : List Nat × Nat => codeLengths_round p cl total s.1 s.2)
    (fun hnext hlast => Nat.le_trans hnext.2 hlast) (fun h => by cases h; exact Nat.le_refl _) (s := (rev, pos)) h

/-- With every length read no round adds another. -/
theorem codeLengths_full {cl rev : List Nat} {total : Nat} (h : total ≤ rev.length) (n : Nat) :
    codeLengths p cl total n rev pos = .ok (rev.reverse, pos) := by
  cases n with
  | zero => rfl
  | succ n => exact if_neg (Nat.not_lt.mpr h)

theorem codeLengths_rounds (p : Port) (cl : List Nat) (total more : Nat) (rev : List Nat) (pos : Nat) :
    codeLengths p cl total (total + more) rev pos = codeLengths p cl total total rev pos :=
  rounds_never_run_out (left := fun s : List Nat × Nat => total - s.1.length)
    (fun s => codeLengths_round p cl total s.1 s.2) (fun hpos hnext => by have := hnext.1; omega)
    (fun hdone => codeLengths_full (Nat.sub_eq_zero_iff_le.mp hdone)) more (s := (rev, pos)) (Nat.sub_le ..)

/-! ## Compressed data (R248) -/

/-- Every round reads a bit. -/
theorem compressedData_round (p : Port) (b : Bus) (lit dist : List Nat) (pos : Nat) (k : Sink) :
    Round (fun n (s : Nat × Sink) => compressedData p b lit dist n s.1 s.2) (pos < ·.1) (pos < ·.1)
      fun n => compressedData p b lit dist (n + 1) pos k := by
  refine .bind fun ⟨s, q⟩ hs => ?_
  have hq := decodeSymbol_cursor hs
  -- The branches in order: a literal, the end of the block, a symbol that stands for nothing, a match.
  refine .ite (fun _ => .bind fun k' _ => .goesOn (q, k') hq fun _ => rfl) fun _ =>
    .ite (fun _ => .ends (q, k) hq fun _ => rfl) fun _ => .ite (fun _ => .fails _ fun _ => rfl) fun _ => ?_
  refine .bind fun lx _ => .bind fun ⟨d, q'⟩ hd => .ite (fun _ => .fails _ fun _ => rfl) fun _ =>
    .bind fun dx _ => .bind fun k' _ => .goesOn (_, k') ?_ fun _ => rfl
  have hq' := decodeSymbol_cursor hd
  dsimp only
  omega

theorem compressedData_cursor {lit dist : List Nat} {n : Nat} {k k' : Sink}
    (h : compressedData p b lit dist n pos k = .ok (q, k')) : pos < q :=
  answer_of_rounds (fun s : Nat × Sink => compressedData_round p b lit dist s.1 s.2) Nat.lt_trans nofun (s := (pos, k)) h

theorem compressedData_past {lit dist : List Nat} {k : Sink} (h : 8 * p.len ≤ pos) (n : Nat) :
    compressedData p b lit dist n pos k = .error (corruptAt .truncated pos) := by
  cases n with
  | zero => rfl
  | succ n => exact compressedData_decode_error (decodeSymbol_past h)

theorem compressedData_rounds (p : Port) (b : Bus) (more : Nat) (lit dist : List Nat) (pos : Nat) (k : Sink) :
    compressedData p b lit dist (8 * p.len + more) pos k = compressedData p b lit dist (8 * p.len) pos k :=
  rounds_never_run_out (left := fun s : Nat × Sink => 8 * p.len - s.1)
    (fun s => compressedData_round p b lit dist s.1 s.2) (fun hpos hnext => by omega)
    (fun hdone => compressedData_past (Nat.sub_eq_zero_iff_le.mp hdone)) more (s := (pos, k)) (Nat.sub_le ..)

/-! ## Blocks (R250) -/

theorem storedBytes_cursor {k' : Sink} : ∀ {n pos : Nat} {k : Sink}, storedBytes p b n pos k = .ok (q, k') → pos ≤ q := by
  intro n
  induction n with
  | zero => intro pos k h; cases h; exact Nat.le_refl _
  | succ n ih =>
    intro pos k h
    obtain ⟨v, -, h⟩ := except_bind_eq_ok.mp h
    obtain ⟨k₁, -, h⟩ := except_bind_eq_ok.mp h
    exact Nat.le_of_add_right_le (ih h)

theorem storedBlock_cursor {r r' : Inflater} (h : storedBlock p b r = .ok r') : r.pos ≤ r'.pos := by
  obtain ⟨len, -, h⟩ := except_bind_eq_ok.mp h
  obtain ⟨nlen, -, h⟩ := except_bind_eq_ok.mp h
  split at h
  · cases h
  · obtain ⟨⟨q, k⟩, hdata, h⟩ := except_bind_eq_ok.mp h
    cases h
    have halign : r.pos ≤ r.align.pos := by unfold Inflater.align alignToByte; dsimp only; omega
    have hdata := storedBytes_cursor hdata
    dsimp only
    omega

theorem dynamicHeader_cursor {lit dist : List Nat} (h : dynamicHeader p pos = .ok (lit, dist, q)) : pos ≤ q := by
  obtain ⟨hlit, -, h⟩ := except_bind_eq_ok.mp h
  obtain ⟨hdist, -, h⟩ := except_bind_eq_ok.mp h
  obtain ⟨hclen, -, h⟩ := except_bind_eq_ok.mp h
  split at h
  · cases h
  · obtain ⟨fields, -, h⟩ := except_bind_eq_ok.mp h
    obtain ⟨cl, -, h⟩ := except_bind_eq_ok.mp h
    obtain ⟨⟨lens, q'⟩, hlens, h⟩ := except_bind_eq_ok.mp h
    have hq := codeLengths_cursor hlens
    dsimp only at h
    split at h
    · cases h
    · obtain ⟨_, -, h⟩ := except_bind_eq_ok.mp h
      obtain ⟨_, -, h⟩ := except_bind_eq_ok.mp h
      cases h
      omega

theorem codedContent_cursor {lit dist : List Nat} {r r' : Inflater} (h : codedContent p b r lit dist pos = .ok r') :
    pos ≤ r'.pos := by
  obtain ⟨_, hdata, h⟩ := except_bind_eq_ok.mp h
  cases h
  exact Nat.le_of_lt (compressedData_cursor hdata)

theorem blockContent_cursor {r r' : Inflater} {btype : Nat} (h : blockContent p b r btype = .ok r') : r.pos ≤ r'.pos := by
  match btype with
  | 0 => exact storedBlock_cursor h
  | 1 => exact codedContent_cursor h
  | 2 =>
    obtain ⟨_, hheader, h⟩ := except_bind_eq_ok.mp h
    exact Nat.le_trans (dynamicHeader_cursor hheader) (codedContent_cursor h)
  | _ + 3 => cases h

/-- A block takes its header's bits at least (R134). -/
theorem inflateBlock_cursor {r r' : Inflater} {final : Bool} (h : inflateBlock p b r = .ok (final, r')) : r.pos < r'.pos := by
  have hblock := h
  obtain ⟨fin, hfinal, h⟩ := except_bind_eq_ok.mp h
  obtain ⟨btype, htype, -⟩ := except_bind_eq_ok.mp h
  rw [inflateBlock_content (bitsAt_of_readBits hfinal) (bitsAt_of_readBits htype), except_bind_eq_ok] at hblock
  obtain ⟨q, hcontent, heq⟩ := hblock
  cases heq
  have hcursor := blockContent_cursor hcontent
  dsimp only at hcursor
  omega

/-- Every block reads its header. -/
theorem inflateBlocks_round (p : Port) (b : Bus) (r : Inflater) :
    Round (inflateBlocks p b) (fun _ => True) (r.pos < ·.pos) fun n => inflateBlocks p b (n + 1) r :=
  .bind fun ⟨_, r'⟩ hblock =>
    .ite (fun _ => .ends r' trivial fun _ => rfl) fun _ => .goesOn r' (inflateBlock_cursor hblock) fun _ => rfl

theorem inflateBlocks_past {r : Inflater} (h : 8 * p.len ≤ r.pos) (n : Nat) :
    inflateBlocks p b n r = .error (corruptAt .truncated r.pos) := by
  cases n with
  | zero => rfl
  | succ n => exact inflateBlocks_header_error (readBits_past h)

theorem inflateBlocks_rounds (p : Port) (b : Bus) (more : Nat) (r : Inflater) :
    inflateBlocks p b (8 * p.len + more) r = inflateBlocks p b (8 * p.len) r :=
  rounds_never_run_out (left := fun r : Inflater => 8 * p.len - r.pos) (inflateBlocks_round p b)
    (fun hpos hnext => by omega) (fun hdone => inflateBlocks_past (Nat.sub_eq_zero_iff_le.mp hdone)) more (Nat.sub_le ..)

end

/-! ## Chunks (R343) -/

section
variable {b : Bus} {a : Args} {p k : Nat} {o : Sink}

/-- Every round passes a chunk, which takes 12 bytes at least. -/
theorem parseChunks_round (b : Bus) (a : Args) (p k : Nat) (o : Sink) :
    Round (fun n (s : Nat × Nat × Sink) => parseChunks b a n s.1 s.2.1 s.2.2) (fun _ => True) (p < ·.1)
      fun n => parseChunks b a (n + 1) p k o := by
  refine .ite (fun _ => .bind fun c _ => .ite (fun _ => .fails _ fun _ => rfl) fun _ => .bind fun o' _ => ?_)
    fun _ => .ends _ trivial fun _ => rfl
  -- The branches in order: IEND, the last of MAX_CHUNKS, any other chunk.
  refine .ite (fun _ => .ends _ trivial fun _ => rfl) fun _ => .ite (fun _ => .ends _ trivial fun _ => rfl) fun _ =>
    .goesOn (p + 12 + c.len, k + 1, o') ?_ fun _ => rfl
  dsimp only
  omega

theorem parseChunks_past (h : a.len ≤ p) (n : Nat) :
    parseChunks b a n p k o = .ok { p := p, k := k, iend := false, maxStop := false, sink := o } := by
  cases n with
  | zero => rfl
  | succ n => exact if_neg (Nat.not_lt.mpr h)

theorem parseChunks_rounds (b : Bus) (a : Args) (more p k : Nat) (o : Sink) :
    parseChunks b a (a.len + more) p k o = parseChunks b a a.len p k o :=
  rounds_never_run_out (left := fun s : Nat × Nat × Sink => a.len - s.1) (fun s => parseChunks_round b a s.1 s.2.1 s.2.2)
    (fun hpos hnext => by omega) (fun hdone => parseChunks_past (Nat.sub_eq_zero_iff_le.mp hdone)) more (s := (p, k, o))
    (Nat.sub_le ..)

end

/-- Settles O41: in each of the four loops every round lowers what is left of the input, or of the lengths to come. -/
theorem inflateRoundsNeverRunOut : Obligations.InflateRoundsNeverRunOut :=
  ⟨fun p b more => ⟨inflateBlocks_rounds p b more, compressedData_rounds p b more⟩, codeLengths_rounds, parseChunks_rounds⟩

end Sys2Proof.Machine
end

section
/-! PROOF. What a decoder answers depends on its input through the bits alone and on its destination through the room alone: a
decoding that succeeds also succeeds on an input with the same bits and a destination with at least the room, with the same
output (rules R15, R230, R231, R250). -/

namespace Sys2Proof.Machine

/-! ## Two inputs (R15, R230) -/

/-- Two inputs of one length with the same bits. -/
structure Port.Same (p p' : Port) : Prop where
  len : p.len = p'.len
  bit : ∀ pos, readBit p pos = readBit p' pos

theorem readBit_ofBytes (w : List Byte) (pos : Nat) : readBit (Port.ofBytes w) pos =
    if pos / 8 < w.length then .ok ((w.getD (pos / 8) 0).getLsbD (pos % 8)) else .error (corruptAt .truncated pos) := rfl

/-- A readable source is an input with the bits of its bytes. -/
theorem same_ofBytes_ofRegion {b : Bus} {base len : Nat} (hr : Readable b.platform base len) :
    (Port.ofBytes (memBytes b.mem base len)).Same (Port.ofRegion b base len) where
  len := memBytes_length ..
  bit := by
    intro pos
    obtain ⟨hpast, hinside⟩ := sourceBitsRule b base len pos
    rw [readBit_ofBytes, memBytes_length]
    split
    · next hpos =>
      rw [(hinside hpos).1 (hr _ (Nat.le_add_right ..) (Nat.add_lt_add_left hpos base))]
      simp [memBytes, hpos]
    · next hpos => exact (hpast (Nat.le_of_not_lt hpos)).symm

section
variable {p p' : Port} (h : p.Same p')
include h

theorem readBits_same : ∀ n pos, readBits p n pos = readBits p' n pos := by
  intro n
  induction n with
  | zero => intro pos; rfl
  | succ n ih => intro pos; simp only [readBits, h.bit, ih]

theorem decodeFrom_same (lens : List Nat) : ∀ n k v pos, decodeFrom p lens n k v pos = decodeFrom p' lens n k v pos := by
  intro n
  induction n with
  | zero => intro k v pos; rfl
  | succ n ih => intro k v pos; simp only [decodeFrom, h.bit, ih]

theorem decodeSymbol_same (lens : List Nat) (pos : Nat) : decodeSymbol p lens pos = decodeSymbol p' lens pos :=
  decodeFrom_same h lens 15 1 0 pos

theorem clFields_same : ∀ order pos, clFields p order pos = clFields p' order pos := by
  intro order
  induction order with
  | nil => intro pos; rfl
  | cons s order ih => intro pos; simp only [clFields, readBits_same h, ih]

theorem codeLengths_same (cl : List Nat) (total : Nat) :
    ∀ n rev pos, codeLengths p cl total n rev pos = codeLengths p' cl total n rev pos := by
  intro n
  induction n with
  | zero => intro rev pos; rfl
  | succ n ih => intro rev pos; simp only [codeLengths, decodeSymbol_same h, readBits_same h, ih]

theorem dynamicHeader_same (pos : Nat) : dynamicHeader p pos = dynamicHeader p' pos := by
  simp only [dynamicHeader, readBits_same h, clFields_same h, codeLengths_same h]

theorem readBigEndian_same : ∀ n pos acc, readBigEndian p n pos acc = readBigEndian p' n pos acc := by
  intro n
  induction n with
  | zero => intro pos acc; rfl
  | succ n ih => intro pos acc; simp only [readBigEndian, readBits_same h, ih]

end

/-! ## A computation that follows another -/

section
variable {α β γ δ ε : Type} {R : α → β → Prop} {S : γ → δ → Prop}

/-- Where the one computation succeeds the other does, with a related answer. -/
def Follows (R : α → β → Prop) (x : Except Raise α) (y : Except Raise β) : Prop :=
  ∀ a, x = .ok a → ∃ a', y = .ok a' ∧ R a a'

theorem Follows.ok {a : α} {a' : β} (h : R a a') : Follows R (.ok a) (.ok a') := fun _ heq => by
  cases heq; exact ⟨a', rfl, h⟩

theorem Follows.error {e : Raise} {y : Except Raise β} : Follows R (.error e) y := nofun

/-- One after the other. -/
theorem Follows.bind {x : Except Raise α} {y : Except Raise β} {f : α → Except Raise γ} {g : β → Except Raise δ}
    (h : Follows R x y) (hrest : ∀ a a', R a a' → Follows S (f a) (g a')) : Follows S (x >>= f) (y >>= g) := by
  intro c hc
  obtain ⟨a, ha, hc⟩ := except_bind_eq_ok.mp hc
  obtain ⟨a', ha', hR⟩ := h a ha
  obtain ⟨c', hc', hS⟩ := hrest a a' hR c hc
  exact ⟨c', except_bind_eq_ok.mpr ⟨a', ha', hc'⟩, hS⟩

/-- After a part that both have in common. -/
theorem Follows.after {x x' : Except Raise ε} {f : ε → Except Raise γ} {g : ε → Except Raise δ} (hx : x = x')
    (hrest : ∀ a, Follows S (f a) (g a)) : Follows S (x >>= f) (x' >>= g) := by
  subst hx
  exact .bind (R := Eq) (fun a ha => ⟨a, ha, rfl⟩) fun a _ heq => heq ▸ hrest a

theorem Follows.ite {c : Prop} [Decidable c] {f g : Except Raise α} {f' g' : Except Raise β}
    (hf : c → Follows R f f') (hg : ¬c → Follows R g g') :
    Follows R (if c then f else g) (if c then f' else g') := by
  by_cases h : c
  · simpa only [if_pos h] using hf h
  · simpa only [if_neg h] using hg h

end

/-! ## Two destinations (R231, R232) -/

/-- The destination `k'`, written through `b'`, holds the bytes that `k` holds, and has at least the room that `k` has. -/
structure Mirrors (b' : Bus) (k k' : Sink) : Prop where
  count    : k'.n = k.n
  bytes    : k'.rev = k.rev
  fits     : k.n ≤ k.cap
  room     : k.cap ≤ k'.cap
  writable : Writable b'.platform k'.base k.cap

section
variable {b b' : Bus} {k k' : Sink} (h : Mirrors b' k k')
include h

theorem Mirrors.out_eq : k'.out = k.out := congrArg List.reverse h.bytes

theorem Mirrors.push {x : Byte} (hroom : k.n < k.cap) : Mirrors b' (k.push [x]) (k'.push [x]) where
  count := by rw [sink_push_n, sink_push_n, h.count]
  bytes := congrArg (x :: ·) h.bytes
  fits := hroom
  room := h.room
  writable := h.writable

theorem Mirrors.emit (pos : Nat) (x : Byte) : Follows (Mirrors b') (emit b k pos x) (emit b' k' pos x) := by
  intro k₁ hk₁
  obtain ⟨hne, rfl⟩ := emit_eq_ok hk₁
  have hroom := Nat.lt_of_le_of_ne h.fits hne
  have hroom' : k'.n < k'.cap := by rw [h.count]; exact Nat.lt_of_lt_of_le hroom h.room
  have hw := h.writable (k'.base + k'.n) (Nat.le_add_right ..) (by rw [h.count]; exact Nat.add_lt_add_left hroom _)
  exact ⟨_, emit_ok hroom' hw, h.push hroom⟩

end

section
variable {b b' : Bus} {p p' : Port}

theorem copyBytes_mirrors (pos distance : Nat) : ∀ (n : Nat) {k k' : Sink}, Mirrors b' k k' →
    Follows (Mirrors b') (copyBytes b pos distance n k) (copyBytes b' pos distance n k') := by
  intro n
  induction n with
  | zero => exact fun h => .ok h
  | succ n ih =>
    intro k k' h
    have hbyte : windowByte k' distance = windowByte k distance := by rw [windowByte, windowByte, h.bytes]
    rw [copyBytes_succ, copyBytes_succ, hbyte]
    exact .bind (h.emit pos _) fun _ _ => ih

theorem copyMatch_mirrors {k k' : Sink} (h : Mirrors b' k k') (pos length distance : Nat) :
    Follows (Mirrors b') (copyMatch b k pos length distance) (copyMatch b' k' pos length distance) := by
  rw [copyMatch, copyMatch, h.count]
  exact .ite (fun _ => .error) fun _ => copyBytes_mirrors pos distance length h

/-! ## Blocks (R246 to R250) -/

/-- A cursor and an output, with the output mirrored. -/
def CursorMirrors (b' : Bus) (t t' : Nat × Sink) : Prop := t'.1 = t.1 ∧ Mirrors b' t.2 t'.2

/-- A decoder between blocks, with the output mirrored. -/
structure Inflater.Mirrors (b' : Bus) (r r' : Inflater) : Prop where
  pos  : r'.pos = r.pos
  sink : Machine.Mirrors b' r.sink r'.sink

theorem storedBytes_mirrors (hp : p.Same p') : ∀ (n pos : Nat) {k k' : Sink}, Mirrors b' k k' →
    Follows (CursorMirrors b') (storedBytes p b n pos k) (storedBytes p' b' n pos k') := by
  intro n
  induction n with
  | zero => exact fun pos _ _ h => .ok ⟨rfl, h⟩
  | succ n ih =>
    intro pos k k' h
    exact .after (readBits_same hp 8 pos) fun v => .bind (h.emit _ _) fun _ _ => ih (pos + 8)

theorem storedBlock_mirrors (hp : p.Same p') {r r' : Inflater} (h : r.Mirrors b' r') :
    Follows (Inflater.Mirrors b') (storedBlock p b r) (storedBlock p' b' r') := by
  obtain ⟨pos, k', pads'⟩ := r'
  obtain ⟨rfl, hk⟩ := h
  refine .after (readBits_same hp ..) fun len => .after (readBits_same hp ..) fun nlen =>
    .ite (fun _ => .error) fun _ => .bind (storedBytes_mirrors hp len _ hk) ?_
  rintro ⟨q, k⟩ ⟨_, k'⟩ ⟨rfl, hk⟩
  exact .ok ⟨rfl, hk⟩

theorem compressedData_mirrors (hp : p.Same p') (lit dist : List Nat) : ∀ (n pos : Nat) {k k' : Sink}, Mirrors b' k k' →
    Follows (CursorMirrors b') (compressedData p b lit dist n pos k) (compressedData p' b' lit dist n pos k') := by
  intro n
  induction n with
  | zero => exact fun _ _ _ _ => .error
  | succ n ih =>
    intro pos k k' h
    -- The branches in order: a literal, the end of the block, a symbol that stands for nothing, a match.
    refine .after (decodeSymbol_same hp lit pos) fun ⟨s, q⟩ => .ite (fun _ => .bind (h.emit _ _) fun _ _ => ih q) fun _ =>
      .ite (fun _ => .ok ⟨rfl, h⟩) fun _ => .ite (fun _ => .error) fun _ => ?_
    exact .after (readBits_same hp ..) fun x => .after (decodeSymbol_same hp ..) fun ⟨d, q'⟩ =>
      .ite (fun _ => .error) fun _ => .after (readBits_same hp ..) fun y =>
        .bind (copyMatch_mirrors h _ _ _) fun _ _ => ih _

theorem inflateBlock_mirrors (hp : p.Same p') {r r' : Inflater} (h : r.Mirrors b' r') :
    Follows (fun t t' => t'.1 = t.1 ∧ t.2.Mirrors b' t'.2) (inflateBlock p b r) (inflateBlock p' b' r') := by
  obtain ⟨pos, k', pads'⟩ := r'
  obtain ⟨rfl, hk⟩ := h
  refine .after (readBits_same hp ..) fun final => .after (readBits_same hp ..) fun btype => ?_
  have hcoded (lit dist : List Nat) (pos : Nat) : Follows (CursorMirrors b')
      (compressedData p b lit dist (8 * p.len) pos r.sink) (compressedData p' b' lit dist (8 * p'.len) pos k') := by
    rw [← hp.len]
    exact compressedData_mirrors hp lit dist _ pos hk
  match btype with
  | 0 => exact .bind (storedBlock_mirrors hp ⟨rfl, hk⟩) fun _ _ hr => .ok ⟨rfl, hr⟩
  | 1 => exact .bind (hcoded _ _ _) fun ⟨_, _⟩ ⟨_, _⟩ ⟨hq, hk⟩ => .ok ⟨rfl, hq, hk⟩
  | 2 => exact .after (dynamicHeader_same hp _) fun ⟨_, _, _⟩ =>
      .bind (hcoded _ _ _) fun ⟨_, _⟩ ⟨_, _⟩ ⟨hq, hk⟩ => .ok ⟨rfl, hq, hk⟩
  | _ + 3 => exact .error

theorem inflateBlocks_mirrors (hp : p.Same p') : ∀ (n : Nat) {r r' : Inflater}, r.Mirrors b' r' →
    Follows (Inflater.Mirrors b') (inflateBlocks p b n r) (inflateBlocks p' b' n r') := by
  intro n
  induction n with
  | zero => exact fun _ => .error
  | succ n ih =>
    intro r r' h
    refine .bind (inflateBlock_mirrors hp h) ?_
    rintro ⟨final, r⟩ ⟨_, r'⟩ ⟨rfl, h⟩
    exact .ite (fun _ => .ok h) fun _ => ih h

/-! ## The wrapper and the whole stream (R250) -/

theorem zlibHeader_mirrors (hp : p.Same p') {r r' : Inflater} (h : r.Mirrors b' r') :
    Follows (Inflater.Mirrors b') (zlibHeader p r) (zlibHeader p' r') := by
  obtain ⟨pos, k', pads'⟩ := r'
  obtain ⟨rfl, hk⟩ := h
  exact .after (readBits_same hp ..) fun cmf => .after (readBits_same hp ..) fun flg =>
    .ite (fun _ => .ok ⟨rfl, hk⟩) fun _ => .error

theorem zlibTrailer_mirrors (hp : p.Same p') {r r' : Inflater} (h : r.Mirrors b' r') :
    Follows (Inflater.Mirrors b') (zlibTrailer p r) (zlibTrailer p' r') := by
  have hout : r'.sink.out = r.sink.out := h.sink.out_eq
  obtain ⟨pos, k', pads'⟩ := r'
  obtain ⟨rfl, hk⟩ := h
  refine .after (readBigEndian_same hp ..) fun a => ?_
  rw [show (Inflater.align ⟨r.pos, k', pads'⟩).sink.out = r.align.sink.out from hout]
  exact .ite (fun _ => .error) fun _ => .ok ⟨rfl, hk⟩

/-- A stream that is decoded is decoded alike from an input with the same bits into a destination with at least the room. -/
theorem inflateStream_mirrors (z : Bool) (hp : p.Same p') {k k' : Sink} (h : Mirrors b' k k') :
    Follows (Inflater.Mirrors b') (inflateStream z p b k) (inflateStream z p' b' k') := by
  have hstart : Inflater.Mirrors b' { pos := 0, sink := k, pads := [] } { pos := 0, sink := k', pads := [] } := ⟨rfl, h⟩
  cases z with
  | false =>
    rw [inflateStream_raw, inflateStream_raw, ← hp.len]
    exact inflateBlocks_mirrors hp _ hstart
  | true =>
    rw [inflateStream_zlib, inflateStream_zlib, ← hp.len]
    exact .bind (zlibHeader_mirrors hp hstart) fun _ _ hr =>
      .bind (inflateBlocks_mirrors hp _ hr) fun _ _ => zlibTrailer_mirrors hp

end

end Sys2Proof.Machine
end

section
/-! PROOF. The stored stream of any data inflates back to it, with every byte used and every bit that is skipped 0 (rules R246,
R250, R302, R304, R307). -/

namespace Sys2Proof.Machine

/-! ## Bits and bytes on the wire (R15) -/

section
variable {p : Port}

/-- Of the bits at the cursor the first ones are the low ones of the number. -/
theorem bitsAt_low {pos n m v : Nat} (h : BitsAt p pos (n + m) v) : BitsAt p pos n (v % 2 ^ n) := by
  refine ⟨Nat.mod_lt _ (Nat.two_pow_pos n), fun j hj => ?_⟩
  rw [h.2 j (Nat.lt_add_right m hj), Nat.testBit_mod_two_pow, decide_eq_true hj, Bool.true_and]

/-- Of the bits at the cursor the later ones are the high ones of the number. -/
theorem bitsAt_high {pos n m v : Nat} (h : BitsAt p pos (n + m) v) : BitsAt p (pos + n) m (v / 2 ^ n) := by
  refine ⟨Nat.div_lt_of_lt_mul (Nat.pow_add .. ▸ h.1), fun j hj => ?_⟩
  rw [Nat.add_assoc, h.2 _ (Nat.add_lt_add_left hj n), Nat.testBit_div_two_pow, Nat.add_comm j]

/-- Bits one after the other make one number, the first ones low. -/
theorem bitsAt_append {pos n m u v : Nat} (hu : BitsAt p pos n u) (hv : BitsAt p (pos + n) m v) :
    BitsAt p pos (n + m) (u + 2 ^ n * v) := by
  have hlt : u + 2 ^ n * v < 2 ^ (n + m) := by
    rw [Nat.pow_add]
    calc u + 2 ^ n * v < 2 ^ n + 2 ^ n * v := Nat.add_lt_add_right hu.1 _
      _ = 2 ^ n * (v + 1) := by ring
      _ ≤ 2 ^ n * 2 ^ m := Nat.mul_le_mul_left _ hv.1
  refine ⟨hlt, fun j hj => ?_⟩
  rw [Nat.add_comm u, Nat.testBit_two_pow_mul_add v hu.1]
  split
  · next hlow => exact hu.2 j hlow
  · next hhigh =>
    have hj' : pos + j = pos + n + (j - n) := by omega
    rw [hj']
    exact hv.2 (j - n) (by omega)

theorem bitsAt_zero (pos : Nat) : BitsAt p pos 0 0 := ⟨Nat.one_pos, fun _ hj => absurd hj (Nat.not_lt_zero _)⟩

/-- The bytes `xs` stand on the wire from byte `i` on. -/
def BytesAt (p : Port) (i : Nat) (xs : List Byte) : Prop :=
  ∀ j, j < xs.length → BitsAt p (8 * (i + j)) 8 (byteAt xs j)

/-- A byte sequence stands on its own wire. -/
theorem bytesAt_ofBytes (w : List Byte) : BytesAt (Port.ofBytes w) 0 w := by
  refine fun i hi => ⟨(w.getD i 0).isLt, fun j hj => ?_⟩
  have hbyte : (8 * (0 + i) + j) / 8 = i := by omega
  have hbit : (8 * (0 + i) + j) % 8 = j := by omega
  rw [readBit_ofBytes, hbyte, hbit, if_pos hi]
  rfl

theorem bytesAt_append {i : Nat} {xs ys : List Byte} (h : BytesAt p i (xs ++ ys)) :
    BytesAt p i xs ∧ BytesAt p (i + xs.length) ys := by
  refine ⟨fun j hj => ?_, fun j hj => ?_⟩
  · have hbits := h j (by rw [List.length_append]; omega)
    rwa [byteAt, List.getD_append _ _ _ _ hj] at hbits
  · have hbits := h (xs.length + j) (by rw [List.length_append]; omega)
    rwa [byteAt, List.getD_append_right _ _ _ _ (Nat.le_add_right ..), Nat.add_sub_cancel_left, ← Nat.add_assoc] at hbits

theorem bytesAt_cons {i : Nat} {x : Byte} {xs : List Byte} (h : BytesAt p i (x :: xs)) :
    BitsAt p (8 * i) 8 x.toNat ∧ BytesAt p (i + 1) xs :=
  ⟨h 0 (Nat.succ_pos _), (bytesAt_append (xs := [x]) h).2⟩

/-- A 16-bit number in its two bytes, least significant first (R13, R15). -/
theorem bitsAt_le16bytes {i v : Nat} (hv : v < 2 ^ 16) (h : BytesAt p i (le16bytes v)) : BitsAt p (8 * i) 16 v := by
  obtain ⟨hlow, h⟩ := bytesAt_cons h
  obtain ⟨hhigh, -⟩ := bytesAt_cons h
  have hbits := bitsAt_append hlow (v := (lowByte (v / 256)).toNat) hhigh
  have hvalue : (lowByte v).toNat + 2 ^ 8 * (lowByte (v / 256)).toNat = v := by
    simp only [lowByte, BitVec.toNat_ofNat]; omega
  rwa [hvalue] at hbits

/-- A 32-bit number in its four bytes, most significant first (R13, R250). -/
theorem readBigEndian_be32bytes {i v : Nat} (hv : v < 2 ^ 32) (h : BytesAt p i (be32bytes v)) :
    readBigEndian p 4 (8 * i) 0 = .ok v := by
  have hbyte (j : Nat) (hj : j < 4) := h j hj
  exact (readBigEndian_bytes (hbyte 0 (by decide)) (hbyte 1 (by decide)) (hbyte 2 (by decide))
    (hbyte 3 (by decide))).trans (congrArg Except.ok (be32_be32bytes hv))

end

/-- Bits that are read as 0 are 0 in the bytes (R301). -/
theorem zeroBits_of_bitsAt {w : List Byte} : ∀ {n pos : Nat}, BitsAt (Port.ofBytes w) pos n 0 → zeroBits w pos n = true := by
  intro n
  induction n with
  | zero => exact fun _ => rfl
  | succ n ih =>
    intro pos h
    rw [Nat.add_comm] at h
    have hbit : (w.getD (pos / 8) 0).getLsbD (pos % 8) = false := by
      have hread := h.2 0 (Nat.lt_add_right n Nat.one_pos)
      rw [Nat.add_zero, readBit_ofBytes] at hread
      split at hread
      · exact Except.ok.inj hread
      · cases hread
    rw [zeroBits, hbit, ih (bitsAt_high h)]
    rfl

/-! ## Stored blocks (R246, R304) -/

section
variable {p : Port} {b : Bus} {k : Sink} {data : List Byte} {i : Nat}

/-- The bits that the decoder has skipped so far are all 0. -/
def ZeroPads (p : Port) (pads : List (Nat × Nat)) : Prop := ∀ g, g ∈ pads → BitsAt p g.1 (g.2 - g.1) 0

theorem ZeroPads.cons {pads : List (Nat × Nat)} {g : Nat × Nat} (hg : BitsAt p g.1 (g.2 - g.1) 0) (h : ZeroPads p pads) :
    ZeroPads p (g :: pads) := List.forall_mem_cons.mpr ⟨hg, h⟩

/-- The header byte of a stored block: BFINAL, BTYPE = 0 and pad bits 0. -/
theorem storedHeader_bits {final : Bool} {pos : Nat} (h : BitsAt p pos 8 (bit final)) :
    BitsAt p pos 1 (bit final) ∧ BitsAt p (pos + 1) 2 0 ∧ BitsAt p (pos + 3) 5 0 := by
  have hbit : bit final % 2 ^ 1 = bit final ∧ bit final / 2 ^ 1 = 0 := by cases final <;> decide
  have hrest := bitsAt_high (n := 1) (m := 7) h
  rw [hbit.2] at hrest
  exact ⟨hbit.1 ▸ bitsAt_low (n := 1) (m := 7) h, bitsAt_low (n := 2) (m := 5) hrest, bitsAt_high (n := 2) (m := 5) hrest⟩

theorem storedBlockBytes_length (final : Bool) (data : List Byte) :
    (storedBlockBytes final data).length = data.length + 5 := by
  simp [storedBlockBytes, le16bytes]

/-- What follows the header byte of a stored block: LEN, NLEN and the data, which goes out. -/
theorem storedBlock_bytesAt {r : Inflater} (hdata : data.length ≤ Config.storedMax)
    (h : BytesAt p i (le16bytes data.length ++ le16bytes (data.length ^^^ 0xFFFF) ++ data))
    (hpos : (r.pos + 7) / 8 * 8 = 8 * i) (hroom : r.sink.n + data.length ≤ r.sink.cap)
    (hw : Writable b.platform (r.sink.base + r.sink.n) data.length) :
    storedBlock p b r =
      .ok { pos := 8 * (i + 4 + data.length), sink := r.sink.push data, pads := (r.pos, 8 * i) :: r.pads } := by
  obtain ⟨h, hbytes⟩ := bytesAt_append h
  obtain ⟨hlen, hnlen⟩ := bytesAt_append h
  have hlt : data.length < 2 ^ 16 := Nat.lt_succ_of_le hdata
  replace hlen : BitsAt p (8 * i) 16 data.length := bitsAt_le16bytes hlt hlen
  rw [xor_ffff hlt] at hnlen
  replace hnlen : BitsAt p (8 * i + 16) 16 (65535 - data.length) := bitsAt_le16bytes (i := i + 2) (by omega) hnlen
  have hrule := (storedBlockRule p b r).2 data.length (65535 - data.length)
  rw [hpos] at hrule
  have hwire (j : Nat) (hj : j < data.length) : BitsAt p (8 * i + 32 + 8 * j) 8 (byteAt data j) := by
    have hcursor : 8 * i + 32 + 8 * j = 8 * (i + 4 + j) := by omega
    exact hcursor ▸ hbytes j hj
  have hend : 8 * i + 32 + 8 * data.length = 8 * (i + 4 + data.length) := by omega
  exact hend ▸ ((hrule hlen hnlen).2 rfl data (Nat.le_refl _) hwire hroom hw).1 rfl

/-- A stored block puts its data out, and the bits that it skips are 0. -/
theorem inflateBlocks_storedBlockBytes {final : Bool} {pads : List (Nat × Nat)} (hdata : data.length ≤ Config.storedMax)
    (h : BytesAt p i (storedBlockBytes final data)) (hroom : k.n + data.length ≤ k.cap)
    (hw : Writable b.platform (k.base + k.n) data.length) (hpads : ZeroPads p pads) :
    ∃ pads', ZeroPads p pads' ∧ ∀ n, inflateBlocks p b (n + 1) { pos := 8 * i, sink := k, pads := pads } =
      let r : Inflater := { pos := 8 * (i + (data.length + 5)), sink := k.push data, pads := pads' }
      if final then .ok r else inflateBlocks p b n r := by
  obtain ⟨hheader, hcontent⟩ := bytesAt_cons h
  have hbyte : (lowByte (bit final)).toNat = bit final := by cases final <;> rfl
  obtain ⟨hfinal, htype, hpad⟩ := storedHeader_bits (hbyte ▸ hheader)
  have hwidth : 8 * (i + 1) - (8 * i + 3) = 5 := by omega
  refine ⟨(8 * i + 3, 8 * (i + 1)) :: pads, .cons (hwidth ▸ hpad) hpads, fun n => ?_⟩
  have hblock : storedBlock p b { pos := 8 * i + 3, sink := k, pads := pads } = _ :=
    storedBlock_bytesAt hdata hcontent (by dsimp only; omega) hroom hw
  have hend : i + 1 + 4 + data.length = i + (data.length + 5) := by omega
  rw [inflateBlocks_block hfinal htype, blockContent, hblock, except_bind_ok, hend]
  cases final <;> rfl

theorem storedBlocks_length : ∀ {n : Nat} {data : List Byte}, (storedBlocks (n + 1) data).length = data.length + 5 * (n + 1) := by
  intro n
  induction n with
  | zero => exact storedBlockBytes_length true _
  | succ n ih =>
    intro data
    rw [storedBlocks, List.length_append, storedBlockBytes_length, ih, List.length_take, List.length_drop]
    omega

/-- The stored blocks of any data put it out, and the bits that they skip are 0. -/
theorem inflateBlocks_storedBlocks : ∀ {n : Nat} {data : List Byte} {i : Nat} {k : Sink} {pads : List (Nat × Nat)},
    data.length ≤ Config.storedMax * (n + 1) → BytesAt p i (storedBlocks (n + 1) data) → k.n + data.length ≤ k.cap →
    Writable b.platform (k.base + k.n) data.length → ZeroPads p pads →
    ∃ pads', ZeroPads p pads' ∧ ∀ more, inflateBlocks p b (n + 1 + more) { pos := 8 * i, sink := k, pads := pads } =
      .ok { pos := 8 * (i + (storedBlocks (n + 1) data).length), sink := k.push data, pads := pads' } := by
  intro n
  induction n with
  | zero =>
    intro data i k pads hdata h hroom hw hpads
    obtain ⟨pads', hpads', hrun⟩ := inflateBlocks_storedBlockBytes hdata h hroom hw hpads
    refine ⟨pads', hpads', fun more => ?_⟩
    rw [storedBlocks_length, Nat.zero_add, Nat.add_comm 1, hrun]
    rfl
  | succ n ih =>
    intro data i k pads hdata h hroom hw hpads
    obtain ⟨hfirst, hrest⟩ := bytesAt_append h
    rw [Nat.mul_succ] at hdata
    have hcut : data.length = (data.take Config.storedMax).length + (data.drop Config.storedMax).length := by
      rw [← List.length_append, List.take_append_drop]
    rw [hcut] at hroom hw
    obtain ⟨hwfirst, hwrest⟩ := writable_add hw
    obtain ⟨pads₁, hpads₁, hrun₁⟩ :=
      inflateBlocks_storedBlockBytes (List.length_take_le ..) hfirst (by omega) hwfirst hpads
    rw [storedBlockBytes_length] at hrest
    obtain ⟨pads₂, hpads₂, hrun₂⟩ := ih (k := k.push (data.take Config.storedMax))
      (by rw [List.length_drop]; omega) hrest (by rw [sink_push_n, sink_push_cap]; omega)
      (by rwa [sink_push_base, sink_push_n, ← Nat.add_assoc]) hpads₁
    refine ⟨pads₂, hpads₂, fun more => ?_⟩
    have hend : i + ((data.take Config.storedMax).length + 5) + (storedBlocks (n + 1) (data.drop Config.storedMax)).length =
        i + (storedBlocks (n + 1 + 1) data).length := by
      rw [storedBlocks_length, storedBlocks_length]; omega
    rw [Nat.add_right_comm, hrun₁]
    dsimp only
    rw [if_neg Bool.false_ne_true, hrun₂, hend, sink_push_push, List.take_append_drop]

end

/-! ## The whole stream (R301, R302, R304, R307) -/

/-- The number of stored blocks is enough for the data, and not 0. -/
theorem exists_blockCount (n : Nat) : ∃ m, blockCount n = m + 1 ∧ n ≤ Config.storedMax * (m + 1) := by
  have hmax : Config.storedMax = 65535 := rfl
  refine ⟨blockCount n - 1, ?_, ?_⟩ <;> unfold blockCount
  · omega
  · rw [hmax]; omega

theorem zlibWrap_length (z : Bool) (data body : List Byte) :
    (zlibWrap z data body).length = body.length + if z then 6 else 0 := by
  cases z
  · rfl
  · simp [zlibWrap, be32bytes]

/-- The level-0 stream meets BOUND exactly (R302). -/
theorem storedStream_length (data : List Byte) (z : Bool) : (storedStream data z).length = sizeBound data.length z := by
  obtain ⟨m, hcount, -⟩ := exists_blockCount data.length
  rw [storedStream, zlibWrap_length, sizeBound, hcount, storedBlocks_length]

theorem adler32_lt (s : List Byte) : adler32 s < 2 ^ 32 := by
  rw [adler32_eq_adlerSum, adlerSum]
  omega

section
variable {p : Port} {b : Bus} {k k' : Sink} {data body : List Byte}

/-- The zlib header that DEFLATE writes is one that inflate accepts (R251, R307). -/
theorem zlibHeader_bytesAt (h : BytesAt p 0 [0x78, 0x01]) :
    zlibHeader p { pos := 0, sink := k, pads := [] } = .ok { pos := 16, sink := k, pads := [] } := by
  obtain ⟨hcmf, h⟩ := bytesAt_cons h
  obtain ⟨hflg, -⟩ := bytesAt_cons h
  rw [zlibHeader, readBits_bitsAt hcmf, except_bind_ok, readBits_bitsAt hflg, except_bind_ok]
  rfl

/-- The trailer that DEFLATE writes is the Adler-32 of the output, so inflate accepts it (R252, R307). -/
theorem zlibTrailer_bytesAt {i : Nat} {pads : List (Nat × Nat)} (h : BytesAt p i (be32bytes (adler32 k.out))) :
    zlibTrailer p { pos := 8 * i, sink := k, pads := pads } =
      .ok { pos := 8 * (i + 4), sink := k, pads := (8 * i, 8 * i) :: pads } := by
  have halign : alignToByte (8 * i) = 8 * i := by unfold alignToByte; omega
  have hpos : (Inflater.align { pos := 8 * i, sink := k, pads := pads }).pos = 8 * i := halign
  rw [zlibTrailer_read (a := adler32 k.out) (hpos.symm ▸ readBigEndian_be32bytes (adler32_lt _) h),
    if_neg (not_not_intro (adler32_eq_adlerSum _)), Inflater.align]
  dsimp only
  rw [halign]
  rfl

/-- A body that is decoded to the data is decoded to it in its wrapper, too. -/
theorem inflateStream_zlibWrap {z : Bool} (h : BytesAt p 0 (zlibWrap z data body)) (hout : k'.out = data)
    (hbody : ∀ i, BytesAt p i body → ∃ pads, ZeroPads p pads ∧
      inflateBlocks p b (8 * p.len) { pos := 8 * i, sink := k, pads := [] } =
        .ok { pos := 8 * (i + body.length), sink := k', pads := pads }) :
    ∃ pads, ZeroPads p pads ∧ inflateStream z p b k =
      .ok { pos := 8 * (zlibWrap z data body).length, sink := k', pads := pads } := by
  cases z with
  | false =>
    obtain ⟨pads, hpads, hrun⟩ := hbody 0 h
    rw [Nat.zero_add] at hrun
    exact ⟨pads, hpads, (inflateStream_raw p b k).trans hrun⟩
  | true =>
    obtain ⟨h, htrailer⟩ := bytesAt_append h
    obtain ⟨hheader, h⟩ := bytesAt_append h
    obtain ⟨pads, hpads, hrun⟩ := hbody 2 h
    have hend : 0 + ([0x78, 0x01] ++ body).length = 2 + body.length := by rw [Nat.zero_add, List.length_append]; rfl
    subst hout
    rw [hend] at htrailer
    have hlen : (zlibWrap true k'.out body).length = 2 + body.length + 4 := by
      rw [zlibWrap_length, if_pos rfl]; omega
    refine ⟨(8 * (2 + body.length), 8 * (2 + body.length)) :: pads, .cons ?_ hpads, ?_⟩
    · rw [Nat.sub_self]; exact bitsAt_zero _
    · rw [inflateStream_zlib, zlibHeader_bytesAt hheader, except_bind_ok, hlen, ← zlibTrailer_bytesAt htrailer]
      exact congrArg (· >>= zlibTrailer p) hrun

end

/-- The level-0 stream is decoded to the data, up to its last bit, and the bits that are skipped are 0. -/
theorem inflateStream_storedStream (data : List Byte) (z : Bool) : ∃ pads, ZeroPads (Port.ofBytes (storedStream data z)) pads ∧
    inflateStream z (Port.ofBytes (storedStream data z)) openBus (Sink.start 0 data.length) =
      .ok { pos := 8 * (storedStream data z).length, sink := (Sink.start 0 data.length).push data, pads := pads } := by
  obtain ⟨m, hcount, hdata⟩ := exists_blockCount data.length
  have hrounds : m + 1 ≤ 8 * (storedStream data z).length := by
    rw [storedStream_length, sizeBound, hcount]; omega
  obtain ⟨more, hmore⟩ := Nat.exists_eq_add_of_le hrounds
  refine inflateStream_zlibWrap (bytesAt_ofBytes _) (by rw [sink_push_out]; rfl) fun i hi => ?_
  rw [hcount] at hi ⊢
  obtain ⟨pads, hpads, hrun⟩ := inflateBlocks_storedBlocks (b := openBus) (k := Sink.start 0 data.length) hdata hi
    (Nat.le_of_eq (Nat.zero_add _)) (writable_of_noHoles rfl _ _) (pads := []) nofun
  exact ⟨pads, hpads, hmore ▸ hrun more⟩

/-! ## Admissible streams (R301) -/

theorem used_of_wholeBytes (n : Nat) (k : Sink) (pads : List (Nat × Nat)) :
    Inflater.used { pos := 8 * n, sink := k, pads := pads } = n := by
  unfold Inflater.used; dsimp only; omega

/-- The level-0 stream inflates back to the data (R301, R304). -/
theorem inflatesBack_storedStream (data : List Byte) (z : Bool) : inflatesBack data (storedStream data z) z = true := by
  obtain ⟨pads, hpads, hrun⟩ := inflateStream_storedStream data z
  rw [inflatesBack, hrun]
  dsimp only
  rw [used_of_wholeBytes, Nat.sub_self]
  simp only [sink_push_out, sink_start_out, List.nil_append, decide_true, Bool.true_and, zeroBits, Bool.and_true,
    List.all_eq_true]
  exact fun g hg => zeroBits_of_bitsAt (hpads g hg)

end Sys2Proof.Machine
end

section
/-! PROOF. DEFLATE's stream at every level, how DEFLATE completes, and INFLATE as its inverse (rules R300 to R309). -/

namespace Sys2Proof.Machine

theorem sourceBytes_length (s : State) : s.sourceBytes.length = s.latch.args.len := memBytes_length ..

/-! ## The stream (R300 to R307) -/

section
variable {data s : List Byte} {z : Bool} {level : Nat}

theorem admissible_iff : admissible data z s = true ↔
    inflatesBack data s z = true ∧ s.length ≤ sizeBound data.length z ∧
      (z = true → s.take 2 = [0x78, 0x01] ∧ s.drop (s.length - 4) = be32bytes (adler32 data)) ∧
      (data = [] → s = emptyStream z) := by
  have hwrapper (c : Prop) [Decidable c] : (!z || decide c) = true ↔ (z = true → c) := by cases z <;> simp
  have hempty (c : Prop) [Decidable c] : (!data.isEmpty || decide c) = true ↔ (data = [] → c) := by cases data <;> simp
  simp only [admissible, ← Bool.decide_and, Bool.and_eq_true, decide_eq_true_eq, hwrapper, hempty, and_assoc]

/-- What stands in the wrapper that DEFLATE writes: its header and the Adler-32 of the data (R307). -/
theorem zlibWrap_wrapped (data body : List Byte) : (zlibWrap true data body).take 2 = [0x78, 0x01] ∧
    (zlibWrap true data body).drop ((zlibWrap true data body).length - 4) = be32bytes (adler32 data) := by
  refine ⟨rfl, ?_⟩
  have hlen : (zlibWrap true data body).length - 4 = ([0x78, 0x01] ++ body).length := by rw [zlibWrap_length]; simp
  rw [hlen]
  exact List.drop_left' rfl

/-- The fallback is a member of ADMISSIBLE wherever there is data (R301, R304; log entry 6). -/
theorem admissible_storedStream (h : data ≠ []) : admissible data z (storedStream data z) = true :=
  admissible_iff.mpr ⟨inflatesBack_storedStream data z, Nat.le_of_eq (storedStream_length data z),
    fun hz => hz ▸ zlibWrap_wrapped .., fun hempty => absurd hempty h⟩

/-- The one stream of empty input is a member of ADMISSIBLE (R301, R305). -/
theorem admissible_emptyStream (z : Bool) : admissible [] z (emptyStream z) = true := by
  cases z <;> decide +kernel

theorem deflateStream_zero : deflateStream data 0 z = storedStream data z := if_pos rfl

theorem deflateStream_nil (h : level ≠ 0) : deflateStream [] level z = emptyStream z := if_neg h

theorem deflateStream_choice (h : level ≠ 0) (hdata : data ≠ []) : deflateStream data level z =
    if admissible data z (Config.deflateChoice data level z) then Config.deflateChoice data level z
    else storedStream data z := by
  rw [deflateStream, if_neg h, if_neg (by simpa using hdata)]

/-- From level 1 on the stream is a member of ADMISSIBLE (R300, R301). -/
theorem deflateStream_admissible (h : level ≠ 0) : admissible data z (deflateStream data level z) = true := by
  by_cases hdata : data = []
  · subst hdata
    rw [deflateStream_nil h]
    exact admissible_emptyStream z
  · rw [deflateStream_choice h hdata]
    split
    · next hchoice => exact hchoice
    · exact admissible_storedStream hdata

/-- The stream of every level inflates back to the data (R301, R309). -/
theorem inflatesBack_deflateStream : inflatesBack data (deflateStream data level z) z = true := by
  by_cases h : level = 0
  · rw [h, deflateStream_zero]; exact inflatesBack_storedStream data z
  · exact (admissible_iff.mp (deflateStream_admissible h)).1

/-- The stream of every level has at most BOUND bytes (R302). -/
theorem deflateStream_length_le : (deflateStream data level z).length ≤ sizeBound data.length z := by
  by_cases h : level = 0
  · rw [h, deflateStream_zero]; exact Nat.le_of_eq (storedStream_length data z)
  · exact (admissible_iff.mp (deflateStream_admissible h)).2.1

end

/-! ## How DEFLATE completes (R300) -/

section
variable {b : Bus} {a : Args} {level : Nat} {z : Bool}

theorem commandBody_deflate (level : BitVec 4) (z : Bool) (b : Bus) (a : Args) :
    commandBody (if z then .deflateZ level else .deflate level) b a = deflateBody level.toNat z b a := by cases z <;> rfl

/-- A stream that fits, between a source and a destination whose accesses complete, is the output. -/
theorem deflateBody_ok {s : State} (hok : SrcDstOk s.latch.args) (hr : Readable s.platform s.latch.args.src s.latch.args.len)
    (hcap : (deflateStream s.sourceBytes level z).length ≤ s.latch.args.cap)
    (hw : Writable s.platform s.latch.args.dst (deflateStream s.sourceBytes level z).length) :
    deflateBody level z s.bus s.latch.args =
      .ok { result := 0, inUsed := s.latch.args.srcLen, flags := 0, out := deflateStream s.sourceBytes level z } := by
  have hwrite : memWrite s.bus s.latch.args.sink (deflateStream s.sourceBytes level z) = _ := memWrite_ok s.bus _ _ hw
  rw [deflateBody, checkSrcDst_ok hok, except_bind_ok, memRead_source hr, except_bind_ok]
  dsimp only
  rw [if_neg (Nat.not_lt.mpr hcap), hwrite, except_bind_ok, sink_push_out]
  rfl

/-- The checks on a source and a destination pass, or ParamError is raised (R445). -/
theorem checkSrcDst_cases (a : Args) : SrcDstOk a ∨ ∃ k, checkSrcDst a = .error (paramError k 0) := by
  by_cases hsrc : regionOk a.src a.len = true
  case neg => exact .inr ⟨.wrap, by rw [checkSrcDst, checkRegion, if_neg hsrc, except_bind_error]⟩
  by_cases hdst : regionOk a.dst a.cap = true
  case neg =>
    exact .inr ⟨.wrap, by rw [checkSrcDst, checkRegion_ok hsrc, except_bind_ok, checkRegion, if_neg hdst, except_bind_error]⟩
  by_cases hoverlap : overlaps a.src a.len a.dst a.cap = true
  · exact .inr ⟨.overlap, (checkRegions_ok hsrc hdst).trans (if_pos hoverlap)⟩
  · exact .inl ⟨hsrc, hdst, Bool.eq_false_iff.mpr hoverlap⟩

/-- DEFLATE succeeds only with the stream of the source bytes as its output. -/
theorem deflateBody_eq_ok {d : Done} (h : deflateBody level z b a = .ok d) :
    SrcDstOk a ∧ d.out = deflateStream (memBytes b.mem a.src a.len) level z := by
  obtain ⟨⟨⟩, hcheck, h⟩ := except_bind_eq_ok.mp h
  have hok : SrcDstOk a := by
    obtain hok | ⟨k, hk⟩ := checkSrcDst_cases a
    · exact hok
    · cases hcheck.symm.trans hk
  obtain ⟨data, hdata, h⟩ := except_bind_eq_ok.mp h
  obtain ⟨-, rfl⟩ := memRead_eq_ok hdata
  dsimp only at h
  split at h
  · cases h
  · obtain ⟨k, hk, h⟩ := except_bind_eq_ok.mp h
    obtain rfl := memWrite_eq_ok hk
    cases h
    exact ⟨hok, sink_push_out ..⟩

theorem memRead_raises_bus {e : Raise} : ∀ {n x : Nat}, memRead b x n = .error e → e.err = .bus .read := by
  intro n
  induction n with
  | zero => exact nofun
  | succ n ih =>
    intro x h
    obtain h | ⟨_, -, h⟩ := except_bind_eq_error.mp h
    · rw [busRead] at h
      split at h <;> cases h
      rfl
    · obtain h | ⟨_, -, h⟩ := except_bind_eq_error.mp h
      · exact ih h
      · cases h

theorem memWrite_raises_bus {e : Raise} : ∀ {xs : List Byte} {k : Sink}, memWrite b k xs = .error e → e.err = .bus .write := by
  intro xs
  induction xs with
  | nil => exact nofun
  | cons x xs ih =>
    intro k h
    obtain h | ⟨_, -, h⟩ := except_bind_eq_error.mp h
    · rw [busWrite] at h
      split at h <;> cases h
      rfl
    · exact ih h

/-- DEFLATE ends with CapacityError only where its stream is longer than the destination (R300). -/
theorem deflateBody_capacity {e : Raise} (h : deflateBody level z b a = .error e) (he : e.err = .capacity) :
    a.cap < (deflateStream (memBytes b.mem a.src a.len) level z).length := by
  obtain hcheck | ⟨-, -, h⟩ := except_bind_eq_error.mp h
  · obtain hok | ⟨k, hk⟩ := checkSrcDst_cases a
    · cases hcheck.symm.trans (checkSrcDst_ok hok)
    · cases hcheck.symm.trans hk
      cases he
  obtain hread | ⟨data, hdata, h⟩ := except_bind_eq_error.mp h
  · cases he.symm.trans (memRead_raises_bus hread)
  obtain ⟨-, rfl⟩ := memRead_eq_ok hdata
  dsimp only at h
  split at h
  · next hfull => exact hfull
  · obtain hwrite | ⟨k, -, h⟩ := except_bind_eq_error.mp h
    · cases he.symm.trans (memWrite_raises_bus hwrite)
    · cases h

theorem err_of_capacity_code {e : ErrKind} (h : e.code = ErrKind.capacity.code) : e = .capacity := by
  cases e with
  | capacity => rfl
  | _ k => cases k <;> cases h

end

/-- Settles O44: the length of the stored blocks, the bound of ADMISSIBLE, and the one place that raises CapacityError. -/
theorem deflateOutputIsBounded : Obligations.DeflateOutputIsBounded := by
  intro data z bound
  refine ⟨storedStream_length data z, fun level => deflateStream_length_le, ?_⟩
  intro s t level _ hlen hcap hexec
  rw [exec_deflate] at hexec
  cases hexec
  cases hbody : deflateBody level.toNat z s.bus s.latch.args with
  | ok d => exact (errKind_code_ne_zero .capacity).symm
  | error e =>
    intro hcode
    have hlong := deflateBody_capacity hbody (err_of_capacity_code hcode)
    have hbound := deflateStream_length_le (data := s.sourceBytes) (level := level.toNat) (z := z)
    rw [sourceBytes_length, hlen] at hbound
    exact absurd hcap (Nat.not_le.mpr (Nat.lt_of_lt_of_le hlong hbound))

/-- Settles O45: the stream by its cases, and the body that writes it. -/
theorem deflateCompletesWithAnAdmissibleStream : Obligations.DeflateCompletesWithAnAdmissibleStream := by
  intro s level z _ hok data out
  have hlevel : level = 0 ↔ level.toNat = 0 := BitVec.toNat_eq
  refine ⟨fun h => ?_, fun h => ⟨deflateStream_admissible (mt hlevel.mpr h), fun hdata => ?_⟩, ?_, fun hr hcap hw => ?_⟩
  · have hout : out = deflateStream data 0 z := congrArg (deflateStream data · z) (hlevel.mp h)
    rw [hout, deflateStream_zero]
  · have hout : out = _ := deflateStream_choice (mt hlevel.mpr h) hdata
    rw [hout]
    split
    · exact .inl rfl
    · next hchoice => exact .inr (Bool.eq_false_iff.mpr hchoice)
  · have hbound := deflateStream_length_le (data := data) (level := level.toNat) (z := z)
    rwa [sourceBytes_length] at hbound
  · exact exec_success _ hok.dst ((commandBody_deflate level z _ _).trans (deflateBody_ok hok hr hcap hw))

/-- Settles O47: each stream, evaluated. -/
theorem emptyInputStreams : Obligations.EmptyInputStreams :=
  ⟨by decide, by decide, fun level hlevel =>
    have h := Nat.pos_iff_ne_zero.mp hlevel
    ⟨deflateStream_nil h, deflateStream_nil h⟩⟩

/-! ## INFLATE after DEFLATE (R309) -/

/-- Bytes that were written are the bytes that memory holds. -/
theorem memBytes_eq_of_read {m : Memory} {base : Nat} {xs : List Byte}
    (h : ∀ i, i < xs.length → m.read (base + i) = xs.getD i 0) : memBytes m base xs.length = xs := by
  refine List.ext_getElem (memBytes_length ..) fun i _ hi => ?_
  simp only [memBytes, List.getElem_map, List.getElem_range]
  rw [h i hi, List.getD_eq_getElem _ _ hi]

/-- After a DEFLATE that succeeds, the destination holds the stream of the data, and OUT_LEN is its length. -/
theorem deflate_output {d t : State} {level : BitVec 4} {z : Bool}
    (hexec : exec (if z then Instr.deflateZ level else Instr.deflate level) d = .next t) (herr : t.status.err = false) :
    memBytes t.mem d.latch.args.dst t.results.outLen.toNat = deflateStream d.sourceBytes level.toNat z := by
  rw [exec_deflate] at hexec
  cases hexec
  cases hbody : deflateBody level.toNat z d.bus d.latch.args with
  | error e => rw [hbody] at herr; cases herr
  | ok done =>
    obtain ⟨hok, hout⟩ := deflateBody_eq_ok hbody
    have hfits := (deflateBody_sound hbody).fits
    have htop := of_decide_eq_true hok.dst
    rw [complete_ok, outLen_toNat hfits]
    exact (memBytes_eq_of_read (finishWith_success done d (by omega)).written).trans hout

/-- A stream that inflates back is decoded to the data, with every byte used (R301). -/
theorem inflateStream_of_inflatesBack {data s : List Byte} {z : Bool} (h : inflatesBack data s z = true) :
    ∃ r, inflateStream z (Port.ofBytes s) openBus (Sink.start 0 data.length) = .ok r ∧ r.sink.out = data ∧
      r.used = s.length := by
  rw [inflatesBack] at h
  split at h
  · cases h
  · next r hr =>
    simp only [Bool.and_eq_true, decide_eq_true_eq] at h
    obtain ⟨⟨⟨hout, hused⟩, -⟩, -⟩ := h
    exact ⟨r, hr, hout, hused⟩

/-- Settles O43: the stream inflates back where admissibility is judged, so it does from the source into the destination. -/
theorem inflateUndoesDeflate : Obligations.InflateUndoesDeflate := by
  intro d t s level z _ hexec herr hsource hok hroom hr hw
  rw [deflate_output hexec herr] at hsource
  obtain ⟨r, hrun, hout, hused⟩ := inflateStream_of_inflatesBack
    (inflatesBack_deflateStream (data := d.sourceBytes) (level := level.toNat) (z := z))
  rw [← hsource, sourceBytes_length] at hused
  rw [← hsource, sourceBytes_length] at hrun
  have hmirrors : Mirrors s.bus (Sink.start 0 d.latch.args.len) s.latch.args.sink :=
    { count := rfl, bytes := rfl, fits := Nat.zero_le _, room := hroom, writable := hw }
  obtain ⟨r', hrun', hr'⟩ := inflateStream_mirrors z (same_ofBytes_ofRegion (b := s.bus) hr) hmirrors r hrun
  have hused' : r'.used = s.latch.args.len := by rw [← hused, Inflater.used, Inflater.used, hr'.pos]
  obtain ⟨-, -, -, -, -, -, -, hcompletes⟩ := inflateCompletesWithTheDecoding
  obtain ⟨u, hu, hsuccess⟩ := (hcompletes s z hok).1 r' hrun'
  rw [hused', hr'.sink.out_eq, hout, Args.len, BitVec.ofNat_toNat, BitVec.setWidth_eq] at hsuccess
  exact ⟨u, hu, hsuccess⟩

end Sys2Proof.Machine
end

section
/-! PROOF. FRM.PARSE at a chunk with one flipped bit in its type or data (rules R208, R342, R354). -/

namespace Sys2Proof.Machine

/-- Different CRCs have different CRC fields on the wire (R13, R132). -/
theorem be32bytes_toNat_injective : Function.Injective fun c : Word => be32bytes c.toNat := by
  intro c d h
  have hval := congrArg be32 h
  simp only [be32_be32bytes (BitVec.isLt _)] at hval
  exact BitVec.eq_of_toNat_eq hval

/-- Past the chunks, a chunk whose bytes all read and whose CRC field is not that of its tag and data is FormatError(CRC) at its
length field (R342). -/
theorem ParseReaches.fails_crc {s : State} {cs : List (List Byte × List Byte)} {tag data crc tail : List Byte}
    (h : ParseReaches s cs (be32bytes data.length ++ (tag ++ data ++ crc ++ tail)))
    (hl : data.length ≤ Config.framerMaxLen) (ht : tag.length = 4) (hc : crc.length = 4)
    (hr : Readable s.platform (s.latch.args.src + (8 + (wireBytes cs).length)) (12 + data.length))
    (hbad : crc ≠ be32bytes (crc32 (tag ++ data)).toNat) :
    FailsWith .frmParse s (.format .crc) (8 + (wireBytes cs).length) := by
  rw [show 12 + data.length = 8 + (data.length + 4) by omega, readable_add] at hr
  obtain ⟨hrh, hrc⟩ := hr
  exact h.fails_of_readChunk (by simp [be32bytes]) ((h.readChunk_read hl ht rfl hc hrh hrc).trans (if_pos hbad))

/-- Settles O50: a flipped bit changes the CRC of tag and data (`crcDetectsEverySingleBitFlip`), so the field on the wire, which
holds the old one, is not theirs. -/
theorem parseFindsEveryFlippedBit : Obligations.ParseFindsEveryFlippedBit := by
  intro s cs tag data tag' data' rest i j hok halign hchunks hiend ht hd ht' hi hj hflip hsource hmax hroom hr hw
  have hdata : data'.length = data.length := by
    have hlen := congrArg List.length hflip
    rw [List.length_set, List.length_append, List.length_append] at hlen
    omega
  rw [← hdata] at hd hsource hr
  rw [Nat.add_assoc, readable_add] at hr
  have hreaches : ParseReaches s cs (be32bytes data'.length ++
      (tag' ++ data' ++ be32bytes (crc32 (tag ++ data)).toNat ++ rest)) := {
    regions := hok
    align := halign
    chunks := hchunks
    source := by rw [hsource]; simp only [List.append_assoc]
    noIend := hiend
    noMax := hmax
    room := hroom
    readable := hr.1
    writable := hw }
  refine hreaches.fails_crc hd ht' rfl hr.2 fun hfield => ?_
  have hsame : crc32 (tag ++ data) = crc32 (tag' ++ data') := be32bytes_toNat_injective hfield
  rw [hflip] at hsame
  exact crcDetectsEverySingleBitFlip _ i j (by rw [List.length_append]; omega) hj hsame.symm

end Sys2Proof.Machine
end

section
/-! PROOF. FRM.IDATCAT on a table without an IDAT entry (rules R347, R349). -/

namespace Sys2Proof.Machine

section
variable {s : State} {k : Nat}

theorem idats_eq_nil (h : ∀ j, j < k → (s.entry j).tag ≠ tagIdat) : s.idats k = [] := by
  simpa [State.idats, List.filter_eq_nil_iff] using h

/-- Past every entry, with no IDAT entry among them, the body raises (R349). -/
theorem CatPasses.body_noIdat (h : CatPasses s s.latch.args.entries) (hidats : s.idats s.latch.args.entries = []) :
    idatcatBody s.bus s.latch.args = .error (formatError .noIdat 0) := by
  rw [idatcatBody, checkTableDst_ok h.regions, except_bind_ok, h.loop, Nat.sub_self, catEntries, except_bind_ok]
  exact if_pos (List.length_eq_zero_iff.mpr hidats)

end

/-- Settles O52: the loop gets past every entry, and none of them puts anything out or is counted. -/
theorem idatcatWithoutIdatFails : Obligations.IdatcatWithoutIdatFails := by
  intro s hok htable hother
  have hidats := idats_eq_nil hother
  have hout : (s.catBytes s.latch.args.entries).length = 0 := by rw [catBytes_eq, hidats]; rfl
  have hpass : CatPasses s s.latch.args.entries := {
    regions := hok
    inTable := Nat.le_refl _
    table := htable
    before := fun j hj htag => absurd htag (hother j hj)
    room := by omega
    writable := fun a h₁ h₂ => by omega }
  exact idatcat_fails_of_raise (hpass.body_noIdat hidats)

end Sys2Proof.Machine
end

section
/-! PROOF. Rows of an image: the neighbours by index, and row reverse as the inverse of row apply (rules R141, R382 to R389,
R391). -/

namespace Sys2Proof.Machine

/-! ## Row reverse undoes row apply (R389, R391) -/

/-- Both directions predict a byte from the same unfiltered bytes, so adding the prediction undoes subtracting it. -/
theorem reverseFrom_applyFrom (t : FilterType) (bpp : Nat) : ∀ {cur prev : List Byte} (curPassed prevPassed : List Byte),
    cur.length = prev.length →
    reverseFrom t bpp (applyFrom t bpp cur prev curPassed prevPassed) prev curPassed prevPassed = cur := by
  intro cur
  induction cur with
  | nil => intro prev _ _ _; rfl
  | cons x cur ih =>
    intro prev curPassed prevPassed h
    cases prev with
    | nil => cases h
    | cons b prev =>
      rw [applyFrom, reverseFrom, BitVec.sub_add_cancel]
      exact congrArg (x :: ·) (ih _ _ (Nat.succ.inj h))

theorem reverseRow_applyRow {t : FilterType} {bpp : Nat} {cur prev : List Byte} (h : cur.length = prev.length) :
    reverseRow t bpp (applyRow t bpp cur prev) prev = cur := reverseFrom_applyFrom t bpp [] [] h

theorem applyFrom_length (t : FilterType) (bpp : Nat) : ∀ {cur prev : List Byte} (curPassed prevPassed : List Byte),
    cur.length = prev.length → (applyFrom t bpp cur prev curPassed prevPassed).length = cur.length := by
  intro cur
  induction cur with
  | nil => intro prev _ _ _; rfl
  | cons x cur ih =>
    intro prev _ _ h
    cases prev with
    | nil => cases h
    | cons b prev => exact congrArg (· + 1) (ih _ _ (Nat.succ.inj h))

theorem applyRow_length {t : FilterType} {bpp : Nat} {cur prev : List Byte} (h : cur.length = prev.length) :
    (applyRow t bpp cur prev).length = cur.length := applyFrom_length t bpp [] [] h

/-! ## The neighbours by index (R382, R389) -/

/-- A rebuilt byte is the filtered byte plus the prediction from the bytes before it, rebuilt and above, newest first. -/
theorem reverseFrom_getD (t : FilterType) (bpp : Nat) : ∀ {filt prev : List Byte} {x : Nat} (curPassed prevPassed : List Byte),
    filt.length = prev.length → x < filt.length →
    (reverseFrom t bpp filt prev curPassed prevPassed).getD x 0 = filt.getD x 0 +
      predictByte t bpp (((reverseFrom t bpp filt prev curPassed prevPassed).take x).reverse ++ curPassed)
        ((prev.take x).reverse ++ prevPassed) (prev.getD x 0) := by
  intro filt
  induction filt with
  | nil => intro prev x _ _ _ hx; cases hx
  | cons f filt ih =>
    intro prev x curPassed prevPassed h hx
    cases prev with
    | nil => cases h
    | cons b prev =>
      cases x with
      | zero => rfl
      | succ x =>
        simp only [reverseFrom, List.getD_cons_succ, List.take_succ_cons, List.reverse_cons, List.append_assoc,
          List.singleton_append]
        exact ih _ _ (Nat.succ.inj h) (Nat.lt_of_succ_lt_succ hx)

/-- The byte BPP positions back from position `x` of a row is the one at index `x - bpp`, or 0 before the row begins (R382). -/
theorem backByte_take {bpp x : Nat} {l : List Byte} (hbpp : 1 ≤ bpp) (hx : x ≤ l.length) :
    (backByte bpp (l.take x).reverse).toNat = if bpp ≤ x then byteAt l (x - bpp) else 0 := by
  have hlen : (l.take x).length = x := List.length_take_of_le hx
  rw [backByte]
  split
  case isTrue h =>
    rw [congrFun (List.getD_reverse (bpp - 1) (by omega)) 0, hlen, show x - 1 - (bpp - 1) = x - bpp by omega, byteAt,
      List.getD_eq_getElem?_getD, List.getElem?_take_of_lt (by omega), List.getD_eq_getElem?_getD]
  case isFalse h =>
    rw [List.getD_eq_default _ _ (by rw [List.length_reverse, hlen]; omega)]
    rfl

/-- Byte `x` of a rebuilt row, on numbers (R389). -/
theorem reverseRow_byteAt {t : FilterType} {bpp x : Nat} {row prev : List Byte} (hbpp : 1 ≤ bpp)
    (hlen : row.length = prev.length) (hx : x < row.length) :
    byteAt (reverseRow t bpp row prev) x = (byteAt row x +
      predict t (if bpp ≤ x then byteAt (reverseRow t bpp row prev) (x - bpp) else 0) (byteAt prev x)
        (if bpp ≤ x then byteAt prev (x - bpp) else 0)) % 256 := by
  have hrebuilt : x ≤ (reverseRow t bpp row prev).length := by rw [reverseRow_length hlen]; omega
  have hbyte := reverseFrom_getD t bpp [] [] hlen hx
  rw [List.append_nil, List.append_nil, ← reverseRow] at hbyte
  rw [← backByte_take hbpp hrebuilt, ← backByte_take hbpp (by omega : x ≤ prev.length), byteAt, hbyte, BitVec.toNat_add,
    predictByte, BitVec.toNat_ofNat, Nat.add_mod_mod]
  rfl

/-! ## Type bytes (R141) -/

theorem filterOf_eq_getElem? : ∀ x : Nat, filterOf x = [FilterType.none, .sub, .up, .avg, .paeth][x]?
  | 0 | 1 | 2 | 3 | 4 | _ + 5 => rfl

theorem filterOf_typeByte (t : FilterType) : filterOf (lowByte t.code).toNat = some t := by cases t <;> rfl

/-- Settles O58: a rebuilt byte by index is `reverseRow_byteAt`, and the unfiltered row is the one rebuilt from the applied row. -/
theorem rowsUseTheNeighboursByIndex : Obligations.RowsUseTheNeighboursByIndex := by
  refine ⟨fun a b c => ⟨rfl, rfl, rfl, rfl, rfl⟩, rfl, filterOf_eq_getElem?, ?_⟩
  intro t bpp row prev x hbpp hlen hx back rebuilt
  have happlied : (applyRow t bpp row prev).length = row.length := applyRow_length hlen
  refine ⟨reverseRow_byteAt hbpp hlen hx, ?_, reverseRow_length hlen, happlied⟩
  have hbyte := reverseRow_byteAt (t := t) hbpp (happlied.trans hlen) (happlied.symm ▸ hx)
  rw [reverseRow_applyRow hlen] at hbyte
  exact hbyte.symm

end Sys2Proof.Machine
end

section
/-! PROOF. The choice among neighbours and among filters: paeth_predict, and the selection of FLT.APPLY.AUTO (rules R387, R394). -/

namespace Sys2Proof.Machine

/-! ## paeth_predict (R387) -/

section
variable {a b c : Nat}

theorem paethPredict_left (h : paethDistance a b c a ≤ paethDistance a b c b ∧ paethDistance a b c a ≤ paethDistance a b c c) :
    paethPredict a b c = a := if_pos h

variable (ha : ¬(paethDistance a b c a ≤ paethDistance a b c b ∧ paethDistance a b c a ≤ paethDistance a b c c))
include ha

theorem paethPredict_above (h : paethDistance a b c b ≤ paethDistance a b c c) : paethPredict a b c = b :=
  (if_neg ha).trans (if_pos h)

theorem paethPredict_aboveLeft (h : ¬paethDistance a b c b ≤ paethDistance a b c c) : paethPredict a b c = c :=
  (if_neg ha).trans (if_neg h)

end

theorem paethPredict_nearest (a b c : Nat) : ∀ v ∈ [a, b, c],
    paethDistance a b c (paethPredict a b c) ≤ paethDistance a b c v := by
  simp only [List.forall_mem_cons, List.not_mem_nil, false_imp_iff, implies_true, and_true]
  by_cases ha : paethDistance a b c a ≤ paethDistance a b c b ∧ paethDistance a b c a ≤ paethDistance a b c c
  · rw [paethPredict_left ha]; omega
  · by_cases hb : paethDistance a b c b ≤ paethDistance a b c c
    · rw [paethPredict_above ha hb]; omega
    · rw [paethPredict_aboveLeft ha hb]; omega

/-- Settles O59: the three branches of paeth_predict, and in each the value is nearest. -/
theorem paethPicksTheNearest : Obligations.PaethPicksTheNearest :=
  fun a b c => ⟨paethPredict_left, paethPredict_above, paethPredict_aboveLeft, paethPredict_nearest a b c⟩

/-! ## The selection of AUTO (R394) -/

theorem rowCost_eq_sum (filt : List Byte) : rowCost filt = (filt.map byteCost).sum := by
  rw [rowCost, List.sum_eq_foldl, List.foldl_map]

/-- Filter `t` comes before `u` for a row: its cost is lower, or the same and its type is no higher (R394). -/
def Preferred (bpp : Nat) (cur prev : List Byte) (t u : FilterType) : Prop :=
  rowCost (applyRow t bpp cur prev) < rowCost (applyRow u bpp cur prev) ∨
    rowCost (applyRow t bpp cur prev) = rowCost (applyRow u bpp cur prev) ∧ t.code ≤ u.code

section
variable {bpp : Nat} {cur prev : List Byte} {t u v : FilterType}

theorem Preferred.refl (t : FilterType) : Preferred bpp cur prev t t := .inr ⟨rfl, Nat.le_refl _⟩

theorem Preferred.trans (h : Preferred bpp cur prev t u) (h' : Preferred bpp cur prev u v) : Preferred bpp cur prev t v := by
  unfold Preferred at *; omega

/-- Of a filter and one of higher type, `cheaper` gives the preferred one. -/
theorem cheaper_cases (h : t.code < u.code) : (cheaper bpp cur prev t u = t ∧ Preferred bpp cur prev t u) ∨
    (cheaper bpp cur prev t u = u ∧ Preferred bpp cur prev u t) := by
  unfold cheaper Preferred
  split
  · exact .inr ⟨rfl, by omega⟩
  · exact .inl ⟨rfl, by omega⟩

/-- Over filters of rising type, the selection comes before each of them. -/
theorem foldl_cheaper_preferred : ∀ {ts : List FilterType} {best : FilterType},
    (best :: ts).Pairwise (fun t u => t.code < u.code) →
    ∀ t ∈ best :: ts, Preferred bpp cur prev (ts.foldl (cheaper bpp cur prev) best) t := by
  intro ts
  induction ts with
  | nil => intro best _ t ht; rw [List.mem_singleton.mp ht]; exact .refl best
  | cons u ts ih =>
    intro best hrising
    obtain ⟨hbest, hrest⟩ := List.pairwise_cons.mp hrising
    simp only [List.forall_mem_cons] at hbest ⊢
    rw [List.foldl_cons]
    obtain ⟨hcheaper, hpref⟩ | ⟨hcheaper, hpref⟩ := cheaper_cases (bpp := bpp) (cur := cur) (prev := prev) hbest.1
    all_goals rw [hcheaper]
    · have hselected := ih (List.pairwise_cons.mpr ⟨hbest.2, (List.pairwise_cons.mp hrest).2⟩)
      rw [List.forall_mem_cons] at hselected
      exact ⟨hselected.1, hselected.1.trans hpref, hselected.2⟩
    · have hselected := ih hrest
      rw [List.forall_mem_cons] at hselected
      exact ⟨hselected.1.trans hpref, hselected⟩

theorem selectFilter_preferred (t : FilterType) : Preferred bpp cur prev (selectFilter bpp cur prev) t :=
  foldl_cheaper_preferred (by decide) t (by cases t <;> decide)

end

/-- Settles O60: the selection comes before every filter (`selectFilter_preferred`), and a row's cost is the sum of its bytes'. -/
theorem autoSelectsTheCheapestFilter : Obligations.AutoSelectsTheCheapestFilter := by
  intro bpp cur prev t cost best
  have hcost (f : FilterType) : cost f = rowCost (applyRow f bpp cur prev) := (rowCost_eq_sum _).symm
  have hselected : Preferred bpp cur prev best t := selectFilter_preferred t
  unfold Preferred at hselected
  rw [hcost, hcost]
  omega

end Sys2Proof.Machine
end

section
/-! PROOF. The operand checks of the filter commands in their order, and the errors they raise (rules R87, R381, R390, R392,
R445, R450). -/

namespace Sys2Proof.Machine

/-! ## The geometry checks (R381) -/

section
variable {a : Args}

theorem checkGeometry_bpp (h : ¬(a.bpp = 1 ∨ a.bpp = 4)) : checkGeometry a = .error { err := .param .bpp, info := 0 } :=
  if_pos (not_or.mp h)

variable (hbpp : a.bpp = 1 ∨ a.bpp = 4)
include hbpp

theorem checkGeometry_rows (h : a.rows = 0) : checkGeometry a = .error { err := .dimensions .rowsZero, info := 0 } :=
  (if_neg (not_and_or.mpr (hbpp.imp not_not_intro not_not_intro))).trans (if_pos h)

variable (hrows : a.rows ≠ 0)
include hrows

theorem checkGeometry_rowBytes (h : a.rowBytes = 0) :
    checkGeometry a = .error { err := .dimensions .rowBytesZero, info := 0 } := by
  rw [checkGeometry, if_neg (by omega), if_neg hrows, if_pos h]

variable (hrowBytes : a.rowBytes ≠ 0)
include hrowBytes

theorem checkGeometry_stride (h : a.rowBytes % a.bpp ≠ 0) :
    checkGeometry a = .error { err := .param .stride, info := 0 } := by
  rw [checkGeometry, if_neg (by omega), if_neg hrows, if_neg hrowBytes, if_pos h]; rfl

theorem checkGeometry_size (hstride : a.rowBytes % a.bpp = 0) (h : 4294967295 < a.filteredBytes) :
    checkGeometry a = .error { err := .param .sizeOverflow, info := 0 } := by
  rw [checkGeometry, if_neg (by omega), if_neg hrows, if_neg hrowBytes, if_neg (not_not_intro hstride), if_pos h]; rfl

end

/-- The region checks pass only regions in order (R88, R89). -/
theorem srcDstOk_of_check {a : Args} (h : checkSrcDst a = .ok ()) : SrcDstOk a :=
  (checkSrcDst_cases a).resolve_right fun ⟨_, hk⟩ => by cases hk.symm.trans h

/-- The geometry checks pass only a legal geometry (R381). -/
theorem geometryOk_of_check {a : Args} (h : checkGeometry a = .ok ()) : GeometryOk a := by
  have hbpp : a.bpp = 1 ∨ a.bpp = 4 := by_contra fun hbad => nomatch h.symm.trans (checkGeometry_bpp hbad)
  have hrows : a.rows ≠ 0 := fun hbad => nomatch h.symm.trans (checkGeometry_rows hbpp hbad)
  have hrowBytes : a.rowBytes ≠ 0 := fun hbad => nomatch h.symm.trans (checkGeometry_rowBytes hbpp hrows hbad)
  have hstride : a.rowBytes % a.bpp = 0 :=
    by_contra fun hbad => nomatch h.symm.trans (checkGeometry_stride hbpp hrows hrowBytes hbad)
  have hsize : ¬4294967295 < a.filteredBytes :=
    fun hbad => nomatch h.symm.trans (checkGeometry_size hbpp hrows hrowBytes hstride hbad)
  exact ⟨hbpp, Nat.pos_of_ne_zero hrows, Nat.pos_of_ne_zero hrowBytes, hstride, Nat.not_lt.mp hsize⟩

/-! ## The commands -/

/-- The six FLT.APPLY commands. -/
def applyCommands : List Instr := [.fltApplyNone, .fltApplySub, .fltApplyUp, .fltApplyAvg, .fltApplyPaeth, .fltApplyAuto]

/-- They run one body, which takes the filter that MOD names as an operand (R392). -/
theorem commandBody_apply {i : Instr} (h : i ∈ applyCommands) : ∃ choice, ∀ b a, commandBody i b a = applyBody choice b a := by
  simp only [applyCommands, List.mem_cons, List.not_mem_nil, or_false] at h
  obtain rfl | rfl | rfl | rfl | rfl | rfl := h <;> exact ⟨_, fun _ _ => rfl⟩

/-- All filter commands have a destination, and begin with the region checks and the geometry checks (R381, R445). -/
theorem commandBody_filter_checks {i : Instr} (h : i ∈ Instr.fltReverse :: applyCommands) (b : Bus) (a : Args) :
    usesDestination i = true ∧
      ∃ rest, commandBody i b a = (checkSrcDst a >>= fun _ => checkGeometry a >>= fun _ => rest) := by
  simp only [applyCommands, List.mem_cons, List.not_mem_nil, or_false] at h
  obtain rfl | rfl | rfl | rfl | rfl | rfl | rfl := h <;> exact ⟨rfl, _, rfl⟩

section
variable {b : Bus} {a : Args} {choice : Option FilterType} (hregions : SrcDstOk a) (hgeometry : GeometryOk a)
include hregions hgeometry

theorem reverseBody_short (h : a.len < a.filteredBytes) :
    reverseBody b a = .error { err := .corrupt .filterTrunc, info := a.len } := by
  rw [reverseBody, checkSrcDst_ok hregions, except_bind_ok, checkGeometry_ok hgeometry, except_bind_ok, if_pos h]

theorem reverseBody_full (hsource : a.filteredBytes ≤ a.len) (h : a.cap < a.rawBytes) : reverseBody b a = .error (full 0) := by
  rw [reverseBody, checkSrcDst_ok hregions, except_bind_ok, checkGeometry_ok hgeometry, except_bind_ok,
    if_neg (Nat.not_lt.mpr hsource), if_pos h]

theorem applyBody_short (h : a.len < a.rawBytes) :
    applyBody choice b a = .error { err := .param .srcShort, info := 0 } := by
  rw [applyBody, checkSrcDst_ok hregions, except_bind_ok, checkGeometry_ok hgeometry, except_bind_ok, if_pos h]; rfl

theorem applyBody_full (hsource : a.rawBytes ≤ a.len) (h : a.cap < a.filteredBytes) :
    applyBody choice b a = .error (full 0) := by
  rw [applyBody, checkSrcDst_ok hregions, except_bind_ok, checkGeometry_ok hgeometry, except_bind_ok,
    if_neg (Nat.not_lt.mpr hsource), if_pos h]

end

section
variable {i : Instr} {s : State} {e : ErrKind} {info : Nat}

/-- A command with a destination whose body raises completes with that error, and its destination is draws (R87, R450). -/
theorem exec_fails_drawn_of_raise (hdst : usesDestination i = true)
    (h : commandBody i s.bus s.latch.args = .error { err := e, info := info }) :
    ∃ t, exec i s = .next t ∧ Failure s t e info ∧ DestinationDrawn s t := by
  refine ⟨_, exec_eq i s, ?_⟩
  rw [h, complete_error, hdst]
  exact ⟨raiseWith_failure true _ s, raiseWith_destinationDrawn _ s⟩

/-- Past the region checks a filter command fails as its geometry does. -/
theorem filter_fails_of_checkGeometry (hi : i ∈ Instr.fltReverse :: applyCommands) (hregions : SrcDstOk s.latch.args)
    (h : checkGeometry s.latch.args = .error { err := e, info := info }) :
    ∃ t, exec i s = .next t ∧ Failure s t e info ∧ DestinationDrawn s t := by
  obtain ⟨hdst, rest, hbody⟩ := commandBody_filter_checks hi s.bus s.latch.args
  exact exec_fails_drawn_of_raise hdst (by rw [hbody, checkSrcDst_ok hregions, except_bind_ok, h, except_bind_error])

end

/-- Settles O54: the geometry checks are common to the seven commands; the lengths are those of FLT.REVERSE or of FLT.APPLY. -/
theorem geometryChecksInOrder : Obligations.GeometryChecksInOrder := by
  intro s hregions i hi bppOk
  have fails {e : ErrKind} {info : Nat} := filter_fails_of_checkGeometry (e := e) (info := info) hi hregions
  refine ⟨fun h => fails (checkGeometry_bpp h), fun hbpp h => fails (checkGeometry_rows hbpp h),
    fun hbpp hrows h => fails (checkGeometry_rowBytes hbpp hrows h),
    fun hbpp hrows hrowBytes h => fails (checkGeometry_stride hbpp hrows hrowBytes h),
    fun hbpp hrows hrowBytes hstride h => fails (checkGeometry_size hbpp hrows hrowBytes hstride h),
    fun hgeometry => ?_⟩
  intro filtered raw reads writes
  obtain rfl | happly := List.mem_cons.mp hi
  case inl =>
    refine ⟨fun h => ?_, fun hsource h => exec_fails_drawn_of_raise rfl (reverseBody_full hregions hgeometry hsource h)⟩
    obtain ⟨t, hexec, hfail, hdrawn⟩ := exec_fails_drawn_of_raise (i := .fltReverse) rfl (reverseBody_short hregions hgeometry h)
    exact ⟨t, hexec, hdrawn, hfail⟩
  case inr =>
    obtain ⟨hdst, -⟩ := commandBody_filter_checks hi s.bus s.latch.args
    obtain ⟨choice, hbody⟩ := commandBody_apply happly
    have hne : i ≠ .fltReverse := fun h => absurd (h ▸ happly) (by decide)
    have hreads : reads = raw := if_neg hne
    have hwrites : writes = filtered := if_neg hne
    rw [hreads, hwrites]
    refine ⟨fun h => ?_, fun hsource h => exec_fails_drawn_of_raise hdst
      ((hbody ..).trans (applyBody_full hregions hgeometry hsource h))⟩
    obtain ⟨t, hexec, hfail, hdrawn⟩ :=
      exec_fails_drawn_of_raise hdst ((hbody ..).trans (applyBody_short hregions hgeometry h))
    exact ⟨t, hexec, hdrawn, (if_neg hne).mpr hfail⟩

end Sys2Proof.Machine
end

section
/-! PROOF. FLT.APPLY: one row, the row loop up to a row, and how the command ends (rules R13, R141, R391, R392, R394). -/

namespace Sys2Proof.Machine

/-! ## One row (R141, R392) -/

/-- A row as FLT.APPLY puts it out: its type byte, then its filtered bytes (R392). -/
def filteredRow (choice : Option FilterType) (bpp : Nat) (cur prev : List Byte) : List Byte :=
  lowByte (filterFor choice bpp cur prev).code :: applyRow (filterFor choice bpp cur prev) bpp cur prev

section
variable {choice : Option FilterType} {bpp rowBytes n : Nat} {cur prev img : List Byte}

theorem filteredRow_length (h : cur.length = prev.length) : (filteredRow choice bpp cur prev).length = 1 + cur.length := by
  rw [filteredRow, List.length_cons, applyRow_length h, Nat.add_comm]

/-- An image that begins with the row `cur` is filtered to the filtered row and, past it, the rest of the image. -/
theorem filterImage_row (h : cur.length = rowBytes) : filterImage choice bpp rowBytes (n + 1) prev (cur ++ img) =
    filteredRow choice bpp cur prev ++ filterImage choice bpp rowBytes n cur img := by
  rw [filterImage, List.take_left' h, List.drop_left' h, filteredRow]

/-- An image in memory is its first row and, past it, the rest (R141). -/
theorem memBytes_rows (m : Memory) (base rowBytes n : Nat) : memBytes m base ((n + 1) * rowBytes) =
    memBytes m base rowBytes ++ memBytes m (base + rowBytes) (n * rowBytes) := by
  rw [Nat.succ_mul, Nat.add_comm, memBytes_append]

theorem filterImage_memBytes (m : Memory) (base : Nat) :
    filterImage choice bpp rowBytes (n + 1) prev (memBytes m base ((n + 1) * rowBytes)) =
      filteredRow choice bpp (memBytes m base rowBytes) prev ++
        filterImage choice bpp rowBytes n (memBytes m base rowBytes) (memBytes m (base + rowBytes) (n * rowBytes)) := by
  rw [memBytes_rows, filterImage_row (memBytes_length _ _ _)]

theorem filterImage_length : ∀ {n : Nat} {prev : List Byte} (m : Memory) (base : Nat), prev.length = rowBytes →
    (filterImage choice bpp rowBytes n prev (memBytes m base (n * rowBytes))).length = n * (1 + rowBytes) := by
  intro n
  induction n with
  | zero => intro prev m base _; exact (Nat.zero_mul _).symm
  | succ n ih =>
    intro prev m base h
    have hcur := memBytes_length m base rowBytes
    rw [filterImage_memBytes, List.length_append, filteredRow_length (hcur.trans h.symm), ih _ _ hcur, hcur, Nat.succ_mul,
      Nat.add_comm]

end

/-! ## One round of the row loop (R392) -/

section
variable {b : Bus} {a : Args} {choice : Option FilterType} {n base x : Nat} {prev : List Byte} {o : Sink}

theorem applyRows_rowHole (h : FirstHole b.platform .read (a.src + base) a.rowBytes x) :
    applyRows b a choice (n + 1) base prev o = .error { err := .bus .read, info := x } := by
  rw [applyRows, memRead_hole h, except_bind_error]

/-- A row that reads is filtered and written, and the loop goes on with it as the row above. -/
theorem applyRows_row (hr : Readable b.platform (a.src + base) a.rowBytes) :
    applyRows b a choice (n + 1) base prev o =
      (memWrite b o (filteredRow choice a.bpp (memBytes b.mem (a.src + base) a.rowBytes) prev) >>=
        applyRows b a choice n (base + a.rowBytes) (memBytes b.mem (a.src + base) a.rowBytes)) := by
  rw [applyRows, memRead_ok b _ _ hr, except_bind_ok]
  rfl

theorem applyRows_destinationHole (hprev : prev.length = a.rowBytes) (hr : Readable b.platform (a.src + base) a.rowBytes)
    (hx : FirstHole b.platform .write (o.base + o.n) (1 + a.rowBytes) x) :
    applyRows b a choice (n + 1) base prev o = .error { err := .bus .write, info := x } := by
  rw [applyRows_row hr, memWrite_hole, except_bind_error]
  rwa [filteredRow_length (by rw [memBytes_length, hprev]), memBytes_length]

/-! ## The row loop up to row `r` -/

/-- The loop gets past rows that are readable and have room that can be written: they were filtered as an image of their own, and
the last of them is the row above the next one. -/
theorem applyRows_pass : ∀ {r base : Nat} {prev : List Byte} {o : Sink}, prev.length = a.rowBytes →
    Readable b.platform (a.src + base) (r * a.rowBytes) → Writable b.platform (o.base + o.n) (r * (1 + a.rowBytes)) →
    ∃ above : List Byte, above.length = a.rowBytes ∧ ∀ n, applyRows b a choice (r + n) base prev o =
      applyRows b a choice n (base + r * a.rowBytes) above
        (o.push (filterImage choice a.bpp a.rowBytes r prev (memBytes b.mem (a.src + base) (r * a.rowBytes)))) := by
  intro r
  induction r with
  | zero => intro base prev o hprev _ _; exact ⟨prev, hprev, fun n => by rw [Nat.zero_add, Nat.zero_mul]; rfl⟩
  | succ r ih =>
    intro base prev o hprev hr hw
    have hcur := memBytes_length b.mem (a.src + base) a.rowBytes
    have hrow : (filteredRow choice a.bpp (memBytes b.mem (a.src + base) a.rowBytes) prev).length = 1 + a.rowBytes := by
      rw [filteredRow_length (hcur.trans hprev.symm), hcur]
    rw [Nat.succ_mul, Nat.add_comm (r * _)] at hr hw
    obtain ⟨hrRow, hrRest⟩ := readable_add.mp hr
    obtain ⟨hwRow, hwRest⟩ := writable_add hw
    rw [Nat.add_assoc] at hrRest hwRest
    obtain ⟨above, habove, hloop⟩ := ih (base := base + a.rowBytes)
      (o := o.push (filteredRow choice a.bpp (memBytes b.mem (a.src + base) a.rowBytes) prev)) hcur
      hrRest (by rwa [sink_push_base, sink_push_n, hrow])
    refine ⟨above, habove, fun n => ?_⟩
    rw [Nat.succ_add, applyRows_row hrRow, memWrite_ok b _ _ (hrow.symm ▸ hwRow), except_bind_ok, hloop, sink_push_push,
      filterImage_memBytes, Nat.succ_mul, Nat.add_assoc, Nat.add_assoc, Nat.add_comm a.rowBytes]

/-- The row loop succeeds only with the filtered image put out. -/
theorem applyRows_eq_ok : ∀ {n base : Nat} {prev : List Byte} {o o' : Sink}, applyRows b a choice n base prev o = .ok o' →
    o' = o.push (filterImage choice a.bpp a.rowBytes n prev (memBytes b.mem (a.src + base) (n * a.rowBytes))) := by
  intro n
  induction n with
  | zero => intro base prev o o' h; cases h; rfl
  | succ n ih =>
    intro base prev o o' h
    rw [applyRows] at h
    obtain ⟨cur, hcur, h⟩ := except_bind_eq_ok.mp h
    obtain ⟨o₁, ho₁, h⟩ := except_bind_eq_ok.mp h
    obtain ⟨-, rfl⟩ := memRead_eq_ok hcur
    obtain rfl := memWrite_eq_ok ho₁
    rw [ih h, filterImage_memBytes, sink_push_push, Nat.add_assoc a.src]
    rfl

end

/-! ## How the command ends -/

/-- The operands of FLT.APPLY pass every check before the rows (R381, R392). -/
structure ApplyOk (a : Args) : Prop where
  regions  : SrcDstOk a
  geometry : GeometryOk a
  source   : a.rawBytes ≤ a.len
  room     : a.filteredBytes ≤ a.cap

/-- The filtered image of the source bytes (R141, R392). -/
def State.filteredImage (s : State) (choice : Option FilterType) : List Byte :=
  filterImage choice s.latch.args.bpp s.latch.args.rowBytes s.latch.args.rows (zeroRow s.latch.args.rowBytes)
    (memBytes s.mem s.latch.args.src s.latch.args.rawBytes)

section
variable {i : Instr} {s : State} {choice : Option FilterType}

theorem zeroRow_length (n : Nat) : (zeroRow n).length = n := List.length_replicate

/-- Past the checks the command is its row loop. -/
theorem ApplyOk.body {b : Bus} {a : Args} (h : ApplyOk a) :
    applyBody choice b a = (applyRows b a choice a.rows 0 (zeroRow a.rowBytes) a.sink >>= fun o =>
      .ok { result := 0, inUsed := BitVec.ofNat 32 a.rawBytes, flags := 0, out := o.out }) := by
  rw [applyBody, checkSrcDst_ok h.regions, except_bind_ok, checkGeometry_ok h.geometry, except_bind_ok,
    if_neg (Nat.not_lt.mpr h.source), if_neg (Nat.not_lt.mpr h.room)]

variable (hbody : ∀ b a, commandBody i b a = applyBody choice b a)
include hbody

theorem ApplyOk.success (h : ApplyOk s.latch.args) (hr : Readable s.platform s.latch.args.src s.latch.args.rawBytes)
    (hw : Writable s.platform s.latch.args.dst s.latch.args.filteredBytes) :
    ∃ t, exec i s = .next t ∧ Success s t 0 (BitVec.ofNat 32 s.latch.args.rawBytes) 0 (s.filteredImage choice) := by
  obtain ⟨above, -, hloop⟩ := applyRows_pass (b := s.bus) (choice := choice) (base := 0) (o := s.latch.args.sink)
    (zeroRow_length s.latch.args.rowBytes) hr hw
  have hrun := (hbody s.bus s.latch.args).trans h.body
  rw [← Nat.add_zero s.latch.args.rows, hloop, applyRows, except_bind_ok, sink_push_out, Args.sink, sink_start_out,
    List.nil_append] at hrun
  exact exec_success i h.regions.dst hrun

/-- An error of the loop's round past the first `r` rows, whatever row is above and whatever was put out, is the command's. -/
theorem ApplyOk.fails_of_round (h : ApplyOk s.latch.args) {r : Nat} (hrows : r < s.latch.args.rows)
    (hr : Readable s.platform s.latch.args.src (r * s.latch.args.rowBytes))
    (hw : Writable s.platform s.latch.args.dst (r * (1 + s.latch.args.rowBytes))) {e : ErrKind} {info : Nat}
    (hround : ∀ n above out, above.length = s.latch.args.rowBytes → out.length = r * (1 + s.latch.args.rowBytes) →
      applyRows s.bus s.latch.args choice (n + 1) (r * s.latch.args.rowBytes) above (s.latch.args.sink.push out) =
        .error { err := e, info := info }) : FailsWith i s e info := by
  obtain ⟨n, hn⟩ : ∃ n, s.latch.args.rows = r + (n + 1) := ⟨s.latch.args.rows - r - 1, by omega⟩
  have hzero := zeroRow_length s.latch.args.rowBytes
  obtain ⟨above, habove, hloop⟩ := applyRows_pass (b := s.bus) (choice := choice) (base := 0) (o := s.latch.args.sink)
    hzero hr hw
  refine failsWith_of_raise (exec_eq i s) ?_
  rw [hbody, h.body, hn, hloop, Nat.zero_add, hround n above _ habove (filterImage_length _ _ hzero), except_bind_error]

end

/-- Settles O55: the loop gets past the rows before the one that fails, or past all of them (`applyRows_pass`). -/
theorem applyFiltersTheImage : Obligations.ApplyFiltersTheImage := by
  intro s hregions hgeometry hsource hroom p hp a
  have hok : ApplyOk a := ⟨hregions, hgeometry, hsource, hroom⟩
  have hbody : ∀ b a, commandBody p.1 b a = applyBody p.2 b a := by
    simp only [List.mem_cons, List.not_mem_nil, or_false] at hp
    obtain rfl | rfl | rfl | rfl | rfl | rfl := hp <;> exact fun _ _ => rfl
  refine ⟨hok.success hbody, fun r x hrows hr hw => ⟨fun hx => ?_, fun hrow hx => ?_⟩⟩
  · exact hok.fails_of_round hbody hrows hr hw fun _ _ _ _ _ => applyRows_rowHole hx
  · refine hok.fails_of_round hbody hrows hr hw fun _ above out habove hout => applyRows_destinationHole habove hrow ?_
    rwa [sink_push_base, sink_push_n, hout, Args.sink, sink_start_n, Nat.zero_add]

end Sys2Proof.Machine
end

section
/-! PROOF. FLT.REVERSE on the output of FLT.APPLY (rule R396). -/

namespace Sys2Proof.Machine

/-! ## The image of a filtered image -/

/-- A filtered image is unfiltered to the image, row by row: each row above is the same on both sides. -/
theorem unfilterImage_filterImage {choice : Option FilterType} {bpp rowBytes : Nat} : ∀ {n : Nat} {prev : List Byte}
    (m : Memory) (base : Nat), prev.length = rowBytes →
    unfilterImage bpp rowBytes n prev (filterImage choice bpp rowBytes n prev (memBytes m base (n * rowBytes))) =
      some (memBytes m base (n * rowBytes)) := by
  intro n
  induction n with
  | zero => intro prev m base _; rw [Nat.zero_mul]; rfl
  | succ n ih =>
    intro prev m base h
    have hcur := memBytes_length m base rowBytes
    have hsame := hcur.trans h.symm
    have hrow := (applyRow_length (t := filterFor choice bpp (memBytes m base rowBytes) prev) (bpp := bpp) hsame).trans hcur
    rw [filterImage_memBytes, filteredRow, List.cons_append, unfilterImage, filterOf_typeByte]
    dsimp only
    rw [List.take_left' hrow, List.drop_left' hrow, reverseRow_applyRow hsame, ih _ _ hcur, Option.map_some, memBytes_rows]

/-! ## What FLT.APPLY leaves -/

theorem GeometryOk.of_same {a a' : Args} (h : GeometryOk a) (hrowBytes : a'.rowBytes = a.rowBytes) (hrows : a'.rows = a.rows)
    (hbpp : a'.bpp = a.bpp) : GeometryOk a' := by
  obtain ⟨bpp, rows, rowBytes, stride, size⟩ := h
  rw [Args.filteredBytes] at size
  rw [← hbpp] at bpp stride
  rw [← hrows] at rows size
  rw [← hrowBytes] at rowBytes stride size
  exact ⟨bpp, rows, rowBytes, stride, size⟩

/-- FLT.APPLY succeeds only on a legal geometry, with the filtered image as its output. -/
theorem applyBody_eq_ok {choice : Option FilterType} {s : State} {done : Done}
    (h : applyBody choice s.bus s.latch.args = .ok done) :
    SrcDstOk s.latch.args ∧ GeometryOk s.latch.args ∧ done.out = s.filteredImage choice := by
  obtain ⟨⟨⟩, hregions, h⟩ := except_bind_eq_ok.mp h
  obtain ⟨⟨⟩, hgeometry, h⟩ := except_bind_eq_ok.mp h
  refine ⟨srcDstOk_of_check hregions, geometryOk_of_check hgeometry, ?_⟩
  split at h
  · cases h
  · split at h
    · cases h
    · obtain ⟨o, ho, h⟩ := except_bind_eq_ok.mp h
      obtain rfl := applyRows_eq_ok ho
      cases h
      exact sink_push_out ..

/-- After a FLT.APPLY that succeeds, the destination holds the filtered image. -/
theorem apply_output {i : Instr} {d t : State} (hi : i ∈ applyCommands) (hexec : exec i d = .next t)
    (herr : t.status.err = false) : GeometryOk d.latch.args ∧
      ∃ choice, memBytes t.mem d.latch.args.dst d.latch.args.filteredBytes = d.filteredImage choice := by
  obtain ⟨choice, hbody⟩ := commandBody_apply hi
  obtain rfl := exec_next hexec
  rw [hbody] at herr ⊢
  cases hrun : applyBody choice d.bus d.latch.args with
  | error e => rw [hrun] at herr; cases herr
  | ok done =>
    obtain ⟨hregions, hgeometry, hout⟩ := applyBody_eq_ok hrun
    have hfits := (applyBody_sound hrun).fits
    have htop := of_decide_eq_true hregions.dst
    have hlen : done.out.length = d.latch.args.filteredBytes := hout ▸ filterImage_length _ _ (zeroRow_length _)
    refine ⟨hgeometry, choice, ?_⟩
    rw [complete_ok, ← hlen, ← hout]
    exact memBytes_eq_of_read (finishWith_success done d (by omega)).written

/-- Settles O57: the destination holds the filtered image, which FLT.REVERSE rebuilds (`reverseRebuildsTheImage`) to the image
that was filtered (`unfilterImage_filterImage`). -/
theorem reverseUndoesApply : Obligations.ReverseUndoesApply := by
  intro d t s i hi hexec herr harg₀ harg₁ harg₂ hregions hsource hroom hbytes hr hw
  obtain ⟨hgeometry, choice, hout⟩ := apply_output hi hexec herr
  have hrowBytes : s.latch.args.rowBytes = d.latch.args.rowBytes := congrArg BitVec.toNat harg₀
  have hrows : s.latch.args.rows = d.latch.args.rows := congrArg BitVec.toNat harg₁
  have hbpp : s.latch.args.bpp = d.latch.args.bpp := congrArg BitVec.toNat harg₂
  obtain ⟨himage, -⟩ := reverseRebuildsTheImage s hregions (hgeometry.of_same hrowBytes hrows hbpp) hsource hroom
  refine (himage hr hw).2 _ ?_
  rw [hbytes, hout, hbpp, hrowBytes, hrows]
  exact unfilterImage_filterImage d.mem d.latch.args.src (zeroRow_length _)

end Sys2Proof.Machine
end

section
/-! PROOF. Register reads, the CTRL and STATUS writes, and the IRQ line (rules R31, R33, R34, R421 to R423, R426, R455). -/

namespace Sys2Proof.Machine

/-! ## Register reads (R31, R423) -/

section
variable {s : State} {o : Nat}

theorem hostRead_at (r : Reg) (h : o = r.offset) : hostRead s o = readReg s r := by
  rw [h, hostRead, regAt_offset]

/-- Past the last register, ERR_INFO, every offset is reserved (R31). -/
theorem hostRead_reserved (h : 0x48 ≤ o) : hostRead s o = 0 := by
  rw [hostRead]
  split
  · next r hr =>
    obtain rfl := regAt_eq_some.mp hr
    have hlast : r.offset < 0x48 := by cases r <;> decide
    exact absurd h (Nat.not_le.mpr hlast)
  · rfl

end

theorem ctrlWord_eq (s : State) : s.ctrlWord = if s.ie then 1 else 0 := by
  rw [State.ctrlWord]
  cases s.ie <;> rfl

/-- BUSY, DONE, ERR and OVR are bits 0 to 3 of the STATUS word, as a number (R34). -/
theorem toNat_statusWord (t : Status) : t.word.toNat = (if t.busy then 1 else 0) + (if t.done then 2 else 0) +
    (if t.err then 4 else 0) + (if t.ovr then 8 else 0) := by
  obtain ⟨busy, done, err, ovr⟩ := t
  revert busy done err ovr
  decide

/-- Settles O17: an aligned read changes only `rdata` and `unseen` (`registerRead_aligned`), and what it shows is the register at
its offset. -/
theorem registerReadsHaveNoSideEffect : Obligations.RegisterReadsHaveNoSideEffect := by
  intro s addr o hoffset haligned
  refine ⟨⟨_, registerRead_aligned hoffset haligned, rfl, rfl⟩, hostRead_at .id, fun h => ?ctrl, fun h => ?status,
    hostRead_at .cmd, hostRead_at .srcAddr, hostRead_at .srcLen, hostRead_at .dstAddr, hostRead_at .dstCap,
    hostRead_at .auxAddr, hostRead_at .arg0, hostRead_at .arg1, hostRead_at .arg2, hostRead_at .result, hostRead_at .outLen,
    hostRead_at .inUsed, hostRead_at .flagsOut, hostRead_at .errCode, hostRead_at .errInfo, hostRead_reserved⟩
  case ctrl => exact (hostRead_at .ctrl h).trans (ctrlWord_eq s)
  case status => rw [hostRead_at .status h]; exact toNat_statusWord s.status

/-! ## CTRL, STATUS and CMD writes (R124, R421, R422) -/

section
variable {s : State} {w : Word}

theorem hostWrite_ctrl_reset (h : w.getLsbD 1 = true) : hostWrite s 0x04 w = softReset s := if_pos h

theorem hostWrite_ctrl_enable (h : w.getLsbD 1 = false) : hostWrite s 0x04 w = { s with ie := w.getLsbD 0 } :=
  if_neg (Bool.eq_false_iff.mp h)

theorem hostWrite_status (s : State) (w : Word) : hostWrite s 0x08 w = { s with status := s.status.clear w } := rfl

theorem hostWrite_cmd_idle (h : s.status.busy = false) : hostWrite s 0x0C w = startCommand w s :=
  if_neg (Bool.eq_false_iff.mp h)

end

/-- A bit that a written 1 clears (R421). -/
theorem and_not_eq_ite (flag written : Bool) : (flag && !written) = if written then false else flag := by
  cases written with
  | false => exact Bool.and_true flag
  | true => exact Bool.and_false flag

/-! ## The IRQ line (R426, R455) -/

theorem irq_of_not_enabled {s : State} (h : s.ie = false) : s.irq = false := by rw [State.irq, h, Bool.false_and]

theorem irq_of_not_done {s : State} (h : s.status.done = false) : s.irq = false := by rw [State.irq, h, Bool.and_false]

theorem irq_of_done {s : State} (h : s.status.done = true) : s.irq = s.ie := by rw [State.irq, h, Bool.and_true]

/-- A STATUS write with bit 1 set lowers IRQ (R426). -/
theorem irq_hostWrite_status {s : State} {w : Word} (h : w.getLsbD 1 = true) : (hostWrite s 0x08 w).irq = false := by
  refine irq_of_not_done ?_
  rw [hostWrite_status, Status.clear, h, Bool.not_true, Bool.and_false]

/-- Settles O15: the three flags by `and_not_eq_ite`, and IRQ by `irq_hostWrite_status`. -/
theorem statusWriteClearsWrittenBits : Obligations.StatusWriteClearsWrittenBits := fun _ _ =>
  ⟨rfl, rfl, and_not_eq_ite _ _, and_not_eq_ite _ _, and_not_eq_ite _ _, irq_hostWrite_status, rfl⟩

/-- Settles O16: the two branches of the CTRL write. -/
theorem ctrlWriteSetsEnableOrResets : Obligations.CtrlWriteSetsEnableOrResets := by
  refine fun s w => ⟨fun hreset => ⟨hostWrite_ctrl_reset hreset, ?_⟩, hostWrite_ctrl_enable⟩
  rw [hostWrite_ctrl_reset hreset, softReset_ie]

/-- Settles O20: each write sets IE or clears DONE, and every execute step is a completion, which sets DONE and keeps IE. -/
theorem irqFollowsEnableAndDone : Obligations.IrqFollowsEnableAndDone := by
  refine fun s => ⟨rfl, rfl, fun hdone => ?enable, ?disable, irq_hostWrite_status rfl, fun hidle w => ?start,
    fun t hexec => ?completion⟩
  case enable => rw [hostWrite_ctrl_enable rfl]; exact irq_of_done hdone
  case disable => rw [hostWrite_ctrl_enable rfl]; exact irq_of_not_enabled rfl
  case start => rw [hostWrite_cmd_idle hidle]; exact irq_of_not_done rfl
  case completion =>
    obtain ⟨hasDst, r, hcomplete⟩ := executeStep_complete s
    obtain rfl := Host.Outcome.next.inj (hcomplete.symm.trans hexec)
    rw [irq_of_done (complete_done hasDst r s), complete_ie]

end Sys2Proof.Machine
end

section
/-! PROOF. NOP: its word, and its completion (rules R122, R123, R420, R449). -/

namespace Sys2Proof

/-- NOP is the only command with OP = 0 (R122). -/
theorem eq_nop_of_decode {w : Word} {i : Instr} (hbyte : w.toNat % 256 = 0) (h : decode w = .ok i) : i = .nop := by
  obtain ⟨-, op, hop, -, hsel⟩ := checks_of_decode h
  have hzero : fieldOp w = 0 := BitVec.eq_of_toNat_eq ((toNat_fieldOp w).trans hbyte)
  rw [hzero] at hop
  obtain rfl : Opcode.nop = op := Option.some.inj hop
  rw [select] at hsel
  split at hsel
  · exact (Option.some.inj hsel).symm
  · cases hsel

theorem encode_nop : encode .nop = 0#32 := by decide

/-- A word with OP = 0 that is not 0 is no command: a command with OP = 0 is NOP, and NOP has one word. -/
theorem decode_error_of_op_zero {w : Word} (hbyte : w.toNat % 256 = 0) (hw : w ≠ 0) : ∃ k, decode w = .error k := by
  cases hdec : decode w with
  | error k => exact ⟨k, rfl⟩
  | ok i =>
    obtain rfl := eq_nop_of_decode hbyte hdec
    obtain ⟨-, hword⟩ := wellFormed_and_encode_of_decode hdec
    exact absurd (hword.symm.trans encode_nop) hw

namespace Machine

/-- After a success IRQ is high where IE = 1 (R449, R455). -/
theorem Success.irq_eq {s t : State} {result inUsed flags : Word} {out : List Byte}
    (h : Success s t result inUsed flags out) : t.irq = s.ie := by
  have hdone : t.status.done = true := by rw [h.status]
  rw [irq_of_done hdone, h.kept.ie]

/-- Settles O29: NOP's body succeeds on every bus with no output, so its completion is a success that leaves memory. -/
theorem nopCompletes : Obligations.NopCompletes := by
  refine ⟨encode_nop, fun w => decode_error_of_op_zero, fun s => ?_⟩
  obtain ⟨t, hexec, hsuccess, hmem⟩ := exec_success_noOutput (i := .nop) (s := s) rfl
  exact ⟨t, hexec, hsuccess, hsuccess.results, hmem, hsuccess.irq_eq⟩

end Machine

end Sys2Proof
end

section
/-! PROOF. ERR_CODE over the table of errors: its class byte, and one value for each error (rules R441, R442). -/

namespace Sys2Proof.Machine

theorem errKind_classCode_lt (e : ErrKind) : e.classCode < 256 := by
  cases e <;> simp [ErrKind.classCode]

/-- The low byte of ERR_CODE is the class (R441). -/
theorem errKind_code_mod (e : ErrKind) : e.code.toNat % 256 = e.classCode := by
  have hclass := errKind_classCode_lt e
  rw [ErrKind.code, BitVec.toNat_ofNat]
  omega

/-- The classes 0x03 to 0x05 belong to host software (R441). -/
theorem errKind_classCode_notMem_host (e : ErrKind) : e.classCode ∉ Config.hostErrorClasses := by
  cases e <;> simp [ErrKind.classCode]

/-- No two rows of the table have one value, and every error has a row (R442). -/
theorem errKind_code_injective : Function.Injective ErrKind.code := fun e e' h =>
  have hnodup : (ErrKind.all.map ErrKind.code).Nodup := by decide
  List.inj_on_of_nodup_map hnodup (mem_errKind_all e) (mem_errKind_all e') h

/-- Settles O5: the rows name the errors of `ErrKind.all` in its order, and the low byte of a code is its class. -/
theorem errorCodesAreDistinct : Obligations.ErrorCodesAreDistinct := by
  refine ⟨?rows, mem_errKind_all, fun _ _ h => errKind_code_injective h, fun e => ⟨?notHost, errKind_code_ne_zero e⟩⟩
  case rows => decide
  case notHost => rw [errKind_code_mod]; exact errKind_classCode_notMem_host e

end Sys2Proof.Machine
end

section
/-! PROOF. The reset state and the soft reset, and argument writes while a command runs (rules R48, R424, R480, R482, R490). -/

namespace Sys2Proof.Machine

/-! ## Resets (R480, R482) -/

/-- Settles O9: the reset state is its own hard reset, with an empty memory image. -/
theorem resetMeetsInvariant : Obligations.ResetMeetsInvariant := hardReset_inv [] State.reset

/-- In either phase every register reads its reset value: no register shows memory or the counter of draws. -/
theorem hostRead_softReset (s : State) (o : Nat) : hostRead (softReset s) o = if o = 0 then 0x504E4707#32 else 0 := by
  rw [← hostRead_resetRegs s.mem s, softReset]
  split
  · rfl
  · rfl

/-- While BUSY the soft reset draws the latched destination, as far as it exists, and keeps every other byte (R482). -/
theorem read_softReset_busy {s : State} {a : Nat} (hbusy : s.status.busy = true) (ha : a < Config.addrSpace) :
    (softReset s).mem.read a = if s.latch.args.dst ≤ a ∧ a < s.latch.args.dst + s.latch.args.cap
      then Config.freeByte s.draws a else s.mem.read a := by
  rw [softReset_mem_busy hbusy, read_drawBytes]
  exact if_congr ⟨fun ⟨hfrom, hto, _⟩ => ⟨hfrom, hto⟩, fun ⟨hfrom, hto⟩ => ⟨hfrom, hto, ha⟩⟩ rfl rfl

/-- Settles O12: the write is the soft reset, whose registers read their reset values, and whose memory depends on the phase. -/
theorem softResetDiscardsTheCommand : Obligations.SoftResetDiscardsTheCommand := by
  intro s w hreset
  rw [hostWrite_ctrl_reset hreset]
  exact ⟨fun o _ _ => hostRead_softReset s o, softReset_status s, irq_of_not_enabled (softReset_ie s), softReset_engine s,
    softReset_latch s, softReset_platform s, softReset_events s, softReset_unseen s, softReset_mem_idle,
    fun hbusy _ => read_softReset_busy hbusy⟩

/-! ## Argument registers (R36 to R39, R424) -/

/-- SRC_ADDR to ARG2, the registers that a start latches (R48). -/
def argumentRegs : List Reg := [.srcAddr, .srcLen, .dstAddr, .dstCap, .auxAddr, .arg0, .arg1, .arg2]

/-- The aligned offsets 0x10 to 0x2C are those of the argument registers (R31). -/
theorem exists_argumentReg {o : Nat} (haligned : o % 4 = 0) (hfirst : 0x10 ≤ o) (hlast : o ≤ 0x2C) :
    ∃ r ∈ argumentRegs, o = r.offset := by
  have hwords : ∀ k < 12, 4 ≤ k → ∃ r ∈ argumentRegs, 4 * k = r.offset := by decide
  obtain ⟨r, hr, hoffset⟩ := hwords (o / 4) (by omega) (by omega)
  exact ⟨r, hr, by omega⟩

theorem hostWrite_at (s : State) (r : Reg) (w : Word) : hostWrite s r.offset w = writeReg s r w := by
  rw [hostWrite, regAt_offset]

section
variable {r : Reg} (s : State) (w : Word)

theorem readReg_writeReg_argument (hr : r ∈ argumentRegs) : readReg (writeReg s r w) r = w := by
  cases r with
  | srcAddr | srcLen | dstAddr | dstCap | auxAddr | arg0 | arg1 | arg2 => rfl
  | _ => exact absurd hr (by decide)

theorem writeReg_argument (hr : r ∈ argumentRegs) : writeReg s r w = { s with args := (writeReg s r w).args } := by
  cases r with
  | srcAddr | srcLen | dstAddr | dstCap | auxAddr | arg0 | arg1 | arg2 => rfl
  | _ => exact absurd hr (by decide)

end

/-! ## The execute step and the argument registers (R48, R490) -/

/-- A completion neither reads nor changes the argument registers. -/
theorem complete_withArgs (hasDst : Bool) (r : Except Raise Done) (s : State) (args : Args) :
    complete hasDst r { s with args := args } = { complete hasDst r s with args := args } := by
  cases r with
  | ok d => rfl
  | error e => rfl

/-- The running command reads only its latches: with any argument registers it completes with one outcome. -/
theorem executeStep_withArgs (s : State) : ∃ hasDst r, ∀ args,
    executeStep { s with args := args } = .next (complete hasDst r { s with args := args }) := by
  cases hdec : decode s.latch.cmd with
  | ok i =>
    refine ⟨usesDestination i, commandBody i s.bus s.latch.args, fun args => ?_⟩
    exact (executeStep_decoded (s := { s with args := args }) hdec).trans (exec_eq i _)
  | error k => exact ⟨true, .error { err := .illegal k, info := s.latch.cmd.toNat }, fun _ => executeStep_illegal hdec⟩

/-- A start latches the argument registers (R124). -/
theorem latchedArgs_hostWrite_cmd {s : State} (hidle : s.status.busy = false) (w : Word) :
    (hostWrite s 0x0C w).latch.args = s.args := by
  rw [hostWrite_cmd_idle hidle]; rfl

/-- Settles O19: the write changes an argument register alone, the running command completes as without it, and the next start
comes while IDLE. -/
theorem argumentWriteDoesNotReachTheRunningCommand : Obligations.ArgumentWriteDoesNotReachTheRunningCommand := by
  intro s o w _ haligned hfirst hlast
  obtain ⟨r, hr, rfl⟩ := exists_argumentReg haligned hfirst hlast
  obtain ⟨hasDst, outcome, hexec⟩ := executeStep_withArgs s
  rw [hostWrite_at]
  refine ⟨?readsBack, complete hasDst outcome s, hexec s.args, ?sameCompletion, ?nextStart⟩
  case readsBack => rw [hostRead_at r rfl, readReg_writeReg_argument s w hr]
  case sameCompletion => rw [← complete_withArgs, ← hexec, ← writeReg_argument s w hr]
  case nextStart => exact latchedArgs_hostWrite_cmd (complete_busy hasDst outcome s)

end Sys2Proof.Machine
end
